-- ==== Sys2Proof/Word.lean ====
section
/-! DEFINITION. The word types of the machine (`spec/00_scope.md` R7, `spec/40_numerics.md` R100 to R102). -/

namespace Sys2Proof

/-- A register, a command word, a byte address: `XLEN = ADDR_BITS = 64` (`00_scope.md` R5). -/
abbrev Word := BitVec 64

/-- One byte of memory (`10_state.md` R25). -/
abbrev Byte := BitVec 8

/-- A half: a 16-bit pattern read as binary16 (`40_numerics.md` R101). -/
abbrev Half := BitVec 16

/-- A single: a 32-bit pattern read as binary32 (`40_numerics.md` R102). -/
abbrev Single := BitVec 32

/-- A lane vector: 8 halves, lane `l` belonging to channel `8*g + l` (`00_scope.md` R7). -/
abbrev LaneVec := Vector Half 8

/-- An `r` by `c` block of elements, indexed `[row][column]`. -/
abbrev Grid (α : Type) (r c : Nat) := Vector (Vector α c) r

end Sys2Proof
end

