-- ==== Sys2Proof/Syntax.lean ====
section
/-! DEFINITION. The commands, the hardware's only kind of instruction (`spec/30_encoding.md` R80, R83), and the
fields of a command word in its one format `C` (R82). -/

namespace Sys2Proof

/-- One constructor per row of `spec/opcode_table.json`. A command carries no operand: the operands are the
parameter registers (`30_encoding.md` R80, R86). -/
inductive Instr where
  /-- Filter Transform (`41_filter_transform.md` R146). -/
  | tfilt
  /-- Padding Adapter (`42_pad_crop.md` R161). -/
  | pad
  /-- Input Transform (`43_input_transform.md` R185). -/
  | xin
  /-- Batched Contraction (`44_contraction.md` R195). -/
  | contract
  /-- Output Transform without bias (`45_output_transform.md` R224). -/
  | xout
  /-- Output Transform with bias (`45_output_transform.md` R226). -/
  | xoutB
  /-- Crop Adapter (`42_pad_crop.md` R165). -/
  | crop
  /-- The whole pipeline without bias (`46_convolve.md` R235). -/
  | convolve
  /-- The whole pipeline with bias (`46_convolve.md` R238). -/
  | convolveB
  deriving DecidableEq, Repr

/-- All nine commands, in the order of the table. -/
def Instr.all : List Instr :=
  [.tfilt, .pad, .xin, .contract, .xout, .xoutB, .crop, .convolve, .convolveB]

/-- The fields of a 64-bit value read in format `C` (`30_encoding.md` R82). -/
structure FormatC where
  /-- `OP`, bits 7:0. -/
  op   : BitVec 8
  /-- `B`, bit 8. -/
  bias : Bool
  /-- `ZERO`, bits 63:9. -/
  zero : BitVec 55
  deriving DecidableEq, Repr

end Sys2Proof
end

