-- ==== Sys2Proof/WellFormed.lean ====
section
/-! DEFINITION. Which format `C` fields are a legal command (`spec/30_encoding.md` R82, R85). -/

namespace Sys2Proof

/-- `ZERO` must be 0 (`30_encoding.md` R82). -/
def FormatC.zeroOk (f : FormatC) : Bool := f.zero == 0#55

/-- `OP` is one of `0x01` to `0x07` (`30_encoding.md` R85). -/
def FormatC.opOk (f : FormatC) : Bool := decide (1 ≤ f.op.toNat ∧ f.op.toNat ≤ 7)

/-- `B` may be 1 only with `OP` = `0x05` or `0x07` (`30_encoding.md` R82). -/
def FormatC.biasOk (f : FormatC) : Bool := !f.bias || f.op == 5#8 || f.op == 7#8

/-- The fields are those of one of the nine legal words (`30_encoding.md` R83, R85). -/
def FormatC.wellFormed (f : FormatC) : Bool := f.zeroOk && f.opOk && f.biasOk

end Sys2Proof
end

