-- ==== Sys2Proof/Decode.lean ====
section
/-! DEFINITION. The decoder, total on every 64-bit value and rejecting by name, and the encoder
(`spec/30_encoding.md` R82, R83, R85). A command word is one 64-bit register write, so no byte order enters. -/

namespace Sys2Proof

/-- Why a 64-bit value is no command (`30_encoding.md` R85). All four behave alike: `ERR_ILLEGAL`. -/
inductive Illegal where
  /-- `ZERO != 0`. -/
  | reservedBitsSet
  /-- `OP = 0x00`. -/
  | opcodeZero
  /-- `OP > 0x07`. -/
  | opcodeTooLarge
  /-- `B = 1` with an `OP` that takes no bias. -/
  | biasNotAllowed
  deriving DecidableEq, Repr

/-- The fields of a command word (`30_encoding.md` R82). -/
def fieldsOf (w : Word) : FormatC where
  op   := w.extractLsb' 0 8
  bias := w.getLsbD 8
  zero := w.extractLsb' 9 55

/-- The command named by an opcode and a bias bit (`30_encoding.md` R83, R85). -/
def instrOf (op : Nat) (bias : Bool) : Except Illegal Instr :=
  match op, bias with
  | 0, _     => .error .opcodeZero
  | 1, false => .ok .tfilt
  | 2, false => .ok .pad
  | 3, false => .ok .xin
  | 4, false => .ok .contract
  | 5, false => .ok .xout
  | 5, true  => .ok .xoutB
  | 6, false => .ok .crop
  | 7, false => .ok .convolve
  | 7, true  => .ok .convolveB
  | n, _     => if 7 < n then .error .opcodeTooLarge else .error .biasNotAllowed

/-- The decoder (`30_encoding.md` R82, R83, R85). -/
def decode (w : Word) : Except Illegal Instr :=
  let f := fieldsOf w
  if f.zero == 0#55 then instrOf f.op.toNat f.bias else .error .reservedBitsSet

/-- The command word of each command, the column "command word" of `30_encoding.md` R83. -/
def encode : Instr → Word
  | .tfilt     => 0x001#64
  | .pad       => 0x002#64
  | .xin       => 0x003#64
  | .contract  => 0x004#64
  | .xout      => 0x005#64
  | .xoutB     => 0x105#64
  | .crop      => 0x006#64
  | .convolve  => 0x007#64
  | .convolveB => 0x107#64

/-- The instruction the decoder reads from a table word `w` of `nbits` bits; the bits above are 0. -/
def decodeTableWord (nbits w : Nat) : Option Instr :=
  match decode (BitVec.ofNat 64 (w % 2 ^ nbits)) with
  | .ok i    => some i
  | .error _ => none

end Sys2Proof
end

