-- ==== Sys2Proof/Config.lean ====
section
/-! DEFINITION. What a platform or an implementation fixes (`spec/00_scope.md` R5, `spec/10_state.md` R30,
`spec/92_eei_decisions.md`, table of named parameters), the fixed limits, and the free values. -/

namespace Sys2Proof

/-- Rounding of the single-to-half conversion, `CVT_RM` (`40_numerics.md` R108, D17). -/
inductive CvtRm where
  | nearestEven
  | towardZero
  deriving DecidableEq, Repr

/-- Grouping of the output closed forms, `AT_TREE` (`45_output_transform.md` R216, R229, D21). -/
inductive AtTree where
  | left
  | upstream
  deriving DecidableEq, Repr

/-- The parameters of the step relation that are not state of the core (`10_state.md` R30). They stand in
`State.cfg` as plain data, so that a statement about every state holds for every choice of them; no step
writes them (log entry 5). -/
structure Config where
  /-- `NAN_BITS`: the pattern of every NaN result (`40_numerics.md` R111). -/
  nanBits : Half
  /-- `CVT_RM`. -/
  cvtRm   : CvtRm
  /-- `AT_TREE`. -/
  atTree  : AtTree
  /-- The address ranges (base, size) the platform refuses (`60_exceptions.md` R254): addresses that are not
  backed by memory, above the platform's limit, or of a device (`93_implementation_defined.md` U18). -/
  refused : List (Nat × Nat)
  /-- `REG_BASE`: where the register window sits in the host's address map, a multiple of 8 (`20_memory.md` R44,
  `93_implementation_defined.md` U20). -/
  regBase : Nat
  /-- `TOL > 0`: the tolerance of the equivalence property, as a relative error (`46_convolve.md` R241,
  `93_implementation_defined.md` U4). No rule of the machine uses it; `tolerates` does. -/
  tol     : ℚ
  deriving DecidableEq, Repr

/-- The spec's defaults (`92_eei_decisions.md`, named parameters), on a platform that backs every address. The spec
gives `REG_BASE` and `TOL` no default: 0 and the source's example 1/100 are DESIGN CHOICES, log entries 14 and 22. -/
def Config.default : Config where
  nanBits := 0x7E00#16
  cvtRm   := .nearestEven
  atTree  := .left
  refused := []
  regBase := 0
  tol     := { num := 1, den := 100 }

/-- `2^ADDR_BITS`, the size of the address space (`10_state.md` R25). -/
def addrSpace : Nat := 2 ^ 64

/-- `DIM_MAX` (`00_scope.md` R5, D23). -/
def dimMax : Nat := 65535

/-- `CH_MAX` (`00_scope.md` R5, D23). -/
def chMax : Nat := 65528

/-- The constant of the `ID` register (`10_state.md` R13). -/
def idConstant : Word := 0x5747363348380001#64

/-- Free value: byte `address` of the `draw`-th image of unspecified memory contents
(`93_implementation_defined.md` U3, U9, U10). It has no body: nothing can be proved of it. DESIGN CHOICE of
form, log entry 8. -/
opaque Config.freeByte (draw address : Nat) : Byte

end Sys2Proof
end

