-- ==== Sys2Proof/Machine/State.lean ====
section
/-! DEFINITION. The state of the machine as plain data (`spec/10_state.md` R10), the reasons a step can stop,
and the state after reset (`spec/10_state.md` R29, `spec/70_reset_and_hazards.md` R281). -/

namespace Sys2Proof.Machine

/-- The thirteen parameter registers `P0..P12` (`10_state.md` R11); the latched copies `L0..L12` have the same
form (R12). -/
structure Params where
  /-- P0 `SRC_BASE`, index 8. -/
  srcBase     : Word
  /-- P1 `DST_BASE`, index 9. -/
  dstBase     : Word
  /-- P2 `FILT_BASE`, index 10. -/
  filtBase    : Word
  /-- P3 `BIAS_BASE`, index 11. -/
  biasBase    : Word
  /-- P4 `SCR_BASE`, index 12. -/
  scrBase     : Word
  /-- P5 `SCR_SIZE`, index 13. -/
  scrSize     : Word
  /-- P6 `IN_W`, index 14. -/
  inWidth     : Word
  /-- P7 `IN_H`, index 15. -/
  inHeight    : Word
  /-- P8 `OUT_W`, index 16. -/
  outWidth    : Word
  /-- P9 `OUT_H`, index 17. -/
  outHeight   : Word
  /-- P10 `IN_CH`, index 18. -/
  inChannels  : Word
  /-- P11 `OUT_CH`, index 19. -/
  outChannels : Word
  /-- P12 `NWORK`, index 20. -/
  nWork       : Word
  deriving DecidableEq, Repr

/-- The sequencer's position, the register `STAGE` (`10_state.md` R17). -/
inductive Stage where
  | idle | check | pad | xin | repack | gemm | xout | crop | tfilt
  deriving DecidableEq, Repr

/-- The error codes, the values of `ERR` (`60_exceptions.md` R250). -/
inductive ErrCode where
  /-- 0 `ERR_NONE`. -/
  | none
  /-- 1 `ERR_ILLEGAL`. -/
  | illegal
  /-- 2 `ERR_PRECOND`. -/
  | precond
  /-- 3 `ERR_ALLOC`. -/
  | alloc
  /-- 4 `ERR_BUS`. -/
  | bus
  deriving DecidableEq, Repr

/-- The status bits of `STATUS` (`10_state.md` R15); bits 63:4 read 0 and are not stored. -/
structure Status where
  /-- Bit 0 `BUSY`. -/
  busy  : Bool
  /-- Bit 1 `DONE`. -/
  done  : Bool
  /-- Bit 2 `ERROR`. -/
  error : Bool
  /-- Bit 3 `OVR`. -/
  ovr   : Bool
  deriving DecidableEq, Repr

/-- Worker-local state, not visible to the host (`10_state.md` R22 to R24). Between commands the spec lets it be any
value (`93_implementation_defined.md` U13); the model keeps what the last unit left: DESIGN CHOICE, log entry 21. -/
structure Worker where
  /-- One accumulator lane vector per tile of the current tile block (R22). -/
  acc     : Vector LaneVec 8
  /-- The tile staging buffer `tmp` (R23); an output transform unit uses rows 0 to 5 only (one buffer for both
  transforms: log entry 21). -/
  staging : Grid LaneVec 8 8
  /-- The held filter rows of the current 8x8 filter block (R24). -/
  held    : Vector LaneVec 8
  deriving DecidableEq, Repr

/-- One free choice of the schedule (`60_exceptions.md` R261): which pending unit is taken (its position in
`PENDING`, reduced modulo the number of pending units) and by which worker (reduced modulo the number of
workers the command may use). A field of the model, log entry 3. -/
structure Turn where
  unit   : Nat
  worker : Nat
  deriving DecidableEq, Repr

/-- What the world outside the core can do to it (`00_scope.md` R6, `10_state.md` R20, `70_reset_and_hazards.md`
R280). Register accesses name an address of the host's map and a width in bytes (`30_encoding.md` R81). -/
inductive HostAction where
  /-- Read a register. -/
  | regRead (address width : Nat)
  /-- Write a register. A write of `CMD` issues a command (`30_encoding.md` R84). -/
  | regWrite (address width : Nat) (value : Word)
  /-- Read one byte of memory. -/
  | memRead (address : Word)
  /-- Write one byte of memory. -/
  | memWrite (address : Word) (value : Byte)
  /-- Assert and release the reset input (`70_reset_and_hazards.md` R280). -/
  | reset
  deriving DecidableEq, Repr

/-- A host action and when it comes: `lead` transactions of the core after the host's previous action (fewer
if the command completes first), or, with no `lead`, once `BUSY = 0` (the `wait` of `30_encoding.md` R88). The
`lead` of an event that has reached the head of the queue has elapsed. Log entries 1 and 2. -/
structure HostEvent where
  lead : Option Nat
  act  : HostAction
  deriving DecidableEq, Repr

/-- The memory (`10_state.md` R25): the bytes that differ from what an unlisted address reads as, by rising
address (`Memory.wf`). -/
abbrev Memory := List Host.Cell

/-- The whole machine. The fields after `mem` are the model's own (log entries 2 to 5, 8, 10). -/
structure State where
  /-- `CMD` (`10_state.md` R14). -/
  cmd      : Word
  /-- `STATUS` (R15). -/
  status   : Status
  /-- `CTRL.IE` (R16). -/
  ie       : Bool
  /-- `ERR` (R18). -/
  err      : ErrCode
  /-- `STAGE` (R17). -/
  stage    : Stage
  /-- `P0..P12` (R11). -/
  params   : Params
  /-- `L0..L12` (R12); between commands they keep the last command's values (log entry 21). -/
  latch    : Params
  /-- `LCMD` (R12); between commands it keeps the last command's word (log entry 21). -/
  lcmd     : Word
  /-- `PENDING`: the units of work of the current stage not yet executed, by number (R17). -/
  pending  : List Nat
  /-- The workers (R22 to R24); their number is `NUM_WORKERS` (`00_scope.md` R5). -/
  workers  : List Worker
  /-- The memory (R25). -/
  mem      : Memory
  /-- The parameters of the platform, written by no step. -/
  cfg      : Config
  /-- The free choices of the schedule, the next one first. -/
  sched    : List Turn
  /-- What the host does next, the next event first. -/
  host     : List HostEvent
  /-- What the host's last read returned. -/
  hostData : Word
  /-- How many images of unspecified bytes have been drawn. -/
  draws    : Nat
  deriving DecidableEq, Repr

/-- Why the machine stops with a fault. -/
inductive Fault where
  /-- The host itself accesses a memory address the platform refuses. Raised by the host's memory accesses in
  `State.hostMemRead` and `State.hostMemWrite` only; safe, since the spec gives such an access no result (log
  entry 15). The core's own refused accesses are `ERR_BUS`, a next state (`60_exceptions.md` R254). -/
  | hostBus
  deriving DecidableEq, Repr

/-- Why a step has no meaning. -/
inductive Refusal where
  /-- Raised by no arm of `exec`: every command of the table is modelled. Safe. -/
  | notModelled (mnemonic : String)
  /-- The host writes a byte of a region of the command in flight, or reads its destination or scratch, while
  `BUSY = 1`. Raised by the host's memory accesses; safe, the treatment `93_implementation_defined.md` U5
  prefers (log entry 13). -/
  | hostRace
  /-- A register access that is not an aligned 64-bit access inside the register window. Raised by the host's register accesses; safe, the
  treatment of `93_implementation_defined.md` U19 (`10_state.md` R20, log entry 14). -/
  | registerAccess
  deriving DecidableEq, Repr

/-- Thirteen registers of value 0. -/
def Params.zero : Params := ⟨0, 0, 0, 0, 0, 0, 0, 0, 0, 0, 0, 0, 0⟩

/-- A worker at reset. The spec leaves its contents unspecified (`70_reset_and_hazards.md` R281); zeros are a
DESIGN CHOICE, log entry 9. -/
def Worker.zero : Worker where
  acc     := Vector.replicate 8 (Vector.replicate 8 0)
  staging := Vector.replicate 8 (Vector.replicate 8 (Vector.replicate 8 0))
  held    := Vector.replicate 8 (Vector.replicate 8 0)

/-- The machine right after power-up and reset (`10_state.md` R29, `70_reset_and_hazards.md` R281). The values
the spec leaves open (`latch`, `lcmd`, worker state, memory contents) and those of the model's own fields are
DESIGN CHOICES, log entries 2 to 5 and 7 to 10. -/
def State.reset : State where
  cmd      := 0
  status   := ⟨false, false, false, false⟩
  ie       := false
  err      := .none
  stage    := .idle
  params   := Params.zero
  latch    := Params.zero
  lcmd     := 0
  pending  := []
  workers  := [Worker.zero]
  mem      := []
  cfg      := Config.default
  sched    := []
  host     := []
  hostData := 0
  draws    := 0

end Sys2Proof.Machine
end

