-- ==== Sys2Proof/Machine/Flags.lean ====
section
/-! DEFINITION. The status bits and the interrupt wire. The hardware has no arithmetic flags (`spec/10_state.md`
R21); the only status bits are those of `STATUS` (R15), which move as `spec/60_exceptions.md` R266 tabulates. -/

namespace Sys2Proof.Machine

/-- `STATUS` as the host reads it (`10_state.md` R15): bits 63:4 read 0. -/
def Status.word (t : Status) : Word :=
  (0#60 : BitVec 60) ++ BitVec.ofBool t.ovr ++ BitVec.ofBool t.error ++ BitVec.ofBool t.done ++ BitVec.ofBool t.busy

/-- A host write `v` to `STATUS`: write-one-to-clear of `DONE`, `ERROR`, `OVR` (`10_state.md` R15). -/
def Status.clear (t : Status) (v : Word) : Status :=
  { t with done := t.done && !v.getLsbD 1, error := t.error && !v.getLsbD 2, ovr := t.ovr && !v.getLsbD 3 }

/-- A legal command word is accepted (`30_encoding.md` R84 (b)): `OVR` is kept. -/
def Status.accepted (t : Status) : Status := { t with busy := true, done := false, error := false }

/-- A command word is dropped (`30_encoding.md` R84 (a)). -/
def Status.overrun (t : Status) : Status := { t with ovr := true }

/-- `complete(code)` (`60_exceptions.md` R251), and the rejection of an illegal word: `OVR` is kept. -/
def Status.completed (t : Status) (e : ErrCode) : Status :=
  { t with busy := false, done := true, error := decide (e ≠ .none) }

/-- The status bits after reset (`10_state.md` R29). -/
def Status.zero : Status := ⟨false, false, false, false⟩

/-- `CTRL` as the host reads it: bits 63:1 read 0 (`10_state.md` R16). -/
def ctrlWord (ie : Bool) : Word := (0#63 : BitVec 63) ++ BitVec.ofBool ie

/-- The wire `irq = CTRL.IE AND STATUS.DONE` (`10_state.md` R28, `60_exceptions.md` R257). -/
def State.irq (s : State) : Bool := s.ie && s.status.done

end Sys2Proof.Machine
end

