-- ==== Sys2Proof/Machine/Memory.lean ====
section
/-! DEFINITION. Byte memory in one canonical form, and the little-endian accesses of 2 and 4 bytes
(`spec/20_memory.md` R40 to R42). -/

namespace Sys2Proof.Machine

/-- What an unlisted address reads as. The spec leaves the contents at power-up open
(`93_implementation_defined.md` U14): DESIGN CHOICE 0, log entry 7. -/
def unlistedByte : Byte := 0

/-- Every listed address is above `lo`, they rise strictly, lie below `2^ADDR_BITS`, and no entry equals what an
unlisted address reads as. -/
def Memory.wfAbove (lo : Nat) : Memory → Bool
  | []          => true
  | (a, v) :: m => decide (lo ≤ a) && decide (a < addrSpace) && (v != unlistedByte) && Memory.wfAbove (a + 1) m

/-- The canonical form of memory. -/
def Memory.wf (m : Memory) : Bool := Memory.wfAbove 0 m

/-- The byte at an address. -/
def Memory.read : Memory → Nat → Byte
  | [], _          => unlistedByte
  | (b, v) :: m, a => if a < b then unlistedByte else if a = b then v else Memory.read m a

/-- Store a byte, keeping the canonical form. -/
def Memory.write : Memory → Nat → Byte → Memory
  | [], a, v          => if v = unlistedByte then [] else [(a, v)]
  | (b, w) :: m, a, v =>
    if a < b then (if v = unlistedByte then (b, w) :: m else (a, v) :: (b, w) :: m)
    else if a = b then (if v = unlistedByte then m else (a, v) :: m)
    else (b, w) :: Memory.write m a v

/-- `MemRead(addr, 2)`: little-endian (`20_memory.md` R40). -/
def Memory.read16 (m : Memory) (a : Nat) : Half :=
  m.read (a + 1) ++ m.read a

/-- `MemRead(addr, 4)`: little-endian (`20_memory.md` R40). -/
def Memory.read32 (m : Memory) (a : Nat) : Single :=
  m.read (a + 3) ++ m.read (a + 2) ++ m.read (a + 1) ++ m.read a

/-- `MemWrite(addr, 2, v)`: little-endian (`20_memory.md` R41). The core never writes 4 bytes (R42). -/
def Memory.write16 (m : Memory) (a : Nat) (v : Half) : Memory :=
  (m.write a (v.extractLsb' 0 8)).write (a + 1) (v.extractLsb' 8 8)

/-- `H(base, e)`: the half with element index `e` of a tensor at `base` (`00_scope.md` R8, `20_memory.md` R50). -/
def Memory.half (m : Memory) (base e : Nat) : Half := m.read16 (base + 2 * e)

/-- `H(base, e) <- v` (`00_scope.md` R8). -/
def Memory.setHalf (m : Memory) (base e : Nat) (v : Half) : Memory := m.write16 (base + 2 * e) v

/-- `S(base, e)`: the single with element index `e` of a tensor at `base` (`00_scope.md` R8). -/
def Memory.single (m : Memory) (base e : Nat) : Single := m.read32 (base + 4 * e)

/-- The lane vector at element indices `e .. e+7` (`40_numerics.md` R113). -/
def Memory.lanes (m : Memory) (base e : Nat) : LaneVec := Vector.ofFn fun l => m.half base (e + l)

/-- Store `f 0 .. f (n-1)` at element indices `e .. e+n-1`, in that order. -/
def Memory.setHalves (m : Memory) (base e : Nat) (f : Nat → Half) : Nat → Memory
  | 0     => m
  | n + 1 => (m.setHalves base e f n).setHalf base (e + n) (f n)

/-- Lane `l` of a lane vector (0 outside the 8 lanes, which no rule names). -/
def laneAt (v : LaneVec) (l : Nat) : Half := if h : l < 8 then v[l] else 0

/-- Store a lane vector as 8 half accesses in lane order (`40_numerics.md` R113, `20_memory.md` R42). -/
def Memory.setLanes (m : Memory) (base e : Nat) (v : LaneVec) : Memory :=
  m.setHalves base e (laneAt v) 8

/-- Give the `n` bytes from `base` the values `f address`: used for bytes whose value is unspecified. -/
def Memory.fill (m : Memory) (base : Nat) (f : Nat → Byte) : Nat → Memory
  | 0     => m
  | n + 1 => (m.fill base f n).write (base + n) (f (base + n))

end Sys2Proof.Machine
end

