-- ==== Sys2Proof/Machine/Numerics.lean ====
section
/-! DEFINITION. The two number formats, the rounding, and the arithmetic primitives (`spec/40_numerics.md` R100 to
R112). Every finite value is a whole multiple of the format's smallest subnormal, so the exact arithmetic is done
on whole numbers and narrowed once, by `Format.round`. -/

namespace Sys2Proof.Machine

/-- A binary format (`40_numerics.md` R101, R102, R104): `p` significand bits, exponents `emin = 1 - emax` to
`emax`, `width` bits in all. -/
structure Format where
  p     : Nat
  emax  : Nat
  width : Nat
  deriving DecidableEq, Repr

/-- binary16 (`40_numerics.md` R101, R104). -/
def binary16 : Format := ⟨11, 15, 16⟩

/-- binary32 (`40_numerics.md` R102, R104). -/
def binary32 : Format := ⟨24, 127, 32⟩

/-- `emin` of R104. -/
def Format.emin (F : Format) : Int := 1 - (F.emax : Int)

/-- The smallest subnormal is `2^-scale`: 24 for halves, 149 for singles (R101, R102). -/
def Format.scale (F : Format) : Nat := F.emax - 1 + (F.p - 1)

/-- The number of exponent codes: 32 for halves, 256 for singles. -/
def Format.expCodes (F : Format) : Nat := 2 * F.emax + 2

/-- What a bit pattern stands for (R101, R102): `fin neg mag` is `(-1)^neg * mag * 2^-scale`. -/
inductive FpValue where
  | nan
  | inf (neg : Bool)
  | fin (neg : Bool) (mag : Nat)
  deriving DecidableEq, Repr

/-- The value of a bit pattern (`40_numerics.md` R101, R102). -/
def Format.unpack (F : Format) (b : Nat) : FpValue :=
  let f := b % 2 ^ (F.p - 1)
  let e := b / 2 ^ (F.p - 1) % F.expCodes
  let s := decide (b / 2 ^ (F.width - 1) % 2 = 1)
  if e = F.expCodes - 1 then (if f = 0 then .inf s else .nan)
  else if e = 0 then .fin s f
  else .fin s ((2 ^ (F.p - 1) + f) * 2 ^ (e - 1))

/-- The sign bit in its place. -/
def Format.signBit (F : Format) (neg : Bool) : Nat := if neg then 2 ^ (F.width - 1) else 0

/-- The pattern of an infinity. -/
def Format.infBits (F : Format) (neg : Bool) : Nat := F.signBit neg + (F.expCodes - 1) * 2 ^ (F.p - 1)

/-- The pattern of the largest finite value of a sign (65504 for halves). -/
def Format.maxBits (F : Format) (neg : Bool) : Nat := F.infBits neg - 1

/-- The encoding of `(-1)^neg * n * 2^(E-p+1)`, the last line of R104. -/
def Format.pack (F : Format) (neg : Bool) (n : Nat) (E : Int) : Nat :=
  if n < 2 ^ (F.p - 1) then F.signBit neg + n
  else F.signBit neg + (E + (F.emax : Int)).toNat * 2 ^ (F.p - 1) + (n - 2 ^ (F.p - 1))

/-- `E` of R104 for the magnitude `m * 2^-k`. -/
def Format.binade (F : Format) (m k : Nat) : Int := max ((Nat.log2 m : Int) - (k : Int)) F.emin

/-- `ulp = 2^(E-p+1)` of R104 in units of `2^-k`, as a power of two: `2^shift`. -/
def Format.shift (F : Format) (m k : Nat) : Int := F.binade m k - (F.p : Int) + 1 + (k : Int)

/-- `n = floor(m / ulp)` of R104. -/
def Format.quotient (F : Format) (m k : Nat) : Nat :=
  m * 2 ^ (-(F.shift m k)).toNat / 2 ^ (F.shift m k).toNat

/-- What is left of `m` below `n` whole `ulp`, in units of `2^-k` (0 when `ulp` is finer than that). -/
def Format.remainder (F : Format) (m k : Nat) : Nat := m % 2 ^ (F.shift m k).toNat

/-- Does R104 add one: `rem > 1/2`, or `rem = 1/2` and `n` odd. -/
def Format.roundsUp (F : Format) (m k : Nat) : Bool :=
  let ulp := 2 ^ (F.shift m k).toNat
  decide (ulp < 2 * F.remainder m k) || (decide (2 * F.remainder m k = ulp) && decide (F.quotient m k % 2 = 1))

/-- `rnd_F(s, m)` of `40_numerics.md` R104 on `(-1)^neg * m * 2^-k`, `m > 0`: round to nearest, ties to even. -/
def Format.round (F : Format) (neg : Bool) (m k : Nat) : Nat :=
  let E := F.binade m k
  let n := if F.roundsUp m k then F.quotient m k + 1 else F.quotient m k
  if n = 2 ^ F.p then
    (if (F.emax : Int) < E + 1 then F.infBits neg else F.pack neg (2 ^ (F.p - 1)) (E + 1))
  else (if (F.emax : Int) < E then F.infBits neg else F.pack neg n E)

/-- The alternative `CVT_RM = RTZ` of R108: toward zero, overflow gives the largest finite value. -/
def Format.truncate (F : Format) (neg : Bool) (m k : Nat) : Nat :=
  if (F.emax : Int) < F.binade m k then F.maxBits neg else F.pack neg (F.quotient m k) (F.binade m k)

/-- The signed whole number of a sign and a magnitude. -/
def signedInt (neg : Bool) (mag : Nat) : Int := if neg then -(mag : Int) else (mag : Int)

/-- The exact sum of two finite values in units of `2^-k`, rounded by R104; an exact zero is signed by
`40_numerics.md` R109. -/
def Format.roundSum (F : Format) (s : Bool) (m : Nat) (t : Bool) (n : Nat) (k : Nat) : Nat :=
  let x := signedInt s m + signedInt t n
  if x = 0 then F.signBit (decide (m = 0) && s && t)
  else F.round (decide (x < 0)) x.natAbs k

/-- The sum of two values in units of `2^-k`: the special cases of `add` in R105 and of the addition in R106. -/
def Format.sum (F : Format) (nan : Nat) (a b : FpValue) (k : Nat) : Nat :=
  match a, b with
  | .nan, _            => nan
  | _, .nan            => nan
  | .inf s, .inf t     => if s = t then F.infBits s else nan
  | .inf s, .fin _ _   => F.infBits s
  | .fin _ _, .inf t   => F.infBits t
  | .fin s m, .fin t n => F.roundSum s m t n k

/-- The exact product, in units of `2^-(2*scale)`: `0 * inf` is NaN (R105, R106). -/
def FpValue.mul (a b : FpValue) : FpValue :=
  match a, b with
  | .nan, _            => .nan
  | _, .nan            => .nan
  | .inf s, .inf t     => .inf (s ^^ t)
  | .inf s, .fin t n   => if n = 0 then .nan else .inf (s ^^ t)
  | .fin s m, .inf t   => if m = 0 then .nan else .inf (s ^^ t)
  | .fin s m, .fin t n => .fin (s ^^ t) (m * n)

/-- The same value in units `2^-k` finer. -/
def FpValue.finer (a : FpValue) (k : Nat) : FpValue :=
  match a with
  | .nan     => .nan
  | .inf s   => .inf s
  | .fin s m => .fin s (m * 2 ^ k)

/-- `add_F` (`40_numerics.md` R105). -/
def Format.add (F : Format) (nan a b : Nat) : Nat := F.sum nan (F.unpack a) (F.unpack b) F.scale

/-- `mul_F` (`40_numerics.md` R105): a zero product has sign `s_a xor s_b`. -/
def Format.mul (F : Format) (nan a b : Nat) : Nat :=
  match (F.unpack a).mul (F.unpack b) with
  | .nan     => nan
  | .inf s   => F.infBits s
  | .fin s m => if m = 0 then F.signBit s else F.round s m (2 * F.scale)

/-- `rnd_F(a + x*y)`, one rounding (`40_numerics.md` R106). -/
def Format.fma (F : Format) (nan a x y : Nat) : Nat :=
  F.sum nan ((F.unpack a).finer F.scale) ((F.unpack x).mul (F.unpack y)) (2 * F.scale)

/-- `neg` of R105: flips the sign bit of a half. -/
def neg16 (b : Half) : Half := b ^^^ 0x8000#16

/-- `add16` (`40_numerics.md` R105); `nan` is `NAN_BITS`. -/
def add16 (nan a b : Half) : Half := BitVec.ofNat 16 (binary16.add nan.toNat a.toNat b.toNat)

/-- `sub16(a, b) = add16(a, neg(b))` (`40_numerics.md` R105). -/
def sub16 (nan a b : Half) : Half := add16 nan a (neg16 b)

/-- `mul16` (`40_numerics.md` R105). -/
def mul16 (nan a b : Half) : Half := BitVec.ofNat 16 (binary16.mul nan.toNat a.toNat b.toNat)

/-- `fma16(a, x, y) = rnd_16(a + x*y)` (`40_numerics.md` R106). -/
def fma16 (nan a x y : Half) : Half := BitVec.ofNat 16 (binary16.fma nan.toNat a.toNat x.toNat y.toNat)

/-- `fms16(a, x, y) = fma16(a, neg(x), y)` (`40_numerics.md` R107). -/
def fms16 (nan a x y : Half) : Half := fma16 nan a (neg16 x) y

/-- The pattern of a single-precision NaN inside the filter transform. `40_numerics.md` R111: it "is any single
NaN; its payload is never observable". DESIGN CHOICE, safe, log entry 6. -/
def nan32 : Nat := 0x7FC00000

/-- `add32` (`40_numerics.md` R105). -/
def add32 (a b : Single) : Single := BitVec.ofNat 32 (binary32.add nan32 a.toNat b.toNat)

/-- `mul32` (`40_numerics.md` R105). -/
def mul32 (a b : Single) : Single := BitVec.ofNat 32 (binary32.mul nan32 a.toNat b.toNat)

/-- `cvt32to16` (`40_numerics.md` R108). -/
def cvt32to16 (nan : Half) (rm : CvtRm) (v : Single) : Half :=
  match binary32.unpack v.toNat with
  | .nan     => nan
  | .inf s   => BitVec.ofNat 16 (binary16.infBits s)
  | .fin s m =>
    if m = 0 then BitVec.ofNat 16 (binary16.signBit s)
    else
      match rm with
      | .nearestEven => BitVec.ofNat 16 (binary16.round s m binary32.scale)
      | .towardZero  => BitVec.ofNat 16 (binary16.truncate s m binary32.scale)

/-- Is a half a NaN (R101): the property `NAN_BITS` must have (R111). -/
def isNaN16 (b : Half) : Bool := decide (binary16.unpack b.toNat = .nan)

/-- Is a single a NaN (R102). -/
def isNaN32 (b : Single) : Bool := decide (binary32.unpack b.toNat = .nan)

end Sys2Proof.Machine
end

