-- ==== Sys2Proof/Machine/Operands.lean ====
section
/-! DEFINITION. The operands of a command: the registers by name and index (`spec/10_state.md` R11,
`spec/30_encoding.md` R81), the shapes (`spec/40_numerics.md` R120, R121), the tensor layouts and sizes
(`spec/20_memory.md` R51 to R59), the tile blocks (`spec/44_contraction.md` R196) and the regions (R60, R124). -/

namespace Sys2Proof.Machine

/-! ## Registers -/

/-- The parameter registers by name (`10_state.md` R11). -/
inductive ParamReg where
  | srcBase | dstBase | filtBase | biasBase | scrBase | scrSize
  | inWidth | inHeight | outWidth | outHeight | inChannels | outChannels | nWork
  deriving DecidableEq, Repr

/-- The registers of the window (`30_encoding.md` R81). -/
inductive Reg where
  | id | cmd | status | ctrl | err | stage
  | param (p : ParamReg)
  | reserved
  deriving DecidableEq, Repr

/-- The register at an index (`30_encoding.md` R81; `10_state.md` R19 for the reserved ones). -/
def regAt : Nat → Reg
  | 0  => .id
  | 1  => .cmd
  | 2  => .status
  | 3  => .ctrl
  | 4  => .err
  | 5  => .stage
  | 8  => .param .srcBase
  | 9  => .param .dstBase
  | 10 => .param .filtBase
  | 11 => .param .biasBase
  | 12 => .param .scrBase
  | 13 => .param .scrSize
  | 14 => .param .inWidth
  | 15 => .param .inHeight
  | 16 => .param .outWidth
  | 17 => .param .outHeight
  | 18 => .param .inChannels
  | 19 => .param .outChannels
  | 20 => .param .nWork
  | _  => .reserved

/-- The value of a parameter register. -/
def Params.get (P : Params) : ParamReg → Word
  | .srcBase     => P.srcBase
  | .dstBase     => P.dstBase
  | .filtBase    => P.filtBase
  | .biasBase    => P.biasBase
  | .scrBase     => P.scrBase
  | .scrSize     => P.scrSize
  | .inWidth     => P.inWidth
  | .inHeight    => P.inHeight
  | .outWidth    => P.outWidth
  | .outHeight   => P.outHeight
  | .inChannels  => P.inChannels
  | .outChannels => P.outChannels
  | .nWork       => P.nWork

/-- Write a parameter register; any 64-bit value is accepted (`10_state.md` R11). -/
def Params.set (P : Params) (v : Word) : ParamReg → Params
  | .srcBase     => { P with srcBase := v }
  | .dstBase     => { P with dstBase := v }
  | .filtBase    => { P with filtBase := v }
  | .biasBase    => { P with biasBase := v }
  | .scrBase     => { P with scrBase := v }
  | .scrSize     => { P with scrSize := v }
  | .inWidth     => { P with inWidth := v }
  | .inHeight    => { P with inHeight := v }
  | .outWidth    => { P with outWidth := v }
  | .outHeight   => { P with outHeight := v }
  | .inChannels  => { P with inChannels := v }
  | .outChannels => { P with outChannels := v }
  | .nWork       => { P with nWork := v }

/-- The code of a stage (`10_state.md` R17). -/
def Stage.code : Stage → Word
  | .idle   => 0
  | .check  => 1
  | .pad    => 2
  | .xin    => 3
  | .repack => 4
  | .gemm   => 5
  | .xout   => 6
  | .crop   => 7
  | .tfilt  => 8

/-- The code of an error (`60_exceptions.md` R250). -/
def ErrCode.code : ErrCode → Word
  | .none    => 0
  | .illegal => 1
  | .precond => 2
  | .alloc   => 3
  | .bus     => 4

/-! ## Shapes -/

/-- `roundup6(n)` (`40_numerics.md` R120). -/
def roundup6 (n : Nat) : Nat := (n + 5) / 6 * 6

/-- The shapes of a command (`40_numerics.md` R121), from the latched registers. -/
def Params.inW (P : Params) : Nat := P.inWidth.toNat
/-- `inH` (R121). -/
def Params.inH (P : Params) : Nat := P.inHeight.toNat
/-- `outW` (R121). -/
def Params.outW (P : Params) : Nat := P.outWidth.toNat
/-- `outH` (R121). -/
def Params.outH (P : Params) : Nat := P.outHeight.toNat
/-- `inCh` (R121). -/
def Params.inCh (P : Params) : Nat := P.inChannels.toNat
/-- `outCh` (R121). -/
def Params.outCh (P : Params) : Nat := P.outChannels.toNat
/-- `outWp` (R121). -/
def Params.outWp (P : Params) : Nat := roundup6 P.outW
/-- `outHp` (R121). -/
def Params.outHp (P : Params) : Nat := roundup6 P.outH
/-- `padW` (R121). -/
def Params.padW (P : Params) : Nat := P.outWp + 2
/-- `padH` (R121). -/
def Params.padH (P : Params) : Nat := P.outHp + 2
/-- `tilesX` (R121). -/
def Params.tilesX (P : Params) : Nat := P.outWp / 6
/-- `tilesY` (R121). -/
def Params.tilesY (P : Params) : Nat := P.outHp / 6
/-- `T` (R121). -/
def Params.tiles (P : Params) : Nat := P.tilesX * P.tilesY
/-- The number of input channel groups, `inCh/8` (`00_scope.md` R7). -/
def Params.inGroups (P : Params) : Nat := P.inCh / 8
/-- The number of output channel groups, `outCh/8`. -/
def Params.outGroups (P : Params) : Nat := P.outCh / 8

/-! ## Layouts: element indices -/

/-- `fm(w, h; g, y, x, l)` (`20_memory.md` R51). -/
def fmIndex (w h g y x l : Nat) : Nat := ((g * h + y) * w + x) * 8 + l

/-- `rf(o, i, r, cc)` (`20_memory.md` R52). -/
def rfIndex (inCh o i r cc : Nat) : Nat := ((o * inCh + i) * 3 + r) * 3 + cc

/-- `tf(q, k, p, i, j)` (`20_memory.md` R53). -/
def tfIndex (inCh q k p i j : Nat) : Nat := (((q * 64 + k) * (inCh / 8) + p) * 8 + i) * 8 + j

/-- `ti(p, k, tile, i)` (`20_memory.md` R54). -/
def tiIndex (T p k tile i : Nat) : Nat := ((p * 64 + k) * T + tile) * 8 + i

/-- `to(q, k, tile, j)` (`20_memory.md` R56). -/
def toIndex (T q k tile j : Nat) : Nat := ((q * 64 + k) * T + tile) * 8 + j

/-- `blocks(T)`, the (first tile, width) pairs (`44_contraction.md` R196): the blocks of width 8, then one for
each 1 bit of `T mod 8`, widest first. -/
def blocks (T : Nat) : List (Nat × Nat) :=
  let s8 := T / 8 * 8
  let s4 := s8 + T / 4 % 2 * 4
  let s2 := s4 + T / 2 % 2 * 2
  (List.range (T / 8)).map (fun b => (8 * b, 8))
    ++ (if T / 4 % 2 = 1 then [(s8, 4)] else [])
    ++ (if T / 2 % 2 = 1 then [(s4, 2)] else [])
    ++ (if T % 2 = 1 then [(s2, 1)] else [])

/-- `nblk` (R196). -/
def nblk (T : Nat) : Nat := (blocks T).length

/-- `(s_b, B_b)`, block number `b`. -/
def blockAt (T b : Nat) : Nat × Nat := (blocks T).getD b (0, 0)

/-- `Bmax`, the width of the first block (R196). -/
def bMax (T : Nat) : Nat := (blockAt T 0).2

/-- `ti2(k, b, p, i, tt)` (`20_memory.md` R55). -/
def ti2Index (T inCh k b p i tt : Nat) : Nat :=
  (k * nblk T + b) * (bMax T * inCh) + (p * 8 + i) * (blockAt T b).2 + tt

/-! ## Sizes in bytes (`20_memory.md` R59) -/

/-- The arriving input. -/
def Params.inB (P : Params) : Nat := P.inCh * P.inH * P.inW * 2
/-- `PADB`, the padded input. -/
def Params.padB (P : Params) : Nat := P.inCh * P.padH * P.padW * 2
/-- `TIB`, TransformedInput. -/
def Params.tiB (P : Params) : Nat := P.inCh * 64 * P.tiles * 2
/-- `TI2B`, the interleaved input. -/
def Params.ti2B (P : Params) : Nat := 64 * nblk P.tiles * bMax P.tiles * P.inCh * 2
/-- `TOB`, TransformedOutput. -/
def Params.toB (P : Params) : Nat := P.outCh * 64 * P.tiles * 2
/-- `OPB`, the padded output. -/
def Params.opB (P : Params) : Nat := P.outCh * P.outHp * P.outWp * 2
/-- The output. -/
def Params.outB (P : Params) : Nat := P.outCh * P.outH * P.outW * 2
/-- The raw filter. -/
def Params.rfB (P : Params) : Nat := P.outCh * P.inCh * 36
/-- The TransformedFilter. -/
def Params.tfB (P : Params) : Nat := P.outCh * P.inCh * 128
/-- The bias. -/
def Params.biasB (P : Params) : Nat := P.outCh * 2

/-! ## Regions -/

/-- What a region of a command is for (`30_encoding.md` R86). -/
inductive Role where
  | source | dest | filter | bias | scratch
  deriving DecidableEq, Repr

/-- A region `[base, base + size)` of a command (`20_memory.md` R60). -/
structure Region where
  role : Role
  base : Nat
  size : Nat
  deriving DecidableEq, Repr

/-- Does a byte address lie in the region. -/
def Region.holds (r : Region) (a : Nat) : Bool := decide (r.base ≤ a) && decide (a < r.base + r.size)

/-- `overlap(b1, s1, b2, s2)` (`40_numerics.md` R124). -/
def Region.overlaps (r t : Region) : Bool :=
  decide (0 < r.size) && decide (0 < t.size) && decide (r.base < t.base + t.size) && decide (t.base < r.base + r.size)

/-- Do two regions of the list overlap (`60_exceptions.md` R252 (e)). -/
def anyOverlap : List Region → Bool
  | []      => false
  | r :: rs => rs.any r.overlaps || anyOverlap rs

end Sys2Proof.Machine
end

