-- ==== Sys2Proof/Machine/Ops.lean ====
section
/-! DEFINITION. The operations the commands share: loops, the core's memory accesses with the platform's answer
(`spec/60_exceptions.md` R254), the acceptance, drop and rejection of a command word (`spec/30_encoding.md` R84),
the completion of a command, which is this hardware's only "exception" (`spec/60_exceptions.md` R251), and reset
(`spec/70_reset_and_hazards.md` R280). There is no return from an exception (`spec/60_exceptions.md` R258). -/

namespace Sys2Proof.Machine

/-- `for i in 0 .. n-1`, in ascending order; `none` as soon as one iteration answers `none`. -/
def loop {α : Type} (n : Nat) (f : Nat → α → Option α) (x : α) : Option α :=
  match n with
  | 0     => some x
  | n + 1 => (loop n f x).bind (f n)

/-- The lane vector of `+0` in every lane. -/
def zeroLanes : LaneVec := Vector.replicate 8 0

/-- The element at row `y`, column `x` of a block (`d` outside it, which no rule names). -/
def gridAt {α : Type} {r c : Nat} (d : α) (g : Grid α r c) (y x : Nat) : α :=
  if h : y < r ∧ x < c then (g[y]'h.1)[x]'h.2 else d

/-! ## The core's memory accesses -/

/-- The platform's answer to an access of `n` bytes at `a` (`60_exceptions.md` R254): they lie in the address
space and in no refused range. -/
def backs (cfg : Config) (a n : Nat) : Bool :=
  decide (a + n ≤ addrSpace) &&
    cfg.refused.all fun h => decide (h.2 = 0) || decide (h.1 + h.2 ≤ a) || decide (a + n ≤ h.1)

/-- What a unit of work acts on: the memory and the state of the worker that executes it. -/
structure Work where
  mem    : Memory
  worker : Worker
  deriving DecidableEq, Repr

/-- The half with element index `e`, or `none` where the platform refuses the read. -/
def loadHalf (cfg : Config) (m : Memory) (base e : Nat) : Option Half :=
  if backs cfg (base + 2 * e) 2 then some (m.half base e) else none

/-- The lane vector at element `e`, read as one 16-byte access (`20_memory.md` R42, log entry 11). -/
def loadLanes (cfg : Config) (m : Memory) (base e : Nat) : Option LaneVec :=
  if backs cfg (base + 2 * e) 16 then some (m.lanes base e) else none

/-- An `r` by `c` block of lane vectors, the one at `[y][x]` from element `e y x`. -/
def loadGrid (cfg : Config) (m : Memory) (base r c : Nat) (e : Nat → Nat → Nat) : Option (Grid LaneVec r c) :=
  if (List.range r).all (fun y => (List.range c).all fun x => backs cfg (base + 2 * e y x) 16) then
    some (Vector.ofFn fun y => Vector.ofFn fun x => m.lanes base (e y x))
  else none

/-- A 3x3 block of singles, the one at `[r][cc]` from element `e r cc` (`41_filter_transform.md` R146). -/
def loadTaps (cfg : Config) (m : Memory) (base : Nat) (e : Nat → Nat → Nat) : Option (Grid Single 3 3) :=
  if (List.range 3).all (fun r => (List.range 3).all fun cc => backs cfg (base + 4 * e r cc) 4) then
    some (Vector.ofFn fun r => Vector.ofFn fun cc => m.single base (e r cc))
  else none

/-- Store a half, or `none` where the platform refuses the write. -/
def storeHalf (cfg : Config) (base e : Nat) (v : Half) (w : Work) : Option Work :=
  if backs cfg (base + 2 * e) 2 then some { w with mem := w.mem.setHalf base e v } else none

/-- Store a lane vector as one 16-byte access (`20_memory.md` R42, log entry 11). -/
def storeLanes (cfg : Config) (base e : Nat) (v : LaneVec) (w : Work) : Option Work :=
  if backs cfg (base + 2 * e) 16 then some { w with mem := w.mem.setLanes base e v } else none

/-! ## Command words and completion -/

/-- The word is dropped: case (a) of `30_encoding.md` R84. -/
def State.overrun (s : State) : State := { s with status := s.status.overrun }

/-- A legal word is accepted: case (b) of `30_encoding.md` R84, one indivisible step; the operands are latched
(`10_state.md` R12). What the workers hold is kept; DESIGN CHOICE, log entry 21. -/
def State.accept (s : State) (i : Instr) : State :=
  { s with
    cmd := encode i, status := s.status.accepted, err := .none,
    latch := s.params, lcmd := encode i, stage := .check, pending := [] }

/-- A legal command word is written to `CMD` (`30_encoding.md` R84). -/
def State.takeCommand (s : State) (i : Instr) : State :=
  if s.status.busy then s.overrun else s.accept i

/-- An illegal word is written to `CMD` (`30_encoding.md` R84, R85; priority: `60_exceptions.md` R255). -/
def State.takeIllegal (s : State) (w : Word) : State :=
  if s.status.busy then s.overrun
  else { s with cmd := w, err := .illegal, status := s.status.completed .illegal }

/-- `complete(code)` (`60_exceptions.md` R251): every command ends here, with or without an error. The latches
`L0..L12` and `LCMD` (`10_state.md` R12) and worker state keep their values until the next command; the spec lets them
be any value between commands (`93_implementation_defined.md` U13): DESIGN CHOICE, log entry 21. -/
def State.complete (s : State) (e : ErrCode) : State :=
  { s with err := e, status := s.status.completed e, stage := .idle, pending := [] }

/-- The bytes of `[base, base + size)` take unspecified values (`93_implementation_defined.md` U3, U9, U10); bytes
outside the address space do not exist. -/
def State.unspecify (s : State) (base size : Nat) : State :=
  { s with
    mem := s.mem.fill base (Config.freeByte s.draws) (min size (addrSpace - base)),
    draws := s.draws + 1 }

/-- Every register at its reset value (`70_reset_and_hazards.md` R281); memory and the model's own fields are as
they are. The latches and worker state are unspecified there: DESIGN CHOICE zeros, log entry 9. -/
def State.resetRegisters (s : State) : State :=
  { s with
    cmd := 0, status := Status.zero, ie := false, err := .none, stage := .idle,
    params := Params.zero, latch := Params.zero, lcmd := 0, pending := [],
    workers := s.workers.map fun _ => Worker.zero }

end Sys2Proof.Machine
end

