-- ==== Sys2Proof/Machine/Sequencer.lean ====
section
/-! DEFINITION. The sequencer and the workers: the checks of stage `CHECK` (`spec/60_exceptions.md` R252, R253),
the stage list of a command (`spec/46_convolve.md` R236), units of work taken in the order the schedule gives
(R261), barriers (`spec/20_memory.md` R62) and completion (R251). One transaction is one step of
`spec/00_scope.md` R6: the checks, one unit of work by one worker, one barrier, or the completion. -/

namespace Sys2Proof.Machine

/-- What the hardware knows of a command (`30_encoding.md` R86, `46_convolve.md` R236). -/
structure Command where
  /-- The scalar registers it uses (R86). -/
  uses    : List ParamReg
  /-- Must the arriving map fit the padded one (`60_exceptions.md` R252 (c)). -/
  fits    : Bool
  /-- Its regions (R86, `20_memory.md` R60). -/
  regions : Params → List Region
  /-- Does it use the scratch window (R86). -/
  scratch : Bool
  /-- `SCR_NEED` (R86). -/
  need    : Params → Nat
  /-- Its stages after `CHECK`, in order (R236). -/
  stages  : List Stage
  /-- Is its destination untouched before the last stage (`46_convolve.md` R235, `92_eei_decisions.md` D32). -/
  dstLast : Bool
  /-- The pseudocode of one unit of work of a stage. -/
  unit    : Config → Params → Stage → Nat → Work → Option Work

/-- The number of units of work of a stage (`46_convolve.md` R236). -/
def Stage.units (P : Params) : Stage → Nat
  | .idle   => 0
  | .check  => 0
  | .pad    => P.inGroups
  | .xin    => P.inGroups
  | .repack => 64
  | .gemm   => 64 * P.outGroups
  | .xout   => P.outGroups
  | .crop   => P.outGroups
  | .tfilt  => P.outCh

/-! ## Stage `CHECK` -/

/-- Is the value of a used scalar register illegal (`60_exceptions.md` R252 (a), (b)). -/
def Params.illegal (P : Params) (r : ParamReg) : Bool :=
  let v := (P.get r).toNat
  match r with
  | .inWidth | .inHeight | .outWidth | .outHeight | .nWork => decide (v = 0) || decide (dimMax < v)
  | .inChannels | .outChannels => decide (v % 8 ≠ 0) || decide (v = 0) || decide (chMax < v)
  | .srcBase | .dstBase | .filtBase | .biasBase | .scrBase | .scrSize => false

/-- Is a region misaligned or out of the address space (`60_exceptions.md` R252 (d)). -/
def Region.misplaced (r : Region) : Bool := decide (r.base % 16 ≠ 0) || decide (addrSpace < r.base + r.size)

/-- Does the arriving map not fit the padded one (`60_exceptions.md` R252 (c)). -/
def Params.tooLarge (P : Params) : Bool := decide (P.padW < P.inW) || decide (P.padH < P.inH)

/-- Does any condition (a) to (e) of `60_exceptions.md` R252 hold. -/
def Command.precondFails (c : Command) (P : Params) : Bool :=
  c.uses.any P.illegal || (c.fits && P.tooLarge) || (c.regions P).any Region.misplaced || anyOverlap (c.regions P)

/-- What stage `CHECK` decides (`60_exceptions.md` R252, R253; priority R255). -/
def Command.verdict (c : Command) (P : Params) : ErrCode :=
  if c.precondFails P then .precond
  else if P.scrSize.toNat < c.need P then .alloc
  else .none

/-! ## Transactions -/

/-- The destination region. -/
def Command.destination (c : Command) (P : Params) : List Region :=
  (c.regions P).filter fun r => decide (r.role = .dest)

/-- `[SCR_BASE, SCR_BASE + SCR_NEED)` of a command that uses the scratch window. -/
def Command.scratchUse (c : Command) (P : Params) : List Region :=
  if c.scratch then [⟨.scratch, P.scrBase.toNat, c.need P⟩] else []

/-- The bytes of these regions take unspecified values. -/
def State.unspecifyAll (s : State) (rs : List Region) : State :=
  rs.foldl (fun t r => t.unspecify r.base r.size) s

/-- The barrier into a stage: all its units become pending (`60_exceptions.md` R261, `20_memory.md` R62). -/
def State.enter (s : State) (st : Stage) : State :=
  { s with stage := st, pending := List.range (st.units s.latch) }

/-- The end of the last stage: scratch contents become unspecified (`10_state.md` R27), the command completes
without an error (`60_exceptions.md` R251). -/
def Command.finish (c : Command) (s : State) : State :=
  (s.unspecifyAll (c.scratchUse s.latch)).complete .none

/-- The destination as far as stage `st` may have reached it: none of it before the last stage of a command that
writes it there only (`46_convolve.md` R235), else all of it (`60_exceptions.md` R254). -/
def Command.reached (c : Command) (P : Params) (st : Stage) : List Region :=
  if c.dstLast && decide (c.stages.getLast? ≠ some st) then [] else c.destination P

/-- The regions that hold unspecified values after a bus error in stage `st` (`60_exceptions.md` R254,
`46_convolve.md` R235). -/
def Command.dirtied (c : Command) (P : Params) (st : Stage) : List Region := c.reached P st ++ c.scratchUse P

/-- The platform refused an access (`60_exceptions.md` R254): what the command may have written holds unspecified
values and it completes with `ERR_BUS`. -/
def Command.busError (c : Command) (s : State) : State :=
  (s.unspecifyAll (c.dirtied s.latch s.stage)).complete .bus

/-- Leave `CHECK` (`60_exceptions.md` R252, R253). -/
def Command.checkStage (c : Command) (s : State) : State :=
  match c.verdict s.latch with
  | .none =>
    match c.stages with
    | []      => c.finish s
    | st :: _ => s.enter st
  | e => s.complete e

/-- The stage after `st` in a stage list. -/
def stageAfter (st : Stage) : List Stage → Option Stage
  | []      => none
  | t :: ts => if t = st then ts.head? else stageAfter st ts

/-- Pass the barrier at the end of a stage (`20_memory.md` R62), or complete after the last one. -/
def Command.barrier (c : Command) (s : State) : State :=
  match stageAfter s.stage c.stages with
  | some st => s.enter st
  | none    => c.finish s

/-- The next free choice of the schedule: unit 0, worker 0 once the list is used up (log entry 3). -/
def State.turn (s : State) : Turn := s.sched.headD ⟨0, 0⟩

/-- Where in `PENDING` the next unit is taken. -/
def State.pick (s : State) : Nat := s.turn.unit % s.pending.length

/-- Which worker takes it: one of the first `min(NWORK, NUM_WORKERS)` of the list. `60_exceptions.md` R261 says how
many workers take units, not which; DESIGN CHOICE, log entry 3. -/
def State.picker (s : State) : Nat := s.turn.worker % min s.latch.nWork.toNat s.workers.length

/-- The unit that is taken next, executed on the memory and the local state of the worker that takes it
(`60_exceptions.md` R261); `none` when the platform refuses one of its accesses. -/
def Command.nextUnit (c : Command) (s : State) : Option Work :=
  c.unit s.cfg s.latch s.stage (s.pending.getD s.pick 0) ⟨s.mem, s.workers.getD s.picker Worker.zero⟩

/-- A worker removes a unit from `PENDING` and executes its pseudocode to its end (`60_exceptions.md` R261). Its local
state is kept until its next unit; DESIGN CHOICE, log entry 21. -/
def Command.workStep (c : Command) (s : State) : State :=
  match c.nextUnit s with
  | some w =>
    { s with
      mem := w.mem, workers := s.workers.set s.picker w.worker,
      pending := s.pending.eraseIdx s.pick, sched := s.sched.tail }
  | none => c.busError s

/-- One transaction of the core on the command in flight (`00_scope.md` R6). An idle sequencer makes none. -/
def Command.transact (c : Command) (s : State) : State :=
  match s.stage with
  | .idle  => s
  | .check => c.checkStage s
  | .pad | .xin | .repack | .gemm | .xout | .crop | .tfilt =>
    if s.pending.isEmpty then c.barrier s else c.workStep s

/-- At most `n` transactions: none once `BUSY = 0`. -/
def Command.transactions (c : Command) : Nat → State → State
  | 0, s     => s
  | n + 1, s => if s.status.busy then c.transactions n (c.transact s) else s

/-- How many transactions a command in flight needs at most (`60_exceptions.md` R263). -/
def Command.budget (c : Command) (s : State) : Nat :=
  s.pending.length + (c.stages.map fun st => st.units s.latch + 1).sum + 2

/-- How many transactions pass before the host acts again: the `lead` of its next event, or all that the command
needs (log entries 1 and 2). -/
def Command.quota (c : Command) (s : State) : Nat :=
  match s.host.head?.bind HostEvent.lead with
  | some n => n
  | none   => c.budget s

end Sys2Proof.Machine
end

