-- ==== Sys2Proof/Machine/Contraction.lean ====
section
/-! DEFINITION. The Batched Contraction, command `contract`: stages `REPACK` and `GEMM`
(`spec/44_contraction.md`). -/

namespace Sys2Proof.Machine

/-- Unit `k` of stage `REPACK`, one coefficient (`44_contraction.md` R197). -/
def repackUnit (cfg : Config) (P : Params) (src scr2 k : Nat) (w : Work) : Option Work :=
  loop (nblk P.tiles) (fun b => loop P.inGroups fun p => loop 8 fun i => loop (blockAt P.tiles b).2 fun tt w => do
    let v ← loadHalf cfg w.mem src (tiIndex P.tiles p k ((blockAt P.tiles b).1 + tt) i)
    storeHalf cfg scr2 (ti2Index P.tiles P.inCh k b p i tt) v w) w

/-- One multiply-accumulate: the filter row times a scalar, added into the accumulator of a tile, fused, lane by
lane (`44_contraction.md` R198, R199; `40_numerics.md` R113). -/
def macLanes (nan : Half) (acc row : LaneVec) (x : Half) : LaneVec :=
  Vector.zipWith (fun a f => fma16 nan a f x) acc row

/-- The accumulator of tile `tt` of the current block. -/
def accAt (w : Worker) (tt : Nat) : LaneVec := if h : tt < 8 then w.acc[tt] else zeroLanes

/-- Accumulators of the block's tiles start at `+0` (`44_contraction.md` R200). -/
def clearAcc (B : Nat) (w : Worker) : Worker :=
  { w with acc := Vector.ofFn fun tt => if tt.val < B then zeroLanes else w.acc[tt] }

/-- The inner loop of stage `GEMM` over the tiles of a block, for one input channel (`44_contraction.md` R201). -/
def gemmChannel (cfg : Config) (P : Params) (scr2 k b p i : Nat) (row : LaneVec) (w : Work) : Option Work :=
  loop (blockAt P.tiles b).2 (fun tt w => do
    let x ← loadHalf cfg w.mem scr2 (ti2Index P.tiles P.inCh k b p i tt)
    pure { w with
      worker := { w.worker with
        acc := w.worker.acc.setIfInBounds tt (macLanes cfg.nanBits (accAt w.worker tt) row x) } }) w

/-- One tile block of stage `GEMM` (`44_contraction.md` R201): the input channels in ascending order; the filter
row is held while the block's tiles use it (`10_state.md` R24). Accumulators and held rows keep their values after the
block; DESIGN CHOICE, log entries 20 and 21. -/
def gemmBlock (cfg : Config) (P : Params) (filt scr2 dst k q b : Nat) (w : Work) : Option Work := do
  let w ← loop P.inGroups (fun p => loop 8 fun i w => do
    let row ← loadLanes cfg w.mem filt (tfIndex P.inCh q k p i 0)
    gemmChannel cfg P scr2 k b p i row
      { w with worker := { w.worker with held := w.worker.held.setIfInBounds i row } })
    { w with worker := clearAcc (blockAt P.tiles b).2 w.worker }
  loop (blockAt P.tiles b).2 (fun tt w =>
    storeLanes cfg dst (toIndex P.tiles q k ((blockAt P.tiles b).1 + tt) 0) (accAt w.worker tt) w) w

/-- Unit `n` of stage `GEMM`, the pair `(k, q)` = (`n` div `outCh/8`, `n` mod `outCh/8`)
(`44_contraction.md` R201). -/
def gemmUnit (cfg : Config) (P : Params) (filt scr2 dst n : Nat) (w : Work) : Option Work :=
  loop (nblk P.tiles) (gemmBlock cfg P filt scr2 dst (n / P.outGroups) (n % P.outGroups)) w

/-- `contract` (`44_contraction.md` R195; `30_encoding.md` R86). -/
def contractCommand : Command where
  uses        := [.outWidth, .outHeight, .inChannels, .outChannels, .nWork]
  fits        := false
  regions P   := [⟨.source, P.srcBase.toNat, P.tiB⟩, ⟨.dest, P.dstBase.toNat, P.toB⟩,
                  ⟨.filter, P.filtBase.toNat, P.tfB⟩, ⟨.scratch, P.scrBase.toNat, P.scrSize.toNat⟩]
  scratch     := true
  need P      := P.ti2B
  stages      := [.repack, .gemm]
  dstLast     := false
  unit cfg P st n w :=
    if st = .repack then repackUnit cfg P P.srcBase.toNat P.scrBase.toNat n w
    else gemmUnit cfg P P.filtBase.toNat P.scrBase.toNat P.dstBase.toNat n w

end Sys2Proof.Machine
end

