-- ==== Sys2Proof/Machine/Transforms.lean ====
section
/-! DEFINITION. The three fixed transforms on one tile: the filter transform (`spec/41_filter_transform.md` R141 to
R144), the 8-point input transform (`spec/43_input_transform.md` R176 to R184) and the 8-to-6-point output
transform (`spec/45_output_transform.md` R216 to R223, R229). The closed forms are written once, over any
arithmetic: on halves, on lane vectors (`spec/40_numerics.md` R113), and on exact rationals. -/

namespace Sys2Proof.Machine

/-- The constants of the transforms (`40_numerics.md` R112). -/
inductive Coef where
  | c5_25 | c4_25 | c1_25 | c2_5 | c0_25 | c0_5 | c1 | c2 | c4 | c8 | c16 | c32
  deriving DecidableEq, Repr

/-- Their half encodings (R112). -/
def Coef.half : Coef → Half
  | .c5_25 => 0x4540#16
  | .c4_25 => 0x4440#16
  | .c1_25 => 0x3D00#16
  | .c2_5  => 0x4100#16
  | .c0_25 => 0x3400#16
  | .c0_5  => 0x3800#16
  | .c1    => 0x3C00#16
  | .c2    => 0x4000#16
  | .c4    => 0x4400#16
  | .c8    => 0x4800#16
  | .c16   => 0x4C00#16
  | .c32   => 0x5000#16

/-- Their values (R112). -/
def Coef.exact : Coef → ℚ
  | .c5_25 => 21 / 4
  | .c4_25 => 17 / 4
  | .c1_25 => 5 / 4
  | .c2_5  => 5 / 2
  | .c0_25 => 1 / 4
  | .c0_5  => 1 / 2
  | .c1    => 1
  | .c2    => 2
  | .c4    => 4
  | .c8    => 8
  | .c16   => 16
  | .c32   => 32

/-- The five operations the closed forms are built from (`40_numerics.md` R113, `43_input_transform.md` R176). -/
structure Arith (α : Type) where
  /-- `a + b` -/
  add  : α → α → α
  /-- `a - b` -/
  sub  : α → α → α
  /-- `x * c` -/
  mulC : α → Coef → α
  /-- `a + x*c`, fused -/
  fmaC : α → α → Coef → α
  /-- `a - x*c`, fused -/
  fmsC : α → α → Coef → α

/-- Half-precision arithmetic, one rounding per operation (`43_input_transform.md` R176); `nan` is `NAN_BITS`. -/
def halfArith (nan : Half) : Arith Half where
  add a b    := add16 nan a b
  sub a b    := sub16 nan a b
  mulC x c   := mul16 nan x c.half
  fmaC a x c := fma16 nan a x c.half
  fmsC a x c := fms16 nan a x c.half

/-- Lane vectors: `op(v, w)[l] = op(v[l], w[l])`, a constant the same in all lanes (`40_numerics.md` R113). -/
def laneArith (nan : Half) : Arith LaneVec where
  add a b    := Vector.zipWith (add16 nan) a b
  sub a b    := Vector.zipWith (sub16 nan) a b
  mulC x c   := x.map fun h => mul16 nan h c.half
  fmaC a x c := Vector.zipWith (fun h k => fma16 nan h k c.half) a x
  fmsC a x c := Vector.zipWith (fun h k => fms16 nan h k c.half) a x

/-- Exact arithmetic on rationals: what the formulas of the source mean (`43_input_transform.md` R182). -/
def exactArith : Arith ℚ where
  add a b    := a + b
  sub a b    := a - b
  mulC x c   := x * c.exact
  fmaC a x c := a + x * c.exact
  fmsC a x c := a - x * c.exact

/-- `bt8(a0, ..., a7) = (t0, ..., t7)` (`43_input_transform.md` R177 to R181). -/
def bt8 {α : Type} (A : Arith α) (a : Vector α 8) : Vector α 8 :=
  let t0 := A.fmaC (A.sub a[0] a[6]) (A.sub a[4] a[2]) .c5_25
  let t7 := A.fmaC (A.sub a[7] a[1]) (A.sub a[3] a[5]) .c5_25
  let p12 := A.fmsC (A.add a[2] a[6]) a[4] .c4_25
  let q12 := A.fmsC (A.add a[1] a[5]) a[3] .c4_25
  let p34 := A.fmsC (A.fmaC a[6] a[2] .c0_25) a[4] .c1_25
  let q34 := A.fmaC (A.fmsC (A.mulC a[1] .c0_5) a[3] .c2_5) a[5] .c2
  let p56 := A.fmaC a[6] (A.fmsC a[2] a[4] .c1_25) .c4
  let q56 := A.fmaC (A.fmsC (A.mulC a[1] .c2) a[3] .c2_5) a[5] .c0_5
  #v[t0, A.add p12 q12, A.sub p12 q12, A.add p34 q34, A.sub p34 q34, A.add p56 q56, A.sub p56 q56, t7]

/-- `at6(b0, ..., b7) = (r0, ..., r5)` (`45_output_transform.md` R217 to R221; `r0` and `r5` grouped as `AT_TREE`
says, R216, R229). -/
def at6 {α : Type} (A : Arith α) (tree : AtTree) (b : Vector α 8) : Vector α 6 :=
  let e0 := A.add b[1] b[2]
  let o0 := A.sub b[1] b[2]
  let e1 := A.add b[3] b[4]
  let o1 := A.sub b[3] b[4]
  let e2 := A.add b[5] b[6]
  let o2 := A.sub b[5] b[6]
  let r0 := match tree with
    | .left     => A.fmaC (A.add (A.add b[0] e0) e1) e2 .c32
    | .upstream => A.add (A.add b[0] e0) (A.fmaC e1 e2 .c32)
  let r5 := match tree with
    | .left     => A.add (A.fmaC (A.add b[7] o0) o1 .c32) o2
    | .upstream => A.add (A.add b[7] o0) (A.fmaC o2 o1 .c32)
  #v[r0,
     A.fmaC (A.fmaC o0 o1 .c2) o2 .c16,
     A.fmaC (A.fmaC e0 e1 .c4) e2 .c8,
     A.fmaC (A.fmaC o0 o1 .c8) o2 .c4,
     A.fmaC (A.fmaC e0 e1 .c16) e2 .c2,
     r5]

/-- The row pass of `xin_tile` (`43_input_transform.md` R184): `tmp[t][m]` is output `t` of spatial row `m`. -/
def xinRowPass {α : Type} (A : Arith α) (d : Grid α 8 8) : Grid α 8 8 :=
  let rows := d.map (bt8 A)
  Vector.ofFn fun t => Vector.ofFn fun m => rows[m][t]

/-- The column pass of `xin_tile`: `V[8*t + u]` is at `[t][u]` (`43_input_transform.md` R184). -/
def xinColumnPass {α : Type} (A : Arith α) (tmp : Grid α 8 8) : Grid α 8 8 := tmp.map (bt8 A)

/-- `xin_tile(d)` (`43_input_transform.md` R184). -/
def xinTile {α : Type} (A : Arith α) (d : Grid α 8 8) : Grid α 8 8 := xinColumnPass A (xinRowPass A d)

/-- The first pass of `xout_tile` (`45_output_transform.md` R223): `tmp[i][t]`, with `M[8*t + u]` at `[t][u]`. -/
def xoutFirstPass {α : Type} (A : Arith α) (tree : AtTree) (M : Grid α 8 8) : Grid α 6 8 :=
  let rows := M.map (at6 A tree)
  Vector.ofFn fun i => Vector.ofFn fun t => rows[t][i]

/-- The second pass of `xout_tile`, the bias added last (`45_output_transform.md` R223). -/
def xoutSecondPass {α : Type} (A : Arith α) (tree : AtTree) (tmp : Grid α 6 8) (bias : α) : Grid α 6 6 :=
  tmp.map fun row => (at6 A tree row).map fun r => A.add r bias

/-- `xout_tile(M, bias)` (`45_output_transform.md` R223). -/
def xoutTile {α : Type} (A : Arith α) (tree : AtTree) (M : Grid α 8 8) (bias : α) : Grid α 6 6 :=
  xoutSecondPass A tree (xoutFirstPass A tree M) bias

/-- `G32[u][r]` (`41_filter_transform.md` R141). -/
def g32 : Grid Single 8 3 :=
  #v[#v[0x3F800000#32, 0x00000000#32, 0x00000000#32],
     #v[0xBE638E39#32, 0xBE638E39#32, 0xBE638E39#32],
     #v[0xBE638E39#32, 0x3E638E39#32, 0xBE638E39#32],
     #v[0x3C360B61#32, 0x3CB60B61#32, 0x3D360B61#32],
     #v[0x3C360B61#32, 0xBCB60B61#32, 0x3D360B61#32],
     #v[0x3CB60B61#32, 0x3C360B61#32, 0x3BB60B61#32],
     #v[0x3CB60B61#32, 0xBC360B61#32, 0x3BB60B61#32],
     #v[0x00000000#32, 0x00000000#32, 0x3F800000#32]]

/-- The two operations the filter transform is built from (`41_filter_transform.md` R142). -/
structure FilterArith (α : Type) where
  /-- `a + b` -/
  add : α → α → α
  /-- `a * b` -/
  mul : α → α → α

/-- Single-precision arithmetic, one rounding per operation (`41_filter_transform.md` R142). -/
def singleFilterArith : FilterArith Single where
  add := add32
  mul := mul32

/-- Exact arithmetic on rationals: what `U = G K Gt` means (`41_filter_transform.md` R140). -/
def exactFilterArith : FilterArith ℚ where
  add a b := a + b
  mul a b := a * b

/-- One row of the matrix applied to three values, unfused, left to right (`41_filter_transform.md` R142). -/
def filterRow {α : Type} (A : FilterArith α) (x g : Vector α 3) : α :=
  A.add (A.add (A.mul x[0] g[0]) (A.mul x[1] g[1])) (A.mul x[2] g[2])

/-- First pass, along the tap column axis: `W1[t][r]` (`41_filter_transform.md` R142). -/
def filterFirstPass {α : Type} (A : FilterArith α) (G : Grid α 8 3) (K : Grid α 3 3) : Grid α 8 3 :=
  Vector.ofFn fun t => Vector.ofFn fun r => filterRow A K[r] G[t]

/-- Second pass, along the tap row axis: `U32[8*t + u]` at `[t][u]` (`41_filter_transform.md` R143). -/
def filterSecondPass {α : Type} (A : FilterArith α) (G W1 : Grid α 8 3) : Grid α 8 8 :=
  Vector.ofFn fun t => Vector.ofFn fun u => filterRow A W1[t] G[u]

/-- The two passes over one arithmetic and one matrix (`41_filter_transform.md` R142, R143). -/
def filterTileOver {α : Type} (A : FilterArith α) (G : Grid α 8 3) (K : Grid α 3 3) : Grid α 8 8 :=
  filterSecondPass A G (filterFirstPass A G K)

/-- `U32` of one 3x3 tap matrix (`41_filter_transform.md` R140 to R143). -/
def filterTile (K : Grid Single 3 3) : Grid Single 8 8 := filterTileOver singleFilterArith g32 K

/-- `dot` of `44_contraction.md` R199 over the first `n` input channels: one chain, ascending, from `+0`. -/
def dotChain (nan : Half) (filter input : Nat → Half) : Nat → Half
  | 0     => 0
  | c + 1 => fma16 nan (dotChain nan filter input c) (filter c) (input c)

end Sys2Proof.Machine
end

