-- ==== Sys2Proof/Machine/Filter.lean ====
section
/-! DEFINITION. The Filter Transform, command `tfilt` (`spec/41_filter_transform.md`). -/

namespace Sys2Proof.Machine

/-- Unit `o` of stage `TFILT`, one output channel (`41_filter_transform.md` R146, R147). -/
def tfiltUnit (cfg : Config) (P : Params) (src dst o : Nat) (w : Work) : Option Work :=
  loop P.inCh (fun c w => do
    let K ← loadTaps cfg w.mem src fun r cc => rfIndex P.inCh o c r cc
    let U := filterTile K
    loop 8 (fun t => loop 8 fun u =>
      storeHalf cfg dst (tfIndex P.inCh (o / 8) (8 * t + u) (c / 8) (c % 8) (o % 8))
        (cvt32to16 cfg.nanBits cfg.cvtRm (gridAt 0 U t u))) w) w

/-- `tfilt` (`41_filter_transform.md` R146; `30_encoding.md` R86). -/
def tfiltCommand : Command where
  uses        := [.inChannels, .outChannels, .nWork]
  fits        := false
  regions P   := [⟨.source, P.srcBase.toNat, P.rfB⟩, ⟨.dest, P.dstBase.toNat, P.tfB⟩]
  scratch     := false
  need _      := 0
  stages      := [.tfilt]
  dstLast     := false
  unit cfg P _ o w := tfiltUnit cfg P P.srcBase.toNat P.dstBase.toNat o w

end Sys2Proof.Machine
end

