-- ==== Sys2Proof/Machine/InputTransform.lean ====
section
/-! DEFINITION. The Input Transform, command `xin` (`spec/43_input_transform.md`). -/

namespace Sys2Proof.Machine

/-- Unit `p` of stage `XIN`, one input channel group (`43_input_transform.md` R185, R186); the row pass fills the
worker's staging buffer (`10_state.md` R23), which keeps the last tile's values after the unit; the spec lets them be
any value (`93_implementation_defined.md` U13): DESIGN CHOICE, log entry 21. -/
def xinUnit (cfg : Config) (P : Params) (src dst p : Nat) (w : Work) : Option Work :=
  loop P.tilesY (fun ty => loop P.tilesX fun tx w => do
    let d ← loadGrid cfg w.mem src 8 8 fun y x => fmIndex P.padW P.padH p (6 * ty + y) (6 * tx + x) 0
    let tmp := xinRowPass (laneArith cfg.nanBits) d
    let V := xinColumnPass (laneArith cfg.nanBits) tmp
    loop 8 (fun t => loop 8 fun u =>
      storeLanes cfg dst (tiIndex P.tiles p (8 * t + u) (ty * P.tilesX + tx) 0) (gridAt zeroLanes V t u))
      { w with worker := { w.worker with staging := tmp } }) w

/-- `xin` (`43_input_transform.md` R185; `30_encoding.md` R86). -/
def xinCommand : Command where
  uses        := [.outWidth, .outHeight, .inChannels, .nWork]
  fits        := false
  regions P   := [⟨.source, P.srcBase.toNat, P.padB⟩, ⟨.dest, P.dstBase.toNat, P.tiB⟩]
  scratch     := false
  need _      := 0
  stages      := [.xin]
  dstLast     := false
  unit cfg P _ p w := xinUnit cfg P P.srcBase.toNat P.dstBase.toNat p w

end Sys2Proof.Machine
end

