-- ==== Sys2Proof/Machine/OutputTransform.lean ====
section
/-! DEFINITION. The Output inverse Transform, commands `xout` and `xout.b` (`spec/45_output_transform.md`). -/

namespace Sys2Proof.Machine

/-- The first pass of an output unit fills rows 0 to 5 of the worker's staging buffer (`10_state.md` R23), which is the
buffer of the input transform: rows 6 and 7 are kept, and rows 0 to 5 hold the last tile's values after the unit. The
spec lets them be any value between commands (`93_implementation_defined.md` U13): DESIGN CHOICE, log entry 21. -/
def stageSix (staging : Grid LaneVec 8 8) (tmp : Grid LaneVec 6 8) : Grid LaneVec 8 8 :=
  Vector.ofFn fun i => if h : i.val < 6 then tmp[i.val] else staging[i]

/-- The bias lane vector of output group `q` (`45_output_transform.md` R224, R226): `+0` without a bias. -/
def loadBias (cfg : Config) (m : Memory) (withBias : Bool) (base q : Nat) : Option LaneVec :=
  if withBias then loadLanes cfg m base (8 * q) else some zeroLanes

/-- Unit `q` of stage `XOUT`, one output group (`45_output_transform.md` R224 to R226). -/
def xoutUnit (cfg : Config) (P : Params) (withBias : Bool) (bias src dst q : Nat) (w : Work) : Option Work := do
  let b ← loadBias cfg w.mem withBias bias q
  loop P.tilesY (fun ty => loop P.tilesX fun tx w => do
    let M ← loadGrid cfg w.mem src 8 8 fun t u => toIndex P.tiles q (8 * t + u) (ty * P.tilesX + tx) 0
    let tmp := xoutFirstPass (laneArith cfg.nanBits) cfg.atTree M
    let y := xoutSecondPass (laneArith cfg.nanBits) cfg.atTree tmp b
    loop 6 (fun i => loop 6 fun j =>
      storeLanes cfg dst (fmIndex P.outWp P.outHp q (6 * ty + i) (6 * tx + j) 0) (gridAt zeroLanes y i j))
      { w with worker := { w.worker with staging := stageSix w.worker.staging tmp } }) w

/-- `xout` (`45_output_transform.md` R224; `30_encoding.md` R86). -/
def xoutCommand : Command where
  uses        := [.outWidth, .outHeight, .outChannels, .nWork]
  fits        := false
  regions P   := [⟨.source, P.srcBase.toNat, P.toB⟩, ⟨.dest, P.dstBase.toNat, P.opB⟩]
  scratch     := false
  need _      := 0
  stages      := [.xout]
  dstLast     := false
  unit cfg P _ q w := xoutUnit cfg P false P.biasBase.toNat P.srcBase.toNat P.dstBase.toNat q w

/-- `xout.b` (`45_output_transform.md` R226; `30_encoding.md` R86). -/
def xoutBCommand : Command where
  uses        := [.outWidth, .outHeight, .outChannels, .nWork]
  fits        := false
  regions P   := [⟨.source, P.srcBase.toNat, P.toB⟩, ⟨.dest, P.dstBase.toNat, P.opB⟩,
                  ⟨.bias, P.biasBase.toNat, P.biasB⟩]
  scratch     := false
  need _      := 0
  stages      := [.xout]
  dstLast     := false
  unit cfg P _ q w := xoutUnit cfg P true P.biasBase.toNat P.srcBase.toNat P.dstBase.toNat q w

end Sys2Proof.Machine
end

