-- ==== Sys2Proof/Machine/PadCrop.lean ====
section
/-! DEFINITION. The padding and crop adapters, commands `pad` and `crop` (`spec/42_pad_crop.md`). -/

namespace Sys2Proof.Machine

/-- Unit `g` of stage `PAD`, one channel group (`42_pad_crop.md` R161, R162): a copy of bit patterns, zeros to the
right and below. -/
def padUnit (cfg : Config) (P : Params) (src dst g : Nat) (w : Work) : Option Work :=
  loop P.padH (fun y => loop P.padW fun x w => do
    let v ← if y < P.inH ∧ x < P.inW then loadLanes cfg w.mem src (fmIndex P.inW P.inH g y x 0) else some zeroLanes
    storeLanes cfg dst (fmIndex P.padW P.padH g y x 0) v w) w

/-- Unit `g` of stage `CROP`, one channel group (`42_pad_crop.md` R165, R166). -/
def cropUnit (cfg : Config) (P : Params) (src dst g : Nat) (w : Work) : Option Work :=
  loop P.outH (fun y => loop P.outW fun x w => do
    let v ← loadLanes cfg w.mem src (fmIndex P.outWp P.outHp g y x 0)
    storeLanes cfg dst (fmIndex P.outW P.outH g y x 0) v w) w

/-- `pad` (`42_pad_crop.md` R161; `30_encoding.md` R86). -/
def padCommand : Command where
  uses        := [.inWidth, .inHeight, .outWidth, .outHeight, .inChannels, .nWork]
  fits        := true
  regions P   := [⟨.source, P.srcBase.toNat, P.inB⟩, ⟨.dest, P.dstBase.toNat, P.padB⟩]
  scratch     := false
  need _      := 0
  stages      := [.pad]
  dstLast     := false
  unit cfg P _ g w := padUnit cfg P P.srcBase.toNat P.dstBase.toNat g w

/-- `crop` (`42_pad_crop.md` R165; `30_encoding.md` R86). -/
def cropCommand : Command where
  uses        := [.outWidth, .outHeight, .outChannels, .nWork]
  fits        := false
  regions P   := [⟨.source, P.srcBase.toNat, P.opB⟩, ⟨.dest, P.dstBase.toNat, P.outB⟩]
  scratch     := false
  need _      := 0
  stages      := [.crop]
  dstLast     := false
  unit cfg P _ g w := cropUnit cfg P P.srcBase.toNat P.dstBase.toNat g w

end Sys2Proof.Machine
end

