-- ==== Sys2Proof/Machine/Convolve.lean ====
section
/-! DEFINITION. The fused pipeline, commands `convolve` and `convolve.b` (`spec/46_convolve.md`). -/

namespace Sys2Proof.Machine

/-- The address of scratch sub-region `S0`, the padded input (`46_convolve.md` R237). -/
def Params.s0 (P : Params) : Nat := P.scrBase.toNat
/-- `S1`, TransformedInput (R237). -/
def Params.s1 (P : Params) : Nat := P.s0 + P.padB
/-- `S2`, the interleaved input (R237). -/
def Params.s2 (P : Params) : Nat := P.s1 + P.tiB
/-- `S3`, TransformedOutput (R237). -/
def Params.s3 (P : Params) : Nat := P.s2 + P.ti2B
/-- `S4`, the padded output (R237). -/
def Params.s4 (P : Params) : Nat := P.s3 + P.toB

/-- `SCR_NEED` of the pipeline (`30_encoding.md` R86, `46_convolve.md` R237). -/
def Params.convolveNeed (P : Params) : Nat := P.padB + P.tiB + P.ti2B + P.toB + P.opB

/-- A unit of work of a stage of the pipeline (`46_convolve.md` R235, R238). -/
def convolveUnit (withBias : Bool) (cfg : Config) (P : Params) (st : Stage) (n : Nat) (w : Work) : Option Work :=
  match st with
  | .idle   => some w
  | .check  => some w
  | .pad    => padUnit cfg P P.srcBase.toNat P.s0 n w
  | .xin    => xinUnit cfg P P.s0 P.s1 n w
  | .repack => repackUnit cfg P P.s1 P.s2 n w
  | .gemm   => gemmUnit cfg P P.filtBase.toNat P.s2 P.s3 n w
  | .xout   => xoutUnit cfg P withBias P.biasBase.toNat P.s3 P.s4 n w
  | .crop   => cropUnit cfg P P.s4 P.dstBase.toNat n w
  | .tfilt  => some w

/-- `convolve` (`46_convolve.md` R235; `30_encoding.md` R86). -/
def convolveCommand : Command where
  uses        := [.inWidth, .inHeight, .outWidth, .outHeight, .inChannels, .outChannels, .nWork]
  fits        := true
  regions P   := [⟨.source, P.srcBase.toNat, P.inB⟩, ⟨.dest, P.dstBase.toNat, P.outB⟩,
                  ⟨.filter, P.filtBase.toNat, P.tfB⟩, ⟨.scratch, P.scrBase.toNat, P.scrSize.toNat⟩]
  scratch     := true
  need P      := P.convolveNeed
  stages      := [.pad, .xin, .repack, .gemm, .xout, .crop]
  dstLast     := true
  unit        := convolveUnit false

/-- `convolve.b` (`46_convolve.md` R238; `30_encoding.md` R86). -/
def convolveBCommand : Command where
  uses        := [.inWidth, .inHeight, .outWidth, .outHeight, .inChannels, .outChannels, .nWork]
  fits        := true
  regions P   := [⟨.source, P.srcBase.toNat, P.inB⟩, ⟨.dest, P.dstBase.toNat, P.outB⟩,
                  ⟨.filter, P.filtBase.toNat, P.tfB⟩, ⟨.bias, P.biasBase.toNat, P.biasB⟩,
                  ⟨.scratch, P.scrBase.toNat, P.scrSize.toNat⟩]
  scratch     := true
  need P      := P.convolveNeed
  stages      := [.pad, .xin, .repack, .gemm, .xout, .crop]
  dstLast     := true
  unit        := convolveUnit true

end Sys2Proof.Machine
end

