-- ==== Sys2Proof/Machine/Commands.lean ====
section
/-! DEFINITION. The meaning of every command: the write of its word to `CMD` (`spec/30_encoding.md` R84) and what
the core then does until the host acts again, to the command's completion where the host waits for it. -/

namespace Sys2Proof.Machine

/-- What the hardware knows of each command. -/
def commandOf : Instr → Command
  | .tfilt     => tfiltCommand
  | .pad       => padCommand
  | .xin       => xinCommand
  | .contract  => contractCommand
  | .xout      => xoutCommand
  | .xoutB     => xoutBCommand
  | .crop      => cropCommand
  | .convolve  => convolveCommand
  | .convolveB => convolveBCommand

/-- The command in flight: the one `LCMD` encodes (`10_state.md` R12). -/
def State.inFlight (s : State) : Option Command :=
  match decode s.lcmd with
  | .ok i    => some (commandOf i)
  | .error _ => none

/-- The core goes on with the command in flight until the host acts again (log entry 1). Without a legal latched
command, which no run reaches while `BUSY = 1`, it does nothing (log entry 16). -/
def State.carryOn (s : State) : State :=
  match s.inFlight with
  | some c => c.transactions (c.quota s) s
  | none   => s

/-- A legal command word is written to `CMD`, and the core goes on (`30_encoding.md` R84). -/
def State.issue (s : State) (i : Instr) : State := (s.takeCommand i).carryOn

/-- `tfilt` (`41_filter_transform.md` R146). -/
def execTfilt (s : State) : Host.Outcome State Fault Refusal := .next (s.issue .tfilt)

/-- `pad` (`42_pad_crop.md` R161). -/
def execPad (s : State) : Host.Outcome State Fault Refusal := .next (s.issue .pad)

/-- `xin` (`43_input_transform.md` R185). -/
def execXin (s : State) : Host.Outcome State Fault Refusal := .next (s.issue .xin)

/-- `contract` (`44_contraction.md` R195). -/
def execContract (s : State) : Host.Outcome State Fault Refusal := .next (s.issue .contract)

/-- `xout` (`45_output_transform.md` R224). -/
def execXout (s : State) : Host.Outcome State Fault Refusal := .next (s.issue .xout)

/-- `xout.b` (`45_output_transform.md` R226). -/
def execXoutB (s : State) : Host.Outcome State Fault Refusal := .next (s.issue .xoutB)

/-- `crop` (`42_pad_crop.md` R165). -/
def execCrop (s : State) : Host.Outcome State Fault Refusal := .next (s.issue .crop)

/-- `convolve` (`46_convolve.md` R235). -/
def execConvolve (s : State) : Host.Outcome State Fault Refusal := .next (s.issue .convolve)

/-- `convolve.b` (`46_convolve.md` R238). -/
def execConvolveB (s : State) : Host.Outcome State Fault Refusal := .next (s.issue .convolveB)

end Sys2Proof.Machine
end

