-- ==== Sys2Proof/Machine/Dispatch.lean ====
section
/-! DEFINITION. One arm per command. -/

namespace Sys2Proof.Machine

def exec (i : Instr) (s : State) : Host.Outcome State Fault Refusal :=
  match i with
  | .tfilt => Sys2Proof.Machine.execTfilt s
  | .pad => Sys2Proof.Machine.execPad s
  | .xin => Sys2Proof.Machine.execXin s
  | .contract => Sys2Proof.Machine.execContract s
  | .xout => Sys2Proof.Machine.execXout s
  | .xoutB => Sys2Proof.Machine.execXoutB s
  | .crop => Sys2Proof.Machine.execCrop s
  | .convolve => Sys2Proof.Machine.execConvolve s
  | .convolveB => Sys2Proof.Machine.execConvolveB s

end Sys2Proof.Machine
end

