-- ==== Sys2Proof/Machine/HostPort.lean ====
section
/-! DEFINITION. What the host does to the core besides issuing commands: register accesses (`spec/10_state.md`
R11 to R20), memory accesses (`spec/20_memory.md` R64) and reset (`spec/70_reset_and_hazards.md` R280). -/

namespace Sys2Proof.Machine

/-- A register read; it has no side effect (`10_state.md` R20). -/
def State.readReg (s : State) (index : Nat) : Word :=
  match regAt index with
  | .id       => idConstant
  | .cmd      => s.cmd
  | .status   => s.status.word
  | .ctrl     => ctrlWord s.ie
  | .err      => s.err.code
  | .stage    => s.stage.code
  | .param p  => s.params.get p
  | .reserved => 0

/-- A register write, but for one of a legal word to `CMD`, which is the command (`10_state.md` R11, R13 to R19;
`30_encoding.md` R84, R85). -/
def State.writeReg (s : State) (index : Nat) (v : Word) : State :=
  match regAt index with
  | .id       => s
  | .cmd      => s.takeIllegal v
  | .status   => { s with status := s.status.clear v }
  | .ctrl     => { s with ie := v.getLsbD 0 }
  | .err      => s
  | .stage    => s
  | .param p  => { s with params := s.params.set v p }
  | .reserved => s

/-- The host's address of register `n` (`30_encoding.md` R81): byte offset `8*n` from `REG_BASE`. -/
def regAddress (cfg : Config) (n : Nat) : Nat := cfg.regBase + 8 * n

/-- The register that a host access names (`10_state.md` R20): an aligned 64-bit access inside the window. -/
def indexAt (cfg : Config) (address width : Nat) : Option Nat :=
  if cfg.regBase ≤ address ∧ (address - cfg.regBase) % 8 = 0 ∧ width = 8 then some ((address - cfg.regBase) / 8)
  else none

/-- The command that a register write issues, if it is one (`30_encoding.md` R84). -/
def issuedBy (index : Nat) (v : Word) : Option Instr :=
  if regAt index = .cmd then
    match decode v with
    | .ok i    => some i
    | .error _ => none
  else none

/-- The regions of the command in flight; none when no command is (`20_memory.md` R60). -/
def State.liveRegions (s : State) : List Region :=
  if s.status.busy then
    match s.inFlight with
    | some c => c.regions s.latch
    | none   => []
  else []

/-- Does a host write race with the command in flight (`20_memory.md` R64). -/
def State.writeRaces (s : State) (a : Nat) : Bool := s.liveRegions.any fun r => r.holds a

/-- Does a host read race with the command in flight: its destination or scratch (`20_memory.md` R64). -/
def State.readRaces (s : State) (a : Nat) : Bool :=
  s.liveRegions.any fun r => (decide (r.role = .dest) || decide (r.role = .scratch)) && r.holds a

/-- The host reads a byte of memory. A racing read is refused (`93_implementation_defined.md` U5, log entry 13). -/
def State.hostMemRead (s : State) (a : Nat) : Host.Outcome State Fault Refusal :=
  if s.readRaces a then .refused .hostRace
  else if backs s.cfg a 1 then .next { s with hostData := (s.mem.read a).setWidth 64 }
  else .fault .hostBus

/-- The host writes a byte of memory. A racing write is refused (`93_implementation_defined.md` U5). -/
def State.hostMemWrite (s : State) (a : Nat) (v : Byte) : Host.Outcome State Fault Refusal :=
  if s.writeRaces a then .refused .hostRace
  else if backs s.cfg a 1 then .next { s with mem := s.mem.write a v }
  else .fault .hostBus

/-- The host reads a register (`10_state.md` R20, `93_implementation_defined.md` U19). -/
def State.hostRegRead (s : State) (address width : Nat) : Host.Outcome State Fault Refusal :=
  match indexAt s.cfg address width with
  | some n => .next { s with hostData := s.readReg n }
  | none   => .refused .registerAccess

/-- The memory a reset leaves (`70_reset_and_hazards.md` R280, `93_implementation_defined.md` U10): the destination
and scratch of an abandoned command are unspecified (log entry 12). -/
def State.abandon (s : State) : State :=
  if s.status.busy then
    match s.inFlight with
    | some c => s.unspecifyAll (c.destination s.latch ++ c.scratchUse s.latch)
    | none   => s
  else s

/-- The reset input (`70_reset_and_hazards.md` R280, R281). -/
def State.resetInput (s : State) : State := s.abandon.resetRegisters

/-- What the core does after a host action that is no command. -/
def thenCarryOn : Host.Outcome State Fault Refusal → Host.Outcome State Fault Refusal
  | .next s    => .next s.carryOn
  | .fault r   => .fault r
  | .refused r => .refused r

end Sys2Proof.Machine
end

