-- ==== Sys2Proof/Machine/HostStep.lean ====
section
/-! DEFINITION. One host action and what the core does after it (`spec/00_scope.md` R6; log entries 1 and 2). -/

namespace Sys2Proof.Machine

/-- A register write: a legal word written to `CMD` is a command (`30_encoding.md` R84). -/
def stepRegWrite (address width : Nat) (v : Word) (s : State) : Host.Outcome State Fault Refusal :=
  match indexAt s.cfg address width with
  | none   => .refused .registerAccess
  | some n =>
    match issuedBy n v with
    | some i => exec i s
    | none   => .next (s.writeReg n v).carryOn

/-- One host action, then the core's transactions until the next one. -/
def stepAction (act : HostAction) (s : State) : Host.Outcome State Fault Refusal :=
  match act with
  | .regRead address width    => thenCarryOn (s.hostRegRead address width)
  | .regWrite address width v => stepRegWrite address width v s
  | .memRead a                => thenCarryOn (s.hostMemRead a.toNat)
  | .memWrite a v             => thenCarryOn (s.hostMemWrite a.toNat v)
  | .reset                    => .next s.resetInput

/-- The event that makes the host write `v` to the register at `index`, once the core is idle. -/
def regWriteEvent (cfg : Config) (index : Nat) (v : Word) : HostEvent := ⟨none, .regWrite (regAddress cfg index) 8 v⟩

/-- The event of the command word `w` of an opcode-table row of `nbits` bits being written to `CMD`. -/
def commandEvent (cfg : Config) (nbits w : Nat) : HostEvent := regWriteEvent cfg 1 (BitVec.ofNat 64 (w % 2 ^ nbits))

end Sys2Proof.Machine
end

