-- ==== Sys2Proof/Machine/Step.lean ====
section
/-! DEFINITION. One step: the host's next action, then the core's transactions until the host acts again
(`spec/00_scope.md` R6; log entries 1 and 2). -/

namespace Sys2Proof.Machine

/-- One step. With nothing left for the host to do, a command in flight runs to its completion and an idle core
stays idle. -/
def step (s : State) : Host.Outcome State Fault Refusal :=
  match s.host with
  | []      => .next s.carryOn
  | e :: es => stepAction e.act { s with host := es }

/-- The command word `w` is what the host writes to `CMD` next (log entry 2). -/
def State.withFetchWord (s : State) (nbits w : Nat) : State :=
  { s with host := commandEvent s.cfg nbits w :: s.host }

end Sys2Proof.Machine
end

