-- ==== Sys2Proof/Machine/Tensors.lean ====
section
/-! DEFINITION. What each stage computes, tensor by tensor and without memory, addresses or workers: the terms in
which the claims speak of results (`spec/40_numerics.md` to `spec/46_convolve.md`). No step uses them. A tensor is
the function from its coordinates to its values, in the coordinate order of `spec/20_memory.md` R51 to R57. -/

namespace Sys2Proof.Machine

/-- A feature map: `g y x l` (`20_memory.md` R51). -/
abbrev FeatureMap := Nat → Nat → Nat → Nat → Half

/-- A TransformedFilter: `q k p i j` (R53). -/
abbrev FilterBank := Nat → Nat → Nat → Nat → Nat → Half

/-- A TransformedInput `p k tile i` (R54) or TransformedOutput `q k tile j` (R56). -/
abbrev Spectrum := Nat → Nat → Nat → Nat → Half

/-- The feature map at `base` (`20_memory.md` R51). -/
def Memory.featureMap (m : Memory) (base w h : Nat) : FeatureMap :=
  fun g y x l => m.half base (fmIndex w h g y x l)

/-- The TransformedFilter at `base` (R53). -/
def Memory.filterBank (m : Memory) (base inCh : Nat) : FilterBank :=
  fun q k p i j => m.half base (tfIndex inCh q k p i j)

/-- The TransformedInput at `base` (R54). -/
def Memory.inputSpectrum (m : Memory) (base T : Nat) : Spectrum :=
  fun p k tile i => m.half base (tiIndex T p k tile i)

/-- The TransformedOutput at `base` (R56). -/
def Memory.outputSpectrum (m : Memory) (base T : Nat) : Spectrum :=
  fun q k tile j => m.half base (toIndex T q k tile j)

/-- The bias vector at `base`: `q l` (R57). -/
def Memory.biasVector (m : Memory) (base : Nat) : Nat → Nat → Half :=
  fun q l => m.half base (8 * q + l)

/-- The tap matrix of the channel pair `(o, c)` of the raw filter at `base` (R52). -/
def Memory.taps (m : Memory) (base inCh o c : Nat) : Grid Single 3 3 :=
  Vector.ofFn fun r => Vector.ofFn fun cc => m.single base (rfIndex inCh o c r cc)

/-- An `8` by `8` block of values. -/
def block8 (f : Nat → Nat → Half) : Grid Half 8 8 := Vector.ofFn fun a => Vector.ofFn fun b => f a b

/-- Coefficient `k` of the transformed taps (`41_filter_transform.md` R142 to R144). -/
def filterCoef (nan : Half) (rm : CvtRm) (K : Grid Single 3 3) (k : Nat) : Half :=
  cvt32to16 nan rm (gridAt 0 (filterTile K) (k / 8) (k % 8))

/-- `G` in exact arithmetic (`41_filter_transform.md` R140). -/
def gExact : Grid ℚ 8 3 :=
  #v[#v[1, 0, 0],
     #v[-2 / 9, -2 / 9, -2 / 9],
     #v[-2 / 9, 2 / 9, -2 / 9],
     #v[1 / 90, 1 / 45, 2 / 45],
     #v[1 / 90, -1 / 45, 2 / 45],
     #v[1 / 45, 1 / 90, 1 / 180],
     #v[1 / 45, -1 / 90, 1 / 180],
     #v[0, 0, 1]]

/-- `U = G K Gt` in exact arithmetic, the entry of coefficient `8*t + u` at `[t][u]` (R140). -/
def exactFilterTile (K : Grid ℚ 3 3) : Grid ℚ 8 8 :=
  Vector.ofFn fun t => Vector.ofFn fun u =>
    ∑ r : Fin 3, ∑ cc : Fin 3, gExact[u][r] * K[r][cc] * gExact[t][cc]

/-- The TransformedFilter of the raw filter at `base` (R145, R146). -/
def Memory.transformedFilter (m : Memory) (cfg : Config) (P : Params) (base : Nat) : FilterBank :=
  fun q k p i j => filterCoef cfg.nanBits cfg.cvtRm (m.taps base P.inCh (8 * q + j) (8 * p + i)) k

/-- The padded map (`42_pad_crop.md` R161). -/
def padded (P : Params) (f : FeatureMap) : FeatureMap :=
  fun g y x l => if y < P.inH ∧ x < P.inW then f g y x l else 0

/-- The TransformedInput of a padded map (`43_input_transform.md` R184, R185). -/
def transformedInput (nan : Half) (P : Params) (f : FeatureMap) : Spectrum :=
  fun p k tile i =>
    gridAt 0 (xinTile (halfArith nan)
      (block8 fun y x => f p (6 * (tile / P.tilesX) + y) (6 * (tile % P.tilesX) + x) i)) (k / 8) (k % 8)

/-- The TransformedOutput: `dot(q, k, tile, j)` (`44_contraction.md` R199). -/
def contracted (nan : Half) (P : Params) (F : FilterBank) (V : Spectrum) : Spectrum :=
  fun q k tile j =>
    dotChain nan (fun c => F q k (c / 8) (c % 8) j) (fun c => V (c / 8) k tile (c % 8)) P.inCh

/-- The padded output (`45_output_transform.md` R223, R224). -/
def transformedOutput (cfg : Config) (P : Params) (M : Spectrum) (bias : Nat → Nat → Half) : FeatureMap :=
  fun q y x l =>
    gridAt 0 (xoutTile (halfArith cfg.nanBits) cfg.atTree
      (block8 fun t u => M q (8 * t + u) (y / 6 * P.tilesX + x / 6) l) (bias q l)) (y % 6) (x % 6)

/-- The bias of a command without one (`45_output_transform.md` R224). -/
def noBias : Nat → Nat → Half := fun _ _ => 0

/-- What the whole pipeline computes (`46_convolve.md` R235, R241). -/
def pipeline (cfg : Config) (P : Params) (f : FeatureMap) (F : FilterBank) (bias : Nat → Nat → Half) : FeatureMap :=
  transformedOutput cfg P
    (contracted cfg.nanBits P F (transformedInput cfg.nanBits P (padded P f))) bias

/-- The function the pipeline approximates, in exact arithmetic: a 3x3 cross-correlation (`46_convolve.md` R240). -/
def exactOutput (inCh : Nat) (K : Nat → Nat → Nat → Nat → ℚ) (input : Nat → Nat → Nat → ℚ) (bias : Nat → ℚ)
    (o y x : Nat) : ℚ :=
  bias o + ∑ c ∈ Finset.range inCh, ∑ r ∈ Finset.range 3, ∑ cc ∈ Finset.range 3, K o c r cc * input c (y + r) (x + cc)

/-- Is a half finite and within the relative error `TOL` of an exact value (`46_convolve.md` R241, `00_scope.md` R5). -/
def tolerates (cfg : Config) (result : Half) (exact : ℚ) : Bool :=
  match binary16.unpack result.toNat with
  | .fin s n => decide (|(signedInt s n : ℚ) / 2 ^ 24 - exact| ≤ cfg.tol * |exact|)
  | .inf _   => false
  | .nan     => false

/-- The source's equivalence property of an output map for exact taps, input and bias (`46_convolve.md` R241). The
spec states no error bound as a rule, and no statement claims that the property holds: log entry 22. -/
def EquivalenceProperty (cfg : Config) (P : Params) (K : Nat → Nat → Nat → Nat → ℚ) (input : Nat → Nat → Nat → ℚ)
    (bias : Nat → ℚ) (out : FeatureMap) : Prop :=
  ∀ o y x, o < P.outCh → y < P.outH → x < P.outW →
    tolerates cfg (out (o / 8) y x (o % 8)) (exactOutput P.inCh K input bias o y x) = true

end Sys2Proof.Machine
end

