-- ==== Sys2Proof/Safety.lean ====
section
/-! DEFINITION. What the claims speak of: when a command can run to its result, what its completion leaves in the
registers, which memory it leaves alone, the invariant that every step keeps, and the rules of the arithmetic
primitives as claims speak of them. -/

namespace Sys2Proof.Machine

/-- `r` is the one rounding of the exact value `v * 2^-k` (`40_numerics.md` R104), an exact zero being signed by
`zeroNeg` (R105, R109). -/
def Format.Rounded (F : Format) (zeroNeg : Bool) (v : Int) (k r : Nat) : Prop :=
  r = if v = 0 then F.signBit zeroNeg else F.round (decide (v < 0)) v.natAbs k

/-- `add_F` and `mul_F` with an infinite operand and none that is NaN (`40_numerics.md` R105). -/
def Format.InfinityRules (F : Format) {w : Nat} (add mul : BitVec w → BitVec w → BitVec w) (isNaN : BitVec w → Prop) :
    Prop :=
  ∀ (a b : BitVec w) (s t : Bool), F.unpack a.toNat = .inf s →
    (F.unpack b.toNat = .inf t →
      (s = t → add a b = a) ∧ (s ≠ t → isNaN (add a b)) ∧ (mul a b).toNat = F.infBits (s ^^ t)) ∧
    ∀ n, F.unpack b.toNat = .fin t n →
      add a b = a ∧ add b a = a ∧ (n = 0 → isNaN (mul a b) ∧ isNaN (mul b a)) ∧
      (0 < n → (mul a b).toNat = F.infBits (s ^^ t) ∧ (mul b a).toNat = F.infBits (s ^^ t))

/-- The exact product of two halves is an infinity: neither is NaN, one is infinite, none is zero; `p` is its sign
(`40_numerics.md` R106). -/
def infiniteProduct (x y : Half) (p : Bool) : Prop :=
  ∃ t u, p = (t ^^ u) ∧
    ((binary16.unpack x.toNat = .inf t ∧ binary16.unpack y.toNat = .inf u) ∨
      (binary16.unpack x.toNat = .inf t ∧ ∃ n, 0 < n ∧ binary16.unpack y.toNat = .fin u n) ∨
      ((∃ n, 0 < n ∧ binary16.unpack x.toNat = .fin t n) ∧ binary16.unpack y.toNat = .inf u))

/-- The host does nothing before the command in flight has completed (the `wait` of `30_encoding.md` R88). -/
def State.hostWaits (s : State) : Bool := (s.host.head?.bind HostEvent.lead).isNone

/-- The bytes of the elements of the interleaved input at `base` (`20_memory.md` R55); its other bytes are accessed by
no command. -/
def Params.interleavedByte (P : Params) (base a : Nat) : Prop :=
  ∃ k b p i tt, k < 64 ∧ b < nblk P.tiles ∧ p < P.inGroups ∧ i < 8 ∧ tt < (blockAt P.tiles b).2 ∧
    base + 2 * ti2Index P.tiles P.inCh k b p i tt ≤ a ∧ a < base + 2 * ti2Index P.tiles P.inCh k b p i tt + 2

/-- The bytes of the part of the padded output at `base` that `crop` keeps (`42_pad_crop.md` R165). -/
def Params.croppedByte (P : Params) (base a : Nat) : Prop :=
  ∃ g y x, g < P.outGroups ∧ y < P.outH ∧ x < P.outW ∧
    base + 2 * fmIndex P.outWp P.outHp g y x 0 ≤ a ∧ a < base + 2 * fmIndex P.outWp P.outHp g y x 0 + 16

/-- The bytes of the scratch window the pipeline accesses: all of `S0`, `S1`, `S3`, `S4`, the elements of `S2`
(`46_convolve.md` R237). -/
def Params.pipelineByte (P : Params) (a : Nat) : Prop :=
  (P.s0 ≤ a ∧ a < P.s2) ∨ P.interleavedByte P.s2 a ∨ (P.s3 ≤ a ∧ a < P.s0 + P.convolveNeed)

/-- The bytes of a command's regions other than its scratch window (`20_memory.md` R60). -/
def Command.tensorByte (c : Command) (P : Params) (a : Nat) : Prop :=
  ∃ r ∈ c.regions P, r.role ≠ .scratch ∧ r.holds a = true

/-- The bytes of memory a command that passes its checks accesses, if every access is answered: each at least once,
and no other (`20_memory.md` R60, `30_encoding.md` R86). -/
def accessed (i : Instr) (P : Params) (a : Nat) : Prop :=
  match i with
  | .tfilt     => tfiltCommand.tensorByte P a
  | .pad       => padCommand.tensorByte P a
  | .xin       => xinCommand.tensorByte P a
  | .contract  => contractCommand.tensorByte P a ∨ P.interleavedByte P.scrBase.toNat a
  | .xout      => xoutCommand.tensorByte P a
  | .xoutB     => xoutBCommand.tensorByte P a
  | .crop      => P.croppedByte P.srcBase.toNat a ∨ (P.dstBase.toNat ≤ a ∧ a < P.dstBase.toNat + P.outB)
  | .convolve  => convolveCommand.tensorByte P a ∨ P.pipelineByte a
  | .convolveB => convolveBCommand.tensorByte P a ∨ P.pipelineByte a

/-- The platform backs every byte the command accesses (`60_exceptions.md` R254). -/
def State.backed (s : State) (i : Instr) : Prop := ∀ a, accessed i s.params a → backs s.cfg a 1 = true

/-- The core is idle, the host waits for it, the command passes the checks of stage `CHECK`, the platform backs
what it accesses, and memory has its canonical form: what it takes for the command to run to its result. -/
structure State.Ready (s : State) (i : Instr) : Prop where
  idle      : s.status.busy = false
  waits     : s.hostWaits = true
  accepted  : (commandOf i).verdict s.params = .none
  backed    : s.backed i
  canonical : s.mem.wf = true

/-- The registers after the completion of command `i`, issued in state `s`, with error code `e`
(`30_encoding.md` R84, `60_exceptions.md` R251): `OVR`, `CTRL`, the parameter registers, the platform's
parameters and what the host will do are kept. That the latches keep the command's operands and word is the model's
choice (log entry 21). -/
structure Completed (i : Instr) (e : ErrCode) (s t : State) : Prop where
  cmd      : t.cmd = encode i
  busy     : t.status.busy = false
  done     : t.status.done = true
  error    : t.status.error = decide (e ≠ .none)
  ovr      : t.status.ovr = s.status.ovr
  err      : t.err = e
  stage    : t.stage = .idle
  latch    : t.latch = s.params
  lcmd     : t.lcmd = encode i
  pending  : t.pending = []
  ie       : t.ie = s.ie
  params   : t.params = s.params
  cfg      : t.cfg = s.cfg
  host     : t.host = s.host
  hostData : t.hostData = s.hostData

/-- Every byte outside these regions reads as before. -/
def memoryKept (rs : List Region) (s t : State) : Prop :=
  ∀ a, (∀ r ∈ rs, r.holds a = false) → t.mem.read a = s.mem.read a

/-- The regions a command may write: its destination and the scratch it needs (`20_memory.md` R60). -/
def Command.written (c : Command) (P : Params) : List Region := c.destination P ++ c.scratchUse P

/-- This part of every worker's local state is as before: what the workers hold between commands is the model's
choice (log entry 21). -/
def workersKept {β : Type} (f : Worker → β) (s t : State) : Prop := t.workers.map f = s.workers.map f

/-- Rows 6 and 7 of the staging buffer, which the output transform does not use (`10_state.md` R23); that they are the
input transform's is the model's choice (log entry 21). -/
def Worker.lowerRows (w : Worker) : Vector LaneVec 8 × Vector LaneVec 8 := (w.staging[6], w.staging[7])

/-- The stages a command in flight can be in (`46_convolve.md` R236). -/
def Command.route (c : Command) : List Stage := .check :: c.stages

/-- What the registers, `PENDING` and memory satisfy in every state a run reaches, and in many more:
- `canonical`: memory has its canonical form;
- `atRest`: with `BUSY = 0` the sequencer is idle (`93_implementation_defined.md` U12, `10_state.md` R17);
- `quiet`: `BUSY = 1` implies `DONE = 0`, `ERROR = 0` and `ERR = 0` (`10_state.md` R15, `30_encoding.md` R84);
- `inFlight`: while `BUSY = 1`, `CMD` and `LCMD` hold one of the nine words, `STAGE` is on the stage list of its
  command, and past `CHECK` the latched operands are legal;
- `units`: `PENDING` holds units of the current stage, none twice (`60_exceptions.md` R261);
- `errorCode`: `ERROR = 1` implies `ERR != 0` (`60_exceptions.md` R266). -/
structure State.Inv (s : State) : Prop where
  canonical : s.mem.wf = true
  atRest    : s.status.busy = false → s.stage = .idle ∧ s.pending = []
  quiet     : s.status.busy = true → s.status.done = false ∧ s.status.error = false ∧ s.err = .none
  inFlight  : s.status.busy = true →
    ∃ i, s.lcmd = encode i ∧ s.cmd = encode i ∧ s.stage ∈ (commandOf i).route ∧
      (s.stage ≠ .check → (commandOf i).verdict s.latch = .none)
  units     : s.pending.Nodup ∧ ∀ n ∈ s.pending, n < s.stage.units s.latch
  errorCode : s.status.error = true → s.err ≠ .none

end Sys2Proof.Machine
end

