-- ==== Sys2Proof/Certificates/Slice0/Obligations.lean ====
section
/-! DEFINITION. The statements for the provers. Each docstring names the rule of `spec/` a statement formalises, and
the log entry wherever a clause is the model's own choice. Clauses on `workers`, `latch` and `lcmd` after a command are
such choices (log entry 21: the spec lets hidden state be any value between commands), and so is `draws` (entry 8). -/

open Sys2Proof Sys2Proof.Machine

/-! ## Command words -/

/-- `30_encoding.md` R83: the nine command words, and every other 64-bit value is none. -/
def Obligations.NineWordsExactly : Prop :=
  (Instr.all.map encode = [0x001#64, 0x002#64, 0x003#64, 0x004#64, 0x005#64, 0x105#64, 0x006#64, 0x007#64, 0x107#64]) ∧
  ∀ (w : Word) (i : Instr), decode w = .ok i ↔ w = encode i

/-- `30_encoding.md` R85, its first sentence: which words are illegal. -/
def Obligations.IllegalWordsExactly : Prop :=
  ∀ w : Word, (∃ e, decode w = .error e) ↔
    (w.toNat / 2 ^ 9 ≠ 0 ∨ w.toNat % 256 = 0 ∨ 7 < w.toNat % 256 ∨
      (w.toNat / 256 % 2 = 1 ∧ w.toNat % 256 ∈ [1, 2, 3, 4, 6]))

/-- `30_encoding.md` R83: the words of four families and the fields `OP`, `B` they are written from. -/
def Obligations.SampleWordsDecode : Prop :=
  decode (0#55 ++ 0#1 ++ 0x01#8) = .ok .tfilt ∧ decode (0#55 ++ 1#1 ++ 0x05#8) = .ok .xoutB ∧
  decode (0#55 ++ 0#1 ++ 0x06#8) = .ok .crop ∧ decode (0#55 ++ 1#1 ++ 0x07#8) = .ok .convolveB ∧
  decode (0#55 ++ 1#1 ++ 0x04#8) = .error .biasNotAllowed

/-- A step runs the command that the host writes to `CMD` (`30_encoding.md` R84; that the host's writes are events
of `State.host` is the model's, log entry 2). -/
def Obligations.StepRunsTheCommand : Prop :=
  (∀ (s : State) (lead : Option Nat) (es : List HostEvent) (w : Word) (i : Instr),
    s.host = ⟨lead, .regWrite (s.cfg.regBase + 8) 8 w⟩ :: es → decode w = .ok i → step s = exec i { s with host := es }) ∧
  ∀ (s : State) (i : Instr), step (s.withFetchWord 64 (encode i).toNat) = exec i s

/-- `30_encoding.md` R84: what a write of `w` to `CMD` does, in its three cases; the core then goes on by itself
(`State.carryOn`; that a step takes it up to the host's next action is the model's, log entry 1). -/
def Obligations.CommandIssue : Prop :=
  ∀ (s : State) (lead : Option Nat) (es : List HostEvent) (w : Word),
    s.host = ⟨lead, .regWrite (s.cfg.regBase + 8) 8 w⟩ :: es →
    (s.status.busy = true →
      step s = .next { s with host := es, status := { s.status with ovr := true } }.carryOn) ∧
    (s.status.busy = false → ∀ e, decode w = .error e →
      step s = .next { s with
        host := es, cmd := w, err := .illegal,
        status := { busy := false, done := true, error := true, ovr := s.status.ovr } }) ∧
    (s.status.busy = false → ∀ i, decode w = .ok i →
      step s = .next { s with
        host := es, cmd := w, err := .none, latch := s.params, lcmd := w, stage := .check, pending := [],
        status := { busy := true, done := false, error := false, ovr := s.status.ovr } }.carryOn)

/-! ## Registers -/

/-- `10_state.md` R29, `70_reset_and_hazards.md` R281: what every register reads after reset; no command is in
flight and `irq` is 0. -/
def Obligations.ResetRegisters : Prop :=
  (∀ n, State.reset.readReg n = if n = 0 then 0x5747363348380001#64 else 0) ∧
  State.reset.irq = false ∧ State.reset.pending = []

/-- `70_reset_and_hazards.md` R280: the reset input, from every state. A command in flight is abandoned without
completing; only its destination and the scratch it needs may change in memory, and with no command in flight nothing
does. -/
def Obligations.ResetInput : Prop :=
  ∀ (s : State) (lead : Option Nat) (es : List HostEvent), s.Inv → s.host = ⟨lead, .reset⟩ :: es →
    ∃ t, step s = .next t ∧ t.host = es ∧ (∀ n, t.readReg n = if n = 0 then idConstant else 0) ∧
      t.irq = false ∧ t.pending = [] ∧ t.cfg = s.cfg ∧
      (s.status.busy = false → t.mem = s.mem) ∧
      ∀ i, s.lcmd = encode i → memoryKept ((commandOf i).written s.latch) s t

/-- `10_state.md` R20, `30_encoding.md` R81: an aligned 64-bit read of the register at byte offset `8*n` from `REG_BASE`
answers its value and has no side effect; the core goes on. What each register's value is: `10_state.md` R11 and R13 to
R19, with the stage codes of R17 and the error codes of `60_exceptions.md` R250. Every other access is refused (treatment
of `93_implementation_defined.md` U19; that an address below the window is refused too is the model's choice: log
entry 14). -/
def Obligations.RegisterAccessRule : Prop :=
  (∀ (s : State) (lead : Option Nat) (es : List HostEvent),
    (∀ n, s.host = ⟨lead, .regRead (s.cfg.regBase + 8 * n) 8⟩ :: es →
      step s = .next { s with host := es, hostData := s.readReg n }.carryOn) ∧
    (∀ address width, address < s.cfg.regBase ∨ (address - s.cfg.regBase) % 8 ≠ 0 ∨ width ≠ 8 →
      (s.host = ⟨lead, .regRead address width⟩ :: es → step s = .refused .registerAccess) ∧
      ∀ v, s.host = ⟨lead, .regWrite address width v⟩ :: es → step s = .refused .registerAccess)) ∧
  ∀ s : State,
    s.readReg 0 = 0x5747363348380001#64 ∧ s.readReg 1 = s.cmd ∧
    (s.readReg 2).toNat =
      s.status.busy.toNat + 2 * s.status.done.toNat + 4 * s.status.error.toNat + 8 * s.status.ovr.toNat ∧
    (s.readReg 3).toNat = s.ie.toNat ∧
    (s.readReg 4).toNat = (match s.err with | .none => 0 | .illegal => 1 | .precond => 2 | .alloc => 3 | .bus => 4) ∧
    (s.readReg 5).toNat = (match s.stage with
      | .idle => 0 | .check => 1 | .pad => 2 | .xin => 3 | .repack => 4 | .gemm => 5 | .xout => 6 | .crop => 7
      | .tfilt => 8) ∧
    (List.range' 8 13).map s.readReg =
      [s.params.srcBase, s.params.dstBase, s.params.filtBase, s.params.biasBase, s.params.scrBase, s.params.scrSize,
       s.params.inWidth, s.params.inHeight, s.params.outWidth, s.params.outHeight, s.params.inChannels,
       s.params.outChannels, s.params.nWork] ∧
    ∀ n, n = 6 ∨ n = 7 ∨ 20 < n → s.readReg n = 0

/-- `10_state.md` R11: a write to one of the thirteen parameter registers, at any time and of any value, is what that
register reads afterwards; no other register reads differently, and nothing but the registers changes (the host's
write as a step: log entries 1 and 2). -/
def Obligations.ParameterRegistersHoldAnyValue : Prop :=
  ∀ (s : State) (k : Nat) (v : Word), 8 ≤ k → k ≤ 20 →
    (∀ n, (s.writeReg k v).readReg n = if n = k then v else s.readReg n) ∧
    s.writeReg k v = { s with params := (s.writeReg k v).params } ∧
    ∀ lead es, s.host = ⟨lead, .regWrite (s.cfg.regBase + 8 * k) 8 v⟩ :: es →
      step s = .next ({ s with host := es }.writeReg k v).carryOn

/-- `10_state.md` R15, `60_exceptions.md` R266: a write `v` to `STATUS` clears `DONE`, `ERROR`, `OVR` where `v` has a
1, and does nothing else. -/
def Obligations.StatusWriteOneToClear : Prop :=
  ∀ (s : State) (v : Word),
    (s.writeReg 2 v).readReg 2 = s.readReg 2 &&& ~~~(v &&& 0xE#64) ∧
    (∀ n, n ≠ 2 → (s.writeReg 2 v).readReg n = s.readReg n) ∧
    s.writeReg 2 v = { s with status := (s.writeReg 2 v).status } ∧
    (s.writeReg 2 v).status.busy = s.status.busy

/-- `10_state.md` R16: bit 0 of `CTRL` is read-write, the other bits read 0 and ignore writes. -/
def Obligations.ControlRegister : Prop :=
  ∀ (s : State) (v : Word),
    (s.writeReg 3 v).readReg 3 = v &&& 1#64 ∧ (s.writeReg 3 v).ie = v.getLsbD 0 ∧
    s.writeReg 3 v = { s with ie := v.getLsbD 0 } ∧ s.readReg 3 &&& ~~~1#64 = 0

/-- `10_state.md` R13 and R19 (and R17, R18 for `STAGE` and `ERR`): writes to the read-only and the reserved registers
are ignored; `ID` reads its constant and a reserved register reads 0. -/
def Obligations.ReadOnlyAndReservedRegisters : Prop :=
  ∀ (s : State) (n : Nat) (v : Word),
    (n = 0 ∨ n = 4 ∨ n = 5 ∨ n = 6 ∨ n = 7 ∨ 20 < n → s.writeReg n v = s) ∧
    s.readReg 0 = 0x5747363348380001#64 ∧ (n = 6 ∨ n = 7 ∨ 20 < n → s.readReg n = 0)

/-- `10_state.md` R11, R13, R15 to R20: an aligned 64-bit host write to any register but `CMD` is, as a step, the register
write of the three statements above and that of the parameter registers; the core then goes on (the host's write as a
step: log entries 1 and 2; `CMD`: `Obligations.CommandIssue`). -/
def Obligations.RegisterWritesAsSteps : Prop :=
  ∀ (s : State) (lead : Option Nat) (es : List HostEvent) (k : Nat) (v : Word), k ≠ 1 →
    s.host = ⟨lead, .regWrite (s.cfg.regBase + 8 * k) 8 v⟩ :: es → step s = .next ({ s with host := es }.writeReg k v).carryOn

/-- `10_state.md` R28: the interrupt wire. -/
def Obligations.InterruptWire : Prop :=
  ∀ s : State, s.irq = ((s.readReg 3).getLsbD 0 && (s.readReg 2).getLsbD 1)

/-- `10_state.md` R12: the operands are latched at acceptance; a write to a parameter register is visible and does not
reach the command in flight, however many transactions follow. -/
def Obligations.OperandsAreLatched : Prop :=
  (∀ (s : State) (i : Instr), s.status.busy = false →
    (s.takeCommand i).latch = s.params ∧ (s.takeCommand i).lcmd = encode i) ∧
  ∀ (s : State) (i : Instr) (k : Nat) (v : Word) (n : Nat), 8 ≤ k → k ≤ 20 →
    (s.writeReg k v).readReg k = v ∧
    (commandOf i).transactions n (s.writeReg k v) = ((commandOf i).transactions n s).writeReg k v

/-! ## Stage `CHECK` -/

/-- `30_encoding.md` R86 with the sizes of `20_memory.md` R59 written out: the regions, the scalar registers and
`SCR_NEED` of every command (`SCR_SIZE` may hold any value and is no entry of `uses`). -/
def Obligations.OperandsOfCommands : Prop :=
  ∀ P : Params,
    let inB := P.inCh * P.inH * P.inW * 2
    let padB := P.inCh * P.padH * P.padW * 2
    let tiB := P.inCh * 64 * P.tiles * 2
    let ti2B := 64 * nblk P.tiles * bMax P.tiles * P.inCh * 2
    let toB := P.outCh * 64 * P.tiles * 2
    let opB := P.outCh * P.outHp * P.outWp * 2
    let outB := P.outCh * P.outH * P.outW * 2
    let rfB := P.outCh * P.inCh * 9 * 4
    let tfB := P.outCh * P.inCh * 64 * 2
    let biasB := P.outCh * 2
    let window : Region := ⟨.scratch, P.scrBase.toNat, P.scrSize.toNat⟩
    tfiltCommand.uses = [.inChannels, .outChannels, .nWork] ∧
    tfiltCommand.regions P = [⟨.source, P.srcBase.toNat, rfB⟩, ⟨.dest, P.dstBase.toNat, tfB⟩] ∧
    padCommand.uses = [.inWidth, .inHeight, .outWidth, .outHeight, .inChannels, .nWork] ∧
    padCommand.regions P = [⟨.source, P.srcBase.toNat, inB⟩, ⟨.dest, P.dstBase.toNat, padB⟩] ∧
    xinCommand.uses = [.outWidth, .outHeight, .inChannels, .nWork] ∧
    xinCommand.regions P = [⟨.source, P.srcBase.toNat, padB⟩, ⟨.dest, P.dstBase.toNat, tiB⟩] ∧
    contractCommand.uses = [.outWidth, .outHeight, .inChannels, .outChannels, .nWork] ∧
    contractCommand.regions P = [⟨.source, P.srcBase.toNat, tiB⟩, ⟨.dest, P.dstBase.toNat, toB⟩,
      ⟨.filter, P.filtBase.toNat, tfB⟩, window] ∧
    xoutCommand.uses = [.outWidth, .outHeight, .outChannels, .nWork] ∧
    xoutCommand.regions P = [⟨.source, P.srcBase.toNat, toB⟩, ⟨.dest, P.dstBase.toNat, opB⟩] ∧
    xoutBCommand.uses = xoutCommand.uses ∧
    xoutBCommand.regions P = xoutCommand.regions P ++ [⟨.bias, P.biasBase.toNat, biasB⟩] ∧
    cropCommand.uses = [.outWidth, .outHeight, .outChannels, .nWork] ∧
    cropCommand.regions P = [⟨.source, P.srcBase.toNat, opB⟩, ⟨.dest, P.dstBase.toNat, outB⟩] ∧
    convolveCommand.uses =
      [.inWidth, .inHeight, .outWidth, .outHeight, .inChannels, .outChannels, .nWork] ∧
    convolveBCommand.uses = convolveCommand.uses ∧
    convolveCommand.regions P = [⟨.source, P.srcBase.toNat, inB⟩, ⟨.dest, P.dstBase.toNat, outB⟩,
      ⟨.filter, P.filtBase.toNat, tfB⟩, window] ∧
    convolveBCommand.regions P = [⟨.source, P.srcBase.toNat, inB⟩, ⟨.dest, P.dstBase.toNat, outB⟩,
      ⟨.filter, P.filtBase.toNat, tfB⟩, ⟨.bias, P.biasBase.toNat, biasB⟩, window] ∧
    contractCommand.need P = ti2B ∧
    convolveCommand.need P = padB + tiB + ti2B + toB + opB ∧ convolveBCommand.need P = convolveCommand.need P ∧
    ∀ i, i ∉ [Instr.contract, .convolve, .convolveB] → (commandOf i).need P = 0

/-- `60_exceptions.md` R252, R253: the checks. `ERR_PRECOND` exactly when one of the conditions (a) to (e) holds, (e)
as two regions that share a byte; `ERR_ALLOC` exactly when none holds and the scratch window is too small. -/
def Obligations.CheckVerdict : Prop :=
  ∀ (i : Instr) (P : Params),
    let bad :=
      (∃ r ∈ (commandOf i).uses, r ∈ [ParamReg.inWidth, .inHeight, .outWidth, .outHeight, .nWork] ∧
        ((P.get r).toNat = 0 ∨ 65535 < (P.get r).toNat)) ∨
      (∃ r ∈ (commandOf i).uses, r ∈ [ParamReg.inChannels, .outChannels] ∧
        ((P.get r).toNat % 8 ≠ 0 ∨ (P.get r).toNat = 0 ∨ 65528 < (P.get r).toNat)) ∨
      (i ∈ [Instr.pad, .convolve, .convolveB] ∧ (P.padW < P.inW ∨ P.padH < P.inH)) ∨
      (∃ r ∈ (commandOf i).regions P, r.base % 16 ≠ 0 ∨ 2 ^ 64 < r.base + r.size) ∨
      ¬ ((commandOf i).regions P).Pairwise fun r t => ¬ ∃ a, r.holds a = true ∧ t.holds a = true
    ((commandOf i).verdict P = .precond ↔ bad) ∧
    ((commandOf i).verdict P = .alloc ↔ ¬ bad ∧ P.scrSize.toNat < (commandOf i).need P) ∧
    ((commandOf i).verdict P = .none ↔ ¬ bad ∧ (commandOf i).need P ≤ P.scrSize.toNat)

/-- `60_exceptions.md` R251 to R253: a command that fails its checks completes with the code, and touches no memory,
no parameter register and no worker (that latches and workers keep their values after it: log entry 21). -/
def Obligations.RefusedCommandTouchesNothing : Prop :=
  ∀ (i : Instr) (s : State) (e : ErrCode), s.status.busy = false → s.hostWaits = true →
    (commandOf i).verdict s.params = e → e ≠ .none →
    exec i s = .next { s with
      cmd := encode i, lcmd := encode i, latch := s.params, err := e, stage := .idle, pending := [],
      status := { busy := false, done := true, error := true, ovr := s.status.ovr } }

/-- `60_exceptions.md` R254, `46_convolve.md` R235, R238: when the platform refuses any byte the command accesses, in its
source, destination, filter, bias or scratch, the command, past its checks, completes with `ERR_BUS` and changes no byte
outside its destination and the scratch it needs; `convolve` and `convolve.b` leave the destination untouched when the
refused byte is not in it (what is accessed before `CROP`). That the latches are kept, in `Completed`: log entry 21. -/
def Obligations.BusErrorReported : Prop :=
  ∀ (i : Instr) (s : State) (a : Nat), s.status.busy = false → s.hostWaits = true → s.mem.wf = true →
    (commandOf i).verdict s.params = .none → accessed i s.params a → backs s.cfg a 1 = false →
    ∃ t, exec i s = .next t ∧ Completed i .bus s t ∧ memoryKept ((commandOf i).written s.params) s t ∧
      (i = .convolve ∨ i = .convolveB → (∀ r ∈ (commandOf i).destination s.params, r.holds a = false) →
        memoryKept ((commandOf i).scratchUse s.params) s t)

/-! ## The sequencer -/

/-- `60_exceptions.md` R263 with R251, R257 and `20_memory.md` R60: every accepted command reaches its completion,
whatever the operands, memory, platform and schedule; `irq` follows; the parameter registers and every byte outside
the destination and the scratch it needs are kept (the rule's fairness is built into the step: log entry 17; that the
latches are kept, in `Completed`: log entry 21). -/
def Obligations.EveryCommandCompletes : Prop :=
  ∀ (i : Instr) (s : State), s.status.busy = false → s.hostWaits = true → s.mem.wf = true →
    ∃ t e, exec i s = .next t ∧ Completed i e s t ∧ t.irq = s.ie ∧ t.workers.length = s.workers.length ∧
      t.mem.wf = true ∧ memoryKept ((commandOf i).written s.params) s t ∧
      (e = .none → (commandOf i).verdict s.params = .none) ∧ e ≠ .illegal

/-- `10_state.md` R17, `46_convolve.md` R235, R236, `20_memory.md` R62, `60_exceptions.md` R251 to R254: one transaction of
a command in flight, in each of its cases. `CHECK` refuses the command with its code or passes; with no unit left the
barrier leads into the next stage of the command's list, or after the last one the command completes; a unit whose
accesses are answered leaves `PENDING` and its writes in memory; a refused access completes the command with `ERR_BUS`.
The frame: a unit or a bus error changes no byte outside the destination and the needed scratch, before `CROP` of the
pipeline no byte outside the scratch (a whole unit as one transaction: log entry 1; the choice of unit: entry 3). -/
def Obligations.StageAdvancesForward : Prop :=
  ∀ (i : Instr) (s : State), s.Inv → s.status.busy = true → s.lcmd = encode i →
    let c := commandOf i
    let t := c.transact s
    let reach := if (i = .convolve ∨ i = .convolveB) ∧ s.stage ≠ .crop then c.scratchUse s.latch else c.written s.latch
    let ended := fun e : ErrCode =>
      t.status = { busy := false, done := true, error := decide (e ≠ .none), ovr := s.status.ovr } ∧ t.err = e ∧
        t.stage = .idle ∧ t.pending = []
    (t.cmd = s.cmd ∧ t.ie = s.ie ∧ t.params = s.params ∧ t.host = s.host) ∧
    (s.stage = .check → c.verdict s.latch ≠ .none → ended (c.verdict s.latch) ∧ t.mem = s.mem) ∧
    ((s.stage = .check → c.verdict s.latch = .none) → s.pending = [] →
      ∀ before st after, c.route = before ++ s.stage :: st :: after →
        t.status = s.status ∧ t.err = s.err ∧ t.stage = st ∧ t.pending = List.range (st.units s.latch) ∧ t.mem = s.mem) ∧
    (s.pending = [] → ∀ before, c.route = before ++ [s.stage] →
      ended .none ∧ memoryKept (c.scratchUse s.latch) s t) ∧
    (s.pending ≠ [] → ∀ w, c.nextUnit s = some w →
      t.status = s.status ∧ t.err = s.err ∧ t.stage = s.stage ∧ (s.pending.getD s.pick 0 :: t.pending).Perm s.pending ∧
        t.mem = w.mem ∧ memoryKept reach s t) ∧
    (s.pending ≠ [] → c.nextUnit s = none → ended .bus ∧ memoryKept reach s t)

/-- `60_exceptions.md` R262 (units as the grain of the interleaving: log entry 1): `ERR`, `STATUS` and every byte
outside the scratch the command needs are the same for every number of workers, every worker state, every legal
`NWORK` and every schedule, when the platform backs what the command accesses. -/
def Obligations.ScheduleIndependence : Prop :=
  ∀ (i : Instr) (s : State) (workers : List Worker) (sched : List Turn) (n : Word), s.status.busy = false →
    s.hostWaits = true → s.mem.wf = true → s.backed i → s.params.illegal .nWork = false →
    (0 < n.toNat ∧ n.toNat ≤ 65535) →
    ∃ t u, exec i s = .next t ∧
      exec i { s with workers := workers, sched := sched, params := { s.params with nWork := n } } = .next u ∧
      u.err = t.err ∧ u.status = t.status ∧ memoryKept ((commandOf i).scratchUse s.params) t u

/-! ## The invariant -/

/-- The invariant holds after reset. -/
def Obligations.ResetHasInvariant : Prop := State.reset.Inv

/-- `10_state.md` R14, R15, R17, R18, `30_encoding.md` R84, `60_exceptions.md` R266: every step keeps the invariant
(canonical memory; `BUSY = 1` implies `DONE = ERROR = ERR = 0`; `STAGE` is 0 exactly when idle and on the stage list
of the latched command otherwise; `PENDING` holds units of that stage; `ERROR = 1` implies `ERR != 0`). -/
def Obligations.StepKeepsInvariant : Prop := ∀ s t : State, s.Inv → step s = .next t → t.Inv

/-! ## The commands -/

/-- `41_filter_transform.md` R145, R146: the result of `tfilt`, and what it leaves (that the workers' local state is kept
is the model's choice, log entry 21; the counter of free bytes is the model's own, log entry 8). -/
def Obligations.TfiltResult : Prop :=
  ∀ s : State, s.Ready .tfilt →
    let P := s.params
    ∃ t, exec .tfilt s = .next t ∧ Completed .tfilt .none s t ∧
      (∀ q, q < P.outGroups → ∀ k, k < 64 → ∀ p, p < P.inGroups → ∀ i, i < 8 → ∀ j, j < 8 →
        t.mem.half P.dstBase.toNat (tfIndex P.inCh q k p i j) =
          s.mem.transformedFilter s.cfg P P.srcBase.toNat q k p i j) ∧
      memoryKept [⟨.dest, P.dstBase.toNat, P.tfB⟩] s t ∧ t.workers = s.workers ∧ t.draws = s.draws

/-- `42_pad_crop.md` R161: the result of `pad`, and what it leaves (that the workers' local state is kept is the model's
choice, log entry 21; the counter of free bytes is the model's own, log entry 8). -/
def Obligations.PadResult : Prop :=
  ∀ s : State, s.Ready .pad →
    let P := s.params
    ∃ t, exec .pad s = .next t ∧ Completed .pad .none s t ∧
      (∀ g, g < P.inGroups → ∀ y, y < P.padH → ∀ x, x < P.padW → ∀ l, l < 8 →
        t.mem.half P.dstBase.toNat (fmIndex P.padW P.padH g y x l) =
          if y < P.inH ∧ x < P.inW then s.mem.half P.srcBase.toNat (fmIndex P.inW P.inH g y x l) else 0) ∧
      memoryKept [⟨.dest, P.dstBase.toNat, P.padB⟩] s t ∧ t.workers = s.workers ∧ t.draws = s.draws

/-- `43_input_transform.md` R184, R185: the result of `xin`, and what it leaves (that accumulators and held rows are kept
is the model's choice, log entry 21; the counter of free bytes is the model's own, log entry 8). -/
def Obligations.XinResult : Prop :=
  ∀ s : State, s.Ready .xin →
    let P := s.params
    ∃ t, exec .xin s = .next t ∧ Completed .xin .none s t ∧
      (∀ p, p < P.inGroups → ∀ k, k < 64 → ∀ tile, tile < P.tiles → ∀ i, i < 8 →
        t.mem.half P.dstBase.toNat (tiIndex P.tiles p k tile i) =
          transformedInput s.cfg.nanBits P (s.mem.featureMap P.srcBase.toNat P.padW P.padH) p k tile i) ∧
      memoryKept [⟨.dest, P.dstBase.toNat, P.tiB⟩] s t ∧
      workersKept (fun w => (w.acc, w.held)) s t ∧ t.draws = s.draws

/-- `44_contraction.md` R195, R199, R202: the result of `contract`, and what it leaves; the scratch it needs is not
spoken of (`10_state.md` R27). That the staging buffers are kept is the model's choice (log entry 21). -/
def Obligations.ContractResult : Prop :=
  ∀ s : State, s.Ready .contract →
    let P := s.params
    ∃ t, exec .contract s = .next t ∧ Completed .contract .none s t ∧
      (∀ q, q < P.outGroups → ∀ k, k < 64 → ∀ tile, tile < P.tiles → ∀ j, j < 8 →
        t.mem.half P.dstBase.toNat (toIndex P.tiles q k tile j) =
          dotChain s.cfg.nanBits
            (fun c => s.mem.half P.filtBase.toNat (tfIndex P.inCh q k (c / 8) (c % 8) j))
            (fun c => s.mem.half P.srcBase.toNat (tiIndex P.tiles (c / 8) k tile (c % 8))) P.inCh) ∧
      memoryKept [⟨.dest, P.dstBase.toNat, P.toB⟩, ⟨.scratch, P.scrBase.toNat, P.ti2B⟩] s t ∧
      workersKept (fun w => w.staging) s t

/-- `45_output_transform.md` R223, R224: the result of `xout`, and what it leaves (that accumulators, held rows and rows
6 and 7 of the one staging buffer are kept is the model's choice, log entry 21; the counter of free bytes is the model's
own, log entry 8). -/
def Obligations.XoutResult : Prop :=
  ∀ s : State, s.Ready .xout →
    let P := s.params
    ∃ t, exec .xout s = .next t ∧ Completed .xout .none s t ∧
      (∀ q, q < P.outGroups → ∀ y, y < P.outHp → ∀ x, x < P.outWp → ∀ l, l < 8 →
        t.mem.half P.dstBase.toNat (fmIndex P.outWp P.outHp q y x l) =
          transformedOutput s.cfg P (s.mem.outputSpectrum P.srcBase.toNat P.tiles) noBias q y x l) ∧
      memoryKept [⟨.dest, P.dstBase.toNat, P.opB⟩] s t ∧
      workersKept (fun w => (w.acc, w.held, w.lowerRows)) s t ∧ t.draws = s.draws

/-- `45_output_transform.md` R223, R226: the result of `xout.b`, and what it leaves (that accumulators, held rows and
rows 6 and 7 of the one staging buffer are kept is the model's choice, log entry 21; the counter of free bytes is the
model's own, log entry 8). -/
def Obligations.XoutBiasResult : Prop :=
  ∀ s : State, s.Ready .xoutB →
    let P := s.params
    ∃ t, exec .xoutB s = .next t ∧ Completed .xoutB .none s t ∧
      (∀ q, q < P.outGroups → ∀ y, y < P.outHp → ∀ x, x < P.outWp → ∀ l, l < 8 →
        t.mem.half P.dstBase.toNat (fmIndex P.outWp P.outHp q y x l) =
          transformedOutput s.cfg P (s.mem.outputSpectrum P.srcBase.toNat P.tiles)
            (s.mem.biasVector P.biasBase.toNat) q y x l) ∧
      memoryKept [⟨.dest, P.dstBase.toNat, P.opB⟩] s t ∧
      workersKept (fun w => (w.acc, w.held, w.lowerRows)) s t ∧ t.draws = s.draws

/-- `42_pad_crop.md` R165: the result of `crop`, and what it leaves; of the source only the kept part needs to be backed
(`accessed`). That the workers' local state is kept is the model's choice (log entry 21); the counter of free bytes is
the model's own (log entry 8). -/
def Obligations.CropResult : Prop :=
  ∀ s : State, s.Ready .crop →
    let P := s.params
    ∃ t, exec .crop s = .next t ∧ Completed .crop .none s t ∧
      (∀ g, g < P.outGroups → ∀ y, y < P.outH → ∀ x, x < P.outW → ∀ l, l < 8 →
        t.mem.half P.dstBase.toNat (fmIndex P.outW P.outH g y x l) =
          s.mem.half P.srcBase.toNat (fmIndex P.outWp P.outHp g y x l)) ∧
      memoryKept [⟨.dest, P.dstBase.toNat, P.outB⟩] s t ∧ t.workers = s.workers ∧ t.draws = s.draws

/-- `46_convolve.md` R235, R241: the result of `convolve`, and what it leaves; the scratch it needs is not spoken of
(`10_state.md` R27), nor what the workers hold. `Completed` says that the latches are kept (log entry 21). -/
def Obligations.ConvolveResult : Prop :=
  ∀ s : State, s.Ready .convolve →
    let P := s.params
    ∃ t, exec .convolve s = .next t ∧ Completed .convolve .none s t ∧
      (∀ q, q < P.outGroups → ∀ y, y < P.outH → ∀ x, x < P.outW → ∀ l, l < 8 →
        t.mem.half P.dstBase.toNat (fmIndex P.outW P.outH q y x l) =
          pipeline s.cfg P (s.mem.featureMap P.srcBase.toNat P.inW P.inH)
            (s.mem.filterBank P.filtBase.toNat P.inCh) noBias q y x l) ∧
      memoryKept [⟨.dest, P.dstBase.toNat, P.outB⟩, ⟨.scratch, P.scrBase.toNat, P.convolveNeed⟩] s t ∧
      t.workers.length = s.workers.length

/-- `46_convolve.md` R238, R241: the result of `convolve.b`, and what it leaves; the scratch it needs is not spoken of
(`10_state.md` R27), nor what the workers hold. `Completed` says that the latches are kept (log entry 21). -/
def Obligations.ConvolveBiasResult : Prop :=
  ∀ s : State, s.Ready .convolveB →
    let P := s.params
    ∃ t, exec .convolveB s = .next t ∧ Completed .convolveB .none s t ∧
      (∀ q, q < P.outGroups → ∀ y, y < P.outH → ∀ x, x < P.outW → ∀ l, l < 8 →
        t.mem.half P.dstBase.toNat (fmIndex P.outW P.outH q y x l) =
          pipeline s.cfg P (s.mem.featureMap P.srcBase.toNat P.inW P.inH)
            (s.mem.filterBank P.filtBase.toNat P.inCh) (s.mem.biasVector P.biasBase.toNat) q y x l) ∧
      memoryKept [⟨.dest, P.dstBase.toNat, P.outB⟩, ⟨.scratch, P.scrBase.toNat, P.convolveNeed⟩] s t ∧
      t.workers.length = s.workers.length

/-- `46_convolve.md` R239: `convolve` and `convolve.b` leave in the destination what the chain of single commands
leaves there, with four intermediate buffers `b1` to `b4` and a scratch window at `scr` for `contract`, which avoid the filter and
the bias until they are read. -/
def Obligations.ConvolveEqualsChain : Prop :=
  ∀ (whole out : Instr) (s : State) (b1 b2 b3 b4 scr size : Word),
    (whole = .convolve ∧ out = .xout) ∨ (whole = .convolveB ∧ out = .xoutB) →
    let P := s.params
    let p1 : Params := { P with dstBase := b1 }
    let p2 : Params := { P with srcBase := b1, dstBase := b2 }
    let p3 : Params := { P with srcBase := b2, dstBase := b3, scrBase := scr, scrSize := size }
    let p4 : Params := { P with srcBase := b3, dstBase := b4 }
    let p5 : Params := { P with srcBase := b4 }
    let filter : Region := ⟨.filter, P.filtBase.toNat, P.tfB⟩
    let bias : Region := ⟨.bias, P.biasBase.toNat, P.biasB⟩
    s.Ready whole → { s with params := p1 }.Ready .pad → { s with params := p2 }.Ready .xin →
    { s with params := p3 }.Ready .contract → { s with params := p4 }.Ready out → { s with params := p5 }.Ready .crop →
    filter.overlaps ⟨.dest, b1.toNat, P.padB⟩ = false → filter.overlaps ⟨.dest, b2.toNat, P.tiB⟩ = false →
    (out = .xoutB →
      bias.overlaps ⟨.dest, b1.toNat, P.padB⟩ = false ∧ bias.overlaps ⟨.dest, b2.toNat, P.tiB⟩ = false ∧
      bias.overlaps ⟨.dest, b3.toNat, P.toB⟩ = false ∧ bias.overlaps ⟨.scratch, scr.toNat, P.ti2B⟩ = false) →
    ∃ t s1 s2 s3 s4 s5,
      exec whole s = .next t ∧ exec .pad { s with params := p1 } = .next s1 ∧
      exec .xin { s1 with params := p2 } = .next s2 ∧ exec .contract { s2 with params := p3 } = .next s3 ∧
      exec out { s3 with params := p4 } = .next s4 ∧ exec .crop { s4 with params := p5 } = .next s5 ∧
      t.err = .none ∧ s5.err = .none ∧
      ∀ n, n < P.outB → t.mem.read (P.dstBase.toNat + n) = s5.mem.read (P.dstBase.toNat + n)

/-- `45_output_transform.md` R227, `46_convolve.md` R242: the zero-bias law, for both pairs of commands. -/
def Obligations.ZeroBiasLaw : Prop :=
  ∀ (plain biased : Instr) (s : State), (plain = .xout ∧ biased = .xoutB) ∨ (plain = .convolve ∧ biased = .convolveB) →
    s.Ready plain → s.Ready biased → (∀ o, o < s.params.outCh → s.mem.half s.params.biasBase.toNat o = 0) →
    ∃ t u, exec plain s = .next t ∧ exec biased s = .next u ∧ t.err = .none ∧ u.err = .none ∧
      ∀ r ∈ (commandOf plain).destination s.params, ∀ a, r.holds a = true → u.mem.read a = t.mem.read a

/-- `42_pad_crop.md` R163: padding a map of the padded size is a bit-exact copy. -/
def Obligations.PaddingIdempotence : Prop :=
  ∀ s : State, s.Ready .pad → s.params.inW = s.params.padW → s.params.inH = s.params.padH →
    ∃ t, exec .pad s = .next t ∧ t.err = .none ∧ ∀ n, n < s.params.padB →
      t.mem.read (s.params.dstBase.toNat + n) = s.mem.read (s.params.srcBase.toNat + n)

/-- `42_pad_crop.md` R167, its first half: cropping to the padded size is a bit-exact copy of the whole source. -/
def Obligations.CropPassThrough : Prop :=
  ∀ s : State, s.Ready .crop → 6 ∣ s.params.outW → 6 ∣ s.params.outH →
    ∃ t, exec .crop s = .next t ∧ t.err = .none ∧ ∀ n, n < s.params.opB →
      t.mem.read (s.params.dstBase.toNat + n) = s.mem.read (s.params.srcBase.toNat + n)

/-! ## The host and memory -/

/-- `20_memory.md` R40: halves and singles are little-endian, and a half is the low 16 bits of the single there. -/
def Obligations.LittleEndianReads : Prop :=
  ∀ (m : Memory) (a : Nat),
    (m.read16 a).toNat = (m.read a).toNat + (m.read (a + 1)).toNat * 256 ∧
    (m.read32 a).toNat = (m.read a).toNat + (m.read (a + 1)).toNat * 256 + (m.read (a + 2)).toNat * 256 ^ 2 +
      (m.read (a + 3)).toNat * 256 ^ 3 ∧
    m.read16 a = (m.read32 a).setWidth 16

/-- `20_memory.md` R41 for the halves the core writes, and R63 for the host's bytes: what is written is read back, and
every other byte is as before. -/
def Obligations.WritesReadBack : Prop :=
  ∀ (m : Memory) (a : Nat) (v : Half), m.wf = true → a + 2 ≤ 2 ^ 64 →
    (m.write16 a v).read16 a = v ∧
    ((m.write16 a v).read a).toNat = v.toNat % 256 ∧ ((m.write16 a v).read (a + 1)).toNat = v.toNat / 256 ∧
    (∀ b, b ≠ a → b ≠ a + 1 → (m.write16 a v).read b = m.read b) ∧ (m.write16 a v).wf = true

/-- The host writes a byte and reads it back, with no command in flight (`20_memory.md` R63; byte-wide host accesses
are the model's, log entry 13). -/
def Obligations.HostMemoryRoundTrip : Prop :=
  ∀ (s : State) (l1 l2 : Option Nat) (a : Word) (v : Byte) (es : List HostEvent), s.status.busy = false →
    s.mem.wf = true → backs s.cfg a.toNat 1 = true →
    s.host = ⟨l1, .memWrite a v⟩ :: ⟨l2, .memRead a⟩ :: es →
    ∃ t u, step s = .next t ∧ step t = .next u ∧ u.hostData = v.setWidth 64 ∧ u.host = es ∧
      (∀ b, b ≠ a.toNat → u.mem.read b = s.mem.read b) ∧ u.status = s.status ∧ u.params = s.params

/-- `20_memory.md` R64 with the treatment `refuse` of `93_implementation_defined.md` U5 (the model's choice of the two
treatments, log entry 13): while a command is in flight, host writes to any of its regions and host reads of its
destination or scratch are refused, and host writes and reads elsewhere that the platform backs are answered; the core
then goes on. -/
def Obligations.HostRaceRefused : Prop :=
  ∀ (i : Instr) (s : State) (lead : Option Nat) (a : Word) (es : List HostEvent), s.status.busy = true →
    s.lcmd = encode i →
    (∀ v, s.host = ⟨lead, .memWrite a v⟩ :: es → (∃ r ∈ (commandOf i).regions s.latch, r.holds a.toNat = true) →
      step s = .refused .hostRace) ∧
    (s.host = ⟨lead, .memRead a⟩ :: es →
      (∃ r ∈ (commandOf i).regions s.latch, (r.role = .dest ∨ r.role = .scratch) ∧ r.holds a.toNat = true) →
      step s = .refused .hostRace) ∧
    (∀ v, s.host = ⟨lead, .memWrite a v⟩ :: es → (∀ r ∈ (commandOf i).regions s.latch, r.holds a.toNat = false) →
      backs s.cfg a.toNat 1 = true →
      step s = .next { s with host := es, mem := s.mem.write a.toNat v }.carryOn) ∧
    (s.host = ⟨lead, .memRead a⟩ :: es →
      (∀ r ∈ (commandOf i).regions s.latch, r.role = .dest ∨ r.role = .scratch → r.holds a.toNat = false) →
      backs s.cfg a.toNat 1 = true →
      step s = .next { s with host := es, hostData := (s.mem.read a.toNat).setWidth 64 }.carryOn)

/-! ## Layouts and shapes -/

/-- `20_memory.md` R51 to R54, R56, with `41_filter_transform.md` R145: the layouts are bijections onto the element
indices of their tensors. -/
def Obligations.LayoutsAreBijections : Prop :=
  (∀ w h n, (∀ e, e < n * 8 * h * w →
      ∃ g y x l, g < n ∧ y < h ∧ x < w ∧ l < 8 ∧ fmIndex w h g y x l = e) ∧
    ∀ g y x l g' y' x' l', g < n → y < h → x < w → l < 8 → g' < n → y' < h → x' < w → l' < 8 →
      fmIndex w h g y x l < n * 8 * h * w ∧
      (fmIndex w h g y x l = fmIndex w h g' y' x' l' → g = g' ∧ y = y' ∧ x = x' ∧ l = l')) ∧
  (∀ inCh outCh, (∀ e, e < outCh * inCh * 9 →
      ∃ o i r cc, o < outCh ∧ i < inCh ∧ r < 3 ∧ cc < 3 ∧ rfIndex inCh o i r cc = e) ∧
    ∀ o i r cc o' i' r' cc', o < outCh → i < inCh → r < 3 → cc < 3 → o' < outCh → i' < inCh → r' < 3 → cc' < 3 →
      rfIndex inCh o i r cc < outCh * inCh * 9 ∧
      (rfIndex inCh o i r cc = rfIndex inCh o' i' r' cc' → o = o' ∧ i = i' ∧ r = r' ∧ cc = cc')) ∧
  (∀ inCh outCh, inCh % 8 = 0 → outCh % 8 = 0 → (∀ e, e < outCh * inCh * 64 →
      ∃ q k p i j, q < outCh / 8 ∧ k < 64 ∧ p < inCh / 8 ∧ i < 8 ∧ j < 8 ∧ tfIndex inCh q k p i j = e) ∧
    ∀ q k p i j q' k' p' i' j', q < outCh / 8 → k < 64 → p < inCh / 8 → i < 8 → j < 8 →
      q' < outCh / 8 → k' < 64 → p' < inCh / 8 → i' < 8 → j' < 8 →
      tfIndex inCh q k p i j < outCh * inCh * 64 ∧
      (tfIndex inCh q k p i j = tfIndex inCh q' k' p' i' j' → q = q' ∧ k = k' ∧ p = p' ∧ i = i' ∧ j = j')) ∧
  (∀ T n, (∀ e, e < n * 8 * 64 * T → ∃ p k tile i, p < n ∧ k < 64 ∧ tile < T ∧ i < 8 ∧ tiIndex T p k tile i = e) ∧
    ∀ p k tile i p' k' tile' i', p < n → k < 64 → tile < T → i < 8 → p' < n → k' < 64 → tile' < T → i' < 8 →
      tiIndex T p k tile i < n * 8 * 64 * T ∧
      (tiIndex T p k tile i = tiIndex T p' k' tile' i' → p = p' ∧ k = k' ∧ tile = tile' ∧ i = i')) ∧
  ∀ T q k tile j, toIndex T q k tile j = tiIndex T q k tile j

/-- `20_memory.md` R55, R59: the interleaved layout stays inside its `TI2B` bytes and gives two elements two places. -/
def Obligations.InterleavedLayoutInjective : Prop :=
  ∀ T inCh k b p i tt k' b' p' i' tt',
    k < 64 → b < nblk T → p < inCh / 8 → i < 8 → tt < (blockAt T b).2 →
    k' < 64 → b' < nblk T → p' < inCh / 8 → i' < 8 → tt' < (blockAt T b').2 →
    ti2Index T inCh k b p i tt < 64 * nblk T * bMax T * inCh ∧
    (ti2Index T inCh k b p i tt = ti2Index T inCh k' b' p' i' tt' →
      k = k' ∧ b = b' ∧ p = p' ∧ i = i' ∧ tt = tt')

/-- `44_contraction.md` R196: the tile blocks. Each block starts where the one before it ends, has the largest of the
widths 8, 4, 2, 1 that fits the tiles left, and together they hold all the tiles, each exactly once; their number, and
the width of the first. -/
def Obligations.TileBlocks : Prop :=
  ∀ T : Nat,
    (∀ b, b < nblk T →
      (blockAt T b).1 = (((blocks T).take b).map Prod.snd).sum ∧
      (blockAt T b).2 =
        (let left := T - (blockAt T b).1
         if 8 ≤ left then 8 else if 4 ≤ left then 4 else if 2 ≤ left then 2 else 1) ∧
      (blockAt T b).1 + (blockAt T b).2 ≤ T) ∧
    ((blocks T).map Prod.snd).sum = T ∧
    nblk T = T / 8 + T / 4 % 2 + T / 2 % 2 + T % 2 ∧
    (8 ≤ T → bMax T = 8) ∧ (0 < T → T < 8 → bMax T = 2 ^ Nat.log2 T) ∧
    ∀ tile, tile < T → ∃ b, (b < nblk T ∧ (blockAt T b).1 ≤ tile ∧ tile < (blockAt T b).1 + (blockAt T b).2) ∧
      ∀ b', b' < nblk T → (blockAt T b').1 ≤ tile → tile < (blockAt T b').1 + (blockAt T b').2 → b' = b

/-- `40_numerics.md` R120, R121, R122: `roundup6`, the bounds of the shapes, and the last tile's window. -/
def Obligations.ShapeArithmetic : Prop :=
  (∀ n, 1 ≤ n → roundup6 n = (n + 5) / 6 * 6 ∧ n ≤ roundup6 n ∧ roundup6 n ≤ n + 5 ∧ (roundup6 n = n ↔ 6 ∣ n)) ∧
  ∀ P : Params, 1 ≤ P.outW → P.outW ≤ 65535 → 1 ≤ P.outH → P.outH ≤ 65535 →
    6 ≤ P.outWp ∧ P.outWp ≤ 65538 ∧ 8 ≤ P.padW ∧ P.padW ≤ 65540 ∧ 1 ≤ P.tilesX ∧ P.tilesX ≤ 10923 ∧
    1 ≤ P.tiles ∧ P.tiles ≤ 119311929 ∧ (P.padW - 2) % 6 = 0 ∧ (P.padH - 2) % 6 = 0 ∧
    P.outWp = 6 * P.tilesX ∧ P.outHp = 6 * P.tilesY ∧
    6 * (P.tilesX - 1) + 7 = P.outWp + 1 ∧ P.outWp + 1 = P.padW - 1 ∧
    6 * (P.tilesY - 1) + 7 = P.outHp + 1 ∧ P.outHp + 1 = P.padH - 1

/-! ## Arithmetic -/

/-- `40_numerics.md` R104, its consequences at the ends of the two formats: overflow, the largest finite value,
underflow to zero and to the smallest subnormal, on `m * 2^-k`. -/
def Obligations.RoundingThresholds : Prop :=
  ∀ (neg : Bool) (m k : Nat), 0 < m →
    (65520 * 2 ^ k ≤ m → binary16.round neg m k = binary16.infBits neg) ∧
    (65504 * 2 ^ k ≤ m → m < 65520 * 2 ^ k → binary16.round neg m k = binary16.signBit neg + 0x7BFF) ∧
    (m * 2 ^ 25 ≤ 2 ^ k → binary16.round neg m k = binary16.signBit neg) ∧
    (2 ^ k < m * 2 ^ 25 → m * 2 ^ 25 < 3 * 2 ^ k → binary16.round neg m k = binary16.signBit neg + 1) ∧
    ((2 ^ 128 - 2 ^ 103) * 2 ^ k ≤ m → binary32.round neg m k = binary32.infBits neg) ∧
    ((2 ^ 128 - 2 ^ 104) * 2 ^ k ≤ m → m < (2 ^ 128 - 2 ^ 103) * 2 ^ k →
      binary32.round neg m k = binary32.signBit neg + 0x7F7FFFFF) ∧
    (m * 2 ^ 150 ≤ 2 ^ k → binary32.round neg m k = binary32.signBit neg) ∧
    (2 ^ k < m * 2 ^ 150 → m * 2 ^ 150 < 3 * 2 ^ k → binary32.round neg m k = binary32.signBit neg + 1)

/-- `40_numerics.md` R101, R102, R104: a finite non-zero value rounds to itself, for halves and singles. -/
def Obligations.RoundingIsExactOnValues : Prop :=
  ∀ F ∈ [binary16, binary32], ∀ (b n : Nat) (s : Bool), b < 2 ^ F.width → F.unpack b = .fin s n → 0 < n →
    F.round s n F.scale = b

/-- `40_numerics.md` R104: a finite result of rounding `m * 2^-k` is at least as near as every finite value of the
format; of two equally near values it is the one with the even significand (bit 0 of its pattern is 0); the sign is
kept. -/
def Obligations.RoundingIsNearest : Prop :=
  ∀ F ∈ [binary16, binary32], ∀ (neg s : Bool) (m k n : Nat), 0 < m →
    F.unpack (F.round neg m k) = .fin s n →
    s = neg ∧ ∀ (b n' : Nat) (s' : Bool), b < 2 ^ F.width → F.unpack b = .fin s' n' →
      let near := ((n * 2 ^ k : Int) - m * 2 ^ F.scale).natAbs
      let other := ((n' * 2 ^ k : Int) - m * 2 ^ F.scale).natAbs
      near ≤ other ∧ (near = other → n' ≠ n → F.round neg m k % 2 = 0)

/-- `40_numerics.md` R108, the alternative `RTZ`: the result of narrowing `m * 2^-k` toward zero is finite, keeps the
sign, and is the largest half magnitude not above it. -/
def Obligations.TruncationIsTowardZero : Prop :=
  ∀ (neg : Bool) (m k : Nat), 0 < m →
    ∃ n, binary16.unpack (binary16.truncate neg m k) = .fin neg n ∧ n * 2 ^ k ≤ m * 2 ^ 24 ∧
      ∀ (b n' : Nat) (s' : Bool), b < 2 ^ 16 → binary16.unpack b = .fin s' n' → n' * 2 ^ k ≤ m * 2 ^ 24 → n' ≤ n

/-- `40_numerics.md` R105 to R107: on finite operands each primitive is one rounding (R104) of the exact sum,
difference, product, `a + x*y` or `a - x*y`, in units of the smallest subnormal or of its square; an exact zero is signed
by R109, and a zero product by R105. -/
def Obligations.PrimitivesRoundOnce : Prop :=
  (∀ (nan a x y : Half) (s t u : Bool) (m n k : Nat), binary16.unpack a.toNat = .fin s m →
    binary16.unpack x.toNat = .fin t n → binary16.unpack y.toNat = .fin u k →
    let product := signedInt t n * signedInt u k
    binary16.Rounded (decide (m = 0) && s && t) (signedInt s m + signedInt t n) 24 (add16 nan a x).toNat ∧
    binary16.Rounded (decide (m = 0) && s && !t) (signedInt s m - signedInt t n) 24 (sub16 nan a x).toNat ∧
    binary16.Rounded (t ^^ u) product 48 (mul16 nan x y).toNat ∧
    binary16.Rounded (decide (m = 0) && s && (t ^^ u)) (signedInt s m * 2 ^ 24 + product) 48
      (fma16 nan a x y).toNat ∧
    binary16.Rounded (decide (m = 0) && s && !(t ^^ u)) (signedInt s m * 2 ^ 24 - product) 48
      (fms16 nan a x y).toNat) ∧
  ∀ (a x : Single) (s t : Bool) (m n : Nat), binary32.unpack a.toNat = .fin s m → binary32.unpack x.toNat = .fin t n →
    binary32.Rounded (decide (m = 0) && s && t) (signedInt s m + signedInt t n) 149 (add32 a x).toNat ∧
    binary32.Rounded (s ^^ t) (signedInt s m * signedInt t n) 298 (mul32 a x).toNat

/-- `40_numerics.md` R109: adding a zero, and exact cancellation. -/
def Obligations.SignedZeroSums : Prop :=
  ∀ (nan v : Half), isNaN16 v = false →
    add16 nan v 0x0000#16 = (if v = 0x8000#16 then 0x0000#16 else v) ∧ add16 nan v 0x8000#16 = v ∧
    (v &&& 0x7FFF#16 ≠ 0x7C00#16 → v &&& 0x7FFF#16 ≠ 0 → sub16 nan v v = 0x0000#16)

/-- `40_numerics.md` R105 to R107 and R111, the special cases: a NaN operand, or an invalid operation, gives `NAN_BITS`,
and every NaN result of a half primitive is `NAN_BITS`; the infinities; `fma16` and `fms16` in the order of R106. A
single-precision NaN result is a NaN (which one is the model's choice: log entry 6). -/
def Obligations.NanAndInfinityResults : Prop :=
  (∀ (nan : Half) (rm : CvtRm) (a x y : Half) (v : Single), isNaN16 nan = true →
    (isNaN16 a = true ∨ isNaN16 x = true →
      add16 nan a x = nan ∧ sub16 nan a x = nan ∧ mul16 nan a x = nan ∧ fma16 nan a x y = nan ∧
        fms16 nan a x y = nan) ∧
    (isNaN16 y = true → fma16 nan a x y = nan ∧ fms16 nan a x y = nan) ∧
    (isNaN16 (add16 nan a x) = true → add16 nan a x = nan) ∧
    (isNaN16 (sub16 nan a x) = true → sub16 nan a x = nan) ∧
    (isNaN16 (mul16 nan a x) = true → mul16 nan a x = nan) ∧
    (isNaN16 (fma16 nan a x y) = true → fma16 nan a x y = nan) ∧
    (isNaN16 (fms16 nan a x y) = true → fms16 nan a x y = nan) ∧
    (isNaN16 (cvt32to16 nan rm v) = true ↔ isNaN32 v = true) ∧
    (isNaN32 v = true → cvt32to16 nan rm v = nan)) ∧
  (∀ nan : Half, binary16.InfinityRules (add16 nan) (mul16 nan) (· = nan)) ∧
  (∀ (nan a x : Half) (s t : Bool), binary16.unpack a.toNat = .inf s →
    (binary16.unpack x.toNat = .inf t → sub16 nan a x = if s = t then nan else a) ∧
    ∀ n, binary16.unpack x.toNat = .fin t n → sub16 nan a x = a ∧ sub16 nan x a = neg16 a) ∧
  (∀ nan a x y : Half, isNaN16 a = false →
    (∀ s t, (binary16.unpack x.toNat = .inf s ∧ binary16.unpack y.toNat = .fin t 0) ∨
        (binary16.unpack x.toNat = .fin t 0 ∧ binary16.unpack y.toNat = .inf s) →
      fma16 nan a x y = nan ∧ fms16 nan a x y = nan) ∧
    (∀ p, infiniteProduct x y p →
      (fma16 nan a x y = if binary16.unpack a.toNat = .inf (!p) then nan else if p then 0xFC00#16 else 0x7C00#16) ∧
      (fms16 nan a x y = if binary16.unpack a.toNat = .inf p then nan else if p then 0x7C00#16 else 0xFC00#16)) ∧
    ∀ s t u n k, binary16.unpack a.toNat = .inf s → binary16.unpack x.toNat = .fin t n →
      binary16.unpack y.toNat = .fin u k → fma16 nan a x y = a ∧ fms16 nan a x y = a) ∧
  (∀ v w : Single, isNaN32 v = true ∨ isNaN32 w = true → isNaN32 (add32 v w) = true ∧ isNaN32 (mul32 v w) = true) ∧
  binary32.InfinityRules add32 mul32 (isNaN32 · = true)

/-- `40_numerics.md` R108: the conversion to half of every single that is no NaN: infinities and zeros; a finite non-zero
value is rounded by R104, or narrowed toward zero by the alternative `RTZ` (`Obligations.RoundingIsNearest`,
`Obligations.TruncationIsTowardZero`); overflow and underflow. -/
def Obligations.NarrowingRules : Prop :=
  ∀ (nan : Half) (v : Single) (s : Bool),
    (binary32.unpack v.toNat = .inf s → ∀ rm, (cvt32to16 nan rm v).toNat = binary16.infBits s) ∧
    ∀ n, binary32.unpack v.toNat = .fin s n →
      (n = 0 → ∀ rm, (cvt32to16 nan rm v).toNat = binary16.signBit s) ∧
      (0 < n → (cvt32to16 nan .nearestEven v).toNat = binary16.round s n 149 ∧
        (cvt32to16 nan .towardZero v).toNat = binary16.truncate s n 149) ∧
      (65520 * 2 ^ 149 ≤ n → (cvt32to16 nan .nearestEven v).toNat = binary16.infBits s) ∧
      (n ≤ 2 ^ 124 → (cvt32to16 nan .nearestEven v).toNat = binary16.signBit s) ∧
      (65504 * 2 ^ 149 ≤ n → (cvt32to16 nan .towardZero v).toNat = binary16.signBit s + 0x7BFF)

/-- `44_contraction.md` R200 and R203 (f), with `40_numerics.md` R109: a step from the initial `+0` gives the rounded
product, or `+0` when the product is a zero of either sign; a chain of zero products stays at `+0`. -/
def Obligations.AccumulationFromZero : Prop :=
  ∀ nan : Half, isNaN16 nan = true →
    (∀ x y : Half, fma16 nan 0x0000#16 x y = if mul16 nan x y &&& 0x7FFF#16 = 0 ∧
        (x &&& 0x7FFF#16 = 0 ∨ y &&& 0x7FFF#16 = 0) then 0x0000#16 else mul16 nan x y) ∧
    ∀ (f x : Nat → Half) (n : Nat),
      (∀ c, c < n → isNaN16 (f c) = false ∧ isNaN16 (x c) = false ∧ f c &&& 0x7C00#16 ≠ 0x7C00#16 ∧
        x c &&& 0x7C00#16 ≠ 0x7C00#16 ∧ (f c &&& 0x7FFF#16 = 0 ∨ x c &&& 0x7FFF#16 = 0)) →
      dotChain nan f x n = 0x0000#16

/-- `40_numerics.md` R113: the tile transforms never mix lanes. -/
def Obligations.LanesAreIndependent : Prop :=
  ∀ (nan : Half) (tree : AtTree) (d : Grid LaneVec 8 8) (bias : LaneVec) (l : Fin 8),
    (xinTile (laneArith nan) d).map (·.map fun v => v[l]) =
      xinTile (halfArith nan) (d.map (·.map fun v => v[l])) ∧
    (xoutTile (laneArith nan) tree d bias).map (·.map fun v => v[l]) =
      xoutTile (halfArith nan) tree (d.map (·.map fun v => v[l])) bias[l]

/-- `40_numerics.md` R112: the half that stands for each constant of the transforms has exactly that constant's value,
and the operations of the machine's half arithmetic (`43_input_transform.md` R176) are the primitives with that half.
`43_input_transform.md` R182: the matrix of `bt8` in exact arithmetic. -/
def Obligations.InputMatrix : Prop :=
  (∀ c : Coef, ∃ n, binary16.unpack c.half.toNat = .fin false n ∧ (n : ℚ) / 2 ^ 24 = c.exact) ∧
  (∀ (nan a b : Half) (c : Coef),
    (halfArith nan).add a b = add16 nan a b ∧ (halfArith nan).sub a b = sub16 nan a b ∧
    (halfArith nan).mulC a c = mul16 nan a c.half ∧ (halfArith nan).fmaC a b c = fma16 nan a b c.half ∧
    (halfArith nan).fmsC a b c = fms16 nan a b c.half) ∧
  ∀ a0 a1 a2 a3 a4 a5 a6 a7 : ℚ, bt8 exactArith #v[a0, a1, a2, a3, a4, a5, a6, a7] =
    #v[a0 - 21 / 4 * a2 + 21 / 4 * a4 - a6,
       a1 + a2 - 17 / 4 * a3 - 17 / 4 * a4 + a5 + a6,
       -a1 + a2 + 17 / 4 * a3 - 17 / 4 * a4 - a5 + a6,
       1 / 2 * a1 + 1 / 4 * a2 - 5 / 2 * a3 - 5 / 4 * a4 + 2 * a5 + a6,
       -1 / 2 * a1 + 1 / 4 * a2 + 5 / 2 * a3 - 5 / 4 * a4 - 2 * a5 + a6,
       2 * a1 + 4 * a2 - 5 / 2 * a3 - 5 * a4 + 1 / 2 * a5 + a6,
       -2 * a1 + 4 * a2 + 5 / 2 * a3 - 5 * a4 - 1 / 2 * a5 + a6,
       -a1 + 21 / 4 * a3 - 21 / 4 * a5 + a7]

/-- `45_output_transform.md` R222: the matrix of `at6` in exact arithmetic, for both groupings (R229). The constants
that the machine's half arithmetic uses for it have exactly their values (`40_numerics.md` R112). -/
def Obligations.OutputMatrix : Prop :=
  (∀ c ∈ [Coef.c2, .c4, .c8, .c16, .c32],
    ∃ n, binary16.unpack c.half.toNat = .fin false n ∧ (n : ℚ) / 2 ^ 24 = c.exact) ∧
  (∀ (nan a b : Half) (c : Coef), (halfArith nan).fmaC a b c = fma16 nan a b c.half) ∧
  ∀ (tree : AtTree) (b0 b1 b2 b3 b4 b5 b6 b7 : ℚ), at6 exactArith tree #v[b0, b1, b2, b3, b4, b5, b6, b7] =
    #v[b0 + b1 + b2 + b3 + b4 + 32 * b5 + 32 * b6,
       b1 - b2 + 2 * b3 - 2 * b4 + 16 * b5 - 16 * b6,
       b1 + b2 + 4 * b3 + 4 * b4 + 8 * b5 + 8 * b6,
       b1 - b2 + 8 * b3 - 8 * b4 + 4 * b5 - 4 * b6,
       b1 + b2 + 16 * b3 + 16 * b4 + 2 * b5 + 2 * b6,
       b1 - b2 + 32 * b3 - 32 * b4 + b5 - b6 + b7]

/-- `46_convolve.md` R240 on one tile and one channel: in exact arithmetic the three transforms together compute the
3x3 correlation, tap `(r, cc)` meeting the input `r` rows below and `cc` columns to the right (the machine's filter
transform over exact arithmetic is `exactFilterTile`: `Obligations.FilterConstants`). -/
def Obligations.WinogradIdentity : Prop :=
  ∀ (tree : AtTree) (K : Grid ℚ 3 3) (d : Grid ℚ 8 8) (bias : ℚ),
    xoutTile exactArith tree
      (Vector.ofFn fun t => Vector.ofFn fun u => (exactFilterTile K)[t][u] * (xinTile exactArith d)[t][u]) bias =
    Vector.ofFn fun i => Vector.ofFn fun j =>
      bias + ∑ r : Fin 3, ∑ cc : Fin 3, K[r][cc] * gridAt 0 d (i.val + r.val) (j.val + cc.val)

/-- `41_filter_transform.md` R140 to R143: each entry of the machine's `G32` is the single nearest to the rational entry
of `G`, zero where that is zero; the machine's `filterTile` is the two passes in single precision on `G32`, and the same
two passes in exact arithmetic on `G` are `G K Gt`. Single precision is `add32` and `mul32`, each one rounding of the exact
sum or product (`Obligations.PrimitivesRoundOnce`). -/
def Obligations.FilterConstants : Prop :=
  (∀ (u : Fin 8) (r : Fin 3), (gExact[u][r] = 0 → g32[u][r] = 0#32) ∧
    ∃ s n, binary32.unpack g32[u][r].toNat = .fin s n ∧
      ∀ (b n' : Nat) (s' : Bool), b < 2 ^ 32 → binary32.unpack b = .fin s' n' →
        |(signedInt s n : ℚ) / 2 ^ 149 - gExact[u][r]| ≤ |(signedInt s' n' : ℚ) / 2 ^ 149 - gExact[u][r]|) ∧
  (∀ K : Grid Single 3 3, filterTile K = filterTileOver singleFilterArith g32 K) ∧
  (∀ a b : Single, singleFilterArith.add a b = add32 a b ∧ singleFilterArith.mul a b = mul32 a b) ∧
  ∀ K : Grid ℚ 3 3, filterTileOver exactFilterArith gExact K = exactFilterTile K

/-- `41_filter_transform.md` R148 (b): the corner taps pass through, for finite taps, when they are not zero. -/
def Obligations.CornerTapsPassThrough : Prop :=
  ∀ (nan : Half) (rm : CvtRm) (K : Grid Single 3 3),
    (∀ r cc : Fin 3, ∃ s n, binary32.unpack K[r][cc].toNat = .fin s n) →
    ∀ (k : Nat) (r cc : Fin 3), (k, r, cc) ∈ [(0, 0, 0), (7, 2, 0), (56, 0, 2), (63, 2, 2)] →
      K[r][cc] &&& 0x7FFFFFFF#32 ≠ 0 → filterCoef nan rm K k = cvt32to16 nan rm K[r][cc]
end

