-- ==== Sys2Proof/Laws/Memory.lean ====
section
/-! SUPPORT. The laws of memory: read after write, the canonical form, and what the wider accesses and `fill` read
and write, byte by byte. -/

namespace Sys2Proof.Machine

/-! ## The canonical form -/

theorem Memory.wfAbove_cons {lo a : Nat} {v : Byte} {m : Memory} :
    Memory.wfAbove lo ((a, v) :: m) = true ↔
      lo ≤ a ∧ a < addrSpace ∧ v ≠ unlistedByte ∧ Memory.wfAbove (a + 1) m = true := by
  simp [Memory.wfAbove, and_assoc]

theorem Memory.wfAbove_mono {lo hi : Nat} (h : lo ≤ hi) {m : Memory} (hm : m.wfAbove hi = true) :
    m.wfAbove lo = true := by
  cases m with
  | nil => rfl
  | cons c m =>
    obtain ⟨a, v⟩ := c
    rw [Memory.wfAbove_cons] at hm ⊢
    exact ⟨le_trans h hm.1, hm.2⟩

/-- Nothing is listed below the bound. -/
theorem Memory.read_below {lo a : Nat} {m : Memory} (hm : m.wfAbove lo = true) (h : a < lo) :
    m.read a = unlistedByte := by
  cases m with
  | nil => rfl
  | cons c m =>
    obtain ⟨b, v⟩ := c
    rw [Memory.wfAbove_cons] at hm
    simp [Memory.read, show a < b by omega]

theorem Memory.wfAbove_write {lo a : Nat} {v : Byte} {m : Memory} (hm : m.wfAbove lo = true) (hl : lo ≤ a)
    (ha : a < addrSpace) : (m.write a v).wfAbove lo = true := by
  induction m generalizing lo with
  | nil =>
    by_cases hv : v = unlistedByte <;> simp [Memory.write, Memory.wfAbove, hv, hl, ha]
  | cons c m ih =>
    obtain ⟨b, w⟩ := c
    have h := Memory.wfAbove_cons.mp hm
    by_cases h1 : a < b
    · by_cases hv : v = unlistedByte
      · simpa [Memory.write, h1, hv] using hm
      · simp only [Memory.write, h1, if_true, hv, if_false]
        exact Memory.wfAbove_cons.mpr ⟨hl, ha, hv, Memory.wfAbove_cons.mpr ⟨h1, h.2⟩⟩
    · by_cases h2 : a = b
      · by_cases hv : v = unlistedByte
        · simpa [Memory.write, h2, hv] using Memory.wfAbove_mono (by omega) h.2.2.2
        · simp only [Memory.write, h2, lt_irrefl, if_true, hv, if_false]
          exact Memory.wfAbove_cons.mpr ⟨h.1, h.2.1, hv, h.2.2.2⟩
      · simp only [Memory.write, h1, h2, if_false]
        exact Memory.wfAbove_cons.mpr ⟨h.1, h.2.1, h.2.2.1, ih h.2.2.2 (by omega)⟩

/-- A byte write keeps the canonical form. -/
theorem Memory.wf_write {a : Nat} {v : Byte} {m : Memory} (hm : m.wf = true) (ha : a < addrSpace) :
    (m.write a v).wf = true := Memory.wfAbove_write hm (Nat.zero_le a) ha

theorem Memory.read_write_above {lo a b : Nat} {v : Byte} {m : Memory} (hm : m.wfAbove lo = true) :
    (m.write a v).read b = if b = a then v else m.read b := by
  induction m generalizing lo with
  | nil =>
    by_cases hv : v = unlistedByte
    · simp [Memory.write, hv, Memory.read]
    · rcases lt_trichotomy b a with h | h | h <;> simp [Memory.write, hv, Memory.read, h] <;> omega
  | cons c m ih =>
    obtain ⟨c, w⟩ := c
    have h := Memory.wfAbove_cons.mp hm
    by_cases h1 : a < c
    · by_cases hv : v = unlistedByte
      · simp only [Memory.write, h1, hv, if_true]
        split
        · next hb => simp [Memory.read, hb, h1]
        · rfl
      · simp only [Memory.write, h1, hv, if_true, if_false]
        rcases lt_trichotomy b a with hb | hb | hb
        · simp [Memory.read, hb, show b < c by omega, show b ≠ a by omega]
        · simp [Memory.read, hb]
        · simp [Memory.read, show ¬ b < a by omega, show b ≠ a by omega]
    · by_cases h2 : a = c
      · subst h2
        by_cases hv : v = unlistedByte
        · simp only [Memory.write, lt_irrefl, if_true, hv, if_false]
          rcases lt_trichotomy b a with hb | hb | hb
          · simp [Memory.read, hb, show b ≠ a by omega, Memory.read_below h.2.2.2 (show b < a + 1 by omega)]
          · simp [hb, Memory.read_below h.2.2.2 (show a < a + 1 by omega)]
          · simp [Memory.read, show ¬ b < a by omega, show b ≠ a by omega]
        · simp only [Memory.write, lt_irrefl, if_true, hv, if_false]
          rcases lt_trichotomy b a with hb | hb | hb
          · simp [Memory.read, hb, show b ≠ a by omega]
          · simp [Memory.read, hb]
          · simp [Memory.read, show ¬ b < a by omega, show b ≠ a by omega]
      · simp only [Memory.write, h1, h2, if_false, Memory.read]
        rcases lt_trichotomy b c with hb | hb | hb
        · simp [hb, show b ≠ a by omega]
        · simp [hb, show c ≠ a by omega]
        · simp only [show ¬ b < c by omega, show b ≠ c by omega, if_false]
          exact ih h.2.2.2

/-- A byte reads back as written, and every other byte reads as before. -/
theorem Memory.read_write {a b : Nat} {v : Byte} {m : Memory} (hm : m.wf = true) :
    (m.write a v).read b = if b = a then v else m.read b := Memory.read_write_above hm

theorem Memory.eq_of_read_above {lo : Nat} {m n : Memory} (hm : m.wfAbove lo = true) (hn : n.wfAbove lo = true)
    (h : ∀ a, m.read a = n.read a) : m = n := by
  induction m generalizing lo n with
  | nil =>
    cases n with
    | nil => rfl
    | cons d n =>
      obtain ⟨b, w⟩ := d
      have hb := h b
      simp [Memory.read] at hb
      exact absurd hb.symm (Memory.wfAbove_cons.mp hn).2.2.1
  | cons c m ih =>
    obtain ⟨a, v⟩ := c
    have hm' := Memory.wfAbove_cons.mp hm
    cases n with
    | nil =>
      have ha := h a
      simp [Memory.read] at ha
      exact absurd ha hm'.2.2.1
    | cons d n =>
      obtain ⟨b, w⟩ := d
      have hn' := Memory.wfAbove_cons.mp hn
      rcases lt_trichotomy a b with hab | hab | hab
      · have ha := h a
        simp [Memory.read, hab] at ha
        exact absurd ha hm'.2.2.1
      · subst hab
        have hv := h a
        simp [Memory.read] at hv
        subst hv
        rw [ih hm'.2.2.2 hn'.2.2.2 fun x => ?_]
        rcases lt_trichotomy x a with hx | hx | hx
        · rw [Memory.read_below hm'.2.2.2 (by omega), Memory.read_below hn'.2.2.2 (by omega)]
        · rw [hx, Memory.read_below hm'.2.2.2 (by omega), Memory.read_below hn'.2.2.2 (by omega)]
        · have := h x
          simpa [Memory.read, show ¬ x < a by omega, show x ≠ a by omega] using this
      · have hb := h b
        simp [Memory.read, hab] at hb
        exact absurd hb.symm hn'.2.2.1

/-- Memories in canonical form that read alike are equal data. -/
theorem Memory.eq_of_read {m n : Memory} (hm : m.wf = true) (hn : n.wf = true) (h : ∀ a, m.read a = n.read a) :
    m = n := Memory.eq_of_read_above hm hn h

/-! ## Half accesses -/

/-- Byte `b` of a half in little-endian order (`20_memory.md` R40). -/
def halfByte (h : Half) (b : Nat) : Byte := h.extractLsb' (8 * b) 8

theorem Memory.wf_write16 {a : Nat} {v : Half} {m : Memory} (hm : m.wf = true) (ha : a + 2 ≤ addrSpace) :
    (m.write16 a v).wf = true := Memory.wf_write (Memory.wf_write hm (by omega)) (by omega)

theorem Memory.read_write16 {a b : Nat} {v : Half} {m : Memory} (hm : m.wf = true) (ha : a + 2 ≤ addrSpace) :
    (m.write16 a v).read b = if a ≤ b ∧ b < a + 2 then halfByte v (b - a) else m.read b := by
  rw [Memory.write16, Memory.read_write (Memory.wf_write hm (by omega)), Memory.read_write hm]
  by_cases h1 : b = a + 1
  · simp [h1, halfByte, show a + 1 - a = 1 by omega]
  · by_cases h2 : b = a
    · simp [h2, halfByte]
    · simp [h1, h2, show ¬ (a ≤ b ∧ b < a + 2) by omega]

/-- A half is the concatenation of its two bytes. -/
theorem halfByte_append (h : Half) : halfByte h 1 ++ halfByte h 0 = h := by
  apply BitVec.eq_of_getLsbD_eq
  intro i hi
  simp only [halfByte, BitVec.getLsbD_append, BitVec.getLsbD_extractLsb']
  by_cases h8 : i < 8
  · simp [h8]
  · simp [h8, show i - 8 < 8 by omega, show 8 + (i - 8) = i by omega]

/-- A half reads as `v` exactly when its two bytes are those of `v`. -/
theorem Memory.read16_eq {m : Memory} {a : Nat} {v : Half} (h0 : m.read a = halfByte v 0)
    (h1 : m.read (a + 1) = halfByte v 1) : m.read16 a = v := by
  rw [Memory.read16, h0, h1, halfByte_append]

theorem Memory.halfByte_read16_zero {m : Memory} {a : Nat} : halfByte (m.read16 a) 0 = m.read a := by
  ext i hi
  simp only [halfByte, Memory.read16, BitVec.getElem_extractLsb', BitVec.getLsbD_append]
  simp [show i < 8 by omega]

theorem Memory.halfByte_read16_one {m : Memory} {a : Nat} : halfByte (m.read16 a) 1 = m.read (a + 1) := by
  ext i hi
  simp only [halfByte, Memory.read16, BitVec.getElem_extractLsb', BitVec.getLsbD_append]
  simp [show ¬ 8 + i < 8 by omega, show 8 + i - 8 = i by omega, BitVec.getLsbD_eq_getElem hi]

/-- Halves depend on their two bytes only. -/
theorem Memory.half_congr {m n : Memory} {base e : Nat}
    (h : ∀ a, base + 2 * e ≤ a → a < base + 2 * e + 2 → m.read a = n.read a) : m.half base e = n.half base e := by
  simp only [Memory.half, Memory.read16]
  rw [h _ (by omega) (by omega), h _ (by omega) (by omega)]

theorem Memory.single_congr {m n : Memory} {base e : Nat}
    (h : ∀ a, base + 4 * e ≤ a → a < base + 4 * e + 4 → m.read a = n.read a) :
    m.single base e = n.single base e := by
  simp only [Memory.single, Memory.read32]
  rw [h _ (by omega) (by omega), h _ (by omega) (by omega), h _ (by omega) (by omega), h _ (by omega) (by omega)]

theorem Memory.read_setHalf {base e b : Nat} {v : Half} {m : Memory} (hm : m.wf = true)
    (ha : base + 2 * e + 2 ≤ addrSpace) :
    (m.setHalf base e v).read b =
      if base + 2 * e ≤ b ∧ b < base + 2 * e + 2 then halfByte v (b - (base + 2 * e)) else m.read b :=
  Memory.read_write16 hm ha

theorem Memory.wf_setHalf {base e : Nat} {v : Half} {m : Memory} (hm : m.wf = true)
    (ha : base + 2 * e + 2 ≤ addrSpace) : (m.setHalf base e v).wf = true := Memory.wf_write16 hm ha

/-- What `n` halves in a row are written as. -/
theorem Memory.setHalves_spec {base e : Nat} {f : Nat → Half} {m : Memory} (hm : m.wf = true) (n : Nat)
    (ha : base + 2 * e + 2 * n ≤ addrSpace) :
    (m.setHalves base e f n).wf = true ∧
    ∀ b, (m.setHalves base e f n).read b =
      if base + 2 * e ≤ b ∧ b < base + 2 * e + 2 * n then
        halfByte (f ((b - (base + 2 * e)) / 2)) ((b - (base + 2 * e)) % 2)
      else m.read b := by
  induction n with
  | zero => exact ⟨hm, fun b => by simp [Memory.setHalves, show ¬ (base + 2 * e ≤ b ∧ b < base + 2 * e) by omega]⟩
  | succ n ih =>
    obtain ⟨ihw, ihr⟩ := ih (by omega)
    have hfit : base + 2 * (e + n) + 2 ≤ addrSpace := by omega
    refine ⟨Memory.wf_setHalf ihw hfit, fun b => ?_⟩
    rw [Memory.setHalves, Memory.read_setHalf ihw hfit, ihr]
    by_cases h1 : base + 2 * (e + n) ≤ b ∧ b < base + 2 * (e + n) + 2
    · rw [if_pos h1, if_pos (by omega), show (b - (base + 2 * e)) / 2 = n by omega,
        show b - (base + 2 * (e + n)) = (b - (base + 2 * e)) % 2 by omega]
    · rw [if_neg h1]
      by_cases h2 : base + 2 * e ≤ b ∧ b < base + 2 * e + 2 * n
      · rw [if_pos h2, if_pos (by omega)]
      · rw [if_neg h2, if_neg (by omega)]

theorem Memory.wf_setLanes {base e : Nat} {v : LaneVec} {m : Memory} (hm : m.wf = true)
    (ha : base + 2 * e + 16 ≤ addrSpace) : (m.setLanes base e v).wf = true :=
  (Memory.setHalves_spec hm 8 (by omega)).1

theorem Memory.read_setLanes {base e b : Nat} {v : LaneVec} {m : Memory} (hm : m.wf = true)
    (ha : base + 2 * e + 16 ≤ addrSpace) :
    (m.setLanes base e v).read b =
      if base + 2 * e ≤ b ∧ b < base + 2 * e + 16 then
        halfByte (laneAt v ((b - (base + 2 * e)) / 2)) ((b - (base + 2 * e)) % 2)
      else m.read b := (Memory.setHalves_spec hm 8 (by omega)).2 b

/-- Lane vectors depend on their sixteen bytes only. -/
theorem Memory.lanes_congr {m n : Memory} {base e : Nat}
    (h : ∀ a, base + 2 * e ≤ a → a < base + 2 * e + 16 → m.read a = n.read a) : m.lanes base e = n.lanes base e := by
  refine congrArg Vector.ofFn (funext fun l => ?_)
  exact Memory.half_congr fun a h1 h2 => h a (by omega) (by omega)

@[simp] theorem Memory.getElem_lanes {m : Memory} {base e l : Nat} (h : l < 8) :
    (m.lanes base e)[l] = m.half base (e + l) := by simp [Memory.lanes]

@[simp] theorem laneAt_of_lt {v : LaneVec} {l : Nat} (h : l < 8) : laneAt v l = v[l] := by simp [laneAt, h]

/-! ## Unspecified bytes -/

theorem Memory.fill_spec {base : Nat} {f : Nat → Byte} {m : Memory} (hm : m.wf = true) (n : Nat)
    (ha : base + n ≤ addrSpace ∨ n = 0) :
    (m.fill base f n).wf = true ∧
    ∀ b, (m.fill base f n).read b = if base ≤ b ∧ b < base + n then f b else m.read b := by
  induction n with
  | zero => exact ⟨hm, fun b => by simp [Memory.fill, show ¬ (base ≤ b ∧ b < base) by omega]⟩
  | succ n ih =>
    obtain ⟨ihw, ihr⟩ := ih (by omega)
    refine ⟨Memory.wf_write ihw (by omega), fun b => ?_⟩
    rw [Memory.fill, Memory.read_write ihw, ihr]
    by_cases h1 : b = base + n
    · simp [h1]
    · rw [if_neg h1]
      by_cases h2 : base ≤ b ∧ b < base + n
      · rw [if_pos h2, if_pos (by omega)]
      · rw [if_neg h2, if_neg (by omega)]

end Sys2Proof.Machine
end

