-- ==== Sys2Proof/Laws/Access.lean ====
section
/-! SUPPORT. The laws of loops and of the core's memory accesses: `Fills` says once all that a piece of a unit of
work does when the platform backs its accesses, `Stays` what it does whenever it succeeds. -/

namespace Sys2Proof.Machine

/-! ## Backing -/

theorem backs_iff {cfg : Config} {a n : Nat} :
    backs cfg a n = true ↔
      a + n ≤ addrSpace ∧ ∀ h ∈ cfg.refused, h.2 = 0 ∨ h.1 + h.2 ≤ a ∨ a + n ≤ h.1 := by
  simp [backs, or_assoc]

/-- A part of a backed range is backed. -/
theorem backs_part {cfg : Config} {a n b k : Nat} (h : backs cfg a n = true) (hb : a ≤ b) (hk : b + k ≤ a + n) :
    backs cfg b k = true := by
  rw [backs_iff] at h ⊢
  refine ⟨by omega, fun r hr => ?_⟩
  rcases h.2 r hr with h1 | h1 | h1
  · exact .inl h1
  · exact .inr (.inl (by omega))
  · exact .inr (.inr (by omega))

theorem backs_fits {cfg : Config} {a n : Nat} (h : backs cfg a n = true) : a + n ≤ addrSpace := (backs_iff.mp h).1

/-- A byte of a backed range is backed. -/
theorem backs_byte {cfg : Config} {a n b : Nat} (h : backs cfg a n = true) (h1 : a ≤ b) (h2 : b < a + n) :
    backs cfg b 1 = true := backs_part h h1 (by omega)

/-- A range inside the address space is backed when each of its bytes is. -/
theorem backs_of_bytes {cfg : Config} {a n : Nat} (hn : 0 < n)
    (h : ∀ b, a ≤ b → b < a + n → backs cfg b 1 = true) : backs cfg a n = true := by
  rw [backs_iff]
  refine ⟨by have := (backs_iff.mp (h (a + n - 1) (by omega) (by omega))).1; omega, fun r hr => ?_⟩
  by_contra hc
  have := (backs_iff.mp (h (max a r.1) (by omega) (by omega))).2 r hr
  omega

/-! ## Loops -/

@[simp] theorem loop_zero {α : Type} {f : Nat → α → Option α} {x : α} : loop 0 f x = some x := rfl

theorem loop_succ {α : Type} {n : Nat} {f : Nat → α → Option α} {x : α} :
    loop (n + 1) f x = (loop n f x).bind (f n) := rfl

/-- The loop rule: an assertion that every iteration carries on holds at the end, and the loop succeeds. -/
theorem loop_runs {α : Type} {n : Nat} {f : Nat → α → Option α} {x : α} (A : Nat → α → Prop) (h0 : A 0 x)
    (hs : ∀ i, i < n → ∀ y, A i y → ∃ z, f i y = some z ∧ A (i + 1) z) : ∃ y, loop n f x = some y ∧ A n y := by
  induction n with
  | zero => exact ⟨x, rfl, h0⟩
  | succ n ih =>
    obtain ⟨y, hy, hA⟩ := ih fun i hi => hs i (by omega)
    obtain ⟨z, hz, hA'⟩ := hs n (by omega) y hA
    exact ⟨z, by rw [loop_succ, hy]; exact hz, hA'⟩

/-- What every iteration keeps, a loop that succeeds keeps. -/
theorem loop_keeps {α : Type} {n : Nat} {f : Nat → α → Option α} (A : α → Prop)
    (hs : ∀ i, i < n → ∀ y z, f i y = some z → A y → A z) {x y : α} (h : loop n f x = some y) (hx : A x) : A y := by
  induction n generalizing y with
  | zero => cases h; exact hx
  | succ n ih =>
    rw [loop_succ, Option.bind_eq_some_iff] at h
    obtain ⟨z, hz, hy⟩ := h
    exact hs n (by omega) z y hy (ih (fun i hi => hs i (by omega)) hz)

/-! ## What a piece of a unit does -/

/-- `f` always succeeds, keeps `I`, gives the bytes of `W` their values in `V`, and leaves every other byte. -/
def Fills (I : Work → Prop) (W : Nat → Prop) (V : Nat → Byte) (f : Work → Option Work) : Prop :=
  ∀ w, I w → ∃ w', f w = some w' ∧ I w' ∧
    (∀ a, W a → w'.mem.read a = V a) ∧ ∀ a, ¬ W a → w'.mem.read a = w.mem.read a

theorem Fills.loop {I : Work → Prop} {W : Nat → Nat → Prop} {V : Nat → Byte} {n : Nat}
    {f : Nat → Work → Option Work} (h : ∀ i, i < n → Fills I (W i) V (f i)) :
    Fills I (fun a => ∃ i, i < n ∧ W i a) V (Machine.loop n f) := by
  intro w hw
  obtain ⟨w', he, hI, hV, hk⟩ := loop_runs (n := n) (f := f) (x := w)
    (fun m w' => I w' ∧ (∀ a, (∃ i, i < m ∧ W i a) → w'.mem.read a = V a) ∧
      ∀ a, (¬ ∃ i, i < m ∧ W i a) → w'.mem.read a = w.mem.read a)
    ⟨hw, by simp, fun _ _ => rfl⟩ (by
      intro i hi y ⟨hIy, hVy, hky⟩
      obtain ⟨z, hz, hIz, hVz, hkz⟩ := h i hi y hIy
      refine ⟨z, hz, hIz, ?_, ?_⟩
      · rintro a ⟨j, hj, hW⟩
        by_cases hWi : W i a
        · exact hVz a hWi
        · rw [hkz a hWi]
          have hji : j ≠ i := fun e => hWi (e ▸ hW)
          exact hVy a ⟨j, by omega, hW⟩
      · intro a ha
        rw [hkz a fun hWi => ha ⟨i, by omega, hWi⟩]
        exact hky a fun ⟨j, hj, hW⟩ => ha ⟨j, by omega, hW⟩)
  exact ⟨w', he, hI, hV, hk⟩

theorem Fills.congr {I : Work → Prop} {W : Nat → Prop} {V : Nat → Byte} {f g : Work → Option Work}
    (h : Fills I W V f) (hg : ∀ w, I w → g w = f w) : Fills I W V g := by
  intro w hw
  rw [hg w hw]
  exact h w hw

/-- `f`, whenever it succeeds, keeps memory canonical and changes no byte outside `D` and no part `J` of the
worker. -/
def Stays (D : Nat → Prop) (J : Worker → Prop) (f : Work → Option Work) : Prop :=
  ∀ w w', f w = some w' → w.mem.wf = true →
    w'.mem.wf = true ∧ (∀ a, ¬ D a → w'.mem.read a = w.mem.read a) ∧ (J w.worker → J w'.worker)

theorem Stays.loop {D : Nat → Prop} {J : Worker → Prop} {n : Nat} {f : Nat → Work → Option Work}
    (h : ∀ i, i < n → Stays D J (f i)) : Stays D J (Machine.loop n f) := by
  intro w w' he hw
  exact loop_keeps (fun x => x.mem.wf = true ∧ (∀ a, ¬ D a → x.mem.read a = w.mem.read a) ∧
      (J w.worker → J x.worker))
    (fun i hi y z hz hy => by
      obtain ⟨h1, h2, h3⟩ := h i hi y z hz hy.1
      exact ⟨h1, fun a ha => (h2 a ha).trans (hy.2.1 a ha), fun hJ => h3 (hy.2.2 hJ)⟩) he
    ⟨hw, fun _ _ => rfl, id⟩

theorem Stays.bind {D : Nat → Prop} {J : Worker → Prop} {f g : Work → Option Work} (hf : Stays D J f)
    (hg : Stays D J g) : Stays D J fun w => (f w).bind g := by
  intro w w' he hw
  obtain ⟨x, hx, hw'⟩ := Option.bind_eq_some_iff.mp he
  obtain ⟨h1, h2, h3⟩ := hf w x hx hw
  obtain ⟨k1, k2, k3⟩ := hg x w' hw' h1
  exact ⟨k1, fun a ha => (k2 a ha).trans (h2 a ha), fun hJ => k3 (h3 hJ)⟩

/-- A value read first does not matter to what stays. -/
theorem Stays.read {α : Type} {D : Nat → Prop} {J : Worker → Prop} {r : Work → Option α}
    {f : α → Work → Option Work} (h : ∀ x, Stays D J (f x)) : Stays D J fun w => (r w).bind fun x => f x w := by
  intro w w' he hw
  obtain ⟨x, _, hx⟩ := Option.bind_eq_some_iff.mp he
  exact h x w w' hx hw

/-- Memory is canonical and agrees with `m` outside `D`, and the worker satisfies `J`. -/
def Ambient (D : Nat → Prop) (m : Memory) (J : Worker → Prop) (w : Work) : Prop :=
  w.mem.wf = true ∧ (∀ a, ¬ D a → w.mem.read a = m.read a) ∧ J w.worker

/-- The sixteen bytes of the lane vector at element `e`. -/
def laneBytes (base e a : Nat) : Prop := base + 2 * e ≤ a ∧ a < base + 2 * e + 16

/-- The two bytes of the half with element index `e`. -/
def elemBytes (base e a : Nat) : Prop := base + 2 * e ≤ a ∧ a < base + 2 * e + 2

/-- The bytes of a tensor of halves at `base`, element `e` having the value `g e`. -/
def image (base : Nat) (g : Nat → Half) (a : Nat) : Byte := halfByte (g ((a - base) / 2)) ((a - base) % 2)

theorem image_at {base e b : Nat} {g : Nat → Half} (hb : b < 2) :
    image base g (base + 2 * e + b) = halfByte (g e) b := by
  rw [image, show (base + 2 * e + b - base) / 2 = e by omega, show (base + 2 * e + b - base) % 2 = b by omega]

/-- Where the bytes are those of the image, the half is. -/
theorem half_of_image {m : Memory} {base e : Nat} {g : Nat → Half}
    (h : ∀ a, elemBytes base e a → m.read a = image base g a) : m.half base e = g e := by
  refine Memory.read16_eq ?_ ?_
  · rw [h _ ⟨by omega, by omega⟩]
    exact image_at (b := 0) (by omega)
  · rw [h _ ⟨by omega, by omega⟩]
    exact image_at (b := 1) (by omega)

theorem storeLanes_eq {cfg : Config} {base e : Nat} {v : LaneVec} {w : Work}
    (hb : backs cfg (base + 2 * e) 16 = true) :
    storeLanes cfg base e v w = some { w with mem := w.mem.setLanes base e v } := by simp [storeLanes, hb]

theorem storeHalf_eq {cfg : Config} {base e : Nat} {v : Half} {w : Work}
    (hb : backs cfg (base + 2 * e) 2 = true) :
    storeHalf cfg base e v w = some { w with mem := w.mem.setHalf base e v } := by simp [storeHalf, hb]

theorem setLanes_inside {base e a : Nat} {v : LaneVec} {m : Memory} (hm : m.wf = true)
    (hf : base + 2 * e + 16 ≤ addrSpace) (ha : laneBytes base e a) :
    (m.setLanes base e v).read a =
      halfByte (laneAt v ((a - (base + 2 * e)) / 2)) ((a - (base + 2 * e)) % 2) := by
  rw [Memory.read_setLanes hm hf]
  exact if_pos ha

theorem setLanes_outside {base e a : Nat} {v : LaneVec} {m : Memory} (hm : m.wf = true)
    (hf : base + 2 * e + 16 ≤ addrSpace) (ha : ¬ laneBytes base e a) :
    (m.setLanes base e v).read a = m.read a := by
  rw [Memory.read_setLanes hm hf]
  exact if_neg ha

theorem setHalf_inside {base e a : Nat} {v : Half} {m : Memory} (hm : m.wf = true)
    (hf : base + 2 * e + 2 ≤ addrSpace) (ha : elemBytes base e a) :
    (m.setHalf base e v).read a = halfByte v (a - (base + 2 * e)) := by
  rw [Memory.read_setHalf hm hf]
  exact if_pos ha

theorem setHalf_outside {base e a : Nat} {v : Half} {m : Memory} (hm : m.wf = true)
    (hf : base + 2 * e + 2 ≤ addrSpace) (ha : ¬ elemBytes base e a) :
    (m.setHalf base e v).read a = m.read a := by
  rw [Memory.read_setHalf hm hf]
  exact if_neg ha

theorem image_lane {base e a : Nat} {v : LaneVec} {g : Nat → Half} (hg : ∀ l, l < 8 → g (e + l) = laneAt v l)
    (ha : laneBytes base e a) :
    halfByte (laneAt v ((a - (base + 2 * e)) / 2)) ((a - (base + 2 * e)) % 2) = image base g a := by
  obtain ⟨h1, h2⟩ := ha
  rw [image, ← hg _ (by omega), show e + (a - (base + 2 * e)) / 2 = (a - base) / 2 by omega,
    show (a - (base + 2 * e)) % 2 = (a - base) % 2 by omega]

theorem image_elem {base e a : Nat} {v : Half} {g : Nat → Half} (hg : g e = v) (ha : elemBytes base e a) :
    halfByte v (a - (base + 2 * e)) = image base g a := by
  obtain ⟨h1, h2⟩ := ha
  rw [image, ← hg, show (a - base) / 2 = e by omega, show (a - base) % 2 = a - (base + 2 * e) by omega]

theorem fills_storeLanes {cfg : Config} {base e : Nat} {v : LaneVec} {D : Nat → Prop} {m : Memory}
    {J : Worker → Prop} {g : Nat → Half} (hb : backs cfg (base + 2 * e) 16 = true)
    (hD : ∀ a, laneBytes base e a → D a) (hg : ∀ l, l < 8 → g (e + l) = laneAt v l) :
    Fills (Ambient D m J) (laneBytes base e) (image base g) (storeLanes cfg base e v) := by
  rintro w ⟨hwf, hout, hJ⟩
  have hf := backs_fits hb
  have hs := storeLanes_eq (v := v) (w := w) hb
  have hw := Memory.wf_setLanes (v := v) hwf hf
  have hi := fun a (ha : laneBytes base e a) => (setLanes_inside (v := v) hwf hf ha).trans (image_lane hg ha)
  have ho := fun a (ha : ¬ laneBytes base e a) => setLanes_outside (v := v) hwf hf ha
  generalize w.mem.setLanes base e v = m' at *
  exact ⟨_, hs, ⟨hw, fun a ha => (ho a fun h => ha (hD a h)).trans (hout a ha), hJ⟩, hi, ho⟩

theorem fills_storeHalf {cfg : Config} {base e : Nat} {v : Half} {D : Nat → Prop} {m : Memory}
    {J : Worker → Prop} {g : Nat → Half} (hb : backs cfg (base + 2 * e) 2 = true)
    (hD : ∀ a, elemBytes base e a → D a) (hg : g e = v) :
    Fills (Ambient D m J) (elemBytes base e) (image base g) (storeHalf cfg base e v) := by
  rintro w ⟨hwf, hout, hJ⟩
  have hf := backs_fits hb
  refine ⟨_, storeHalf_eq hb, ⟨Memory.wf_setHalf hwf hf, fun a ha => ?_, hJ⟩, fun a ha => ?_, fun a ha => ?_⟩
  · exact (setHalf_outside hwf hf fun h => ha (hD a h)).trans (hout a ha)
  · exact (setHalf_inside hwf hf ha).trans (image_elem hg ha)
  · exact setHalf_outside hwf hf ha

/-- A store that succeeds was backed. -/
theorem storeLanes_some {cfg : Config} {base e : Nat} {v : LaneVec} {w w' : Work}
    (h : storeLanes cfg base e v w = some w') :
    base + 2 * e + 16 ≤ addrSpace ∧ w' = { w with mem := w.mem.setLanes base e v } := by
  unfold storeLanes at h
  split at h
  · next hb => exact ⟨backs_fits hb, (Option.some.inj h).symm⟩
  · cases h

theorem storeHalf_some {cfg : Config} {base e : Nat} {v : Half} {w w' : Work}
    (h : storeHalf cfg base e v w = some w') :
    base + 2 * e + 2 ≤ addrSpace ∧ w' = { w with mem := w.mem.setHalf base e v } := by
  unfold storeHalf at h
  split at h
  · next hb => exact ⟨backs_fits hb, (Option.some.inj h).symm⟩
  · cases h

theorem stays_storeLanes {cfg : Config} {base e : Nat} {v : LaneVec} {D : Nat → Prop} {J : Worker → Prop}
    (hD : ∀ a, laneBytes base e a → D a) : Stays D J (storeLanes cfg base e v) := by
  intro w w' he hw
  obtain ⟨hf, he⟩ := storeLanes_some he
  have hw' := Memory.wf_setLanes (v := v) hw hf
  have ho := fun a (ha : ¬ laneBytes base e a) => setLanes_outside (v := v) hw hf ha
  generalize w.mem.setLanes base e v = m' at *
  subst he
  exact ⟨hw', fun a ha => ho a fun h => ha (hD a h), id⟩

theorem stays_storeHalf {cfg : Config} {base e : Nat} {v : Half} {D : Nat → Prop} {J : Worker → Prop}
    (hD : ∀ a, elemBytes base e a → D a) : Stays D J (storeHalf cfg base e v) := by
  intro w w' he hw
  obtain ⟨hf, rfl⟩ := storeHalf_some he
  exact ⟨Memory.wf_setHalf hw hf, fun a ha => setHalf_outside hw hf fun h => ha (hD a h), id⟩

/-! ## Loads from where nothing is written -/

section
variable {cfg : Config} {D : Nat → Prop} {m : Memory} {J : Worker → Prop} {w : Work} {base e : Nat}

theorem Ambient.lanes (h : Ambient D m J w) (hD : ∀ a, laneBytes base e a → ¬ D a) :
    w.mem.lanes base e = m.lanes base e := Memory.lanes_congr fun a h1 h2 => h.2.1 a (hD a ⟨h1, h2⟩)

theorem Ambient.half (h : Ambient D m J w) (hD : ∀ a, elemBytes base e a → ¬ D a) :
    w.mem.half base e = m.half base e := Memory.half_congr fun a h1 h2 => h.2.1 a (hD a ⟨h1, h2⟩)

theorem Ambient.loadLanes (h : Ambient D m J w) (hb : backs cfg (base + 2 * e) 16 = true)
    (hD : ∀ a, laneBytes base e a → ¬ D a) : loadLanes cfg w.mem base e = some (m.lanes base e) := by
  simp [Machine.loadLanes, hb, h.lanes hD]

theorem Ambient.loadHalf (h : Ambient D m J w) (hb : backs cfg (base + 2 * e) 2 = true)
    (hD : ∀ a, elemBytes base e a → ¬ D a) : loadHalf cfg w.mem base e = some (m.half base e) := by
  simp [Machine.loadHalf, hb, h.half hD]

theorem Ambient.loadGrid {r c : Nat} {e : Nat → Nat → Nat} (h : Ambient D m J w)
    (hb : ∀ y, y < r → ∀ x, x < c → backs cfg (base + 2 * e y x) 16 = true)
    (hD : ∀ y, y < r → ∀ x, x < c → ∀ a, laneBytes base (e y x) a → ¬ D a) :
    loadGrid cfg w.mem base r c e =
      some (Vector.ofFn fun y => Vector.ofFn fun x => m.lanes base (e y.val x.val)) := by
  rw [Machine.loadGrid, if_pos (by simpa using hb)]
  exact congrArg _ (congrArg _ (funext fun y => congrArg _ (funext fun x => h.lanes (hD y y.2 x x.2))))

theorem Ambient.loadTaps {e : Nat → Nat → Nat} (h : Ambient D m J w)
    (hb : ∀ r, r < 3 → ∀ cc, cc < 3 → backs cfg (base + 4 * e r cc) 4 = true)
    (hD : ∀ r, r < 3 → ∀ cc, cc < 3 → ∀ a, base + 4 * e r cc ≤ a → a < base + 4 * e r cc + 4 → ¬ D a) :
    loadTaps cfg w.mem base e =
      some (Vector.ofFn fun r => Vector.ofFn fun cc => m.single base (e r.val cc.val)) := by
  rw [Machine.loadTaps, if_pos (by simpa using hb)]
  exact congrArg _ (congrArg _ (funext fun r => congrArg _ (funext fun cc =>
    Memory.single_congr fun a h1 h2 => h.2.1 a (hD r r.2 cc cc.2 a h1 h2))))

end

end Sys2Proof.Machine
end

