-- ==== Sys2Proof/Laws/Check.lean ====
section
/-! SUPPORT. What passing the checks of stage `CHECK` says of the operands (`spec/60_exceptions.md` R252, R253). -/

namespace Sys2Proof.Machine

/-! ## Regions -/

theorem Region.holds_iff {r : Region} {a : Nat} : r.holds a = true ↔ r.base ≤ a ∧ a < r.base + r.size := by
  simp [Region.holds]

theorem Region.holds_false {r : Region} {a : Nat} : r.holds a = false ↔ ¬ (r.base ≤ a ∧ a < r.base + r.size) := by
  rw [← Bool.not_eq_true, Region.holds_iff]

/-- Two regions overlap when they share a byte (`40_numerics.md` R124). -/
theorem Region.overlaps_iff {r t : Region} :
    r.overlaps t = true ↔ ∃ a, r.holds a = true ∧ t.holds a = true := by
  simp only [Region.overlaps, Bool.and_eq_true, decide_eq_true_eq, Region.holds_iff]
  constructor
  · intro h
    exact ⟨max r.base t.base, by omega, by omega⟩
  · rintro ⟨a, h1, h2⟩
    omega

theorem Region.disjoint {r t : Region} {a : Nat} (h : r.overlaps t = false) (hr : r.base ≤ a)
    (hr' : a < r.base + r.size) : ¬ (t.base ≤ a ∧ a < t.base + t.size) := by
  intro ht
  have : r.overlaps t = true := Region.overlaps_iff.mpr ⟨a, Region.holds_iff.mpr ⟨hr, hr'⟩, Region.holds_iff.mpr ht⟩
  rw [h] at this
  exact absurd this (by decide)

theorem Region.overlaps_comm (r t : Region) : r.overlaps t = t.overlaps r := by
  rw [Bool.eq_iff_iff, Region.overlaps_iff, Region.overlaps_iff]
  exact ⟨fun ⟨a, h1, h2⟩ => ⟨a, h2, h1⟩, fun ⟨a, h1, h2⟩ => ⟨a, h2, h1⟩⟩

theorem anyOverlap_eq_false {rs : List Region} :
    anyOverlap rs = false ↔ rs.Pairwise fun r t => r.overlaps t = false := by
  induction rs with
  | nil => simp [anyOverlap]
  | cons r rs ih => simp [anyOverlap, ih, List.pairwise_cons]

theorem Region.misplaced_eq_false {r : Region} :
    r.misplaced = false ↔ r.base % 16 = 0 ∧ r.base + r.size ≤ addrSpace := by
  simp [Region.misplaced]

/-! ## Scalar registers -/

theorem Params.dim_legal {P : Params} {r : ParamReg}
    (hr : r ∈ [ParamReg.inWidth, .inHeight, .outWidth, .outHeight, .nWork]) :
    P.illegal r = false ↔ 1 ≤ (P.get r).toNat ∧ (P.get r).toNat ≤ 65535 := by
  simp only [List.mem_cons, List.not_mem_nil, or_false] at hr
  rcases hr with rfl | rfl | rfl | rfl | rfl <;>
    simp only [Params.illegal, Bool.or_eq_false_iff, decide_eq_false_iff_not] <;> unfold dimMax <;> omega

theorem Params.ch_legal {P : Params} {r : ParamReg} (hr : r ∈ [ParamReg.inChannels, .outChannels]) :
    P.illegal r = false ↔ (P.get r).toNat % 8 = 0 ∧ 1 ≤ (P.get r).toNat ∧ (P.get r).toNat ≤ 65528 := by
  simp only [List.mem_cons, List.not_mem_nil, or_false] at hr
  rcases hr with rfl | rfl <;>
    simp only [Params.illegal, Bool.or_eq_false_iff, decide_eq_false_iff_not] <;> unfold chMax <;> omega

/-! ## Commands -/

/-- What a command that passes its checks may rely on. -/
structure Command.Checked (c : Command) (P : Params) : Prop where
  legal    : ∀ r ∈ c.uses, P.illegal r = false
  fits     : c.fits = true → P.inW ≤ P.padW ∧ P.inH ≤ P.padH
  placed   : ∀ r ∈ c.regions P, r.base % 16 = 0 ∧ r.base + r.size ≤ addrSpace
  disjoint : (c.regions P).Pairwise fun r t => r.overlaps t = false
  room     : c.need P ≤ P.scrSize.toNat

theorem Command.checked {c : Command} {P : Params} (h : c.verdict P = .none) : c.Checked P := by
  unfold Command.verdict at h
  split at h
  · cases h
  · next hp =>
    split at h
    · cases h
    · next hr =>
      simp only [Command.precondFails, Bool.or_eq_true, not_or, Bool.not_eq_true, List.any_eq_false] at hp
      obtain ⟨⟨⟨h1, h2⟩, h3⟩, h4⟩ := hp
      refine ⟨fun r hr => by simpa using h1 r hr, fun hf => ?_, fun r hr => ?_, anyOverlap_eq_false.mp h4, by omega⟩
      · simpa [hf, Params.tooLarge] using h2
      · exact Region.misplaced_eq_false.mp (by simpa using h3 r hr)

theorem Command.Checked.inCh {c : Command} {P : Params} (h : c.Checked P) (hu : ParamReg.inChannels ∈ c.uses) :
    P.inCh % 8 = 0 ∧ 1 ≤ P.inCh := by
  have := (Params.ch_legal (P := P) (by simp)).mp (h.legal _ hu)
  exact ⟨this.1, this.2.1⟩

theorem Command.Checked.outCh {c : Command} {P : Params} (h : c.Checked P) (hu : ParamReg.outChannels ∈ c.uses) :
    P.outCh % 8 = 0 ∧ 1 ≤ P.outCh := by
  have := (Params.ch_legal (P := P) (by simp)).mp (h.legal _ hu)
  exact ⟨this.1, this.2.1⟩

theorem Command.Checked.inW {c : Command} {P : Params} (h : c.Checked P) (hu : ParamReg.inWidth ∈ c.uses) :
    1 ≤ P.inW := ((Params.dim_legal (P := P) (by simp)).mp (h.legal _ hu)).1

theorem Command.Checked.inH {c : Command} {P : Params} (h : c.Checked P) (hu : ParamReg.inHeight ∈ c.uses) :
    1 ≤ P.inH := ((Params.dim_legal (P := P) (by simp)).mp (h.legal _ hu)).1

theorem Command.Checked.outW {c : Command} {P : Params} (h : c.Checked P) (hu : ParamReg.outWidth ∈ c.uses) :
    1 ≤ P.outW := ((Params.dim_legal (P := P) (by simp)).mp (h.legal _ hu)).1

theorem Command.Checked.outH {c : Command} {P : Params} (h : c.Checked P) (hu : ParamReg.outHeight ∈ c.uses) :
    1 ≤ P.outH := ((Params.dim_legal (P := P) (by simp)).mp (h.legal _ hu)).1

end Sys2Proof.Machine
end

