-- ==== Sys2Proof/Laws/Layout.lean ====
section
/-! SUPPORT. The layouts read backwards: the value an element index has in each tensor, its value at the index of
given coordinates, and the bounds of the indices (`spec/20_memory.md` R51 to R59). -/

namespace Sys2Proof.Machine

/-! ## Mixed radix -/

/-- A digit below its radix is recovered from `a * n + x`. -/
theorem digit_low {a n x : Nat} (h : x < n) : (a * n + x) % n = x := by
  rw [Nat.add_comm, Nat.add_mul_mod_self_right, Nat.mod_eq_of_lt h]

theorem digit_high {a n x : Nat} (h : x < n) : (a * n + x) / n = a := by
  rw [Nat.add_comm, Nat.add_mul_div_right _ _ (by omega), Nat.div_eq_of_lt h, Nat.zero_add]

/-- `a * n + x` stays below `m * n`. -/
theorem digits_lt {a m n x : Nat} (ha : a < m) (hx : x < n) : a * n + x < m * n := by
  have : (a + 1) * n ≤ m * n := Nat.mul_le_mul_right n ha
  rw [Nat.add_mul, Nat.one_mul] at this
  omega

/-! ## Feature maps -/

/-- The value of element `e` of a feature map. -/
def fmValue (w h : Nat) (f : FeatureMap) (e : Nat) : Half := f (e / 8 / w / h) (e / 8 / w % h) (e / 8 % w) (e % 8)

theorem fmValue_fmIndex {w h g y x l : Nat} {f : FeatureMap} (hy : y < h) (hx : x < w) (hl : l < 8) :
    fmValue w h f (fmIndex w h g y x l) = f g y x l := by
  simp only [fmValue, fmIndex, digit_low hl, digit_high hl, digit_low hx, digit_high hx, digit_low hy, digit_high hy]

theorem fmIndex_lane {w h g y x l : Nat} : fmIndex w h g y x 0 + l = fmIndex w h g y x l := by simp [fmIndex]

theorem fmIndex_lt {w h g y x l n : Nat} (hg : g < n) (hy : y < h) (hx : x < w) (hl : l < 8) :
    fmIndex w h g y x l < n * h * w * 8 := digits_lt (digits_lt (digits_lt hg hy) hx) hl

/-! ## Spectra -/

/-- The value of element `e` of a TransformedInput or TransformedOutput. -/
def spectrumValue (T : Nat) (V : Spectrum) (e : Nat) : Half :=
  V (e / 8 / T / 64) (e / 8 / T % 64) (e / 8 % T) (e % 8)

theorem spectrumValue_tiIndex {T p k tile i : Nat} {V : Spectrum} (hk : k < 64) (ht : tile < T) (hi : i < 8) :
    spectrumValue T V (tiIndex T p k tile i) = V p k tile i := by
  simp only [spectrumValue, tiIndex, digit_low hi, digit_high hi, digit_low ht, digit_high ht, digit_low hk,
    digit_high hk]

theorem spectrumValue_toIndex {T q k tile j : Nat} {V : Spectrum} (hk : k < 64) (ht : tile < T) (hj : j < 8) :
    spectrumValue T V (toIndex T q k tile j) = V q k tile j := spectrumValue_tiIndex hk ht hj

theorem tiIndex_lane {T p k tile l : Nat} : tiIndex T p k tile 0 + l = tiIndex T p k tile l := by simp [tiIndex]

theorem toIndex_lane {T q k tile l : Nat} : toIndex T q k tile 0 + l = toIndex T q k tile l := by simp [toIndex]

theorem tiIndex_lt {T p k tile i n : Nat} (hp : p < n) (hk : k < 64) (ht : tile < T) (hi : i < 8) :
    tiIndex T p k tile i < n * 64 * T * 8 := digits_lt (digits_lt (digits_lt hp hk) ht) hi

theorem toIndex_lt {T q k tile j n : Nat} (hq : q < n) (hk : k < 64) (ht : tile < T) (hj : j < 8) :
    toIndex T q k tile j < n * 64 * T * 8 := digits_lt (digits_lt (digits_lt hq hk) ht) hj

/-! ## Filters -/

/-- The value of element `e` of a TransformedFilter with `n` input groups. -/
def bankValue (n : Nat) (F : FilterBank) (e : Nat) : Half :=
  F (e / 8 / 8 / n / 64) (e / 8 / 8 / n % 64) (e / 8 / 8 % n) (e / 8 % 8) (e % 8)

theorem bankValue_tfIndex {inCh q k p i j : Nat} {F : FilterBank} (hk : k < 64) (hp : p < inCh / 8) (hi : i < 8)
    (hj : j < 8) : bankValue (inCh / 8) F (tfIndex inCh q k p i j) = F q k p i j := by
  simp only [bankValue, tfIndex, digit_low hj, digit_high hj, digit_low hi, digit_high hi, digit_low hp,
    digit_high hp, digit_low hk, digit_high hk]

theorem tfIndex_lane {inCh q k p i l : Nat} : tfIndex inCh q k p i 0 + l = tfIndex inCh q k p i l := by
  simp [tfIndex]

theorem tfIndex_lt {inCh q k p i j n : Nat} (hq : q < n) (hk : k < 64) (hp : p < inCh / 8) (hi : i < 8)
    (hj : j < 8) : tfIndex inCh q k p i j < n * 64 * (inCh / 8) * 8 * 8 :=
  digits_lt (digits_lt (digits_lt (digits_lt hq hk) hp) hi) hj

theorem rfIndex_lt {inCh o i r cc n : Nat} (ho : o < n) (hi : i < inCh) (hr : r < 3) (hc : cc < 3) :
    rfIndex inCh o i r cc < n * inCh * 3 * 3 := digits_lt (digits_lt (digits_lt ho hi) hr) hc

/-! ## Shapes -/

theorem roundup6_div_mul (n : Nat) : roundup6 n / 6 * 6 = roundup6 n := by simp [roundup6]

theorem Params.tilesX_mul (P : Params) : P.tilesX * 6 = P.outWp := roundup6_div_mul _

theorem Params.tilesY_mul (P : Params) : P.tilesY * 6 = P.outHp := roundup6_div_mul _

theorem le_roundup6 (n : Nat) : n ≤ roundup6 n := by unfold roundup6; omega

theorem Params.outW_le (P : Params) : P.outW ≤ P.outWp := le_roundup6 _

theorem Params.outH_le (P : Params) : P.outH ≤ P.outHp := le_roundup6 _

/-- The tile of row `ty`, column `tx` is a tile. -/
theorem tile_lt {P : Params} {ty tx : Nat} (hy : ty < P.tilesY) (hx : tx < P.tilesX) :
    ty * P.tilesX + tx < P.tiles := by
  rw [Params.tiles, Nat.mul_comm P.tilesX]
  exact digits_lt hy hx

/-! ## Sizes as element counts, for channel counts that are multiples of 8 -/

theorem groups_mul {n : Nat} (h : n % 8 = 0) : n / 8 * 8 = n := by omega

/-- A number of channels times a plane is a number of groups times eight planes. -/
theorem channels_split {n a b : Nat} (h : n % 8 = 0) : n * a * b = n / 8 * a * b * 8 := by
  obtain ⟨m, rfl⟩ : ∃ m, n = 8 * m := ⟨n / 8, by omega⟩
  rw [Nat.mul_div_cancel_left m (by omega)]
  ring

theorem Params.padB_eq {P : Params} (h : P.inCh % 8 = 0) : P.padB = P.inGroups * P.padH * P.padW * 8 * 2 := by
  rw [Params.padB, channels_split h, Params.inGroups]

theorem Params.inB_eq {P : Params} (h : P.inCh % 8 = 0) : P.inB = P.inGroups * P.inH * P.inW * 8 * 2 := by
  rw [Params.inB, channels_split h, Params.inGroups]

theorem Params.tiB_eq {P : Params} (h : P.inCh % 8 = 0) : P.tiB = P.inGroups * 64 * P.tiles * 8 * 2 := by
  rw [Params.tiB, channels_split h, Params.inGroups]

theorem Params.toB_eq {P : Params} (h : P.outCh % 8 = 0) : P.toB = P.outGroups * 64 * P.tiles * 8 * 2 := by
  rw [Params.toB, channels_split h, Params.outGroups]

theorem Params.opB_eq {P : Params} (h : P.outCh % 8 = 0) : P.opB = P.outGroups * P.outHp * P.outWp * 8 * 2 := by
  rw [Params.opB, channels_split h, Params.outGroups]

theorem Params.outB_eq {P : Params} (h : P.outCh % 8 = 0) : P.outB = P.outGroups * P.outH * P.outW * 8 * 2 := by
  rw [Params.outB, channels_split h, Params.outGroups]

theorem Params.biasB_eq {P : Params} (h : P.outCh % 8 = 0) : P.biasB = P.outGroups * 8 * 2 := by
  rw [Params.biasB, Params.outGroups, groups_mul h]

theorem Params.tfB_eq {P : Params} (hi : P.inCh % 8 = 0) (ho : P.outCh % 8 = 0) :
    P.tfB = P.outGroups * 64 * (P.inCh / 8) * 8 * 8 * 2 := by
  rw [Params.tfB, Params.outGroups]
  generalize P.inCh = a at *
  generalize P.outCh = b at *
  obtain ⟨m, rfl⟩ : ∃ m, a = 8 * m := ⟨a / 8, by omega⟩
  obtain ⟨n, rfl⟩ : ∃ n, b = 8 * n := ⟨b / 8, by omega⟩
  simp only [Nat.mul_div_cancel_left _ (show 0 < 8 by omega)]
  ring

theorem Params.rfB_eq (P : Params) : P.rfB = P.outCh * P.inCh * 3 * 3 * 4 := by rw [Params.rfB]; ring

/-! ## Tile blocks (`44_contraction.md` R196) -/

/-- The blocks of fewer than 8 tiles stand behind the blocks of width 8. -/
theorem blocks_split (n r : Nat) (hr : r < 8) :
    blocks (8 * n + r) =
      (List.range n).map (fun b => (8 * b, 8)) ++ (blocks r).map (fun x => (8 * n + x.1, x.2)) := by
  have h8 : (8 * n + r) / 8 = n := by omega
  have h4 : (8 * n + r) / 4 % 2 = r / 4 % 2 := by omega
  have h2 : (8 * n + r) / 2 % 2 = r / 2 % 2 := by omega
  have h1 : (8 * n + r) % 2 = r % 2 := by omega
  have h0 : r / 8 = 0 := by omega
  unfold blocks
  simp only [h8, h4, h2, h1, h0, List.range_zero, List.map_nil, List.nil_append, List.map_append]
  split <;> split <;> split <;> simp [Nat.mul_comm, Nat.add_assoc]

theorem blockAt_wide {n r b : Nat} (hr : r < 8) (hb : b < n) : blockAt (8 * n + r) b = (8 * b, 8) := by
  rw [blockAt, blocks_split n r hr, List.getD_eq_getElem?_getD, List.getElem?_append_left (by simpa using hb)]
  simp [hb]

theorem blockAt_narrow {n r b : Nat} (hr : r < 8) (hb : b < nblk r) :
    blockAt (8 * n + r) (n + b) = (8 * n + (blockAt r b).1, (blockAt r b).2) := by
  have hb' : b < (blocks r).length := hb
  rw [blockAt, blocks_split n r hr, List.getD_eq_getElem?_getD, List.getElem?_append_right (by simp), blockAt,
    List.getD_eq_getElem?_getD]
  simp [hb']

theorem nblk_split (n r : Nat) (hr : r < 8) : nblk (8 * n + r) = n + nblk r := by
  simp [nblk, blocks_split n r hr]

theorem narrow_blocks : ∀ r : Fin 8, ∀ b : Fin (nblk r), (blockAt r b).1 + (blockAt r b).2 ≤ r ∧
    0 < (blockAt r b).2 ∧ (blockAt r b).2 ≤ bMax r ∧ bMax r ≤ 8 := by decide

theorem narrow_cover : ∀ r : Fin 8, ∀ tile : Fin r, ∃ b : Fin (nblk r),
    (blockAt r b).1 ≤ tile ∧ tile < (blockAt r b).1 + (blockAt r b).2 := by decide

theorem nblk_pos {T : Nat} (h : 0 < T) : 0 < nblk T := by
  obtain ⟨n, r, hr, rfl⟩ : ∃ n r, r < 8 ∧ T = 8 * n + r := ⟨T / 8, T % 8, by omega, by omega⟩
  rw [nblk_split n r hr]
  rcases Nat.eq_zero_or_pos n with rfl | hn
  · have : ∀ r : Fin 8, r.val ≠ 0 → 0 < nblk r := by decide
    have := this ⟨r, hr⟩ (by simp; omega)
    simpa using this
  · omega

/-- Every block is one of the tiles, not empty, and no wider than the first, nor than 8. -/
theorem block_bounds {T b : Nat} (hb : b < nblk T) :
    (blockAt T b).1 + (blockAt T b).2 ≤ T ∧ 0 < (blockAt T b).2 ∧ (blockAt T b).2 ≤ bMax T ∧ bMax T ≤ 8 := by
  obtain ⟨n, r, hr, rfl⟩ : ∃ n r, r < 8 ∧ T = 8 * n + r := ⟨T / 8, T % 8, by omega, by omega⟩
  rw [nblk_split n r hr] at hb
  rcases Nat.eq_zero_or_pos n with rfl | hn
  · simpa using narrow_blocks ⟨r, hr⟩ ⟨b, by simpa using hb⟩
  · have hmax : bMax (8 * n + r) = 8 := by rw [bMax, blockAt_wide hr hn]
    rw [hmax]
    by_cases h : b < n
    · rw [blockAt_wide hr h]
      simp only
      omega
    · obtain ⟨c, rfl⟩ : ∃ c, b = n + c := ⟨b - n, by omega⟩
      have hc : c < nblk r := by omega
      have := narrow_blocks ⟨r, hr⟩ ⟨c, hc⟩
      rw [blockAt_narrow hr hc]
      simp only at this ⊢
      omega

/-- Every tile is in a block. -/
theorem block_cover {T tile : Nat} (h : tile < T) :
    ∃ b, b < nblk T ∧ (blockAt T b).1 ≤ tile ∧ tile < (blockAt T b).1 + (blockAt T b).2 := by
  obtain ⟨n, r, hr, rfl⟩ : ∃ n r, r < 8 ∧ T = 8 * n + r := ⟨T / 8, T % 8, by omega, by omega⟩
  rw [nblk_split n r hr]
  by_cases h1 : tile < 8 * n
  · refine ⟨tile / 8, by omega, ?_⟩
    rw [blockAt_wide hr (by omega)]
    simp only
    omega
  · obtain ⟨b, hb1, hb2⟩ := narrow_cover ⟨r, hr⟩ ⟨tile - 8 * n, by simp; omega⟩
    refine ⟨n + b, by have := b.2; simp only at this; omega, ?_⟩
    rw [blockAt_narrow hr b.2]
    simp only at hb1 hb2 ⊢
    omega

/-! ## The interleaved input -/

/-- The value of element `e` of the interleaved input. -/
def interleavedValue (T inCh : Nat) (V : Spectrum) (e : Nat) : Half :=
  let row := e / (bMax T * inCh)
  let col := e % (bMax T * inCh)
  let blk := blockAt T (row % nblk T)
  V (col / blk.2 / 8) (row / nblk T) (blk.1 + col % blk.2) (col / blk.2 % 8)

theorem ti2_col_lt {T inCh b p i tt : Nat} (hb : b < nblk T) (hp : p < inCh / 8) (hi : i < 8)
    (ht : tt < (blockAt T b).2) : (p * 8 + i) * (blockAt T b).2 + tt < bMax T * inCh := by
  have h1 := digits_lt (digits_lt hp hi) ht
  have h2 : inCh / 8 * 8 * (blockAt T b).2 ≤ inCh * bMax T :=
    Nat.mul_le_mul (Nat.div_mul_le_self _ _) (block_bounds hb).2.2.1
  rw [Nat.mul_comm (bMax T)]
  omega

theorem interleavedValue_ti2Index {T inCh k b p i tt : Nat} {V : Spectrum} (hb : b < nblk T) (hp : p < inCh / 8)
    (hi : i < 8) (ht : tt < (blockAt T b).2) :
    interleavedValue T inCh V (ti2Index T inCh k b p i tt) = V p k ((blockAt T b).1 + tt) i := by
  have hc := ti2_col_lt hb hp hi ht
  have hrow : ti2Index T inCh k b p i tt / (bMax T * inCh) = k * nblk T + b := by
    rw [ti2Index, Nat.add_assoc, digit_high hc]
  have hcol : ti2Index T inCh k b p i tt % (bMax T * inCh) = (p * 8 + i) * (blockAt T b).2 + tt := by
    rw [ti2Index, Nat.add_assoc, digit_low hc]
  simp only [interleavedValue, hrow, hcol, digit_low hb, digit_high hb, digit_low ht, digit_high ht, digit_low hi,
    digit_high hi]

theorem ti2Index_lt {T inCh k b p i tt : Nat} (hk : k < 64) (hb : b < nblk T) (hp : p < inCh / 8) (hi : i < 8)
    (ht : tt < (blockAt T b).2) : ti2Index T inCh k b p i tt < 64 * nblk T * (bMax T * inCh) := by
  rw [ti2Index, Nat.add_assoc]
  exact digits_lt (digits_lt hk hb) (ti2_col_lt hb hp hi ht)

theorem Params.ti2B_eq (P : Params) : P.ti2B = 64 * nblk P.tiles * (bMax P.tiles * P.inCh) * 2 := by
  rw [Params.ti2B]; ring

end Sys2Proof.Machine
end

