-- ==== Sys2Proof/Laws/PadCrop.lean ====
section
/-! SUPPORT. What a unit of work of the stages `PAD` and `CROP` does. -/

namespace Sys2Proof.Machine

/-- The bytes of plane `g` of a feature map. -/
def planeBytes (base w h g a : Nat) : Prop := ∃ y, y < h ∧ ∃ x, x < w ∧ laneBytes base (fmIndex w h g y x 0) a

/-- A lane vector of a feature map lies inside its region. -/
theorem lane_in_map {base w h g y x n a : Nat} (hg : g < n) (hy : y < h) (hx : x < w)
    (ha : laneBytes base (fmIndex w h g y x 0) a) : base ≤ a ∧ a < base + n * h * w * 8 * 2 := by
  obtain ⟨h1, h2⟩ := ha
  have := fmIndex_lt (l := 7) hg hy hx (by omega)
  rw [← fmIndex_lane] at this
  omega

theorem fm_backs {cfg : Config} {base w h g y x n : Nat} (hb : backs cfg base (n * h * w * 8 * 2) = true)
    (hg : g < n) (hy : y < h) (hx : x < w) : backs cfg (base + 2 * fmIndex w h g y x 0) 16 = true := by
  have := fmIndex_lt (l := 7) hg hy hx (by omega)
  rw [← fmIndex_lane] at this
  exact backs_part hb (by omega) (by omega)

section
variable {cfg : Config} {P : Params} {src dst g : Nat} {D : Nat → Prop} {m : Memory} {J : Worker → Prop}

/-- Unit `g` of stage `PAD` fills plane `g` of the destination with the padded map (`42_pad_crop.md` R161). -/
theorem padUnit_fills (hch : P.inCh % 8 = 0) (hg : g < P.inGroups)
    (hsrc : backs cfg src P.inB = true) (hdst : backs cfg dst P.padB = true)
    (hin : ∀ a, src ≤ a → a < src + P.inB → ¬ D a) (hD : ∀ a, dst ≤ a → a < dst + P.padB → D a) :
    Fills (Ambient D m J) (planeBytes dst P.padW P.padH g)
      (image dst (fmValue P.padW P.padH (padded P (m.featureMap src P.inW P.inH))))
      (padUnit cfg P src dst g) := by
  rw [Params.inB_eq hch] at hsrc hin
  rw [Params.padB_eq hch] at hdst hD
  refine Fills.loop fun y hy => Fills.loop fun x hx => ?_
  refine Fills.congr (fills_storeLanes (v := Vector.ofFn fun l =>
      padded P (m.featureMap src P.inW P.inH) g y x l) (fm_backs hdst hg hy hx)
      (fun a ha => ?_) fun l hl => ?_) fun w hw => ?_
  · obtain ⟨h1, h2⟩ := lane_in_map hg hy hx ha
    exact hD a h1 h2
  · rw [fmIndex_lane, fmValue_fmIndex hy hx hl, laneAt_of_lt hl]
    simp
  · by_cases h : y < P.inH ∧ x < P.inW
    · have hl := hw.loadLanes (base := src) (e := fmIndex P.inW P.inH g y x 0) (fm_backs hsrc hg h.1 h.2)
        fun a ha => by
          obtain ⟨h1, h2⟩ := lane_in_map hg h.1 h.2 ha
          exact hin a h1 h2
      simp only [if_pos h, hl, padded, Memory.featureMap]
      refine congrArg (fun v => storeLanes cfg dst _ v w) ?_
      exact congrArg Vector.ofFn (funext fun l => by rw [fmIndex_lane])
    · simp only [if_neg h, padded]
      refine congrArg (fun v => storeLanes cfg dst _ v w) ?_
      ext l hl
      simp [zeroLanes]

/-- Unit `g` of stage `CROP` fills plane `g` of the destination with the cropped map (`42_pad_crop.md` R165). -/
theorem cropUnit_fills (hch : P.outCh % 8 = 0) (hg : g < P.outGroups)
    (hsrc : ∀ y, y < P.outH → ∀ x, x < P.outW → backs cfg (src + 2 * fmIndex P.outWp P.outHp g y x 0) 16 = true)
    (hdst : backs cfg dst P.outB = true)
    (hin : ∀ a, src ≤ a → a < src + P.opB → ¬ D a) (hD : ∀ a, dst ≤ a → a < dst + P.outB → D a) :
    Fills (Ambient D m J) (planeBytes dst P.outW P.outH g)
      (image dst (fmValue P.outW P.outH (m.featureMap src P.outWp P.outHp)))
      (cropUnit cfg P src dst g) := by
  rw [Params.opB_eq hch] at hin
  rw [Params.outB_eq hch] at hdst hD
  refine Fills.loop fun y hy => Fills.loop fun x hx => ?_
  have hy' := lt_of_lt_of_le hy P.outH_le
  have hx' := lt_of_lt_of_le hx P.outW_le
  refine Fills.congr (fills_storeLanes (v := m.lanes src (fmIndex P.outWp P.outHp g y x 0))
      (fm_backs hdst hg hy hx) (fun a ha => ?_) fun l hl => ?_) fun w hw => ?_
  · obtain ⟨h1, h2⟩ := lane_in_map hg hy hx ha
    exact hD a h1 h2
  · rw [fmIndex_lane, fmValue_fmIndex hy hx hl, laneAt_of_lt hl, Memory.getElem_lanes, fmIndex_lane]
    rfl
  · rw [hw.loadLanes (hsrc y hy x hx) fun a ha => by
      obtain ⟨h1, h2⟩ := lane_in_map hg hy' hx' ha
      exact hin a h1 h2]
    rfl

theorem padUnit_stays (hch : P.inCh % 8 = 0) (hg : g < P.inGroups)
    (hD : ∀ a, dst ≤ a → a < dst + P.padB → D a) : Stays D J (padUnit cfg P src dst g) := by
  rw [Params.padB_eq hch] at hD
  refine Stays.loop fun y hy => Stays.loop fun x hx => ?_
  have hs : ∀ v, Stays D J (storeLanes cfg dst (fmIndex P.padW P.padH g y x 0) v) := fun v =>
    stays_storeLanes fun a ha => by
      obtain ⟨h1, h2⟩ := lane_in_map hg hy hx ha
      exact hD a h1 h2
  intro w w' he
  by_cases h : y < P.inH ∧ x < P.inW
  · simp only [if_pos h] at he
    exact Stays.read (r := fun w => loadLanes cfg w.mem src _) hs w w' he
  · simp only [if_neg h] at he
    exact hs zeroLanes w w' he

theorem cropUnit_stays (hch : P.outCh % 8 = 0) (hg : g < P.outGroups)
    (hD : ∀ a, dst ≤ a → a < dst + P.outB → D a) : Stays D J (cropUnit cfg P src dst g) := by
  rw [Params.outB_eq hch] at hD
  refine Stays.loop fun y hy => Stays.loop fun x hx => Stays.read fun v => stays_storeLanes fun a ha => ?_
  obtain ⟨h1, h2⟩ := lane_in_map hg hy hx ha
  exact hD a h1 h2

end

end Sys2Proof.Machine
end

