-- ==== Sys2Proof/Laws/TileUnits.lean ====
section
/-! SUPPORT. What a unit of work of the stages `XIN`, `XOUT` and `TFILT` does. Results are stated lane vector by lane
vector, as the units compute them (`spec/40_numerics.md` R113). -/

namespace Sys2Proof.Machine

/-- The lane vectors of one block of a feature map or spectrum. -/
def laneBlock (f : Nat → Nat → Nat → Half) : Grid LaneVec 8 8 :=
  Vector.ofFn fun a => Vector.ofFn fun b => Vector.ofFn fun l => f a b l

/-- The TransformedInput of a padded map, computed on lane vectors (`43_input_transform.md` R184, R185). -/
def laneInput (nan : Half) (P : Params) (f : FeatureMap) : Spectrum := fun p k tile i =>
  laneAt (gridAt zeroLanes (xinTile (laneArith nan)
    (laneBlock fun y x l => f p (6 * (tile / P.tilesX) + y) (6 * (tile % P.tilesX) + x) l)) (k / 8) (k % 8)) i

/-- The padded output of a TransformedOutput, computed on lane vectors (`45_output_transform.md` R223, R224). -/
def laneOutput (cfg : Config) (P : Params) (M : Spectrum) (bias : Nat → Nat → Half) : FeatureMap := fun q y x l =>
  laneAt (gridAt zeroLanes (xoutTile (laneArith cfg.nanBits) cfg.atTree
    (laneBlock fun t u l => M q (8 * t + u) (y / 6 * P.tilesX + x / 6) l) (Vector.ofFn fun l => bias q l))
      (y % 6) (x % 6)) l

theorem lane_in_spectrum {base T p k tile n a : Nat} (hp : p < n) (hk : k < 64) (ht : tile < T)
    (ha : laneBytes base (tiIndex T p k tile 0) a) : base ≤ a ∧ a < base + n * 64 * T * 8 * 2 := by
  obtain ⟨h1, h2⟩ := ha
  have := tiIndex_lt (i := 7) hp hk ht (by omega)
  rw [← tiIndex_lane] at this
  omega

theorem ti_backs {cfg : Config} {base T p k tile n : Nat} (hb : backs cfg base (n * 64 * T * 8 * 2) = true)
    (hp : p < n) (hk : k < 64) (ht : tile < T) : backs cfg (base + 2 * tiIndex T p k tile 0) 16 = true := by
  have := tiIndex_lt (i := 7) hp hk ht (by omega)
  rw [← tiIndex_lane] at this
  exact backs_part hb (by omega) (by omega)

/-- The rows and columns of a tile's window lie inside the padded map (`40_numerics.md` R122). -/
theorem window_row {P : Params} {ty y : Nat} (ht : ty < P.tilesY) (hy : y < 8) : 6 * ty + y < P.padH := by
  have := P.tilesY_mul
  rw [Params.padH]
  omega

theorem window_col {P : Params} {tx x : Nat} (ht : tx < P.tilesX) (hx : x < 8) : 6 * tx + x < P.padW := by
  have := P.tilesX_mul
  rw [Params.padW]
  omega

theorem gridAt_of_lt {α : Type} {r c : Nat} {d : α} {g : Grid α r c} {y x : Nat} (hy : y < r) (hx : x < c) :
    gridAt d g y x = g[y][x] := by simp [gridAt, hy, hx]

theorem div_eight {t u : Nat} (hu : u < 8) : (8 * t + u) / 8 = t := by omega

theorem mod_eight {t u : Nat} (hu : u < 8) : (8 * t + u) % 8 = u := by omega

section
variable {cfg : Config} {P : Params} {src dst : Nat} {D : Nat → Prop} {m : Memory} {J : Worker → Prop}

/-- Unit `p` of stage `XIN` fills plane `p` of the TransformedInput (`43_input_transform.md` R185). -/
theorem xinUnit_fills {p : Nat} (hch : P.inCh % 8 = 0) (hp : p < P.inGroups)
    (hsrc : backs cfg src P.padB = true) (hdst : backs cfg dst P.tiB = true)
    (hin : ∀ a, src ≤ a → a < src + P.padB → ¬ D a) (hD : ∀ a, dst ≤ a → a < dst + P.tiB → D a)
    (hJ : ∀ w tmp, J w → J { w with staging := tmp }) :
    Fills (Ambient D m J)
      (fun a => ∃ ty, ty < P.tilesY ∧ ∃ tx, tx < P.tilesX ∧ ∃ t, t < 8 ∧ ∃ u, u < 8 ∧
        laneBytes dst (tiIndex P.tiles p (8 * t + u) (ty * P.tilesX + tx) 0) a)
      (image dst (spectrumValue P.tiles (laneInput cfg.nanBits P (m.featureMap src P.padW P.padH))))
      (xinUnit cfg P src dst p) := by
  rw [Params.padB_eq hch] at hsrc hin
  rw [Params.tiB_eq hch] at hdst hD
  refine Fills.loop fun ty hty => Fills.loop fun tx htx => ?_
  have htile := tile_lt hty htx
  set d : Grid LaneVec 8 8 := Vector.ofFn fun y => Vector.ofFn fun x =>
    m.lanes src (fmIndex P.padW P.padH p (6 * ty + y.val) (6 * tx + x.val) 0) with hd
  have hstore : Fills (Ambient D m J)
      (fun a => ∃ t, t < 8 ∧ ∃ u, u < 8 ∧
        laneBytes dst (tiIndex P.tiles p (8 * t + u) (ty * P.tilesX + tx) 0) a)
      (image dst (spectrumValue P.tiles (laneInput cfg.nanBits P (m.featureMap src P.padW P.padH))))
      (loop 8 fun t => loop 8 fun u => storeLanes cfg dst (tiIndex P.tiles p (8 * t + u) (ty * P.tilesX + tx) 0)
        (gridAt zeroLanes (xinTile (laneArith cfg.nanBits) d) t u)) := by
    refine Fills.loop fun t ht => Fills.loop fun u hu => ?_
    have hk : 8 * t + u < 64 := by omega
    refine fills_storeLanes (ti_backs hdst hp hk htile) (fun a ha => ?_) fun l hl => ?_
    · obtain ⟨h1, h2⟩ := lane_in_spectrum hp hk htile ha
      exact hD a h1 h2
    · rw [tiIndex_lane, spectrumValue_tiIndex hk htile hl, laneInput, div_eight hu, mod_eight hu, digit_high htx,
        digit_low htx, hd]
      refine congrArg (fun d => laneAt (gridAt zeroLanes (xinTile (laneArith cfg.nanBits) d) t u) l) ?_
      refine congrArg Vector.ofFn (funext fun y => congrArg Vector.ofFn (funext fun x =>
        congrArg Vector.ofFn (funext fun l => ?_)))
      simp only [Memory.featureMap, fmIndex_lane]
  intro w hw
  have hl := hw.loadGrid (cfg := cfg) (base := src) (r := 8) (c := 8)
    (e := fun y x => fmIndex P.padW P.padH p (6 * ty + y) (6 * tx + x) 0)
    (fun y hy x hx => fm_backs hsrc hp (window_row hty hy) (window_col htx hx))
    (fun y hy x hx a ha => by
      obtain ⟨h1, h2⟩ := lane_in_map hp (window_row hty hy) (window_col htx hx) ha
      exact hin a h1 h2)
  simp only [hl, Option.bind_eq_bind, Option.bind_some]
  obtain ⟨w', h1, h2, h3, h4⟩ := hstore { w with worker := { w.worker with
    staging := xinRowPass (laneArith cfg.nanBits) d } } ⟨hw.1, hw.2.1, hJ _ _ hw.2.2⟩
  exact ⟨w', h1, h2, h3, h4⟩

theorem xinUnit_stays {p : Nat} (hch : P.inCh % 8 = 0) (hp : p < P.inGroups)
    (hD : ∀ a, dst ≤ a → a < dst + P.tiB → D a) (hJ : ∀ w tmp, J w → J { w with staging := tmp }) :
    Stays D J (xinUnit cfg P src dst p) := by
  rw [Params.tiB_eq hch] at hD
  refine Stays.loop fun ty hty => Stays.loop fun tx htx =>
    Stays.read (r := fun w => loadGrid cfg w.mem src 8 8 _) fun d => ?_
  have htile := tile_lt hty htx
  have hs : Stays D J (loop 8 fun t => loop 8 fun u =>
      storeLanes cfg dst (tiIndex P.tiles p (8 * t + u) (ty * P.tilesX + tx) 0)
        (gridAt zeroLanes (xinTile (laneArith cfg.nanBits) d) t u)) :=
    Stays.loop fun t ht => Stays.loop fun u hu => stays_storeLanes fun a ha => by
      obtain ⟨h1, h2⟩ := lane_in_spectrum hp (by omega) htile ha
      exact hD a h1 h2
  intro w w' he hw
  obtain ⟨h1, h2, h3⟩ := hs _ w' he hw
  exact ⟨h1, h2, fun hj => h3 (hJ _ _ hj)⟩

/-! ## `XOUT` -/

/-- The position of an output element inside the padded output. -/
theorem out_row {P : Params} {ty i : Nat} (ht : ty < P.tilesY) (hi : i < 6) : 6 * ty + i < P.outHp := by
  have := P.tilesY_mul
  omega

theorem out_col {P : Params} {tx j : Nat} (ht : tx < P.tilesX) (hj : j < 6) : 6 * tx + j < P.outWp := by
  have := P.tilesX_mul
  omega

/-- The bias lane vector a unit reads. -/
theorem loadBias_eq {w : Work} {withBias : Bool} {bias q : Nat} (hw : Ambient D m J w) (hch : P.outCh % 8 = 0)
    (hq : q < P.outGroups) (hb : withBias = true → backs cfg bias P.biasB = true)
    (hin : withBias = true → ∀ a, bias ≤ a → a < bias + P.biasB → ¬ D a) :
    loadBias cfg w.mem withBias bias q =
      some (Vector.ofFn fun l => if withBias then m.biasVector bias q l else noBias q l) := by
  cases withBias with
  | false =>
    simp only [loadBias, noBias, if_neg (show ¬ (false = true) by decide)]
    refine congrArg some ?_
    ext l hl
    simp [zeroLanes]
  | true =>
    have hb := hb rfl
    have hin := hin rfl
    rw [Params.biasB_eq hch] at hb hin
    have hq8 : q * 8 + 8 ≤ P.outGroups * 8 := by omega
    simp only [loadBias, if_pos trivial]
    rw [hw.loadLanes (backs_part hb (by omega) (by omega)) fun a ha => hin a (by have := ha.1; omega)
      (by have := ha.2; omega)]
    rfl

/-- Unit `q` of stage `XOUT` fills plane `q` of the padded output (`45_output_transform.md` R224, R226). -/
theorem xoutUnit_fills {withBias : Bool} {bias q : Nat} (hch : P.outCh % 8 = 0) (hq : q < P.outGroups)
    (hsrc : backs cfg src P.toB = true) (hdst : backs cfg dst P.opB = true)
    (hbias : withBias = true → backs cfg bias P.biasB = true)
    (hin : ∀ a, src ≤ a → a < src + P.toB → ¬ D a)
    (hinb : withBias = true → ∀ a, bias ≤ a → a < bias + P.biasB → ¬ D a)
    (hD : ∀ a, dst ≤ a → a < dst + P.opB → D a)
    (hJ : ∀ w tmp, J w → J { w with staging := stageSix w.staging tmp }) :
    Fills (Ambient D m J)
      (fun a => ∃ ty, ty < P.tilesY ∧ ∃ tx, tx < P.tilesX ∧ ∃ i, i < 6 ∧ ∃ j, j < 6 ∧
        laneBytes dst (fmIndex P.outWp P.outHp q (6 * ty + i) (6 * tx + j) 0) a)
      (image dst (fmValue P.outWp P.outHp (laneOutput cfg P (m.outputSpectrum src P.tiles)
        fun q l => if withBias then m.biasVector bias q l else noBias q l)))
      (xoutUnit cfg P withBias bias src dst q) := by
  set B : Nat → Nat → Half := fun q l => if withBias then m.biasVector bias q l else noBias q l with hB
  have hbody : Fills (Ambient D m J)
      (fun a => ∃ ty, ty < P.tilesY ∧ ∃ tx, tx < P.tilesX ∧ ∃ i, i < 6 ∧ ∃ j, j < 6 ∧
        laneBytes dst (fmIndex P.outWp P.outHp q (6 * ty + i) (6 * tx + j) 0) a)
      (image dst (fmValue P.outWp P.outHp (laneOutput cfg P (m.outputSpectrum src P.tiles) B)))
      (loop P.tilesY (fun ty => loop P.tilesX fun tx w => do
        let M ← loadGrid cfg w.mem src 8 8 fun t u => toIndex P.tiles q (8 * t + u) (ty * P.tilesX + tx) 0
        let tmp := xoutFirstPass (laneArith cfg.nanBits) cfg.atTree M
        let y := xoutSecondPass (laneArith cfg.nanBits) cfg.atTree tmp (Vector.ofFn fun l => B q l)
        loop 6 (fun i => loop 6 fun j =>
          storeLanes cfg dst (fmIndex P.outWp P.outHp q (6 * ty + i) (6 * tx + j) 0) (gridAt zeroLanes y i j))
          { w with worker := { w.worker with staging := stageSix w.worker.staging tmp } })) := by
    rw [Params.toB_eq hch] at hsrc hin
    rw [Params.opB_eq hch] at hdst hD
    refine Fills.loop fun ty hty => Fills.loop fun tx htx => ?_
    have htile := tile_lt hty htx
    set M : Grid LaneVec 8 8 := Vector.ofFn fun t => Vector.ofFn fun u =>
      m.lanes src (toIndex P.tiles q (8 * t.val + u.val) (ty * P.tilesX + tx) 0) with hM
    have hstore : Fills (Ambient D m J)
        (fun a => ∃ i, i < 6 ∧ ∃ j, j < 6 ∧
          laneBytes dst (fmIndex P.outWp P.outHp q (6 * ty + i) (6 * tx + j) 0) a)
        (image dst (fmValue P.outWp P.outHp (laneOutput cfg P (m.outputSpectrum src P.tiles) B)))
        (loop 6 fun i => loop 6 fun j =>
          storeLanes cfg dst (fmIndex P.outWp P.outHp q (6 * ty + i) (6 * tx + j) 0)
            (gridAt zeroLanes (xoutTile (laneArith cfg.nanBits) cfg.atTree M (Vector.ofFn fun l => B q l)) i j)) := by
      refine Fills.loop fun i hi => Fills.loop fun j hj => ?_
      refine fills_storeLanes (fm_backs hdst hq (out_row hty hi) (out_col htx hj)) (fun a ha => ?_) fun l hl => ?_
      · obtain ⟨h1, h2⟩ := lane_in_map hq (out_row hty hi) (out_col htx hj) ha
        exact hD a h1 h2
      · rw [fmIndex_lane, fmValue_fmIndex (out_row hty hi) (out_col htx hj) hl, laneOutput,
          show (6 * ty + i) / 6 = ty by omega, show (6 * ty + i) % 6 = i by omega,
          show (6 * tx + j) / 6 = tx by omega, show (6 * tx + j) % 6 = j by omega, hM]
        refine congrArg (fun M => laneAt (gridAt zeroLanes (xoutTile (laneArith cfg.nanBits) cfg.atTree M
          (Vector.ofFn fun l => B q l)) i j) l) ?_
        refine congrArg Vector.ofFn (funext fun t => congrArg Vector.ofFn (funext fun u =>
          congrArg Vector.ofFn (funext fun l => ?_)))
        simp only [Memory.outputSpectrum, toIndex_lane]
    intro w hw
    have hl := hw.loadGrid (cfg := cfg) (base := src) (r := 8) (c := 8)
      (e := fun t u => toIndex P.tiles q (8 * t + u) (ty * P.tilesX + tx) 0)
      (fun t ht u hu => ti_backs hsrc hq (by omega) htile)
      (fun t ht u hu a ha => by
        obtain ⟨h1, h2⟩ := lane_in_spectrum hq (by omega) htile ha
        exact hin a h1 h2)
    simp only [hl, Option.bind_eq_bind, Option.bind_some]
    obtain ⟨w', h1, h2, h3, h4⟩ := hstore { w with worker := { w.worker with
      staging := stageSix w.worker.staging (xoutFirstPass (laneArith cfg.nanBits) cfg.atTree M) } }
      ⟨hw.1, hw.2.1, hJ _ _ hw.2.2⟩
    exact ⟨w', h1, h2, h3, h4⟩
  refine Fills.congr hbody fun w hw => ?_
  simp only [xoutUnit, loadBias_eq hw hch hq hbias hinb, Option.bind_eq_bind, Option.bind_some, hB]

theorem xoutUnit_stays {withBias : Bool} {bias q : Nat} (hch : P.outCh % 8 = 0) (hq : q < P.outGroups)
    (hD : ∀ a, dst ≤ a → a < dst + P.opB → D a)
    (hJ : ∀ w tmp, J w → J { w with staging := stageSix w.staging tmp }) :
    Stays D J (xoutUnit cfg P withBias bias src dst q) := by
  rw [Params.opB_eq hch] at hD
  refine Stays.read (r := fun w => loadBias cfg w.mem withBias bias q) fun b => ?_
  refine Stays.loop fun ty hty => Stays.loop fun tx htx =>
    Stays.read (r := fun w => loadGrid cfg w.mem src 8 8 _) fun M => ?_
  have hs : Stays D J (loop 6 fun i => loop 6 fun j =>
      storeLanes cfg dst (fmIndex P.outWp P.outHp q (6 * ty + i) (6 * tx + j) 0)
        (gridAt zeroLanes (xoutTile (laneArith cfg.nanBits) cfg.atTree M b) i j)) :=
    Stays.loop fun i hi => Stays.loop fun j hj => stays_storeLanes fun a ha => by
      obtain ⟨h1, h2⟩ := lane_in_map hq (out_row hty hi) (out_col htx hj) ha
      exact hD a h1 h2
  intro w w' he hw
  obtain ⟨h1, h2, h3⟩ := hs _ w' he hw
  exact ⟨h1, h2, fun hj => h3 (hJ _ _ hj)⟩

/-! ## `TFILT` -/

theorem tf_half_in {base n k o c a : Nat} {inCh outCh : Nat} (hn : n = outCh / 8) (ho8 : outCh % 8 = 0)
    (hi8 : inCh % 8 = 0) (ho : o < outCh) (hc : c < inCh) (hk : k < 64)
    (ha : elemBytes base (tfIndex inCh (o / 8) k (c / 8) (c % 8) (o % 8)) a) :
    base ≤ a ∧ a < base + n * 64 * (inCh / 8) * 8 * 8 * 2 := by
  obtain ⟨h1, h2⟩ := ha
  have := tfIndex_lt (n := n) (q := o / 8) (k := k) (inCh := inCh) (p := c / 8) (i := c % 8) (j := o % 8)
    (by omega) hk (by omega) (by omega) (by omega)
  omega

/-- Unit `o` of stage `TFILT` fills the halves of output channel `o` (`41_filter_transform.md` R146, R147). -/
theorem tfiltUnit_fills {o : Nat} (hi8 : P.inCh % 8 = 0) (ho8 : P.outCh % 8 = 0) (ho : o < P.outCh)
    (hsrc : backs cfg src P.rfB = true) (hdst : backs cfg dst P.tfB = true)
    (hin : ∀ a, src ≤ a → a < src + P.rfB → ¬ D a) (hD : ∀ a, dst ≤ a → a < dst + P.tfB → D a) :
    Fills (Ambient D m J)
      (fun a => ∃ c, c < P.inCh ∧ ∃ t, t < 8 ∧ ∃ u, u < 8 ∧
        elemBytes dst (tfIndex P.inCh (o / 8) (8 * t + u) (c / 8) (c % 8) (o % 8)) a)
      (image dst (bankValue (P.inCh / 8) (m.transformedFilter cfg P src)))
      (tfiltUnit cfg P src dst o) := by
  rw [Params.rfB_eq] at hsrc hin
  rw [Params.tfB_eq hi8 ho8] at hdst hD
  refine Fills.loop fun c hc => ?_
  have hidx : ∀ r, r < 3 → ∀ cc, cc < 3 → 4 * rfIndex P.inCh o c r cc + 4 ≤ P.outCh * P.inCh * 3 * 3 * 4 := by
    intro r hr cc hcc
    have := rfIndex_lt ho hc hr hcc
    omega
  refine Fills.congr (f := loop 8 fun t => loop 8 fun u =>
      storeHalf cfg dst (tfIndex P.inCh (o / 8) (8 * t + u) (c / 8) (c % 8) (o % 8))
        (cvt32to16 cfg.nanBits cfg.cvtRm (gridAt 0 (filterTile (m.taps src P.inCh o c)) t u)))
    (Fills.loop fun t ht => Fills.loop fun u hu => ?_) fun w hw => ?_
  · have hk : 8 * t + u < 64 := by omega
    have hlt := tfIndex_lt (n := P.outGroups) (q := o / 8) (k := 8 * t + u) (inCh := P.inCh) (p := c / 8)
      (i := c % 8) (j := o % 8) (by rw [Params.outGroups]; omega) hk (by omega) (by omega) (by omega)
    refine fills_storeHalf (backs_part hdst (by omega) (by omega)) (fun a ha => ?_) ?_
    · obtain ⟨h1, h2⟩ := tf_half_in rfl ho8 hi8 ho hc hk ha
      exact hD a h1 h2
    · rw [bankValue_tfIndex hk (by omega) (by omega) (by omega), Memory.transformedFilter, filterCoef, div_eight hu,
        mod_eight hu, show 8 * (o / 8) + o % 8 = o by omega, show 8 * (c / 8) + c % 8 = c by omega]
  · rw [hw.loadTaps (fun r hr cc hcc => backs_part hsrc (by omega) (by have := hidx r hr cc hcc; omega))
      fun r hr cc hcc a h1 h2 => hin a (by omega) (by have := hidx r hr cc hcc; omega)]
    rfl

theorem tfiltUnit_stays {o : Nat} (hi8 : P.inCh % 8 = 0) (ho8 : P.outCh % 8 = 0) (ho : o < P.outCh)
    (hD : ∀ a, dst ≤ a → a < dst + P.tfB → D a) : Stays D J (tfiltUnit cfg P src dst o) := by
  rw [Params.tfB_eq hi8 ho8] at hD
  refine Stays.loop fun c hc => Stays.read (r := fun w => loadTaps cfg w.mem src _) fun K => ?_
  exact Stays.loop fun t ht => Stays.loop fun u hu => stays_storeHalf fun a ha => by
    obtain ⟨h1, h2⟩ := tf_half_in rfl ho8 hi8 ho hc (by omega) ha
    exact hD a h1 h2

end

end Sys2Proof.Machine
end

