-- ==== Sys2Proof/Laws/Contraction.lean ====
section
/-! SUPPORT. What a unit of work of the stages `REPACK` and `GEMM` does (`spec/44_contraction.md` R197, R199, R201). -/

namespace Sys2Proof.Machine

section
variable {cfg : Config} {P : Params} {src scr2 filt dst : Nat} {D : Nat → Prop} {m : Memory} {J : Worker → Prop}

/-! ## `REPACK` -/

theorem elem_in_interleaved {base k b p i tt a : Nat} (hk : k < 64) (hb : b < nblk P.tiles) (hp : p < P.inCh / 8)
    (hi : i < 8) (ht : tt < (blockAt P.tiles b).2) (ha : elemBytes base (ti2Index P.tiles P.inCh k b p i tt) a) :
    base ≤ a ∧ a < base + P.ti2B := by
  obtain ⟨h1, h2⟩ := ha
  have := ti2Index_lt (inCh := P.inCh) hk hb hp hi ht
  rw [Params.ti2B_eq]
  omega

/-- The platform backs every element of the interleaved input at `base`. -/
def InterleavedBacked (cfg : Config) (P : Params) (base : Nat) : Prop :=
  ∀ k, k < 64 → ∀ b, b < nblk P.tiles → ∀ p, p < P.inCh / 8 → ∀ i, i < 8 → ∀ tt, tt < (blockAt P.tiles b).2 →
    backs cfg (base + 2 * ti2Index P.tiles P.inCh k b p i tt) 2 = true

theorem block_tile_lt {T b tt : Nat} (hb : b < nblk T) (ht : tt < (blockAt T b).2) : (blockAt T b).1 + tt < T := by
  have := (block_bounds hb).1
  omega

/-- Unit `k` of stage `REPACK` fills the rows of coefficient `k` of the interleaved input (R197). -/
theorem repackUnit_fills {k : Nat} (hch : P.inCh % 8 = 0) (hk : k < 64)
    (hsrc : backs cfg src P.tiB = true) (hdst : InterleavedBacked cfg P scr2)
    (hin : ∀ a, src ≤ a → a < src + P.tiB → ¬ D a) (hD : ∀ a, scr2 ≤ a → a < scr2 + P.ti2B → D a) :
    Fills (Ambient D m J)
      (fun a => ∃ b, b < nblk P.tiles ∧ ∃ p, p < P.inGroups ∧ ∃ i, i < 8 ∧ ∃ tt, tt < (blockAt P.tiles b).2 ∧
        elemBytes scr2 (ti2Index P.tiles P.inCh k b p i tt) a)
      (image scr2 (interleavedValue P.tiles P.inCh (m.inputSpectrum src P.tiles)))
      (repackUnit cfg P src scr2 k) := by
  rw [Params.tiB_eq hch] at hsrc hin
  refine Fills.loop fun b hb => Fills.loop fun p hp => Fills.loop fun i hi => Fills.loop fun tt ht => ?_
  have htile := block_tile_lt hb ht
  have hlt := tiIndex_lt (n := P.inGroups) hp hk htile hi
  refine Fills.congr (fills_storeHalf (v := m.half src (tiIndex P.tiles p k ((blockAt P.tiles b).1 + tt) i))
    (hdst k hk b hb p hp i hi tt ht) (fun a ha => ?_) ?_) fun w hw => ?_
  · obtain ⟨h1, h2⟩ := elem_in_interleaved hk hb hp hi ht ha
    exact hD a h1 h2
  · exact interleavedValue_ti2Index hb hp hi ht
  · rw [hw.loadHalf (backs_part hsrc (by omega) (by omega)) fun a ha =>
      hin a (by have := ha.1; omega) (by have := ha.2; omega)]
    rfl

theorem repackUnit_stays {k : Nat} (hk : k < 64) (hD : ∀ a, scr2 ≤ a → a < scr2 + P.ti2B → D a) :
    Stays D J (repackUnit cfg P src scr2 k) := by
  refine Stays.loop fun b hb => Stays.loop fun p hp => Stays.loop fun i hi => Stays.loop fun tt ht =>
    Stays.read (r := fun w => loadHalf cfg w.mem src _) fun v => stays_storeHalf fun a ha => ?_
  obtain ⟨h1, h2⟩ := elem_in_interleaved hk hb hp hi ht ha
  exact hD a h1 h2

/-! ## `GEMM` -/

/-- The partial sum over the first `n` input channels (`44_contraction.md` R199). -/
def partialDot (nan : Half) (F : FilterBank) (V : Spectrum) (q k tile j n : Nat) : Half :=
  dotChain nan (fun c => F q k (c / 8) (c % 8) j) (fun c => V (c / 8) k tile (c % 8)) n

theorem partialDot_step {nan : Half} {F : FilterBank} {V : Spectrum} {q k tile j p i : Nat} (hi : i < 8) :
    partialDot nan F V q k tile j (8 * p + i + 1) =
      fma16 nan (partialDot nan F V q k tile j (8 * p + i)) (F q k p i j) (V p k tile i) := by
  simp only [partialDot, dotChain, div_eight hi, mod_eight hi]

/-- The accumulators of the tiles of block `b` hold the partial sums over `n` input channels. -/
def accHolds (nan : Half) (F : FilterBank) (V : Spectrum) (q k first B n : Nat) (w : Worker) : Prop :=
  ∀ tt, tt < B → ∀ j, (hj : j < 8) → (accAt w tt)[j] = partialDot nan F V q k (first + tt) j n

theorem accAt_set {w : Worker} {v : LaneVec} {tt tt' : Nat} (h' : tt' < 8) :
    accAt { w with acc := w.acc.setIfInBounds tt v } tt' = if tt' = tt then v else accAt w tt' := by
  simp only [accAt, h', dif_pos, Vector.getElem_setIfInBounds]
  by_cases e : tt' = tt
  · simp [e]
  · simp [e, show ¬ tt = tt' from fun h => e h.symm]

theorem getElem_macLanes {nan x : Half} {acc row : LaneVec} {j : Nat} (hj : j < 8) :
    (macLanes nan acc row x)[j] = fma16 nan acc[j] row[j] x := by simp [macLanes]

/-- The ambient of the accumulation: memory is as at the stage's start but for what `GEMM` has stored. -/
def AccAmbient (D : Nat → Prop) (m : Memory) (J : Worker → Prop) (nan : Half) (F : FilterBank) (V : Spectrum)
    (q k first B n : Nat) (w : Work) : Prop :=
  Ambient D m J w ∧ accHolds nan F V q k first B n w.worker

section
variable {V : Spectrum} {k q b : Nat}

/-- One input channel brings every accumulator of the block one step on, and changes no memory (R201). -/
theorem gemmChannel_runs {p i : Nat} {w : Work} (hk : k < 64) (hb : b < nblk P.tiles) (hp : p < P.inGroups)
    (hi : i < 8) (hscr : InterleavedBacked cfg P scr2) (hin : ∀ a, scr2 ≤ a → a < scr2 + P.ti2B → ¬ D a)
    (hV : ∀ tt, tt < (blockAt P.tiles b).2 →
      m.half scr2 (ti2Index P.tiles P.inCh k b p i tt) = V p k ((blockAt P.tiles b).1 + tt) i)
    (hJ : ∀ w acc held, J w → J { w with acc := acc, held := held })
    (hw : AccAmbient D m J cfg.nanBits (m.filterBank filt P.inCh) V q k (blockAt P.tiles b).1
      (blockAt P.tiles b).2 (8 * p + i) w) :
    ∃ w', gemmChannel cfg P scr2 k b p i (m.lanes filt (tfIndex P.inCh q k p i 0)) w = some w' ∧ w'.mem = w.mem ∧
      AccAmbient D m J cfg.nanBits (m.filterBank filt P.inCh) V q k (blockAt P.tiles b).1
        (blockAt P.tiles b).2 (8 * p + i + 1) w' := by
  have hB : (blockAt P.tiles b).2 ≤ 8 := by have := block_bounds hb; omega
  obtain ⟨w', he, hm, hA, hdone⟩ := loop_runs (n := (blockAt P.tiles b).2) (x := w)
    (f := fun tt w => do
      let x ← loadHalf cfg w.mem scr2 (ti2Index P.tiles P.inCh k b p i tt)
      pure { w with
        worker := { w.worker with
          acc := w.worker.acc.setIfInBounds tt
            (macLanes cfg.nanBits (accAt w.worker tt) (m.lanes filt (tfIndex P.inCh q k p i 0)) x) } })
    (fun n w' => w'.mem = w.mem ∧ Ambient D m J w' ∧ ∀ tt, tt < (blockAt P.tiles b).2 → ∀ j, (hj : j < 8) →
      (accAt w'.worker tt)[j] = partialDot cfg.nanBits (m.filterBank filt P.inCh) V q k
        ((blockAt P.tiles b).1 + tt) j (if tt < n then 8 * p + i + 1 else 8 * p + i))
    ⟨rfl, hw.1, fun tt ht j hj => by simpa using hw.2 tt ht j hj⟩ (by
      rintro tt ht y ⟨hym, hyA, hyd⟩
      have hl := hyA.loadHalf (hscr k hk b hb p hp i hi tt ht) fun a ha => by
        obtain ⟨h1, h2⟩ := elem_in_interleaved hk hb hp hi ht ha
        exact hin a h1 h2
      refine ⟨{ y with
          worker := { y.worker with
            acc := y.worker.acc.setIfInBounds tt
              (macLanes cfg.nanBits (accAt y.worker tt) (m.lanes filt (tfIndex P.inCh q k p i 0))
                (m.half scr2 (ti2Index P.tiles P.inCh k b p i tt))) } },
        by simp only [hl, Option.bind_eq_bind, Option.bind_some, Option.pure_def], hym,
        ⟨hyA.1, hyA.2.1, hJ _ _ y.worker.held hyA.2.2⟩, fun tt' ht' j hj => ?_⟩
      simp only [accAt_set (show tt' < 8 by omega)]
      by_cases e : tt' = tt
      · subst e
        simp only [if_pos (show tt' < tt' + 1 by omega), if_true]
        rw [getElem_macLanes hj, hyd tt' ht' j hj, if_neg (lt_irrefl _), partialDot_step hi, hV tt' ht',
          Memory.getElem_lanes hj, tfIndex_lane]
        rfl
      · simp only [if_neg e]
        rw [hyd tt' ht' j hj]
        by_cases h : tt' < tt
        · rw [if_pos h, if_pos (by omega)]
        · rw [if_neg h, if_neg (by omega)])
  refine ⟨w', he, hm, hA, fun tt ht j hj => ?_⟩
  rw [hdone tt ht j hj, if_pos ht]

theorem lane_in_filter {base i a n : Nat} {p : Nat} (hq : q < n) (hk : k < 64) (hp : p < P.inCh / 8) (hi : i < 8)
    (ha : laneBytes base (tfIndex P.inCh q k p i 0) a) : base ≤ a ∧ a < base + n * 64 * (P.inCh / 8) * 8 * 8 * 2 := by
  obtain ⟨h1, h2⟩ := ha
  have := tfIndex_lt (j := 7) hq hk hp hi (by omega)
  rw [← tfIndex_lane] at this
  omega

theorem tf_backs {base n p i : Nat} (hf : backs cfg base (n * 64 * (P.inCh / 8) * 8 * 8 * 2) = true) (hq : q < n)
    (hk : k < 64) (hp : p < P.inCh / 8) (hi : i < 8) :
    backs cfg (base + 2 * tfIndex P.inCh q k p i 0) 16 = true := by
  have := tfIndex_lt (j := 7) hq hk hp hi (by omega)
  rw [← tfIndex_lane] at this
  exact backs_part hf (by omega) (by omega)

/-- One tile block of stage `GEMM` stores its tiles' sums (R201, R202). -/
theorem gemmBlock_fills (hi8 : P.inCh % 8 = 0) (ho8 : P.outCh % 8 = 0) (hk : k < 64) (hq : q < P.outGroups)
    (hb : b < nblk P.tiles) (hfilt : backs cfg filt P.tfB = true) (hscr : InterleavedBacked cfg P scr2)
    (hdst : backs cfg dst P.toB = true)
    (hinf : ∀ a, filt ≤ a → a < filt + P.tfB → ¬ D a) (hins : ∀ a, scr2 ≤ a → a < scr2 + P.ti2B → ¬ D a)
    (hD : ∀ a, dst ≤ a → a < dst + P.toB → D a)
    (hV : ∀ p, p < P.inGroups → ∀ i, i < 8 → ∀ tt, tt < (blockAt P.tiles b).2 →
      m.half scr2 (ti2Index P.tiles P.inCh k b p i tt) = V p k ((blockAt P.tiles b).1 + tt) i)
    (hJ : ∀ w acc held, J w → J { w with acc := acc, held := held }) :
    Fills (Ambient D m J)
      (fun a => ∃ tt, tt < (blockAt P.tiles b).2 ∧
        laneBytes dst (toIndex P.tiles q k ((blockAt P.tiles b).1 + tt) 0) a)
      (image dst (spectrumValue P.tiles (contracted cfg.nanBits P (m.filterBank filt P.inCh) V)))
      (gemmBlock cfg P filt scr2 dst k q b) := by
  rw [Params.tfB_eq hi8 ho8] at hfilt hinf
  rw [Params.toB_eq ho8] at hdst hD
  have hB : (blockAt P.tiles b).2 ≤ 8 := by have := block_bounds hb; omega
  intro w hw
  -- the sums
  obtain ⟨x, hx, hxm, hxA⟩ := loop_runs (n := P.inGroups)
    (x := ({ w with worker := clearAcc (blockAt P.tiles b).2 w.worker } : Work))
    (f := fun p => loop 8 fun i w => do
      let row ← loadLanes cfg w.mem filt (tfIndex P.inCh q k p i 0)
      gemmChannel cfg P scr2 k b p i row
        { w with worker := { w.worker with held := w.worker.held.setIfInBounds i row } })
    (fun n y => y.mem = w.mem ∧ AccAmbient D m J cfg.nanBits (m.filterBank filt P.inCh) V q k
      (blockAt P.tiles b).1 (blockAt P.tiles b).2 (8 * n) y)
    ⟨rfl, ⟨hw.1, hw.2.1, hJ _ _ w.worker.held hw.2.2⟩, fun tt ht j hj => by
      simp [accAt, clearAcc, show tt < 8 by omega, ht, zeroLanes, partialDot, dotChain]⟩ (by
      rintro p hp y ⟨hym, hyA⟩
      obtain ⟨z, hz, hzm, hzA⟩ := loop_runs (n := 8) (x := y)
        (f := fun i w => do
          let row ← loadLanes cfg w.mem filt (tfIndex P.inCh q k p i 0)
          gemmChannel cfg P scr2 k b p i row
            { w with worker := { w.worker with held := w.worker.held.setIfInBounds i row } })
        (fun n z => z.mem = w.mem ∧ AccAmbient D m J cfg.nanBits (m.filterBank filt P.inCh) V q k
          (blockAt P.tiles b).1 (blockAt P.tiles b).2 (8 * p + n) z)
        ⟨hym, hyA⟩ (by
          rintro i hi u ⟨hum, huA⟩
          have hl := huA.1.loadLanes (tf_backs hfilt hq hk hp hi) fun a ha => by
            obtain ⟨h1, h2⟩ := lane_in_filter hq hk hp hi ha
            exact hinf a h1 h2
          simp only [hl, Option.bind_eq_bind, Option.bind_some]
          obtain ⟨v, hv, hvm, hvA⟩ := gemmChannel_runs hk hb hp hi hscr hins (fun tt ht => hV p hp i hi tt ht) hJ
            (w := { u with worker := { u.worker with
              held := u.worker.held.setIfInBounds i (m.lanes filt (tfIndex P.inCh q k p i 0)) } })
            ⟨⟨huA.1.1, huA.1.2.1, hJ _ u.worker.acc _ huA.1.2.2⟩, huA.2⟩
          exact ⟨v, hv, hvm.trans hum, hvA⟩)
      exact ⟨z, hz, hzm, by rwa [show 8 * (p + 1) = 8 * p + 8 by omega]⟩)
  -- the stores
  have hstore : Fills (fun y => AccAmbient D m J cfg.nanBits (m.filterBank filt P.inCh) V q k
        (blockAt P.tiles b).1 (blockAt P.tiles b).2 P.inCh y)
      (fun a => ∃ tt, tt < (blockAt P.tiles b).2 ∧
        laneBytes dst (toIndex P.tiles q k ((blockAt P.tiles b).1 + tt) 0) a)
      (image dst (spectrumValue P.tiles (contracted cfg.nanBits P (m.filterBank filt P.inCh) V)))
      (loop (blockAt P.tiles b).2 fun tt w =>
        storeLanes cfg dst (toIndex P.tiles q k ((blockAt P.tiles b).1 + tt) 0) (accAt w.worker tt) w) := by
    refine Fills.loop fun tt ht y hy => ?_
    have htile := block_tile_lt hb ht
    obtain ⟨z, h1, h2, h3, h4⟩ := fills_storeLanes (cfg := cfg) (base := dst)
      (e := toIndex P.tiles q k ((blockAt P.tiles b).1 + tt) 0) (v := accAt y.worker tt) (D := D) (m := m)
      (J := fun w => J w ∧ w = y.worker)
      (g := spectrumValue P.tiles (contracted cfg.nanBits P (m.filterBank filt P.inCh) V))
      (ti_backs hdst hq hk htile)
      (fun a ha => by
        obtain ⟨k1, k2⟩ := lane_in_spectrum hq hk htile ha
        exact hD a k1 k2)
      (fun l hl => by
        rw [toIndex_lane, spectrumValue_toIndex hk htile hl, laneAt_of_lt hl, hy.2 tt ht l hl]
        rfl)
      y ⟨hy.1.1, hy.1.2.1, hy.1.2.2, rfl⟩
    refine ⟨z, h1, ⟨⟨h2.1, h2.2.1, h2.2.2.1⟩, ?_⟩, h3, h4⟩
    rw [h2.2.2.2]
    exact hy.2
  obtain ⟨z, h1, h2, h3, h4⟩ := hstore x (by
    have h8 : 8 * P.inGroups = P.inCh := by rw [Params.inGroups]; omega
    rwa [h8] at hxA)
  refine ⟨z, ?_, h2.1, h3, fun a ha => by rw [h4 a ha, hxm]⟩
  simp only [gemmBlock, Option.bind_eq_bind] at hx ⊢
  rw [hx]
  exact h1

/-- Unit `n` of stage `GEMM` fills the halves of one coefficient and output group of the TransformedOutput with
`dot` of the TransformedInput `V` that the interleaved input holds (R199, R201, R202). -/
theorem gemmUnit_fills {n : Nat} (hi8 : P.inCh % 8 = 0) (ho8 : P.outCh % 8 = 0) (hn : n < 64 * P.outGroups)
    (hfilt : backs cfg filt P.tfB = true) (hscr : InterleavedBacked cfg P scr2) (hdst : backs cfg dst P.toB = true)
    (hinf : ∀ a, filt ≤ a → a < filt + P.tfB → ¬ D a) (hins : ∀ a, scr2 ≤ a → a < scr2 + P.ti2B → ¬ D a)
    (hD : ∀ a, dst ≤ a → a < dst + P.toB → D a)
    (hV : ∀ k, k < 64 → ∀ b, b < nblk P.tiles → ∀ p, p < P.inGroups → ∀ i, i < 8 →
      ∀ tt, tt < (blockAt P.tiles b).2 →
        m.half scr2 (ti2Index P.tiles P.inCh k b p i tt) = V p k ((blockAt P.tiles b).1 + tt) i)
    (hJ : ∀ w acc held, J w → J { w with acc := acc, held := held }) :
    Fills (Ambient D m J)
      (fun a => ∃ b, b < nblk P.tiles ∧ ∃ tt, tt < (blockAt P.tiles b).2 ∧
        laneBytes dst (toIndex P.tiles (n % P.outGroups) (n / P.outGroups) ((blockAt P.tiles b).1 + tt) 0) a)
      (image dst (spectrumValue P.tiles (contracted cfg.nanBits P (m.filterBank filt P.inCh) V)))
      (gemmUnit cfg P filt scr2 dst n) := by
  have hpos : 0 < P.outGroups := by
    rcases Nat.eq_zero_or_pos P.outGroups with h | h
    · rw [h] at hn; omega
    · exact h
  have hk : n / P.outGroups < 64 := Nat.div_lt_of_lt_mul (by rwa [Nat.mul_comm])
  exact Fills.loop fun b hb => gemmBlock_fills hi8 ho8 hk (Nat.mod_lt _ hpos) hb hfilt hscr hdst hinf hins hD
    (hV _ hk b hb) hJ

end

/-- The accumulation changes no memory. -/
theorem gemmChannel_stays {k b p i : Nat} {row : LaneVec}
    (hJ : ∀ w acc held, J w → J { w with acc := acc, held := held }) :
    Stays D J (gemmChannel cfg P scr2 k b p i row) := by
  refine Stays.loop fun tt ht => Stays.read (r := fun w => loadHalf cfg w.mem scr2 _) fun x => ?_
  intro w w' he hw
  cases he
  exact ⟨hw, fun _ _ => rfl, fun hj => hJ _ _ w.worker.held hj⟩

theorem gemmUnit_stays {n : Nat} (ho8 : P.outCh % 8 = 0) (hn : n < 64 * P.outGroups)
    (hD : ∀ a, dst ≤ a → a < dst + P.toB → D a)
    (hJ : ∀ w acc held, J w → J { w with acc := acc, held := held }) :
    Stays D J (gemmUnit cfg P filt scr2 dst n) := by
  rw [Params.toB_eq ho8] at hD
  have hpos : 0 < P.outGroups := by
    rcases Nat.eq_zero_or_pos P.outGroups with h | h
    · rw [h] at hn; omega
    · exact h
  have hk : n / P.outGroups < 64 := Nat.div_lt_of_lt_mul (by rwa [Nat.mul_comm])
  refine Stays.loop fun b hb => ?_
  have hsum : Stays D J fun w => loop P.inGroups (fun p => loop 8 fun i w => do
      let row ← loadLanes cfg w.mem filt (tfIndex P.inCh (n % P.outGroups) (n / P.outGroups) p i 0)
      gemmChannel cfg P scr2 (n / P.outGroups) b p i row
        { w with worker := { w.worker with held := w.worker.held.setIfInBounds i row } })
      { w with worker := clearAcc (blockAt P.tiles b).2 w.worker } := by
    have hl : Stays D J (loop P.inGroups (fun p => loop 8 fun i w => do
        let row ← loadLanes cfg w.mem filt (tfIndex P.inCh (n % P.outGroups) (n / P.outGroups) p i 0)
        gemmChannel cfg P scr2 (n / P.outGroups) b p i row
          { w with worker := { w.worker with held := w.worker.held.setIfInBounds i row } })) :=
      Stays.loop fun p hp => Stays.loop fun i hi => Stays.read (r := fun w => loadLanes cfg w.mem filt _) fun row =>
        fun w w' he hw => by
          obtain ⟨h1, h2, h3⟩ := gemmChannel_stays (D := D) hJ _ w' he hw
          exact ⟨h1, h2, fun hj => h3 (hJ _ w.worker.acc _ hj)⟩
    intro w w' he hw
    obtain ⟨h1, h2, h3⟩ := hl _ w' he hw
    exact ⟨h1, h2, fun hj => h3 (hJ _ _ w.worker.held hj)⟩
  refine Stays.bind hsum (Stays.loop fun tt ht => ?_)
  intro w w' he hw
  exact stays_storeLanes (v := accAt w.worker tt) (fun a ha => by
    obtain ⟨h1, h2⟩ := lane_in_spectrum (Nat.mod_lt _ hpos) hk (block_tile_lt hb ht) ha
    exact hD a h1 h2) w w' he hw

end

end Sys2Proof.Machine
end

