-- ==== Sys2Proof/Laws/Backing.lean ====
section
/-! SUPPORT. What backing says (`spec/60_exceptions.md` R254): the ranges a ready command may rely on, and `Needs`,
which says once which bytes the platform has backed when a piece of a unit of work succeeds. -/

namespace Sys2Proof.Machine

/-! ## Sizes of legal operands -/

theorem Params.outWp_pos {P : Params} (h : 1 ≤ P.outW) : 0 < P.outWp := lt_of_lt_of_le h P.outW_le

theorem Params.outHp_pos {P : Params} (h : 1 ≤ P.outH) : 0 < P.outHp := lt_of_lt_of_le h P.outH_le

theorem Params.tiles_pos {P : Params} (hw : 1 ≤ P.outW) (hh : 1 ≤ P.outH) : 0 < P.tiles := by
  have h1 := Params.outWp_pos hw
  have h2 := Params.outHp_pos hh
  have h3 := P.tilesX_mul
  have h4 := P.tilesY_mul
  exact Nat.mul_pos (by omega) (by omega)

theorem Params.padB_pos {P : Params} (h : 1 ≤ P.inCh) : 0 < P.padB := by
  unfold Params.padB Params.padH Params.padW
  positivity

theorem Params.tiB_pos {P : Params} (h : 1 ≤ P.inCh) (hw : 1 ≤ P.outW) (hh : 1 ≤ P.outH) : 0 < P.tiB := by
  have := Params.tiles_pos hw hh
  unfold Params.tiB
  positivity

theorem Params.toB_pos {P : Params} (h : 1 ≤ P.outCh) (hw : 1 ≤ P.outW) (hh : 1 ≤ P.outH) : 0 < P.toB := by
  have := Params.tiles_pos hw hh
  unfold Params.toB
  positivity

theorem Params.opB_pos {P : Params} (h : 1 ≤ P.outCh) (hw : 1 ≤ P.outW) (hh : 1 ≤ P.outH) : 0 < P.opB := by
  have := Params.outWp_pos hw
  have := Params.outHp_pos hh
  unfold Params.opB
  positivity

theorem Params.inB_pos {P : Params} (h : 1 ≤ P.inCh) (hw : 1 ≤ P.inW) (hh : 1 ≤ P.inH) : 0 < P.inB := by
  unfold Params.inB
  positivity

theorem Params.outB_pos {P : Params} (h : 1 ≤ P.outCh) (hw : 1 ≤ P.outW) (hh : 1 ≤ P.outH) : 0 < P.outB := by
  unfold Params.outB
  positivity

theorem Params.rfB_pos {P : Params} (hi : 1 ≤ P.inCh) (ho : 1 ≤ P.outCh) : 0 < P.rfB := by
  unfold Params.rfB
  positivity

theorem Params.tfB_pos {P : Params} (hi : 1 ≤ P.inCh) (ho : 1 ≤ P.outCh) : 0 < P.tfB := by
  unfold Params.tfB
  positivity

theorem Params.biasB_pos {P : Params} (ho : 1 ≤ P.outCh) : 0 < P.biasB := by
  unfold Params.biasB
  positivity

/-- Every tensor of a command that passes its checks has a byte. -/
theorem Command.tensor_pos {i : Instr} {P : Params} {r : Region} (hv : (commandOf i).verdict P = .none)
    (hr : r ∈ (commandOf i).regions P) (hrole : r.role ≠ .scratch) : 0 < r.size := by
  have hc := Command.checked hv
  have hin : ParamReg.inChannels ∈ (commandOf i).uses → 1 ≤ P.inCh := fun h => (hc.inCh h).2
  have hout : ParamReg.outChannels ∈ (commandOf i).uses → 1 ≤ P.outCh := fun h => (hc.outCh h).2
  cases i with
  | tfilt =>
    simp only [commandOf, tfiltCommand, List.mem_cons, List.not_mem_nil, or_false] at hr
    rcases hr with rfl | rfl
    · exact Params.rfB_pos (hin (by decide)) (hout (by decide))
    · exact Params.tfB_pos (hin (by decide)) (hout (by decide))
  | pad =>
    simp only [commandOf, padCommand, List.mem_cons, List.not_mem_nil, or_false] at hr
    rcases hr with rfl | rfl
    · exact Params.inB_pos (hin (by decide)) (hc.inW (by decide)) (hc.inH (by decide))
    · exact Params.padB_pos (hin (by decide))
  | xin =>
    simp only [commandOf, xinCommand, List.mem_cons, List.not_mem_nil, or_false] at hr
    rcases hr with rfl | rfl
    · exact Params.padB_pos (hin (by decide))
    · exact Params.tiB_pos (hin (by decide)) (hc.outW (by decide)) (hc.outH (by decide))
  | contract =>
    simp only [commandOf, contractCommand, List.mem_cons, List.not_mem_nil, or_false] at hr
    rcases hr with rfl | rfl | rfl | rfl
    · exact Params.tiB_pos (hin (by decide)) (hc.outW (by decide)) (hc.outH (by decide))
    · exact Params.toB_pos (hout (by decide)) (hc.outW (by decide)) (hc.outH (by decide))
    · exact Params.tfB_pos (hin (by decide)) (hout (by decide))
    · exact absurd rfl hrole
  | xout =>
    simp only [commandOf, xoutCommand, List.mem_cons, List.not_mem_nil, or_false] at hr
    rcases hr with rfl | rfl
    · exact Params.toB_pos (hout (by decide)) (hc.outW (by decide)) (hc.outH (by decide))
    · exact Params.opB_pos (hout (by decide)) (hc.outW (by decide)) (hc.outH (by decide))
  | xoutB =>
    simp only [commandOf, xoutBCommand, List.mem_cons, List.not_mem_nil, or_false] at hr
    rcases hr with rfl | rfl | rfl
    · exact Params.toB_pos (hout (by decide)) (hc.outW (by decide)) (hc.outH (by decide))
    · exact Params.opB_pos (hout (by decide)) (hc.outW (by decide)) (hc.outH (by decide))
    · exact Params.biasB_pos (hout (by decide))
  | crop =>
    simp only [commandOf, cropCommand, List.mem_cons, List.not_mem_nil, or_false] at hr
    rcases hr with rfl | rfl
    · exact Params.opB_pos (hout (by decide)) (hc.outW (by decide)) (hc.outH (by decide))
    · exact Params.outB_pos (hout (by decide)) (hc.outW (by decide)) (hc.outH (by decide))
  | convolve =>
    simp only [commandOf, convolveCommand, List.mem_cons, List.not_mem_nil, or_false] at hr
    rcases hr with rfl | rfl | rfl | rfl
    · exact Params.inB_pos (hin (by decide)) (hc.inW (by decide)) (hc.inH (by decide))
    · exact Params.outB_pos (hout (by decide)) (hc.outW (by decide)) (hc.outH (by decide))
    · exact Params.tfB_pos (hin (by decide)) (hout (by decide))
    · exact absurd rfl hrole
  | convolveB =>
    simp only [commandOf, convolveBCommand, List.mem_cons, List.not_mem_nil, or_false] at hr
    rcases hr with rfl | rfl | rfl | rfl | rfl
    · exact Params.inB_pos (hin (by decide)) (hc.inW (by decide)) (hc.inH (by decide))
    · exact Params.outB_pos (hout (by decide)) (hc.outW (by decide)) (hc.outH (by decide))
    · exact Params.tfB_pos (hin (by decide)) (hout (by decide))
    · exact Params.biasB_pos (hout (by decide))
    · exact absurd rfl hrole

/-! ## What a ready command may rely on -/

/-- A range the command accesses is backed. -/
theorem State.backed_range {s : State} {i : Instr} {lo n : Nat} (h : s.backed i) (hn : 0 < n)
    (ha : ∀ a, lo ≤ a → a < lo + n → accessed i s.params a) : backs s.cfg lo n = true :=
  backs_of_bytes hn fun b h1 h2 => h b (ha b h1 h2)

/-- A byte of a region other than the scratch window is accessed, but for the part of its source `crop` drops. -/
theorem accessed_tensor {i : Instr} {P : Params} {r : Region} {a : Nat} (hr : r ∈ (commandOf i).regions P)
    (hrole : r.role ≠ .scratch) (hc : i = .crop → r.role = .dest) (h1 : r.base ≤ a) (h2 : a < r.base + r.size) :
    accessed i P a := by
  have ht : (commandOf i).tensorByte P a := ⟨r, hr, hrole, Region.holds_iff.mpr ⟨h1, h2⟩⟩
  cases i with
  | crop =>
    have hd := hc rfl
    simp only [commandOf, cropCommand, List.mem_cons, List.not_mem_nil, or_false] at hr
    rcases hr with rfl | rfl
    · cases hd
    · exact .inr ⟨h1, h2⟩
  | contract | convolve | convolveB => exact .inl ht
  | tfilt | pad | xin | xout | xoutB => exact ht

/-- A region of a ready command other than its scratch window, and other than the source of `crop`, is backed. -/
theorem State.backed_tensor {s : State} {i : Instr} {r : Region} (h : s.backed i)
    (hr : r ∈ (commandOf i).regions s.params) (hrole : r.role ≠ .scratch) (hc : i = .crop → r.role = .dest)
    (hv : (commandOf i).verdict s.params = .none) : backs s.cfg r.base r.size = true :=
  State.backed_range h (Command.tensor_pos hv hr hrole) fun _ h1 h2 => accessed_tensor hr hrole hc h1 h2

/-- The lane vectors `crop` keeps are backed. -/
theorem State.backed_crop {s : State} {g y x : Nat} (h : s.backed .crop) (hg : g < s.params.outGroups)
    (hy : y < s.params.outH) (hx : x < s.params.outW) :
    backs s.cfg (s.params.srcBase.toNat + 2 * fmIndex s.params.outWp s.params.outHp g y x 0) 16 = true :=
  State.backed_range h (by omega) fun _ h1 h2 => .inl ⟨g, y, x, hg, hy, hx, h1, h2⟩

theorem interleavedBacked_of_bytes {cfg : Config} {P : Params} {base : Nat}
    (h : ∀ a, P.interleavedByte base a → backs cfg a 1 = true) : InterleavedBacked cfg P base :=
  fun k hk b hb p hp i hi tt ht => backs_of_bytes (by omega) fun a h1 h2 =>
    h a ⟨k, b, p, i, tt, hk, hb, hp, hi, ht, h1, h2⟩

/-- The interleaved elements of `contract` are backed. -/
theorem State.backed_contract {s : State} (h : s.backed .contract) :
    InterleavedBacked s.cfg s.params s.params.scrBase.toNat :=
  interleavedBacked_of_bytes fun a ha => h a (.inr ha)

/-- The scratch buffers of the pipeline are backed, that of the interleaved input element by element. -/
theorem State.backed_pipeline {s : State} {i : Instr} (hi : i = .convolve ∨ i = .convolveB) (h : s.backed i)
    (hv : (commandOf i).verdict s.params = .none) :
    backs s.cfg s.params.s0 s.params.padB = true ∧ backs s.cfg s.params.s1 s.params.tiB = true ∧
    InterleavedBacked s.cfg s.params s.params.s2 ∧ backs s.cfg s.params.s3 s.params.toB = true ∧
    backs s.cfg s.params.s4 s.params.opB = true := by
  have hc := Command.checked hv
  have hp : ∀ a, s.params.pipelineByte a → accessed i s.params a := by
    rcases hi with rfl | rfl <;> exact fun a ha => .inr ha
  have hin := (hc.inCh (by rcases hi with rfl | rfl <;> decide)).2
  have hout := (hc.outCh (by rcases hi with rfl | rfl <;> decide)).2
  have hw := hc.outW (by rcases hi with rfl | rfl <;> decide)
  have hh := hc.outH (by rcases hi with rfl | rfl <;> decide)
  have h0 := Params.padB_pos hin
  have h1 := Params.tiB_pos hin hw hh
  have h3 := Params.toB_pos hout hw hh
  have h4 := Params.opB_pos hout hw hh
  refine ⟨State.backed_range h h0 fun a k1 k2 => hp a (.inl ?_), State.backed_range h h1 fun a k1 k2 => hp a (.inl ?_),
    interleavedBacked_of_bytes fun a ha => h a (hp a (.inr (.inl ha))),
    State.backed_range h h3 fun a k1 k2 => hp a (.inr (.inr ?_)),
    State.backed_range h h4 fun a k1 k2 => hp a (.inr (.inr ?_))⟩ <;>
  simp only [Params.s0, Params.s1, Params.s2, Params.s3, Params.s4, Params.convolveNeed] at k1 k2 ⊢ <;> omega

/-- Does the platform back the command's regions, the scratch window up to `SCR_NEED`: enough for `State.backed`. -/
def State.backedRegions (s : State) (i : Instr) : Bool :=
  ((commandOf i).regions s.params).all (fun r => decide (r.role = .scratch) || backs s.cfg r.base r.size) &&
    ((commandOf i).scratchUse s.params).all fun r => backs s.cfg r.base r.size

theorem interleaved_in {P : Params} {base a : Nat} (h : P.interleavedByte base a) : base ≤ a ∧ a < base + P.ti2B := by
  obtain ⟨k, b, p, i, tt, hk, hb, hp, hi, ht, h1, h2⟩ := h
  exact elem_in_interleaved hk hb hp hi ht ⟨h1, h2⟩

theorem cropped_in {P : Params} {base a : Nat} (hch : P.outCh % 8 = 0) (h : P.croppedByte base a) :
    base ≤ a ∧ a < base + P.opB := by
  obtain ⟨g, y, x, hg, hy, hx, h1, h2⟩ := h
  rw [Params.opB_eq hch]
  exact lane_in_map hg (lt_of_lt_of_le hy P.outH_le) (lt_of_lt_of_le hx P.outW_le) ⟨h1, h2⟩

theorem pipeline_in {P : Params} {a : Nat} (h : P.pipelineByte a) :
    P.scrBase.toNat ≤ a ∧ a < P.scrBase.toNat + P.convolveNeed := by
  have hs : P.convolveNeed = P.padB + P.tiB + P.ti2B + P.toB + P.opB := rfl
  rcases h with h | h | h
  · simp only [Params.s0, Params.s1, Params.s2] at h
    omega
  · have := interleaved_in h
    simp only [Params.s0, Params.s1, Params.s2] at this
    omega
  · simp only [Params.s0, Params.s1, Params.s2, Params.s3] at h
    omega

theorem State.backed_of_regions {s : State} {i : Instr} (hv : (commandOf i).verdict s.params = .none)
    (h : s.backedRegions i = true) : s.backed i := by
  simp only [State.backedRegions, Bool.and_eq_true, List.all_eq_true, Bool.or_eq_true, decide_eq_true_eq] at h
  obtain ⟨hr, hs⟩ := h
  have ht : ∀ a, (commandOf i).tensorByte s.params a → backs s.cfg a 1 = true := by
    rintro a ⟨r, hm, hrole, ha⟩
    have ha := Region.holds_iff.mp ha
    exact backs_byte ((hr r hm).resolve_left hrole) ha.1 ha.2
  have hscr : ∀ r ∈ (commandOf i).scratchUse s.params, ∀ a, r.base ≤ a → a < r.base + r.size →
      backs s.cfg a 1 = true := fun r hm a h1 h2 => backs_byte (hs r hm) h1 h2
  intro a ha
  cases i with
  | tfilt | pad | xin | xout | xoutB => exact ht a ha
  | crop =>
    rcases ha with ha | ha
    · have := cropped_in ((Command.checked hv).outCh (by decide)).1 ha
      exact ht a ⟨⟨.source, s.params.srcBase.toNat, s.params.opB⟩, by simp [commandOf, cropCommand], nofun,
        Region.holds_iff.mpr this⟩
    · exact ht a ⟨⟨.dest, s.params.dstBase.toNat, s.params.outB⟩, by simp [commandOf, cropCommand], nofun,
        Region.holds_iff.mpr ha⟩
  | contract =>
    rcases ha with ha | ha
    · exact ht a ha
    · have := interleaved_in ha
      exact hscr ⟨.scratch, s.params.scrBase.toNat, s.params.ti2B⟩
        (by simp [commandOf, contractCommand, Command.scratchUse]) a this.1 this.2
  | convolve =>
    rcases ha with ha | ha
    · exact ht a ha
    · have := pipeline_in ha
      exact hscr ⟨.scratch, s.params.scrBase.toNat, s.params.convolveNeed⟩
        (by simp [commandOf, convolveCommand, Command.scratchUse]) a this.1 this.2
  | convolveB =>
    rcases ha with ha | ha
    · exact ht a ha
    · have := pipeline_in ha
      exact hscr ⟨.scratch, s.params.scrBase.toNat, s.params.convolveNeed⟩
        (by simp [commandOf, convolveBCommand, Command.scratchUse]) a this.1 this.2

/-! ## What a unit of work that succeeds has needed -/

/-- Whenever `f` succeeds, the platform backs the bytes of `A`. -/
def Needs (cfg : Config) (A : Nat → Prop) (f : Work → Option Work) : Prop :=
  ∀ w w', f w = some w' → ∀ a, A a → backs cfg a 1 = true

section
variable {cfg : Config} {P : Params} {src dst : Nat} {A B : Nat → Prop}

theorem loop_some {α : Type} {n : Nat} {f : Nat → α → Option α} : ∀ {x y : α}, loop n f x = some y →
    ∀ i, i < n → ∃ z z', f i z = some z' := by
  induction n with
  | zero => exact fun _ i hi => absurd hi (Nat.not_lt_zero i)
  | succ n ih =>
    intro x y h i hi
    obtain ⟨z, hz, hy⟩ := Option.bind_eq_some_iff.mp (loop_succ ▸ h)
    by_cases e : i = n
    · subst e
      exact ⟨z, y, hy⟩
    · exact ih hz i (by omega)

theorem Needs.loop {A : Nat → Nat → Prop} {n : Nat} {f : Nat → Work → Option Work}
    (h : ∀ i, i < n → Needs cfg (A i) (f i)) : Needs cfg (fun a => ∃ i, i < n ∧ A i a) (Machine.loop n f) := by
  rintro w w' he a ⟨i, hi, ha⟩
  obtain ⟨z, z', hz⟩ := loop_some he i hi
  exact h i hi z z' hz a ha

theorem Needs.mono {f : Work → Option Work} (h : Needs cfg A f) (hs : ∀ a, B a → A a) : Needs cfg B f :=
  fun w w' he a ha => h w w' he a (hs a ha)

/-- A read that succeeds, and what follows it. -/
theorem Needs.read {α : Type} {r : Work → Option α} {f : α → Work → Option Work}
    (hr : ∀ w x, r w = some x → ∀ a, A a → backs cfg a 1 = true) (hf : ∀ x, Needs cfg B (f x)) :
    Needs cfg (fun a => A a ∨ B a) fun w => (r w).bind fun x => f x w := by
  rintro w w' he a ha
  obtain ⟨x, hx, hw⟩ := Option.bind_eq_some_iff.mp he
  exact ha.elim (hr w x hx a) (hf x w w' hw a)

theorem Needs.bind {f : Work → Option Work} {g : Work → Option Work} (hf : Needs cfg A f) (hg : Needs cfg B g) :
    Needs cfg (fun a => A a ∨ B a) fun w => (f w).bind g := by
  rintro w w' he a ha
  obtain ⟨x, hx, hw⟩ := Option.bind_eq_some_iff.mp he
  exact ha.elim (hf w x hx a) (hg x w' hw a)

theorem needs_storeLanes {base e : Nat} {v : LaneVec} : Needs cfg (laneBytes base e) (storeLanes cfg base e v) := by
  intro w w' h a ha
  unfold storeLanes at h
  split at h
  · next hb => exact backs_byte hb ha.1 ha.2
  · cases h

theorem needs_storeHalf {base e : Nat} {v : Half} : Needs cfg (elemBytes base e) (storeHalf cfg base e v) := by
  intro w w' h a ha
  unfold storeHalf at h
  split at h
  · next hb => exact backs_byte hb ha.1 ha.2
  · cases h

theorem loadLanes_some {m : Memory} {base e : Nat} {v : LaneVec} (h : loadLanes cfg m base e = some v) (a : Nat)
    (ha : laneBytes base e a) : backs cfg a 1 = true := by
  unfold loadLanes at h
  split at h
  · next hb => exact backs_byte hb ha.1 ha.2
  · cases h

theorem loadHalf_some {m : Memory} {base e : Nat} {v : Half} (h : loadHalf cfg m base e = some v) (a : Nat)
    (ha : elemBytes base e a) : backs cfg a 1 = true := by
  unfold loadHalf at h
  split at h
  · next hb => exact backs_byte hb ha.1 ha.2
  · cases h

theorem loadGrid_some {m : Memory} {base r c : Nat} {e : Nat → Nat → Nat} {g : Grid LaneVec r c}
    (h : loadGrid cfg m base r c e = some g) (a : Nat) (ha : ∃ y, y < r ∧ ∃ x, x < c ∧ laneBytes base (e y x) a) :
    backs cfg a 1 = true := by
  unfold loadGrid at h
  split at h
  · next hb =>
    obtain ⟨y, hy, x, hx, h1, h2⟩ := ha
    simp only [List.all_eq_true, List.mem_range] at hb
    exact backs_byte (hb y hy x hx) h1 h2
  · cases h

theorem loadTaps_some {m : Memory} {base : Nat} {e : Nat → Nat → Nat} {g : Grid Single 3 3}
    (h : loadTaps cfg m base e = some g) (a : Nat)
    (ha : ∃ r, r < 3 ∧ ∃ cc, cc < 3 ∧ base + 4 * e r cc ≤ a ∧ a < base + 4 * e r cc + 4) : backs cfg a 1 = true := by
  unfold loadTaps at h
  split at h
  · next hb =>
    obtain ⟨y, hy, x, hx, h1, h2⟩ := ha
    simp only [List.all_eq_true, List.mem_range] at hb
    exact backs_byte (hb y hy x hx) h1 h2
  · cases h

/-- A unit of `PAD` reads plane `g` of the arriving map and writes plane `g` of the padded one (R161). -/
theorem padUnit_needs {g : Nat} (hw : P.inW ≤ P.padW) (hh : P.inH ≤ P.padH) :
    Needs cfg (fun a => planeBytes src P.inW P.inH g a ∨ planeBytes dst P.padW P.padH g a)
      (padUnit cfg P src dst g) := by
  have h : ∀ y x, Needs cfg
      (fun a => (y < P.inH ∧ x < P.inW ∧ laneBytes src (fmIndex P.inW P.inH g y x 0) a) ∨
        laneBytes dst (fmIndex P.padW P.padH g y x 0) a) (fun w => do
      let v ← if y < P.inH ∧ x < P.inW then loadLanes cfg w.mem src (fmIndex P.inW P.inH g y x 0) else some zeroLanes
      storeLanes cfg dst (fmIndex P.padW P.padH g y x 0) v w) := by
    intro y x w w' he a ha
    by_cases hc : y < P.inH ∧ x < P.inW
    · simp only [if_pos hc] at he
      exact Needs.read (r := fun w => loadLanes cfg w.mem src _) (fun _ _ h a ha => loadLanes_some h a ha)
        (fun v => needs_storeLanes) w w' he a (ha.imp_left fun h => h.2.2)
    · simp only [if_neg hc] at he
      exact needs_storeLanes w w' he a (ha.resolve_left fun h => hc ⟨h.1, h.2.1⟩)
  refine Needs.mono (Needs.loop fun y _ => Needs.loop fun x _ => h y x) ?_
  rintro a (⟨y, hy, x, hx, ha⟩ | ⟨y, hy, x, hx, ha⟩)
  · exact ⟨y, by omega, x, by omega, .inl ⟨hy, hx, ha⟩⟩
  · exact ⟨y, hy, x, hx, .inr ha⟩

/-- A unit of `CROP` reads the kept part of plane `g` and writes plane `g` of the output (R165). -/
theorem cropUnit_needs {g : Nat} :
    Needs cfg (fun a => ∃ y, y < P.outH ∧ ∃ x, x < P.outW ∧
      (laneBytes src (fmIndex P.outWp P.outHp g y x 0) a ∨ laneBytes dst (fmIndex P.outW P.outH g y x 0) a))
      (cropUnit cfg P src dst g) :=
  Needs.loop fun _ _ => Needs.loop fun _ _ => Needs.read (r := fun w => loadLanes cfg w.mem src _)
    (fun _ _ h a ha => loadLanes_some h a ha) fun _ => needs_storeLanes

/-- A unit of `XIN` reads the windows of its tiles in plane `p` and writes their coefficients (R185). -/
theorem xinUnit_needs {p : Nat} :
    Needs cfg (fun a => ∃ ty, ty < P.tilesY ∧ ∃ tx, tx < P.tilesX ∧
      ((∃ y, y < 8 ∧ ∃ x, x < 8 ∧ laneBytes src (fmIndex P.padW P.padH p (6 * ty + y) (6 * tx + x) 0) a) ∨
        ∃ t, t < 8 ∧ ∃ u, u < 8 ∧ laneBytes dst (tiIndex P.tiles p (8 * t + u) (ty * P.tilesX + tx) 0) a))
      (xinUnit cfg P src dst p) := by
  refine Needs.loop fun ty _ => Needs.loop fun tx _ => Needs.read (r := fun w => loadGrid cfg w.mem src 8 8 _)
    (fun _ _ h a ha => loadGrid_some h a ha) fun d w w' h => ?_
  exact Needs.loop (fun t _ => Needs.loop fun u _ => needs_storeLanes) _ w' h

/-- A unit of `REPACK` reads coefficient `k` of every tile and writes its interleaved elements (R197). -/
theorem repackUnit_needs {scr2 k : Nat} :
    Needs cfg (fun a => ∃ b, b < nblk P.tiles ∧ ∃ p, p < P.inGroups ∧ ∃ i, i < 8 ∧ ∃ tt, tt < (blockAt P.tiles b).2 ∧
      (elemBytes src (tiIndex P.tiles p k ((blockAt P.tiles b).1 + tt) i) a ∨
        elemBytes scr2 (ti2Index P.tiles P.inCh k b p i tt) a))
      (repackUnit cfg P src scr2 k) :=
  Needs.loop fun _ _ => Needs.loop fun _ _ => Needs.loop fun _ _ => Needs.loop fun _ _ =>
    Needs.read (r := fun w => loadHalf cfg w.mem src _) (fun _ _ h a ha => loadHalf_some h a ha) fun _ => needs_storeHalf

/-- A unit of `GEMM` reads its filter rows and writes its output lane vectors (R201). -/
theorem gemmUnit_needs {filt scr2 n : Nat} :
    Needs cfg (fun a => ∃ b, b < nblk P.tiles ∧
      ((∃ p, p < P.inGroups ∧ ∃ i, i < 8 ∧
          laneBytes filt (tfIndex P.inCh (n % P.outGroups) (n / P.outGroups) p i 0) a) ∨
        ∃ tt, tt < (blockAt P.tiles b).2 ∧
          laneBytes dst (toIndex P.tiles (n % P.outGroups) (n / P.outGroups) ((blockAt P.tiles b).1 + tt) 0) a))
      (gemmUnit cfg P filt scr2 dst n) := by
  refine Needs.loop fun b _ => Needs.bind (f := fun w => Machine.loop P.inGroups (fun p => Machine.loop 8 fun i w => do
      let row ← loadLanes cfg w.mem filt (tfIndex P.inCh (n % P.outGroups) (n / P.outGroups) p i 0)
      gemmChannel cfg P scr2 (n / P.outGroups) b p i row
        { w with worker := { w.worker with held := w.worker.held.setIfInBounds i row } })
      { w with worker := clearAcc (blockAt P.tiles b).2 w.worker }) ?_ ?_
  · have hl : Needs cfg (fun a => ∃ p, p < P.inGroups ∧ ∃ i, i < 8 ∧
        laneBytes filt (tfIndex P.inCh (n % P.outGroups) (n / P.outGroups) p i 0) a)
        (Machine.loop P.inGroups (fun p => Machine.loop 8 fun i w => do
          let row ← loadLanes cfg w.mem filt (tfIndex P.inCh (n % P.outGroups) (n / P.outGroups) p i 0)
          gemmChannel cfg P scr2 (n / P.outGroups) b p i row
            { w with worker := { w.worker with held := w.worker.held.setIfInBounds i row } })) :=
      Needs.loop fun p _ => Needs.loop fun i _ w w' h a ha => by
        obtain ⟨row, hrow, -⟩ := Option.bind_eq_some_iff.mp h
        exact loadLanes_some hrow a ha
    exact fun w w' h => hl _ w' h
  · exact Needs.loop fun tt _ w w' h => needs_storeLanes (v := accAt w.worker tt) w w' h

/-- A unit of `XOUT` reads its bias and its tiles' coefficients and writes plane `q` of the padded output (R224). -/
theorem xoutUnit_needs {withBias : Bool} {bias q : Nat} :
    Needs cfg (fun a => (withBias = true ∧ laneBytes bias (8 * q) a) ∨ ∃ ty, ty < P.tilesY ∧ ∃ tx, tx < P.tilesX ∧
      ((∃ t, t < 8 ∧ ∃ u, u < 8 ∧ laneBytes src (toIndex P.tiles q (8 * t + u) (ty * P.tilesX + tx) 0) a) ∨
        ∃ i, i < 6 ∧ ∃ j, j < 6 ∧ laneBytes dst (fmIndex P.outWp P.outHp q (6 * ty + i) (6 * tx + j) 0) a))
      (xoutUnit cfg P withBias bias src dst q) := by
  refine Needs.read (r := fun w => loadBias cfg w.mem withBias bias q) (fun w v h a ha => ?_) fun b => ?_
  · rw [loadBias, if_pos ha.1] at h
    exact loadLanes_some h a ha.2
  · refine Needs.loop fun ty _ => Needs.loop fun tx _ => Needs.read (r := fun w => loadGrid cfg w.mem src 8 8 _)
      (fun _ _ h a ha => loadGrid_some h a ha) fun d w w' h => ?_
    exact Needs.loop (fun i _ => Needs.loop fun j _ => needs_storeLanes) _ w' h

/-- A unit of `TFILT` reads the taps of output channel `o` and writes its coefficients (R146). -/
theorem tfiltUnit_needs {o : Nat} :
    Needs cfg (fun a => ∃ c, c < P.inCh ∧
      ((∃ r, r < 3 ∧ ∃ cc, cc < 3 ∧ src + 4 * rfIndex P.inCh o c r cc ≤ a ∧ a < src + 4 * rfIndex P.inCh o c r cc + 4) ∨
        ∃ t, t < 8 ∧ ∃ u, u < 8 ∧ elemBytes dst (tfIndex P.inCh (o / 8) (8 * t + u) (c / 8) (c % 8) (o % 8)) a))
      (tfiltUnit cfg P src dst o) :=
  Needs.loop fun _ _ => Needs.read (r := fun w => loadTaps cfg w.mem src _) (fun _ _ h a ha => loadTaps_some h a ha)
    fun _ => Needs.loop fun _ _ => Needs.loop fun _ _ => needs_storeHalf

end

end Sys2Proof.Machine
end

