-- ==== Sys2Proof/Laws/State.lean ====
section
/-! SUPPORT. One lemma per field per update of the state, of the status bits and of the parameter registers, so that
no later proof unfolds a record update; and the canonical memory of the reset state. -/

namespace Sys2Proof.Machine

variable (s : State)

/-! ## A dropped command word (`State.overrun`) -/

@[simp] theorem State.overrun_cmd : s.overrun.cmd = s.cmd := rfl
@[simp] theorem State.overrun_status : s.overrun.status = s.status.overrun := rfl
@[simp] theorem State.overrun_ie : s.overrun.ie = s.ie := rfl
@[simp] theorem State.overrun_err : s.overrun.err = s.err := rfl
@[simp] theorem State.overrun_stage : s.overrun.stage = s.stage := rfl
@[simp] theorem State.overrun_params : s.overrun.params = s.params := rfl
@[simp] theorem State.overrun_latch : s.overrun.latch = s.latch := rfl
@[simp] theorem State.overrun_lcmd : s.overrun.lcmd = s.lcmd := rfl
@[simp] theorem State.overrun_pending : s.overrun.pending = s.pending := rfl
@[simp] theorem State.overrun_workers : s.overrun.workers = s.workers := rfl
@[simp] theorem State.overrun_mem : s.overrun.mem = s.mem := rfl
@[simp] theorem State.overrun_cfg : s.overrun.cfg = s.cfg := rfl
@[simp] theorem State.overrun_sched : s.overrun.sched = s.sched := rfl
@[simp] theorem State.overrun_host : s.overrun.host = s.host := rfl
@[simp] theorem State.overrun_hostData : s.overrun.hostData = s.hostData := rfl
@[simp] theorem State.overrun_draws : s.overrun.draws = s.draws := rfl

/-! ## Acceptance of a command (`State.accept`) -/

@[simp] theorem State.accept_cmd (i : Instr) : (s.accept i).cmd = encode i := rfl
@[simp] theorem State.accept_status (i : Instr) : (s.accept i).status = s.status.accepted := rfl
@[simp] theorem State.accept_ie (i : Instr) : (s.accept i).ie = s.ie := rfl
@[simp] theorem State.accept_err (i : Instr) : (s.accept i).err = .none := rfl
@[simp] theorem State.accept_stage (i : Instr) : (s.accept i).stage = .check := rfl
@[simp] theorem State.accept_params (i : Instr) : (s.accept i).params = s.params := rfl
@[simp] theorem State.accept_latch (i : Instr) : (s.accept i).latch = s.params := rfl
@[simp] theorem State.accept_lcmd (i : Instr) : (s.accept i).lcmd = encode i := rfl
@[simp] theorem State.accept_pending (i : Instr) : (s.accept i).pending = [] := rfl
@[simp] theorem State.accept_workers (i : Instr) : (s.accept i).workers = s.workers := rfl
@[simp] theorem State.accept_mem (i : Instr) : (s.accept i).mem = s.mem := rfl
@[simp] theorem State.accept_cfg (i : Instr) : (s.accept i).cfg = s.cfg := rfl
@[simp] theorem State.accept_sched (i : Instr) : (s.accept i).sched = s.sched := rfl
@[simp] theorem State.accept_host (i : Instr) : (s.accept i).host = s.host := rfl
@[simp] theorem State.accept_hostData (i : Instr) : (s.accept i).hostData = s.hostData := rfl
@[simp] theorem State.accept_draws (i : Instr) : (s.accept i).draws = s.draws := rfl

/-! ## Completion (`State.complete`) -/

@[simp] theorem State.complete_cmd (e : ErrCode) : (s.complete e).cmd = s.cmd := rfl
@[simp] theorem State.complete_status (e : ErrCode) : (s.complete e).status = s.status.completed e := rfl
@[simp] theorem State.complete_ie (e : ErrCode) : (s.complete e).ie = s.ie := rfl
@[simp] theorem State.complete_err (e : ErrCode) : (s.complete e).err = e := rfl
@[simp] theorem State.complete_stage (e : ErrCode) : (s.complete e).stage = .idle := rfl
@[simp] theorem State.complete_params (e : ErrCode) : (s.complete e).params = s.params := rfl
@[simp] theorem State.complete_latch (e : ErrCode) : (s.complete e).latch = s.latch := rfl
@[simp] theorem State.complete_lcmd (e : ErrCode) : (s.complete e).lcmd = s.lcmd := rfl
@[simp] theorem State.complete_pending (e : ErrCode) : (s.complete e).pending = [] := rfl
@[simp] theorem State.complete_workers (e : ErrCode) : (s.complete e).workers = s.workers := rfl
@[simp] theorem State.complete_mem (e : ErrCode) : (s.complete e).mem = s.mem := rfl
@[simp] theorem State.complete_cfg (e : ErrCode) : (s.complete e).cfg = s.cfg := rfl
@[simp] theorem State.complete_sched (e : ErrCode) : (s.complete e).sched = s.sched := rfl
@[simp] theorem State.complete_host (e : ErrCode) : (s.complete e).host = s.host := rfl
@[simp] theorem State.complete_hostData (e : ErrCode) : (s.complete e).hostData = s.hostData := rfl
@[simp] theorem State.complete_draws (e : ErrCode) : (s.complete e).draws = s.draws := rfl

/-! ## Entering a stage (`State.enter`) -/

@[simp] theorem State.enter_cmd (st : Stage) : (s.enter st).cmd = s.cmd := rfl
@[simp] theorem State.enter_status (st : Stage) : (s.enter st).status = s.status := rfl
@[simp] theorem State.enter_ie (st : Stage) : (s.enter st).ie = s.ie := rfl
@[simp] theorem State.enter_err (st : Stage) : (s.enter st).err = s.err := rfl
@[simp] theorem State.enter_stage (st : Stage) : (s.enter st).stage = st := rfl
@[simp] theorem State.enter_params (st : Stage) : (s.enter st).params = s.params := rfl
@[simp] theorem State.enter_latch (st : Stage) : (s.enter st).latch = s.latch := rfl
@[simp] theorem State.enter_lcmd (st : Stage) : (s.enter st).lcmd = s.lcmd := rfl
@[simp] theorem State.enter_pending (st : Stage) : (s.enter st).pending = List.range (st.units s.latch) := rfl
@[simp] theorem State.enter_workers (st : Stage) : (s.enter st).workers = s.workers := rfl
@[simp] theorem State.enter_mem (st : Stage) : (s.enter st).mem = s.mem := rfl
@[simp] theorem State.enter_cfg (st : Stage) : (s.enter st).cfg = s.cfg := rfl
@[simp] theorem State.enter_sched (st : Stage) : (s.enter st).sched = s.sched := rfl
@[simp] theorem State.enter_host (st : Stage) : (s.enter st).host = s.host := rfl
@[simp] theorem State.enter_hostData (st : Stage) : (s.enter st).hostData = s.hostData := rfl
@[simp] theorem State.enter_draws (st : Stage) : (s.enter st).draws = s.draws := rfl

/-! ## Unspecified bytes (`State.unspecify`) -/

@[simp] theorem State.unspecify_cmd (b n : Nat) : (s.unspecify b n).cmd = s.cmd := rfl
@[simp] theorem State.unspecify_status (b n : Nat) : (s.unspecify b n).status = s.status := rfl
@[simp] theorem State.unspecify_ie (b n : Nat) : (s.unspecify b n).ie = s.ie := rfl
@[simp] theorem State.unspecify_err (b n : Nat) : (s.unspecify b n).err = s.err := rfl
@[simp] theorem State.unspecify_stage (b n : Nat) : (s.unspecify b n).stage = s.stage := rfl
@[simp] theorem State.unspecify_params (b n : Nat) : (s.unspecify b n).params = s.params := rfl
@[simp] theorem State.unspecify_latch (b n : Nat) : (s.unspecify b n).latch = s.latch := rfl
@[simp] theorem State.unspecify_lcmd (b n : Nat) : (s.unspecify b n).lcmd = s.lcmd := rfl
@[simp] theorem State.unspecify_pending (b n : Nat) : (s.unspecify b n).pending = s.pending := rfl
@[simp] theorem State.unspecify_workers (b n : Nat) : (s.unspecify b n).workers = s.workers := rfl
@[simp] theorem State.unspecify_mem (b n : Nat) :
    (s.unspecify b n).mem = s.mem.fill b (Config.freeByte s.draws) (min n (addrSpace - b)) := rfl
@[simp] theorem State.unspecify_cfg (b n : Nat) : (s.unspecify b n).cfg = s.cfg := rfl
@[simp] theorem State.unspecify_sched (b n : Nat) : (s.unspecify b n).sched = s.sched := rfl
@[simp] theorem State.unspecify_host (b n : Nat) : (s.unspecify b n).host = s.host := rfl
@[simp] theorem State.unspecify_hostData (b n : Nat) : (s.unspecify b n).hostData = s.hostData := rfl
@[simp] theorem State.unspecify_draws (b n : Nat) : (s.unspecify b n).draws = s.draws + 1 := rfl

/-! ## The registers at reset (`State.resetRegisters`) -/

@[simp] theorem State.resetRegisters_cmd : s.resetRegisters.cmd = 0 := rfl
@[simp] theorem State.resetRegisters_status : s.resetRegisters.status = Status.zero := rfl
@[simp] theorem State.resetRegisters_ie : s.resetRegisters.ie = false := rfl
@[simp] theorem State.resetRegisters_err : s.resetRegisters.err = .none := rfl
@[simp] theorem State.resetRegisters_stage : s.resetRegisters.stage = .idle := rfl
@[simp] theorem State.resetRegisters_params : s.resetRegisters.params = Params.zero := rfl
@[simp] theorem State.resetRegisters_latch : s.resetRegisters.latch = Params.zero := rfl
@[simp] theorem State.resetRegisters_lcmd : s.resetRegisters.lcmd = 0 := rfl
@[simp] theorem State.resetRegisters_pending : s.resetRegisters.pending = [] := rfl
@[simp] theorem State.resetRegisters_workers : s.resetRegisters.workers = s.workers.map fun _ => Worker.zero := rfl
@[simp] theorem State.resetRegisters_mem : s.resetRegisters.mem = s.mem := rfl
@[simp] theorem State.resetRegisters_cfg : s.resetRegisters.cfg = s.cfg := rfl
@[simp] theorem State.resetRegisters_sched : s.resetRegisters.sched = s.sched := rfl
@[simp] theorem State.resetRegisters_host : s.resetRegisters.host = s.host := rfl
@[simp] theorem State.resetRegisters_hostData : s.resetRegisters.hostData = s.hostData := rfl
@[simp] theorem State.resetRegisters_draws : s.resetRegisters.draws = s.draws := rfl

/-! ## The command word the host writes next (`State.withFetchWord`) -/

@[simp] theorem State.withFetchWord_cmd (k w : Nat) : (s.withFetchWord k w).cmd = s.cmd := rfl
@[simp] theorem State.withFetchWord_status (k w : Nat) : (s.withFetchWord k w).status = s.status := rfl
@[simp] theorem State.withFetchWord_ie (k w : Nat) : (s.withFetchWord k w).ie = s.ie := rfl
@[simp] theorem State.withFetchWord_err (k w : Nat) : (s.withFetchWord k w).err = s.err := rfl
@[simp] theorem State.withFetchWord_stage (k w : Nat) : (s.withFetchWord k w).stage = s.stage := rfl
@[simp] theorem State.withFetchWord_params (k w : Nat) : (s.withFetchWord k w).params = s.params := rfl
@[simp] theorem State.withFetchWord_latch (k w : Nat) : (s.withFetchWord k w).latch = s.latch := rfl
@[simp] theorem State.withFetchWord_lcmd (k w : Nat) : (s.withFetchWord k w).lcmd = s.lcmd := rfl
@[simp] theorem State.withFetchWord_pending (k w : Nat) : (s.withFetchWord k w).pending = s.pending := rfl
@[simp] theorem State.withFetchWord_workers (k w : Nat) : (s.withFetchWord k w).workers = s.workers := rfl
@[simp] theorem State.withFetchWord_mem (k w : Nat) : (s.withFetchWord k w).mem = s.mem := rfl
@[simp] theorem State.withFetchWord_cfg (k w : Nat) : (s.withFetchWord k w).cfg = s.cfg := rfl
@[simp] theorem State.withFetchWord_sched (k w : Nat) : (s.withFetchWord k w).sched = s.sched := rfl
@[simp] theorem State.withFetchWord_host (k w : Nat) : (s.withFetchWord k w).host = commandEvent s.cfg k w :: s.host := rfl
@[simp] theorem State.withFetchWord_hostData (k w : Nat) : (s.withFetchWord k w).hostData = s.hostData := rfl
@[simp] theorem State.withFetchWord_draws (k w : Nat) : (s.withFetchWord k w).draws = s.draws := rfl

/-! ## Status bits -/

variable (t : Status)

@[simp] theorem Status.overrun_busy : t.overrun.busy = t.busy := rfl
@[simp] theorem Status.overrun_done : t.overrun.done = t.done := rfl
@[simp] theorem Status.overrun_error : t.overrun.error = t.error := rfl
@[simp] theorem Status.overrun_ovr : t.overrun.ovr = true := rfl
@[simp] theorem Status.accepted_busy : t.accepted.busy = true := rfl
@[simp] theorem Status.accepted_done : t.accepted.done = false := rfl
@[simp] theorem Status.accepted_error : t.accepted.error = false := rfl
@[simp] theorem Status.accepted_ovr : t.accepted.ovr = t.ovr := rfl
@[simp] theorem Status.completed_busy (e : ErrCode) : (t.completed e).busy = false := rfl
@[simp] theorem Status.completed_done (e : ErrCode) : (t.completed e).done = true := rfl
@[simp] theorem Status.completed_error (e : ErrCode) : (t.completed e).error = decide (e ≠ .none) := rfl
@[simp] theorem Status.completed_ovr (e : ErrCode) : (t.completed e).ovr = t.ovr := rfl
@[simp] theorem Status.clear_busy (v : Word) : (t.clear v).busy = t.busy := rfl
@[simp] theorem Status.clear_done (v : Word) : (t.clear v).done = (t.done && !v.getLsbD 1) := rfl
@[simp] theorem Status.clear_error (v : Word) : (t.clear v).error = (t.error && !v.getLsbD 2) := rfl
@[simp] theorem Status.clear_ovr (v : Word) : (t.clear v).ovr = (t.ovr && !v.getLsbD 3) := rfl
@[simp] theorem Status.zero_busy : Status.zero.busy = false := rfl
@[simp] theorem Status.zero_done : Status.zero.done = false := rfl
@[simp] theorem Status.zero_error : Status.zero.error = false := rfl
@[simp] theorem Status.zero_ovr : Status.zero.ovr = false := rfl

/-! ## Parameter registers -/

@[simp] theorem Params.get_set (P : Params) (v : Word) (p q : ParamReg) :
    (P.set v p).get q = if q = p then v else P.get q := by cases p <;> cases q <;> rfl

@[simp] theorem Params.get_zero (p : ParamReg) : Params.zero.get p = 0 := by cases p <;> rfl

/-! ## Reset -/

/-- The memory of the reset state has its canonical form. -/
@[simp] theorem State.reset_wf : State.reset.mem.wf = true := rfl

end Sys2Proof.Machine
end

