-- ==== Sys2Proof/Laws/Sequencer.lean ====
section
/-! SUPPORT. What a transaction of the core can do, and how a stage and a command run: the inversion of `transact`,
the stage rule `Command.run_first` / `Command.run_next` that turns what one unit does (`Fills`) into what the
stage leaves, whatever the schedule, and the frame of a whole run. -/

namespace Sys2Proof.Machine

/-! ## Decoding the command in flight -/

theorem decode_encode_ok (i : Instr) : decode (encode i) = .ok i := by cases i <;> rfl

theorem State.inFlight_of_lcmd {s : State} {i : Instr} (h : s.lcmd = encode i) : s.inFlight = some (commandOf i) := by
  simp [State.inFlight, h, decode_encode_ok]

theorem State.carryOn_of_lcmd {s : State} {i : Instr} (h : s.lcmd = encode i) :
    s.carryOn = (commandOf i).transactions ((commandOf i).quota s) s := by
  simp [State.carryOn, State.inFlight_of_lcmd h]

/-! ## Transactions -/

theorem Command.transactions_zero (c : Command) (s : State) : c.transactions 0 s = s := rfl

theorem Command.transactions_idle (c : Command) (n : Nat) {s : State} (h : s.status.busy = false) :
    c.transactions n s = s := by
  cases n <;> simp [Command.transactions, h]

theorem Command.transactions_busy (c : Command) (n : Nat) {s : State} (h : s.status.busy = true) :
    c.transactions (n + 1) s = c.transactions n (c.transact s) := by simp [Command.transactions, h]

theorem Command.transactions_add (c : Command) (m n : Nat) (s : State) :
    c.transactions (m + n) s = c.transactions n (c.transactions m s) := by
  induction m generalizing s with
  | zero => simp [Command.transactions]
  | succ m ih =>
    cases h : s.status.busy with
    | false => simp [Command.transactions_idle c _ h]
    | true => rw [show m + 1 + n = (m + n) + 1 by omega, c.transactions_busy _ h, c.transactions_busy _ h, ih]

/-- An idle core stays as it is. -/
theorem State.carryOn_idle {s : State} (h : s.status.busy = false) : s.carryOn = s := by
  unfold State.carryOn
  split
  · exact Command.transactions_idle _ _ h
  · rfl

/-- A stage in which workers run units of work. -/
def Stage.working : Stage → Bool
  | .idle | .check => false
  | .pad | .xin | .repack | .gemm | .xout | .crop | .tfilt => true

theorem Command.transact_working (c : Command) {s : State} (h : s.stage.working = true) :
    c.transact s = if s.pending.isEmpty then c.barrier s else c.workStep s := by
  unfold Command.transact
  cases hs : s.stage <;> simp [hs, Stage.working] at h ⊢

theorem Command.transact_check (c : Command) {s : State} (h : s.stage = .check) : c.transact s = c.checkStage s := by
  simp [Command.transact, h]

/-! ## A stage -/

/-- What running stage `st` leaves: the units' bytes have their values in `V`, every other byte and the part `f` of
every worker is kept, and nothing else changes but the position of the sequencer and the schedule. -/
structure StageDone {β : Type} (f : Worker → β) (W : Nat → Prop) (V : Nat → Byte) (st : Stage) (s t : State) :
    Prop where
  rest    : t = { s with stage := st, pending := [], mem := t.mem, workers := t.workers, sched := t.sched }
  wf      : t.mem.wf = true
  inside  : ∀ a, W a → t.mem.read a = V a
  outside : ∀ a, ¬ W a → t.mem.read a = s.mem.read a
  workers : t.workers.map f = s.workers.map f

theorem map_set_getD {α β : Type} (f : α → β) (l : List α) (n : Nat) (d x : α) (h : f x = f (l.getD n d)) :
    (l.set n x).map f = l.map f := by
  by_cases hn : n < l.length
  · rw [List.map_set, h, List.getD_eq_getElem _ _ hn]
    apply List.ext_getElem (by simp)
    intro k h1 h2
    rw [List.getElem_set]
    split <;> simp_all
  · rw [List.set_eq_of_length_le (by omega)]

/-- What one unit of work leaves (`60_exceptions.md` R261). -/
theorem Command.workStep_runs {β : Type} {f : Worker → β} {c : Command} {s : State} {D : Nat → Prop} {m : Memory}
    {W : Nat → Nat → Prop} {V : Nat → Byte} (hp : s.pending ≠ [])
    (hu : ∀ n ∈ s.pending, ∀ x, Fills (Ambient D m fun w => f w = x) (W n) V (c.unit s.cfg s.latch s.stage n))
    (hwf : s.mem.wf = true) (hm : ∀ a, ¬ D a → s.mem.read a = m.read a) :
    ∃ n, (n :: (c.workStep s).pending).Perm s.pending ∧
      c.workStep s = { s with
        pending := (c.workStep s).pending, mem := (c.workStep s).mem, workers := (c.workStep s).workers,
        sched := (c.workStep s).sched } ∧
      (c.workStep s).mem.wf = true ∧ (∀ a, ¬ D a → (c.workStep s).mem.read a = m.read a) ∧
      (∀ a, W n a → (c.workStep s).mem.read a = V a) ∧
      (∀ a, ¬ W n a → (c.workStep s).mem.read a = s.mem.read a) ∧
      (c.workStep s).workers.map f = s.workers.map f := by
  have hlen : s.pick < s.pending.length := Nat.mod_lt _ (List.length_pos_iff.mpr hp)
  have hget : s.pending.getD s.pick 0 = s.pending[s.pick] := List.getD_eq_getElem _ _ hlen
  obtain ⟨w, he, ⟨h1, h2, h3⟩, h4, h5⟩ := hu s.pending[s.pick] (List.getElem_mem hlen)
    (f (s.workers.getD s.picker Worker.zero)) ⟨s.mem, s.workers.getD s.picker Worker.zero⟩ ⟨hwf, hm, rfl⟩
  have hstep : c.workStep s = { s with
      mem := w.mem, workers := s.workers.set s.picker w.worker,
      pending := s.pending.eraseIdx s.pick, sched := s.sched.tail } := by
    simp only [Command.workStep, Command.nextUnit, hget, he]
  refine ⟨s.pending[s.pick], ?_⟩
  rw [hstep]
  exact ⟨List.getElem_cons_eraseIdx_perm hlen, rfl, h1, h2, h4, h5, map_set_getD f _ _ _ _ h3⟩

/-- The units of a stage, in whatever order and by whichever workers the schedule says. -/
theorem Command.run_units {β : Type} {f : Worker → β} {c : Command} {D : Nat → Prop} {m : Memory}
    {W : Nat → Nat → Prop} {V : Nat → Byte} (len : Nat) : ∀ {s : State}, s.pending.length = len →
    s.status.busy = true → s.stage.working = true →
    (∀ n ∈ s.pending, ∀ x, Fills (Ambient D m fun w => f w = x) (W n) V (c.unit s.cfg s.latch s.stage n)) →
    s.mem.wf = true → (∀ a, ¬ D a → s.mem.read a = m.read a) →
    ∃ t, (∀ k, c.transactions (len + k) s = c.transactions k t) ∧
      StageDone f (fun a => ∃ n ∈ s.pending, W n a) V s.stage s t := by
  induction len with
  | zero =>
    intro s hlen _ _ _ hwf _
    have hnil : s.pending = [] := List.length_eq_zero_iff.mp hlen
    exact ⟨s, fun k => by rw [Nat.zero_add], ⟨by rw [← hnil], hwf, by simp [hnil], fun _ _ => rfl, rfl⟩⟩
  | succ len ih =>
    intro s hlen hb hst hu hwf hm
    have hp : s.pending ≠ [] := by intro h; simp [h] at hlen
    obtain ⟨n, hperm, hrest, hwf', hm', hin, hout, hwk⟩ := Command.workStep_runs hp hu hwf hm
    have htr : c.transact s = c.workStep s := by
      rw [c.transact_working hst, if_neg (by simpa using hp)]
    generalize c.workStep s = u at *
    have hsub : ∀ k ∈ u.pending, k ∈ s.pending := fun k hk => hperm.subset (List.mem_cons_of_mem n hk)
    have hlatch : u.latch = s.latch := by rw [hrest]
    have hstage : u.stage = s.stage := by rw [hrest]
    have hcfg : u.cfg = s.cfg := by rw [hrest]
    have hstatus : u.status = s.status := by rw [hrest]
    obtain ⟨t, htr', hdone⟩ := ih (s := u) (by have := hperm.length_eq; simp at this; omega) (by rw [hstatus, hb])
      (by rw [hstage, hst]) (fun k hk x => by rw [hcfg, hlatch, hstage]; exact hu k (hsub k hk) x) hwf' hm'
    refine ⟨t, fun k => ?_, ?_, hdone.wf, fun a ha => ?_, fun a ha => ?_, hdone.workers.trans hwk⟩
    · rw [show len + 1 + k = (len + k) + 1 by omega, c.transactions_busy _ hb, htr, htr']
    · rw [hdone.rest, hrest]
    · by_cases h : ∃ k ∈ u.pending, W k a
      · exact hdone.inside a h
      · rw [hdone.outside a h]
        obtain ⟨k, hk, hW⟩ := ha
        rcases List.mem_cons.mp (hperm.symm.subset hk) with rfl | hk'
        · exact hin a hW
        · exact absurd ⟨k, hk', hW⟩ h
    · rw [hdone.outside a fun ⟨k, hk, hW⟩ => ha ⟨k, hsub k hk, hW⟩]
      exact hout a fun hW => ha ⟨n, hperm.subset (List.mem_cons_self), hW⟩

theorem Command.run_entered {β : Type} {f : Worker → β} {c : Command} {D : Nat → Prop} {W : Nat → Nat → Prop}
    {V : Nat → Byte} {s : State} {st : Stage} (hb : s.status.busy = true) (hst : st.working = true)
    (htr : c.transact s = s.enter st)
    (hu : ∀ n, n < st.units s.latch → ∀ x,
      Fills (Ambient D s.mem fun w => f w = x) (W n) V (c.unit s.cfg s.latch st n))
    (hwf : s.mem.wf = true) :
    ∃ t, (∀ k, c.transactions (st.units s.latch + 1 + k) s = c.transactions k t) ∧
      StageDone f (fun a => ∃ n, n < st.units s.latch ∧ W n a) V st s t := by
  obtain ⟨t, ht, hd⟩ := Command.run_units (f := f) (c := c) (D := D) (m := s.mem) (W := W) (V := V)
    (st.units s.latch) (s := s.enter st) (by simp [State.enter]) hb hst
    (fun n hn x => hu n (by simpa [State.enter] using hn) x) hwf fun _ _ => rfl
  refine ⟨t, fun k => ?_, ?_, hd.wf, fun a ha => ?_, fun a ha => ?_, hd.workers⟩
  · rw [show st.units s.latch + 1 + k = (st.units s.latch + k) + 1 by omega, c.transactions_busy _ hb, htr, ht]
  · rw [hd.rest]; rfl
  · obtain ⟨n, hn, hW⟩ := ha
    exact hd.inside a ⟨n, by simpa [State.enter] using hn, hW⟩
  · exact hd.outside a fun ⟨n, hn, hW⟩ => ha ⟨n, by simpa [State.enter] using hn, hW⟩

/-- The first stage, after checks that passed. -/
theorem Command.run_first {β : Type} {f : Worker → β} {c : Command} {D : Nat → Prop} {W : Nat → Nat → Prop}
    {V : Nat → Byte} {s : State} {st : Stage} {rest : List Stage} (hb : s.status.busy = true)
    (hs : s.stage = .check) (hv : c.verdict s.latch = .none) (hl : c.stages = st :: rest) (hst : st.working = true)
    (hu : ∀ n, n < st.units s.latch → ∀ x,
      Fills (Ambient D s.mem fun w => f w = x) (W n) V (c.unit s.cfg s.latch st n))
    (hwf : s.mem.wf = true) :
    ∃ t, (∀ k, c.transactions (st.units s.latch + 1 + k) s = c.transactions k t) ∧
      StageDone f (fun a => ∃ n, n < st.units s.latch ∧ W n a) V st s t :=
  Command.run_entered hb hst (by rw [c.transact_check hs]; simp [Command.checkStage, hv, hl]) hu hwf

/-- The barrier into the next stage, and that stage. -/
theorem Command.run_next {β : Type} {f : Worker → β} {c : Command} {D : Nat → Prop} {W : Nat → Nat → Prop}
    {V : Nat → Byte} {s : State} {st : Stage} (hb : s.status.busy = true) (hp : s.pending = [])
    (hs : s.stage.working = true) (hn : stageAfter s.stage c.stages = some st) (hst : st.working = true)
    (hu : ∀ n, n < st.units s.latch → ∀ x,
      Fills (Ambient D s.mem fun w => f w = x) (W n) V (c.unit s.cfg s.latch st n))
    (hwf : s.mem.wf = true) :
    ∃ t, (∀ k, c.transactions (st.units s.latch + 1 + k) s = c.transactions k t) ∧
      StageDone f (fun a => ∃ n, n < st.units s.latch ∧ W n a) V st s t :=
  Command.run_entered hb hst (by rw [c.transact_working hs]; simp [Command.barrier, hn, hp]) hu hwf

/-- The end of the last stage. -/
theorem Command.run_last {c : Command} {s : State} (hb : s.status.busy = true) (hp : s.pending = [])
    (hs : s.stage.working = true) (hn : stageAfter s.stage c.stages = none) (k : Nat) :
    c.transactions (1 + k) s = c.finish s := by
  have htr : c.transact s = c.finish s := by rw [c.transact_working hs]; simp [Command.barrier, hn, hp]
  rw [Nat.add_comm, c.transactions_busy _ hb, htr]
  exact c.transactions_idle _ (by simp [Command.finish, State.complete, Status.completed])

/-! ## Unspecified bytes -/

/-- Regions whose bytes become unspecified: only they change, and only in memory and the draw counter. -/
theorem State.unspecify_spec {s : State} {base size : Nat} (hwf : s.mem.wf = true) :
    (s.unspecify base size).mem.wf = true ∧
    ∀ a, (¬ (base ≤ a ∧ a < base + size)) → (s.unspecify base size).mem.read a = s.mem.read a := by
  obtain ⟨h1, h2⟩ := Memory.fill_spec (base := base) (f := Config.freeByte s.draws) hwf
    (min size (addrSpace - base)) (by omega)
  refine ⟨h1, fun a ha => ?_⟩
  refine (h2 a).trans (if_neg ?_)
  omega

theorem State.unspecifyAll_nil (s : State) : s.unspecifyAll [] = s := rfl

theorem State.unspecifyAll_cons (s : State) (r : Region) (rs : List Region) :
    s.unspecifyAll (r :: rs) = (s.unspecify r.base r.size).unspecifyAll rs := rfl

theorem State.unspecifyAll_spec {rs : List Region} : ∀ {s : State}, s.mem.wf = true →
    (s.unspecifyAll rs).mem.wf = true ∧ memoryKept rs s (s.unspecifyAll rs) ∧
    s.unspecifyAll rs = { s with mem := (s.unspecifyAll rs).mem, draws := s.draws + rs.length } := by
  induction rs with
  | nil => exact fun h => ⟨h, fun _ _ => rfl, rfl⟩
  | cons r rs ih =>
    intro s hwf
    obtain ⟨h1, h2⟩ := State.unspecify_spec (base := r.base) (size := r.size) hwf
    obtain ⟨k1, k2, k3⟩ := ih (s := s.unspecify r.base r.size) h1
    rw [State.unspecifyAll_cons]
    refine ⟨k1, fun a ha => ?_, ?_⟩
    · rw [k2 a fun t ht => ha t (List.mem_cons_of_mem _ ht)]
      refine h2 a fun h => ?_
      have := ha r List.mem_cons_self
      simp [Region.holds, h] at this
    · rw [k3]
      simp only [State.unspecify, List.length_cons]
      congr 1
      omega

/-- What the completion of a command leaves. -/
theorem Command.finish_spec {c : Command} {s : State} (hwf : s.mem.wf = true) :
    (c.finish s).mem.wf = true ∧ memoryKept (c.scratchUse s.latch) s (c.finish s) ∧
    c.finish s = { s with
      mem := (c.finish s).mem, draws := s.draws + (c.scratchUse s.latch).length, err := .none,
      status := s.status.completed .none, stage := .idle, pending := [] } := by
  obtain ⟨h1, h2, h3⟩ := State.unspecifyAll_spec (rs := c.scratchUse s.latch) hwf
  refine ⟨h1, h2, ?_⟩
  rw [Command.finish, State.complete, h3]

/-! ## Issuing a command -/

theorem State.issue_idle {s : State} {i : Instr} (h : s.status.busy = false) : s.issue i = (s.accept i).carryOn := by
  simp [State.issue, State.takeCommand, h]

theorem Command.quota_waits {c : Command} {s : State} (h : s.hostWaits = true) : c.quota s = c.budget s := by
  unfold Command.quota
  unfold State.hostWaits at h
  split
  · next n hn => simp [hn] at h
  · rfl

/-- An idle core that the host waits for runs the command on its whole budget. -/
theorem exec_waits {s : State} {i : Instr} (hidle : s.status.busy = false) (hw : s.hostWaits = true) :
    exec i s = .next ((commandOf i).transactions ((commandOf i).budget (s.accept i)) (s.accept i)) := by
  have h : exec i s = .next (s.issue i) := by cases i <;> rfl
  rw [h, State.issue_idle hidle, State.carryOn_of_lcmd (i := i) rfl, Command.quota_waits (s := s.accept i) hw]

end Sys2Proof.Machine
end

