-- ==== Sys2Proof/Laws/Transactions.lean ====
section
/-! SUPPORT. What a transaction of the core can do in any state, whatever the platform answers: the inversion lemma
`Command.transact_cases`, and the frame of a unit of work of every command (`spec/20_memory.md` R60). -/

namespace Sys2Proof.Machine

/-- The bytes of these regions. -/
def inRegions (rs : List Region) (a : Nat) : Prop := ∃ r ∈ rs, r.holds a = true

theorem not_inRegions {rs : List Region} {a : Nat} : ¬ inRegions rs a ↔ ∀ r ∈ rs, r.holds a = false := by
  simp [inRegions]

theorem inRegions_part {rs : List Region} {r : Region} (hr : r ∈ rs) {base size : Nat} (h1 : r.base ≤ base)
    (h2 : base + size ≤ r.base + r.size) (a : Nat) (h3 : base ≤ a) (h4 : a < base + size) : inRegions rs a :=
  ⟨_, hr, Region.holds_iff.mpr ⟨by omega, by omega⟩⟩

/-- A unit of the pipeline stays in the scratch the pipeline needs, one of the last stage in the destination
(`46_convolve.md` R235, R237). -/
theorem convolveUnit_stays {withBias : Bool} {cfg : Config} {P : Params} {st : Stage} {n : Nat} {rs : List Region}
    (hst : st ∈ [Stage.pad, .xin, .repack, .gemm, .xout, .crop]) (hi8 : P.inCh % 8 = 0) (ho8 : P.outCh % 8 = 0)
    (hn : n < st.units P) (hscr : ⟨.scratch, P.scrBase.toNat, P.convolveNeed⟩ ∈ rs)
    (hdst : st = .crop → ⟨.dest, P.dstBase.toNat, P.outB⟩ ∈ rs) :
    Stays (inRegions rs) (fun _ => True) (convolveUnit withBias cfg P st n) := by
  have hst' : st = .pad ∨ st = .xin ∨ st = .repack ∨ st = .gemm ∨ st = .xout ∨ st = .crop := by simpa using hst
  have hpart : ∀ base size, P.scrBase.toNat ≤ base → base + size ≤ P.scrBase.toNat + P.convolveNeed →
      ∀ a, base ≤ a → a < base + size → inRegions rs a := fun _ _ h1 h2 => inRegions_part hscr h1 h2
  simp only [Params.convolveNeed] at hpart
  rcases hst' with rfl | rfl | rfl | rfl | rfl | rfl
  · exact padUnit_stays hi8 hn (hpart _ _ (by simp only [Params.s0]; omega) (by simp only [Params.s0]; omega))
  · exact xinUnit_stays hi8 hn (hpart _ _ (by simp only [Params.s0, Params.s1]; omega)
      (by simp only [Params.s0, Params.s1]; omega)) fun _ _ _ => trivial
  · exact repackUnit_stays hn (hpart _ _ (by simp only [Params.s0, Params.s1, Params.s2]; omega)
      (by simp only [Params.s0, Params.s1, Params.s2]; omega))
  · exact gemmUnit_stays ho8 hn (hpart _ _ (by simp only [Params.s0, Params.s1, Params.s2, Params.s3]; omega)
      (by simp only [Params.s0, Params.s1, Params.s2, Params.s3]; omega)) fun _ _ _ _ => trivial
  · exact xoutUnit_stays ho8 hn
      (hpart _ _ (by simp only [Params.s0, Params.s1, Params.s2, Params.s3, Params.s4]; omega)
        (by simp only [Params.s0, Params.s1, Params.s2, Params.s3, Params.s4]; omega)) fun _ _ _ => trivial
  · exact cropUnit_stays ho8 hn (inRegions_part (hdst rfl) (Nat.le_refl _) (Nat.le_refl _))

/-- What a bus error leaves unspecified is part of what the command may write. -/
theorem Command.dirtied_sub {c : Command} {P : Params} {st : Stage} {r : Region} (h : r ∈ c.dirtied P st) :
    r ∈ c.written P := by
  unfold Command.dirtied Command.reached at h
  unfold Command.written
  split at h <;> simp_all

theorem memoryKept_mono {rs ts : List Region} {s t : State} (h : memoryKept rs s t) (hr : ∀ r ∈ rs, r ∈ ts) :
    memoryKept ts s t := fun a ha => h a fun r hx => ha r (hr r hx)

/-- A unit of work writes the scratch its command needs, and its destination as far as the stage reaches it, and
nothing else. -/
theorem Command.unit_stays {i : Instr} {cfg : Config} {P : Params} {st : Stage} {n : Nat}
    (hv : (commandOf i).verdict P = .none) (hst : st ∈ (commandOf i).stages) (hn : n < st.units P) :
    Stays (inRegions ((commandOf i).dirtied P st)) (fun _ => True) ((commandOf i).unit cfg P st n) := by
  have hc := Command.checked hv
  have hin : ParamReg.inChannels ∈ (commandOf i).uses → P.inCh % 8 = 0 := fun h => (hc.inCh h).1
  have hout : ParamReg.outChannels ∈ (commandOf i).uses → P.outCh % 8 = 0 := fun h => (hc.outCh h).1
  cases i with
  | tfilt =>
    obtain rfl : st = .tfilt := by simpa [commandOf, tfiltCommand] using hst
    exact tfiltUnit_stays (hin (by decide)) (hout (by decide)) hn
      (inRegions_part (r := ⟨.dest, P.dstBase.toNat, P.tfB⟩) (by simp [Command.dirtied, Command.reached, Command.destination, commandOf, tfiltCommand])
        (Nat.le_refl _) (Nat.le_refl _))
  | pad =>
    obtain rfl : st = .pad := by simpa [commandOf, padCommand] using hst
    exact padUnit_stays (hin (by decide)) hn
      (inRegions_part (r := ⟨.dest, P.dstBase.toNat, P.padB⟩) (by simp [Command.dirtied, Command.reached, Command.destination, commandOf, padCommand])
        (Nat.le_refl _) (Nat.le_refl _))
  | xin =>
    obtain rfl : st = .xin := by simpa [commandOf, xinCommand] using hst
    exact xinUnit_stays (hin (by decide)) hn
      (inRegions_part (r := ⟨.dest, P.dstBase.toNat, P.tiB⟩) (by simp [Command.dirtied, Command.reached, Command.destination, commandOf, xinCommand])
        (Nat.le_refl _) (Nat.le_refl _)) fun _ _ _ => trivial
  | contract =>
    have hst' : st = .repack ∨ st = .gemm := by simpa [commandOf, contractCommand] using hst
    rcases hst' with rfl | rfl
    · exact repackUnit_stays hn
        (inRegions_part (r := ⟨.scratch, P.scrBase.toNat, P.ti2B⟩)
          (by simp [Command.dirtied, Command.reached, Command.destination, Command.scratchUse, commandOf, contractCommand])
          (Nat.le_refl _) (Nat.le_refl _))
    · exact gemmUnit_stays (hout (by decide)) hn
        (inRegions_part (r := ⟨.dest, P.dstBase.toNat, P.toB⟩)
          (by simp [Command.dirtied, Command.reached, Command.destination, commandOf, contractCommand])
          (Nat.le_refl _) (Nat.le_refl _)) fun _ _ _ _ => trivial
  | xout =>
    obtain rfl : st = .xout := by simpa [commandOf, xoutCommand] using hst
    exact xoutUnit_stays (hout (by decide)) hn
      (inRegions_part (r := ⟨.dest, P.dstBase.toNat, P.opB⟩) (by simp [Command.dirtied, Command.reached, Command.destination, commandOf, xoutCommand])
        (Nat.le_refl _) (Nat.le_refl _)) fun _ _ _ => trivial
  | xoutB =>
    obtain rfl : st = .xout := by simpa [commandOf, xoutBCommand] using hst
    exact xoutUnit_stays (hout (by decide)) hn
      (inRegions_part (r := ⟨.dest, P.dstBase.toNat, P.opB⟩) (by simp [Command.dirtied, Command.reached, Command.destination, commandOf, xoutBCommand])
        (Nat.le_refl _) (Nat.le_refl _)) fun _ _ _ => trivial
  | crop =>
    obtain rfl : st = .crop := by simpa [commandOf, cropCommand] using hst
    exact cropUnit_stays (hout (by decide)) hn
      (inRegions_part (r := ⟨.dest, P.dstBase.toNat, P.outB⟩) (by simp [Command.dirtied, Command.reached, Command.destination, commandOf, cropCommand])
        (Nat.le_refl _) (Nat.le_refl _))
  | convolve =>
    exact convolveUnit_stays hst (hin (by decide)) (hout (by decide)) hn
      (by simp [Command.dirtied, Command.reached, Command.destination, Command.scratchUse, commandOf, convolveCommand])
      fun h => by simp [h, Command.dirtied, Command.reached, Command.destination, commandOf, convolveCommand]
  | convolveB =>
    exact convolveUnit_stays hst (hin (by decide)) (hout (by decide)) hn
      (by simp [Command.dirtied, Command.reached, Command.destination, Command.scratchUse, commandOf, convolveBCommand])
      fun h => by simp [h, Command.dirtied, Command.reached, Command.destination, commandOf, convolveBCommand]

/-- What the completion with `ERR_BUS` leaves (`60_exceptions.md` R254, `46_convolve.md` R235). -/
theorem Command.busError_spec {c : Command} {s : State} (hwf : s.mem.wf = true) :
    (c.busError s).mem.wf = true ∧ memoryKept (c.dirtied s.latch s.stage) s (c.busError s) ∧
    c.busError s = { s with
      mem := (c.busError s).mem, draws := s.draws + (c.dirtied s.latch s.stage).length, err := .bus,
      status := s.status.completed .bus, stage := .idle, pending := [] } := by
  obtain ⟨h1, h2, h3⟩ := State.unspecifyAll_spec (rs := c.dirtied s.latch s.stage) hwf
  refine ⟨h1, h2, ?_⟩
  have hb : c.busError s = (s.unspecifyAll (c.dirtied s.latch s.stage)).complete .bus := rfl
  rw [hb, State.complete, h3]

/-- One unit of work taken from `PENDING`: it runs to its end and leaves the rest of `PENDING`, or the platform
refuses one of its accesses. -/
theorem Command.workStep_cases {i : Instr} {s : State} (hp : s.pending ≠ []) (hwf : s.mem.wf = true)
    (hv : (commandOf i).verdict s.latch = .none) (hst : s.stage ∈ (commandOf i).stages)
    (hu : ∀ n ∈ s.pending, n < s.stage.units s.latch) :
    (∃ w x, (commandOf i).nextUnit s = some x ∧ (s.pending.getD s.pick 0 :: w.pending).Perm s.pending ∧ w = { s with
        pending := w.pending, mem := x.mem, workers := w.workers, sched := w.sched } ∧
      w.mem.wf = true ∧ memoryKept ((commandOf i).dirtied s.latch s.stage) s w ∧
      w.workers.length = s.workers.length ∧ (commandOf i).workStep s = w) ∨
    ((commandOf i).nextUnit s = none ∧ (commandOf i).workStep s = (commandOf i).busError s) := by
  have hlen : s.pick < s.pending.length := Nat.mod_lt _ (List.length_pos_iff.mpr hp)
  have hget : s.pending.getD s.pick 0 = s.pending[s.pick] := List.getD_eq_getElem _ _ hlen
  unfold Command.workStep
  cases hn : (commandOf i).nextUnit s with
  | some x =>
    have hmem : s.pending.getD s.pick 0 ∈ s.pending := by
      rw [hget]
      exact List.getElem_mem hlen
    obtain ⟨h1, h2, -⟩ := Command.unit_stays (cfg := s.cfg) hv hst (hu _ hmem) _ _ hn hwf
    refine .inl ⟨_, x, rfl, ?_, rfl, h1, fun a ha => h2 a (not_inRegions.mpr ha), by simp, rfl⟩
    rw [hget]
    exact List.getElem_cons_eraseIdx_perm hlen
  | none => exact .inr ⟨rfl, rfl⟩

/-- Everything a transaction of a command in flight can do (`00_scope.md` R6, `20_memory.md` R62,
`60_exceptions.md` R251 to R254, R261). -/
theorem Command.transact_cases {i : Instr} {s : State} (hwf : s.mem.wf = true)
    (hst : s.stage ∈ (commandOf i).route) (hv : s.stage ≠ .check → (commandOf i).verdict s.latch = .none)
    (hu : ∀ n ∈ s.pending, n < s.stage.units s.latch) :
    (s.stage = .check ∧ (commandOf i).verdict s.latch ≠ .none ∧
      (commandOf i).transact s = s.complete ((commandOf i).verdict s.latch)) ∨
    ((commandOf i).verdict s.latch = .none ∧ (s.stage = .check ∨ s.pending = []) ∧
      (∃ before st after, (commandOf i).route = before ++ s.stage :: st :: after ∧ (commandOf i).transact s = s.enter st)) ∨
    (s.stage ≠ .check ∧ s.pending = [] ∧ (∃ before, (commandOf i).route = before ++ [s.stage]) ∧
      (commandOf i).transact s = (commandOf i).finish s) ∨
    (s.stage ≠ .check ∧ s.pending ≠ [] ∧ ∃ w x, (commandOf i).nextUnit s = some x ∧
      (s.pending.getD s.pick 0 :: w.pending).Perm s.pending ∧ w = { s with
        pending := w.pending, mem := x.mem, workers := w.workers, sched := w.sched } ∧
      w.mem.wf = true ∧ memoryKept ((commandOf i).dirtied s.latch s.stage) s w ∧ w.workers.length = s.workers.length ∧
      (commandOf i).transact s = w) ∨
    (s.stage ≠ .check ∧ s.pending ≠ [] ∧ (commandOf i).nextUnit s = none ∧
      (commandOf i).transact s = (commandOf i).busError s) := by
  by_cases hc : s.stage = .check
  · cases hvd : (commandOf i).verdict s.latch with
    | none =>
      refine .inr (.inl ⟨rfl, .inl hc, ?_⟩)
      obtain ⟨st, rest, hl⟩ : ∃ st rest, (commandOf i).stages = st :: rest := by cases i <;> exact ⟨_, _, rfl⟩
      exact ⟨[], st, rest, by rw [Command.route, hl, hc]; rfl, by
        rw [Command.transact_check _ hc]; simp [Command.checkStage, hvd, hl]⟩
    | illegal | precond | alloc | bus =>
      exact .inl ⟨hc, by simp, by rw [Command.transact_check _ hc]; simp [Command.checkStage, hvd]⟩
  · have hv := hv hc
    have hmem : s.stage ∈ (commandOf i).stages := by simpa [Command.route, hc] using hst
    have hwork : s.stage.working = true := by
      revert hmem
      cases i <;> cases s.stage <;>
        simp [commandOf, tfiltCommand, padCommand, xinCommand, contractCommand, xoutCommand, xoutBCommand, cropCommand,
          convolveCommand, convolveBCommand, Stage.working]
    rw [Command.transact_working _ hwork]
    by_cases hp : s.pending = []
    · rw [if_pos (by simp [hp])]
      have hnext : (∃ before st after, (commandOf i).route = before ++ s.stage :: st :: after ∧
            stageAfter s.stage (commandOf i).stages = some st) ∨
          ((∃ before, (commandOf i).route = before ++ [s.stage]) ∧
            stageAfter s.stage (commandOf i).stages = none) := by
        revert hmem
        cases i <;> cases s.stage <;>
          first
          | exact fun h => absurd h (by decide)
          | exact fun _ => .inr ⟨⟨_, by
              first
              | exact (rfl : _ = [Stage.check] ++ _)
              | exact (rfl : _ = [Stage.check, .repack] ++ _)
              | exact (rfl : _ = [Stage.check, .pad, .xin, .repack, .gemm, .xout] ++ _)⟩, rfl⟩
          | exact fun _ => .inl ⟨_, _, _, by
              first
              | exact (rfl : _ = [Stage.check] ++ _)
              | exact (rfl : _ = [Stage.check, .pad] ++ _)
              | exact (rfl : _ = [Stage.check, .pad, .xin] ++ _)
              | exact (rfl : _ = [Stage.check, .pad, .xin, .repack] ++ _)
              | exact (rfl : _ = [Stage.check, .pad, .xin, .repack, .gemm] ++ _), rfl⟩
      rcases hnext with ⟨b, st, a, h1, h2⟩ | ⟨h1, h2⟩
      · exact .inr (.inl ⟨hv, .inr hp, b, st, a, h1, by simp [Command.barrier, h2]⟩)
      · exact .inr (.inr (.inl ⟨hc, hp, h1, by simp [Command.barrier, h2]⟩))
    · rw [if_neg (by simpa using hp)]
      rcases Command.workStep_cases hp hwf hv hmem hu with h | h
      · exact .inr (.inr (.inr (.inl ⟨hc, hp, h⟩)))
      · exact .inr (.inr (.inr (.inr ⟨hc, hp, h⟩)))

end Sys2Proof.Machine
end

