-- ==== Sys2Proof/Laws/HostPort.lean ====
section
/-! SUPPORT. What each host action can do when it answers a next state, and the inversion of `step`. -/

namespace Sys2Proof.Machine

/-! ## Registers -/

theorem regAt_eq_cmd {n : Nat} : regAt n = .cmd ↔ n = 1 := by
  unfold regAt
  split <;> simp_all

/-- A register write issues a command exactly when it writes a legal word to `CMD` (`30_encoding.md` R84). -/
theorem issuedBy_eq_some {n : Nat} {v : Word} {i : Instr} : issuedBy n v = some i ↔ n = 1 ∧ decode v = .ok i := by
  unfold issuedBy
  by_cases h : n = 1
  · rw [if_pos (regAt_eq_cmd.mpr h)]
    cases hd : decode v <;> simp [h]
  · rw [if_neg fun hc => h (regAt_eq_cmd.mp hc)]
    simp [h]

/-- Everything a register write that issues no command can do (`10_state.md` R11, R13 to R19). -/
theorem State.writeReg_cases (s : State) (n : Nat) (v : Word) :
    s.writeReg n v = s ∨ s.writeReg n v = s.takeIllegal v ∨ s.writeReg n v = { s with status := s.status.clear v } ∨
    s.writeReg n v = { s with ie := v.getLsbD 0 } ∨
    ∃ p, regAt n = .param p ∧ s.writeReg n v = { s with params := s.params.set v p } := by
  unfold State.writeReg
  cases h : regAt n <;> simp

/-- The two cases of an illegal word (`30_encoding.md` R84, `60_exceptions.md` R255). -/
theorem State.takeIllegal_cases (s : State) (v : Word) :
    (s.status.busy = true ∧ s.takeIllegal v = s.overrun) ∨
    (s.status.busy = false ∧
      s.takeIllegal v = { s with cmd := v, err := .illegal, status := s.status.completed .illegal }) := by
  cases h : s.status.busy <;> simp [State.takeIllegal, h]

/-- The two cases of a legal word (`30_encoding.md` R84). -/
theorem State.takeCommand_cases (s : State) (i : Instr) :
    (s.status.busy = true ∧ s.takeCommand i = s.overrun) ∨ (s.status.busy = false ∧ s.takeCommand i = s.accept i) := by
  cases h : s.status.busy <;> simp [State.takeCommand, h]

theorem exec_eq_issue (i : Instr) (s : State) : exec i s = .next (s.issue i) := by cases i <;> rfl

/-! ## Host actions -/

theorem State.hostMemRead_next {s t : State} {a : Nat} (h : s.hostMemRead a = .next t) :
    s.readRaces a = false ∧ backs s.cfg a 1 = true ∧ t = { s with hostData := (s.mem.read a).setWidth 64 } := by
  unfold State.hostMemRead at h
  split at h
  · cases h
  · split at h
    · cases h; simp_all
    · cases h

theorem State.hostMemWrite_next {s t : State} {a : Nat} {v : Byte} (h : s.hostMemWrite a v = .next t) :
    s.writeRaces a = false ∧ backs s.cfg a 1 = true ∧ t = { s with mem := s.mem.write a v } := by
  unfold State.hostMemWrite at h
  split at h
  · cases h
  · split at h
    · cases h; simp_all
    · cases h

/-- The accesses that name a register are exactly the 64-bit ones at its address (`10_state.md` R20). -/
theorem indexAt_eq_some {cfg : Config} {a w n : Nat} :
    indexAt cfg a w = some n ↔ a = regAddress cfg n ∧ w = 8 := by
  unfold indexAt regAddress
  split
  · rw [Option.some.injEq]; omega
  · simp only [reduceCtorEq, false_iff]; omega

theorem State.hostRegRead_next {s t : State} {a w : Nat} (h : s.hostRegRead a w = .next t) :
    ∃ n, a = regAddress s.cfg n ∧ w = 8 ∧ t = { s with hostData := s.readReg n } := by
  unfold State.hostRegRead at h
  split at h
  · next n hn =>
    cases h
    obtain ⟨ha, hw⟩ := indexAt_eq_some.mp hn
    exact ⟨n, ha, hw, rfl⟩
  · cases h

theorem stepRegWrite_next {s t : State} {a w : Nat} {v : Word} (h : stepRegWrite a w v s = .next t) :
    ∃ n, a = regAddress s.cfg n ∧ w = 8 ∧
      ((∃ i, issuedBy n v = some i ∧ t = s.issue i) ∨ (issuedBy n v = none ∧ t = (s.writeReg n v).carryOn)) := by
  unfold stepRegWrite at h
  split at h
  · cases h
  · next n hn =>
    obtain ⟨ha, hw⟩ := indexAt_eq_some.mp hn
    refine ⟨n, ha, hw, ?_⟩
    split at h
    · next i hi => rw [exec_eq_issue] at h; cases h; exact .inl ⟨i, hi, rfl⟩
    · next hi => cases h; exact .inr ⟨hi, rfl⟩

theorem thenCarryOn_next {o : Host.Outcome State Fault Refusal} {t : State} (h : thenCarryOn o = .next t) :
    ∃ u, o = .next u ∧ t = u.carryOn := by
  cases o with
  | next u => cases h; exact ⟨u, rfl, rfl⟩
  | fault r => cases h
  | refused r => cases h

/-- What an abandoned command leaves (`70_reset_and_hazards.md` R280). -/
theorem State.abandon_spec {s : State} (hwf : s.mem.wf = true) :
    s.abandon.mem.wf = true ∧
    (s.status.busy = false → s.abandon = s) ∧
    (∀ i, s.lcmd = encode i → memoryKept ((commandOf i).written s.latch) s s.abandon) ∧
    s.abandon = { s with mem := s.abandon.mem, draws := s.abandon.draws } := by
  unfold State.abandon
  split
  · split
    · next c hc =>
      obtain ⟨h1, h2, h3⟩ := State.unspecifyAll_spec (rs := c.destination s.latch ++ c.scratchUse s.latch) hwf
      refine ⟨h1, fun h => by simp_all, fun i hi => ?_, by rw [h3]⟩
      rw [State.inFlight_of_lcmd hi, Option.some.injEq] at hc
      exact hc ▸ h2
    · exact ⟨hwf, fun _ => rfl, fun _ _ _ _ => rfl, rfl⟩
  · exact ⟨hwf, fun _ => rfl, fun _ _ _ _ => rfl, rfl⟩

/-- Everything a step can do when it answers a next state (`00_scope.md` R6). -/
theorem step_next {s t : State} (h : step s = .next t) :
    (s.host = [] ∧ t = s.carryOn) ∨
    ∃ e es, s.host = e :: es ∧
      ((∃ n, e.act = .regRead (regAddress s.cfg n) 8 ∧ t = { s with host := es, hostData := s.readReg n }.carryOn) ∨
       (∃ v i, e.act = .regWrite (regAddress s.cfg 1) 8 v ∧ decode v = .ok i ∧ t = { s with host := es }.issue i) ∨
       (∃ n v, e.act = .regWrite (regAddress s.cfg n) 8 v ∧ issuedBy n v = none ∧
          t = ({ s with host := es }.writeReg n v).carryOn) ∨
       (∃ a, e.act = .memRead a ∧ s.readRaces a.toNat = false ∧ backs s.cfg a.toNat 1 = true ∧
          t = { s with host := es, hostData := (s.mem.read a.toNat).setWidth 64 }.carryOn) ∨
       (∃ a v, e.act = .memWrite a v ∧ s.writeRaces a.toNat = false ∧ backs s.cfg a.toNat 1 = true ∧
          t = { s with host := es, mem := s.mem.write a.toNat v }.carryOn) ∨
       (e.act = .reset ∧ t = { s with host := es }.resetInput)) := by
  unfold step at h
  split at h
  · next hh =>
    cases h
    exact .inl ⟨hh, rfl⟩
  · next e es hh =>
    refine .inr ⟨e, es, hh, ?_⟩
    cases ha : e.act with
    | regRead o w =>
      rw [ha] at h
      obtain ⟨u, hu, rfl⟩ := thenCarryOn_next h
      obtain ⟨n, rfl, rfl, rfl⟩ := State.hostRegRead_next hu
      exact .inl ⟨n, rfl, rfl⟩
    | regWrite o w v =>
      rw [ha] at h
      obtain ⟨n, rfl, rfl, ⟨i, hi, rfl⟩ | ⟨hi, rfl⟩⟩ := stepRegWrite_next h
      · obtain ⟨rfl, hd⟩ := issuedBy_eq_some.mp hi
        exact .inr (.inl ⟨v, i, rfl, hd, rfl⟩)
      · exact .inr (.inr (.inl ⟨n, v, rfl, hi, rfl⟩))
    | memRead a =>
      rw [ha] at h
      obtain ⟨u, hu, rfl⟩ := thenCarryOn_next h
      obtain ⟨h1, h2, rfl⟩ := State.hostMemRead_next hu
      exact .inr (.inr (.inr (.inl ⟨a, rfl, h1, h2, rfl⟩)))
    | memWrite a v =>
      rw [ha] at h
      obtain ⟨u, hu, rfl⟩ := thenCarryOn_next h
      obtain ⟨h1, h2, rfl⟩ := State.hostMemWrite_next hu
      exact .inr (.inr (.inr (.inr (.inl ⟨a, v, rfl, h1, h2, rfl⟩))))
    | reset =>
      rw [ha] at h
      cases h
      exact .inr (.inr (.inr (.inr (.inr ⟨rfl, rfl⟩))))

end Sys2Proof.Machine
end

