-- ==== Sys2Proof/Laws/PerInstr.lean ====
section
/-! SUPPORT. Statements for all commands, one lemma per command. -/

namespace Sys2Proof.Laws

/-- Decoding a command's word gives the command back (`spec/30_encoding.md` R83). -/
def RoundTrip.Statement (i : Sys2Proof.Instr) : Prop := Sys2Proof.decode (Sys2Proof.encode i) = .ok i

theorem RoundTrip.tfilt : RoundTrip.Statement .tfilt := rfl
theorem RoundTrip.pad : RoundTrip.Statement .pad := rfl
theorem RoundTrip.xin : RoundTrip.Statement .xin := rfl
theorem RoundTrip.contract : RoundTrip.Statement .contract := rfl
theorem RoundTrip.xout : RoundTrip.Statement .xout := rfl
theorem RoundTrip.xoutB : RoundTrip.Statement .xoutB := rfl
theorem RoundTrip.crop : RoundTrip.Statement .crop := rfl
theorem RoundTrip.convolve : RoundTrip.Statement .convolve := rfl
theorem RoundTrip.convolveB : RoundTrip.Statement .convolveB := rfl

end Sys2Proof.Laws
end

