-- ==== Sys2Proof/Laws/Tensors.lean ====
section
/-! SUPPORT. The results of the stages depend only on the values inside their source tensors, so that what one stage
leaves in memory can stand for the tensor the next one is stated of. -/

namespace Sys2Proof.Machine

/-- The TransformedInput looks at the padded map only inside its size (`40_numerics.md` R122). -/
theorem transformedInput_congr {nan : Half} {P : Params} {f g : FeatureMap} {p k tile i : Nat} (ht : tile < P.tiles)
    (h : ∀ y, y < P.padH → ∀ x, x < P.padW → f p y x i = g p y x i) :
    transformedInput nan P f p k tile i = transformedInput nan P g p k tile i := by
  have hx : 0 < P.tilesX := by
    rcases Nat.eq_zero_or_pos P.tilesX with h0 | h0
    · simp [Params.tiles, h0] at ht
    · exact h0
  have hty : tile / P.tilesX < P.tilesY := by rw [Nat.div_lt_iff_lt_mul hx]; rwa [Params.tiles, Nat.mul_comm] at ht
  have htx := Nat.mod_lt tile hx
  rw [transformedInput, transformedInput]
  congr 2
  apply Vector.ext; intro a ha
  apply Vector.ext; intro b hb
  simp only [block8, Vector.getElem_ofFn]
  exact h _ (window_row hty ha) _ (window_col htx hb)

/-- The padded output looks at the TransformedOutput only at its coefficients and tiles. -/
theorem transformedOutput_congr {cfg : Config} {P : Params} {M N : Spectrum} {B C : Nat → Nat → Half} {q y x l : Nat}
    (hy : y < P.outHp) (hx : x < P.outWp) (hB : B q l = C q l)
    (h : ∀ k, k < 64 → ∀ tile, tile < P.tiles → M q k tile l = N q k tile l) :
    transformedOutput cfg P M B q y x l = transformedOutput cfg P N C q y x l := by
  have h1 := P.tilesX_mul
  have h2 := P.tilesY_mul
  have ht := tile_lt (P := P) (ty := y / 6) (tx := x / 6) (by omega) (by omega)
  rw [transformedOutput, transformedOutput, hB]
  congr 2
  apply Vector.ext; intro a ha
  apply Vector.ext; intro b hb
  simp only [block8, Vector.getElem_ofFn]
  exact h _ (by omega) _ ht

/-- The contraction looks at the filter and the TransformedInput only at the input channels. -/
theorem contracted_congr {nan : Half} {P : Params} {F G : FilterBank} {V V' : Spectrum} {q k tile j : Nat} (hch : P.inCh % 8 = 0)
    (hF : ∀ p, p < P.inCh / 8 → ∀ i, i < 8 → F q k p i j = G q k p i j)
    (hV : ∀ p, p < P.inCh / 8 → ∀ i, i < 8 → V p k tile i = V' p k tile i) :
    contracted nan P F V q k tile j = contracted nan P G V' q k tile j := by
  rw [contracted, contracted]
  have : ∀ n, n ≤ P.inCh → dotChain nan (fun c => F q k (c / 8) (c % 8) j) (fun c => V (c / 8) k tile (c % 8)) n =
      dotChain nan (fun c => G q k (c / 8) (c % 8) j) (fun c => V' (c / 8) k tile (c % 8)) n := by
    intro n
    induction n with
    | zero => intro _; rfl
    | succ n ih =>
      intro hn
      rw [dotChain, dotChain, ih (by omega), hF _ (by omega) _ (by omega), hV _ (by omega) _ (by omega)]
  exact this _ (Nat.le_refl _)

end Sys2Proof.Machine
end

