-- ==== Sys2Proof/Tests/Slice0.lean ====
section
/-! SUPPORT. The model's own tests. Expected values come from `spec/95_test_vectors.md` (its section is named), from the
encoding table of `spec/30_encoding.md` R83, or from a rule worked out by hand; `witness_<statement>` theorems show that
the hypotheses of a statement can be met, at a boundary of each clause. -/

namespace Sys2Proof.Tests

open Sys2Proof Sys2Proof.Machine

/-! ## Well-formedness: an ill-formed word for each check (`spec/30_encoding.md` R82, R85) -/

theorem test_wellFormed_accepts : (fieldsOf 0x105#64).wellFormed = true := by decide
theorem test_zero_refused : (fieldsOf 0x8000000000000001#64).zeroOk = false ∧
    (fieldsOf 0x8000000000000001#64).wellFormed = false := by decide
theorem test_op_refused : (fieldsOf 0x000#64).opOk = false ∧ (fieldsOf 0x008#64).opOk = false ∧
    (fieldsOf 0x008#64).wellFormed = false := by decide
theorem test_bias_refused : (fieldsOf 0x101#64).biasOk = false ∧ (fieldsOf 0x101#64).wellFormed = false := by decide

/-! ## Decoding: the words of `spec/30_encoding.md` R83, fields `ZERO`, `B`, `OP` written out -/

theorem test_decode_tfilt : decode (0#55 ++ 0b0#1 ++ 0b00000001#8) = .ok .tfilt := rfl
theorem test_decode_pad : decode (0#55 ++ 0b0#1 ++ 0b00000010#8) = .ok .pad := rfl
theorem test_decode_xin : decode (0#55 ++ 0b0#1 ++ 0b00000011#8) = .ok .xin := rfl
theorem test_decode_contract : decode (0#55 ++ 0b0#1 ++ 0b00000100#8) = .ok .contract := rfl
theorem test_decode_xout : decode (0#55 ++ 0b0#1 ++ 0b00000101#8) = .ok .xout := rfl
theorem test_decode_xoutB : decode (0#55 ++ 0b1#1 ++ 0b00000101#8) = .ok .xoutB := rfl
theorem test_decode_crop : decode (0#55 ++ 0b0#1 ++ 0b00000110#8) = .ok .crop := rfl
theorem test_decode_convolve : decode (0#55 ++ 0b0#1 ++ 0b00000111#8) = .ok .convolve := rfl
theorem test_decode_convolveB : decode (0#55 ++ 0b1#1 ++ 0b00000111#8) = .ok .convolveB := rfl
theorem test_decode_zero_field : decode (1#55 ++ 0b0#1 ++ 0b00000001#8) = .error .reservedBitsSet := rfl
theorem test_decode_op_zero : decode (0#55 ++ 0b1#1 ++ 0b00000000#8) = .error .opcodeZero := rfl
theorem test_decode_op_eight : decode (0#55 ++ 0b0#1 ++ 0b00001000#8) = .error .opcodeTooLarge := rfl
theorem test_decode_bias : decode (0#55 ++ 0b1#1 ++ 0b00000110#8) = .error .biasNotAllowed := rfl
theorem test_tableWord : decodeTableWord 64 0x107 = some .convolveB ∧ decodeTableWord 64 0x108 = none := by decide

/-! ## Arithmetic (`spec/95_test_vectors.md` section 3) -/

/-- `NAN_BITS` of the vectors. -/
def nan : Half := 0x7E00#16

theorem test_add16_tie : add16 nan 0x6801#16 0x3C00#16 = 0x6802#16 ∧ add16 nan 0x6800#16 0x3C00#16 = 0x6800#16 := by decide
theorem test_add16_overflow : add16 nan 0x7BFF#16 0x6BFF#16 = 0x7C00#16 ∧ add16 nan 0x7C00#16 0xFC00#16 = nan := by decide
theorem test_sub16_zeros : sub16 nan 0x8000#16 0x0000#16 = 0x8000#16 ∧ sub16 nan 0xBC00#16 0xBC00#16 = 0x0000#16 := by decide
theorem test_mul16_subnormal : mul16 nan 0x0003#16 0x3800#16 = 0x0002#16 ∧ mul16 nan 0x0001#16 0x3800#16 = 0x0000#16 := by decide
theorem test_fma16_fused : fma16 nan 0xBC02#16 0x3C01#16 0x3C01#16 = 0x0010#16 ∧
    fma16 nan 0x0000#16 0x8400#16 0x0400#16 = 0x8000#16 := by decide
theorem test_fms16 : fms16 nan 0x4540#16 0x3C01#16 0x4440#16 = 0x3BF8#16 := by decide
theorem test_cvt_nearest : cvt32to16 nan .nearestEven 0x3F803000#32 = 0x3C02#16 ∧
    cvt32to16 nan .nearestEven 0x33000001#32 = 0x0001#16 ∧ cvt32to16 nan .nearestEven 0x477FF000#32 = 0x7C00#16 := by decide
theorem test_cvt_towardZero : cvt32to16 nan .towardZero 0x3F803000#32 = 0x3C01#16 ∧
    cvt32to16 nan .towardZero 0x477FF000#32 = 0x7BFF#16 := by decide

/-- R105 by hand: `1 + 2^-24` is a tie in single, `1.5 * 1.5`, and a zero product keeps its sign. -/
theorem test_single : add32 0x3F800000#32 0x33800000#32 = 0x3F800000#32 ∧ mul32 0x3FC00000#32 0x3FC00000#32 = 0x40100000#32 ∧
    mul32 0x80000000#32 0x3F800000#32 = 0x80000000#32 := by decide +kernel

/-! ## Shapes and blocks (section 3.5) -/

theorem test_roundup6 : [1, 5, 6, 7, 10, 12, 13].map roundup6 = [6, 6, 6, 12, 12, 12, 18] := by decide
theorem test_blocks : blocks 15 = [(0, 8), (8, 4), (12, 2), (14, 1)] ∧ blocks 3 = [(0, 2), (2, 1)] := by decide

/-! ## Transforms (sections 3.6, 3.7, 4 to 7) -/

/-- Section 3.6, "thirds". -/
theorem test_bt8 : bt8 (halfArith nan)
    #v[0x3555#16, 0x3955#16, 0x3C00#16, 0x3D55#16, 0x3EAB#16, 0x4000#16, 0x40AB#16, 0x4155#16] =
    #v[0x3E02#16, 0xC6C0#16, 0xBA00#16, 0x3E00#16, 0xB800#16, 0xC201#16, 0xBC02#16, 0xBE02#16] := by decide

/-- Section 3.7, "thirds": the groupings differ in `r5`. -/
theorem test_at6 :
    at6 (halfArith nan) .left #v[0x3555#16, 0x3955#16, 0x3C00#16, 0x3D55#16, 0x3EAB#16, 0x4000#16, 0x40AB#16, 0x4155#16] =
      #v[0x587E#16, 0xC658#16, 0x520B#16, 0xC458#16, 0x534A#16, 0xC859#16] ∧
    at6 (halfArith nan) .upstream #v[0x3555#16, 0x3955#16, 0x3C00#16, 0x3D55#16, 0x3EAB#16, 0x4000#16, 0x40AB#16, 0x4155#16] =
      #v[0x587E#16, 0xC658#16, 0x520B#16, 0xC458#16, 0x534A#16, 0xC858#16] := by decide

/-- Section 4.3: the asymmetric taps fix which index of the filter transform is which. -/
theorem test_filterTile :
    let K : Grid Single 3 3 := #v[#v[0x3E000000#32, 0x3E800000#32, 0x3EC00000#32],
      #v[0x3F000000#32, 0x3F200000#32, 0x3F400000#32], #v[0x3F600000#32, 0x3F800000#32, 0x3F900000#32]]
    [7, 9, 10, 17, 54, 56].map (filterCoef nan .nearestEven K) =
      [0x3B00#16, 0x3472#16, 0x2DED#16, 0x2DED#16, 0x0247#16, 0x3600#16] := by decide +kernel

/-- Section 5 (b): the `x` part of the tile lands in column 1, the `8*y` part in row 1. -/
theorem test_xinTile :
    let d : Grid Half 8 8 := #v[
      #v[0x0000#16, 0x3C00#16, 0x4000#16, 0x4200#16, 0x4400#16, 0x4500#16, 0x4600#16, 0x4700#16],
      #v[0x4800#16, 0x4880#16, 0x4900#16, 0x4980#16, 0x4A00#16, 0x4A80#16, 0x4B00#16, 0x4B80#16],
      #v[0x4C00#16, 0x4C40#16, 0x4C80#16, 0x4CC0#16, 0x4D00#16, 0x4D40#16, 0x4D80#16, 0x4DC0#16],
      #v[0x4E00#16, 0x4E40#16, 0x4E80#16, 0x4EC0#16, 0x4F00#16, 0x4F40#16, 0x4F80#16, 0x4FC0#16],
      #v[0x5000#16, 0x5020#16, 0x5040#16, 0x5060#16, 0x5080#16, 0x50A0#16, 0x50C0#16, 0x50E0#16],
      #v[0x5100#16, 0x5120#16, 0x5140#16, 0x5160#16, 0x5180#16, 0x51A0#16, 0x51C0#16, 0x51E0#16],
      #v[0x5200#16, 0x5220#16, 0x5240#16, 0x5260#16, 0x5280#16, 0x52A0#16, 0x52C0#16, 0x52E0#16],
      #v[0x5300#16, 0x5320#16, 0x5340#16, 0x5360#16, 0x5380#16, 0x53A0#16, 0x53C0#16, 0x53E0#16]]
    (xinTile (halfArith nan) d)[0] =
      #v[0x0000#16, 0xCD10#16, 0x0000#16, 0x0000#16, 0x0000#16, 0x0000#16, 0x0000#16, 0x0000#16] ∧
    (xinTile (halfArith nan) d)[1] =
      #v[0xD910#16, 0x60FC#16, 0x5510#16, 0xD910#16, 0x52BE#16, 0x5D10#16, 0x56C0#16, 0x5910#16] := by decide +kernel

/-- Section 6: the order of the accumulation is observable. -/
theorem test_dotChain :
    dotChain nan (fun _ => 0x3C00#16) (fun c => if c = 0 then 0x6800#16 else 0x3C00#16) 3 = 0x6800#16 ∧
    dotChain nan (fun _ => 0x3C00#16) (fun c => if c = 2 then 0x6800#16 else 0x3C00#16) 3 = 0x6801#16 := by decide

/-- Section 7 (a): one coefficient, and the bias added last. -/
theorem test_xoutTile :
    let M : Grid Half 8 8 := Vector.ofFn fun t => Vector.ofFn fun u => if t = 1 ∧ u = 1 then 0x3C00#16 else 0x0000#16
    xoutTile (halfArith nan) .left M 0x0000#16 = Vector.replicate 6 (Vector.replicate 6 0x3C00#16) ∧
    xoutTile (halfArith nan) .upstream M 0x3800#16 = Vector.replicate 6 (Vector.replicate 6 0x3E00#16) := by
  decide +kernel

/-- Scenario S1 of section 8: taps 1/9 and ones give 8 in exact arithmetic, and the output is `0x4800`; a half more than
1/100 off is not within `TOL` (`46_convolve.md` R240, R241). -/
theorem test_tolerance : exactOutput 8 (fun _ _ _ _ => 1 / 9) (fun _ _ _ => 1) (fun _ => 0) 0 0 0 = 8 ∧
    tolerates Config.default 0x4800#16 8 = true ∧ tolerates Config.default 0x480B#16 8 = false := by
  refine ⟨?_, by decide +kernel, by decide +kernel⟩
  norm_num [exactOutput]

/-! ## Steps -/

/-- Small operands: 8 channels each way, a 3x3 input, a 1x1 output, one tile. -/
def smallParams : Params where
  srcBase := 0x1000#64
  dstBase := 0x10000#64
  filtBase := 0x20000#64
  biasBase := 0x30000#64
  scrBase := 0x40000#64
  scrSize := 0x4000#64
  inWidth := 3#64
  inHeight := 3#64
  outWidth := 1#64
  outHeight := 1#64
  inChannels := 8#64
  outChannels := 8#64
  nWork := 1#64

/-- An idle core with these operands and this memory. -/
def idle (P : Params) (m : Memory) : State := { State.reset with params := P, mem := m }

/-- A core with the command `i` in flight, at stage `st` with units `ns` left. -/
def flying (i : Instr) (st : Stage) (ns : List Nat) : State :=
  { idle smallParams [] with
    cmd := encode i, lcmd := encode i, latch := smallParams, status := ⟨true, false, false, false⟩, stage := st, pending := ns }

/-- The reset state on a platform with the register window at 0x1000. -/
def windowAt1000 : State := { State.reset with cfg := { Config.default with regBase := 0x1000 } }

/-- With this next host action. -/
def hostDoes (act : HostAction) (s : State) : State := { s with host := [⟨none, act⟩] }

/-- With this host action as soon as `n` transactions have passed. -/
def hostDoesAfter (n : Nat) (act : HostAction) (s : State) : State := { s with host := s.host ++ [⟨some n, act⟩] }

/-- The next state of a step, or the state itself where the step stops. -/
def after (s : State) : State :=
  match step s with
  | .next t    => t
  | .fault _   => s
  | .refused _ => s

/-- Does the step stop with this refusal. -/
def refuses (r : Refusal) (s : State) : Bool :=
  match step s with
  | .next _    => false
  | .fault _   => false
  | .refused q => decide (q = r)

/-- Does the step stop with this fault. -/
def faults (r : Fault) (s : State) : Bool :=
  match step s with
  | .next _    => false
  | .fault q   => decide (q = r)
  | .refused _ => false

/-- Issue `i` on the small operands with memory `m` and let it run. -/
def runSmall (i : Instr) (m : Memory) : State := after ((idle smallParams m).withFetchWord 64 (encode i).toNat)

/-- The first word after reset: all parameters are 0, so every command completes with `ERR_PRECOND`
(`60_exceptions.md` R252), `DONE` and `ERROR`. -/
theorem test_first_word : (Instr.all.map fun i =>
    let t := after (State.reset.withFetchWord 64 (encode i).toNat)
    (t.err, t.readReg 1 == encode i, t.readReg 2)) = Instr.all.map fun _ => (.precond, true, 6#64) := by decide

/-- `crop`: the first pixel of the 6x6 map is the whole 1x1 map (`42_pad_crop.md` R165). -/
theorem test_crop : (runSmall .crop [(0x1000, 0x11#8), (0x100F, 0x22#8), (0x1010, 0x33#8)]).mem =
    [(0x1000, 0x11#8), (0x100F, 0x22#8), (0x1010, 0x33#8), (0x10000, 0x11#8), (0x1000F, 0x22#8)] := by decide +kernel

/-- `pad`: the pixel at row 1, column 2 of the 3x3 map lands at row 1, column 2 of the 8x8 map (`42_pad_crop.md`
R161): lane vector `1*3 + 2 = 5` moves to `1*8 + 2 = 10`. -/
theorem test_pad : (runSmall .pad [(0x1050, 0x11#8), (0x105F, 0x22#8)]).mem =
    [(0x1050, 0x11#8), (0x105F, 0x22#8), (0x100A0, 0x11#8), (0x100AF, 0x22#8)] := by decide +kernel

/-- `xin`: `d[0][0] = 1` in lane 3 of the only tile gives `V[0] = 1` in that lane (`43_input_transform.md` R182, R184). -/
theorem test_xin : (runSmall .xin [(0x1007, 0x3C#8)]).mem.half 0x10000 (tiIndex 1 0 0 0 3) = 0x3C00#16 := by
  decide +kernel

/-- `contract`: coefficient 0, `2` in filter row `i = 1`, output lane 5, times `1` in input lane 1 gives `2` in output
lane 5 (`44_contraction.md` R199; `20_memory.md` R53, R54, R56), on the interleaved input of that tile. -/
theorem test_gemm_unit : (gemmUnit Config.default smallParams 0x20000 0x40000 0x10000 0
      ⟨[(0x2001B, 0x40#8), (0x40003, 0x3C#8)], Worker.zero⟩).map (·.mem) =
    some [(0x1000B, 0x40#8), (0x2001B, 0x40#8), (0x40003, 0x3C#8)] := by decide +kernel

/-- `contract`: the repacking moves input lane 1 of coefficient 0 to the second half of the block (`44_contraction.md`
R197, `20_memory.md` R55). -/
theorem test_repack_unit : (repackUnit Config.default smallParams 0x1000 0x40000 0 ⟨[(0x1003, 0x3C#8)], Worker.zero⟩).map
    (·.mem) = some [(0x1003, 0x3C#8), (0x40003, 0x3C#8)] := by decide +kernel

/-- An illegal word on an idle core: `ERR_ILLEGAL`, `DONE`, `ERROR`, `CMD` holds the word (`30_encoding.md` R85). -/
theorem test_illegal_word : let t := after (State.reset.withFetchWord 64 0x108)
    (t.cmd, t.err, t.status) = (0x108#64, ErrCode.illegal, ⟨false, true, true, false⟩) := by decide

/-- `ERR_ALLOC`: one byte of scratch too few (`60_exceptions.md` R253, `46_convolve.md` R237). -/
theorem test_alloc : (convolveCommand.verdict { smallParams with scrSize := 4671#64 },
    convolveCommand.verdict { smallParams with scrSize := 4672#64 }) = (.alloc, .none) := by decide

/-- A second command word while the first is in flight is dropped and sets `OVR` (`30_encoding.md` R84 (a)). -/
theorem test_overrun : let t := after (hostDoesAfter 0 (.regRead 0 8) (hostDoes (.regWrite 8 8 0x006#64) (flying .pad .check [])))
    (t.cmd, t.readReg 2, t.stage) = (0x002#64, 9#64, Stage.check) := by decide

/-- Acceptance keeps `OVR`, clears `DONE`, `ERROR` and `ERR` (`30_encoding.md` R84 (b)). -/
theorem test_accept : let s : State := { idle smallParams [] with status := ⟨false, true, true, true⟩, err := .bus }
    let t := after (hostDoesAfter 0 (.regRead 0 8) (hostDoes (.regWrite 8 8 0x006#64) s))
    (t.readReg 2, t.err, t.readReg 5) = (9#64, ErrCode.none, 1#64) := by decide

/-- What the host reads in `ERR` and `STAGE` (`60_exceptions.md` R250, `10_state.md` R17). -/
theorem test_codes :
    [ErrCode.none, .illegal, .precond, .alloc, .bus].map (fun e => { State.reset with err := e }.readReg 4) =
      [0#64, 1#64, 2#64, 3#64, 4#64] ∧
    [Stage.idle, .check, .pad, .xin, .repack, .gemm, .xout, .crop, .tfilt].map
      (fun g => { State.reset with stage := g }.readReg 5) = [0#64, 1#64, 2#64, 3#64, 4#64, 5#64, 6#64, 7#64, 8#64] := by
  decide

/-- The window is where `REG_BASE` says (`30_encoding.md` R81): the same read answers there and is refused below. -/
theorem test_window : (after (hostDoes (.regRead 0x1000 8) windowAt1000)).hostData = 0x5747363348380001#64 ∧
    refuses .registerAccess (hostDoes (.regRead 0 8) windowAt1000) = true := by decide

/-- A misaligned or narrow register access is refused; a racing host write is refused; a host write to an address
that does not exist faults (log entries 13 to 15). -/
theorem test_stops : refuses .registerAccess (hostDoes (.regRead 4 8) State.reset) = true ∧
    refuses .registerAccess (hostDoes (.regWrite 8 4 1#64) State.reset) = true ∧
    refuses .hostRace (hostDoes (.memWrite 0x1000#64 1#8) (flying .pad .check [])) = true ∧
    faults .hostBus (hostDoes (.memRead 0x5000#64) { State.reset with cfg := { Config.default with refused := [(0x5000, 1)] } }) =
      true := by decide

/-! ## Witnesses: the hypotheses of the statements can be met -/

/-- A command in flight satisfies the invariant. -/
theorem flying_inv {i : Instr} {st : Stage} {ns : List Nat} (h1 : st ∈ (commandOf i).route)
    (h2 : (commandOf i).verdict smallParams = .none) (h3 : ns.Nodup ∧ ∀ n ∈ ns, n < st.units smallParams) :
    (flying i st ns).Inv :=
  ⟨rfl, nofun, fun _ => ⟨rfl, rfl, rfl⟩, fun _ => ⟨i, rfl, rfl, h1, fun _ => h2⟩, h3, nofun⟩

theorem witness_StepRunsTheCommand :
    (State.reset.withFetchWord 64 0x107).host = ⟨none, .regWrite 8 8 0x107#64⟩ :: [] ∧
    (windowAt1000.withFetchWord 64 0x107).host = ⟨none, .regWrite (0x1000 + 8) 8 0x107#64⟩ :: [] ∧
    decode 0x107#64 = .ok .convolveB := ⟨rfl, rfl, rfl⟩

theorem witness_CommandIssue :
    ((hostDoes (.regWrite 8 8 0#64) (flying .pad .pad [0])).host = ⟨none, .regWrite 8 8 0#64⟩ :: [] ∧
      (flying .pad .pad [0]).status.busy = true) ∧
    (State.reset.status.busy = false ∧ decode 0x8#64 = .error .opcodeTooLarge) ∧
    (State.reset.status.busy = false ∧ decode 0x7#64 = .ok .convolve) := ⟨⟨rfl, rfl⟩, ⟨rfl, rfl⟩, rfl, rfl⟩

theorem witness_ResetInput :
    ((hostDoes .reset (flying .contract .gemm [63])).Inv ∧
      (hostDoes .reset (flying .contract .gemm [63])).host = ⟨none, .reset⟩ :: [] ∧
      (hostDoes .reset (flying .contract .gemm [63])).lcmd = encode .contract) ∧
    (hostDoes .reset State.reset).Inv ∧ (hostDoes .reset State.reset).status.busy = false := by
  have h := flying_inv (i := .contract) (st := .gemm) (ns := [63]) (by decide) (by decide) (by decide)
  exact ⟨⟨⟨h.canonical, h.atRest, h.quiet, h.inFlight, h.units, h.errorCode⟩, rfl, rfl⟩,
    ⟨rfl, fun _ => ⟨rfl, rfl⟩, nofun, nofun, by decide, nofun⟩, rfl⟩

/-- The last register; the address below the window, one inside it that is misaligned, and a narrow access. -/
theorem witness_RegisterAccessRule :
    (hostDoes (.regRead (0x1000 + 8 * 20) 8) windowAt1000).host = ⟨none, .regRead (windowAt1000.cfg.regBase + 8 * 20) 8⟩ :: [] ∧
    (0xFF8 < windowAt1000.cfg.regBase ∧
      (hostDoes (.regRead 0xFF8 8) windowAt1000).host = ⟨none, .regRead 0xFF8 8⟩ :: []) ∧
    ((0x1009 - windowAt1000.cfg.regBase) % 8 ≠ 0 ∧
      (hostDoes (.regWrite 0x1009 8 1#64) windowAt1000).host = ⟨none, .regWrite 0x1009 8 1#64⟩ :: []) ∧
    (4 ≠ 8 ∧ (hostDoes (.regWrite 0x1008 4 1#64) windowAt1000).host = ⟨none, .regWrite 0x1008 4 1#64⟩ :: []) := by
  decide

theorem witness_ParameterRegistersHoldAnyValue :
    ((8 ≤ 8 ∧ 8 ≤ 20) ∧ (hostDoes (.regWrite (8 * 8) 8 (-1)) State.reset).host = ⟨none, .regWrite (8 * 8) 8 (-1)⟩ :: []) ∧
    8 ≤ 20 ∧ 20 ≤ 20 := by decide

theorem witness_RegisterWritesAsSteps : (∀ k ∈ [0, 2, 3, 4, 20, 21], k ≠ 1) ∧
    (hostDoes (.regWrite (8 * 2) 8 0xE#64) State.reset).host = ⟨none, .regWrite (8 * 2) 8 0xE#64⟩ :: [] := by decide

theorem witness_ReadOnlyAndReservedRegisters : regAt 6 = .reserved ∧ regAt 7 = .reserved ∧ regAt 21 = .reserved := by
  decide

theorem witness_OperandsAreLatched : (idle smallParams []).status.busy = false ∧ 8 ≤ 8 ∧ 20 ≤ 20 := by decide

theorem witness_OperandsOfCommands : Instr.xoutB ∉ [Instr.contract, .convolve, .convolveB] := by decide

/-- Each condition of the checks at a boundary of its range: 65535 and 65536, 0, 65528 and 65536, a channel count that is
no multiple of 8, an input that does not fit, a misaligned base, a region past the end, two regions sharing a byte. -/
theorem witness_CheckVerdict :
    cropCommand.verdict { smallParams with nWork := 65535#64 } = .none ∧
    cropCommand.verdict { smallParams with nWork := 65536#64 } = .precond ∧
    cropCommand.verdict { smallParams with outWidth := 0#64 } = .precond ∧
    tfiltCommand.verdict { smallParams with inChannels := 65528#64, filtBase := 7#64, dstBase := 0x8000000#64 } = .none ∧
    tfiltCommand.verdict { smallParams with inChannels := 65536#64, dstBase := 0x8000000#64 } = .precond ∧
    tfiltCommand.verdict { smallParams with inChannels := 12#64 } = .precond ∧
    padCommand.verdict { smallParams with inWidth := 8#64 } = .none ∧
    padCommand.verdict { smallParams with inWidth := 9#64 } = .precond ∧
    padCommand.verdict { smallParams with srcBase := 0x1008#64 } = .precond ∧
    cropCommand.verdict { smallParams with dstBase := 0xFFFFFFFFFFFFFFF0#64 } = .none ∧
    padCommand.verdict { smallParams with dstBase := 0xFFFFFFFFFFFFFFF0#64 } = .precond ∧
    cropCommand.verdict { smallParams with dstBase := 0x0FF0#64 } = .none ∧
    cropCommand.verdict { smallParams with dstBase := 0x1230#64 } = .precond ∧
    cropCommand.verdict { smallParams with dstBase := 0x1240#64 } = .none := by decide

theorem witness_RefusedCommandTouchesNothing :
    (State.reset.status.busy = false ∧ State.reset.hostWaits = true ∧
      (commandOf .tfilt).verdict State.reset.params = .precond) ∧
    (commandOf .contract).verdict { smallParams with scrSize := 1023#64 } = .alloc := by decide

/-- The small operands on a platform that refuses one byte. -/
def refusing (a : Nat) : State := { idle smallParams [] with cfg := { Config.default with refused := [(a, 1)] } }

/-- What the statement asks of the state, for every command and byte. -/
theorem witness_BusErrorReported_state (i : Instr) (a : Nat) : (refusing a).status.busy = false ∧ (refusing a).hostWaits = true ∧
    (refusing a).mem.wf = true ∧ (commandOf i).verdict (refusing a).params = .none ∧
    (a < addrSpace → backs (refusing a).cfg a 1 = false) := by
  refine ⟨rfl, rfl, rfl, ?_, fun _ => by simp [backs, refusing]⟩
  show (commandOf i).verdict smallParams = .none
  cases i <;> decide

/-- The first byte of every destination, the last byte of a filter and of a bias, the first byte of a source and the
last one `crop` reads, an interleaved element of `contract` and of the pipeline, the last byte of its scratch. -/
theorem witness_BusErrorReported :
    (∀ i, accessed i smallParams 0x10000) ∧
    accessed .contract smallParams (0x20000 + 8191) ∧ accessed .xoutB smallParams (0x30000 + 15) ∧
    accessed .pad smallParams 0x1000 ∧ accessed .crop smallParams (0x1000 + 15) ∧
    accessed .contract smallParams 0x40000 ∧ accessed .convolve smallParams (smallParams.s2 + 1) ∧
    (accessed .convolveB smallParams (0x40000 + 4671) ∧
      ∀ r ∈ (commandOf .convolveB).destination smallParams, r.holds (0x40000 + 4671) = false) := by
  have ti2 : ∀ base a, base ≤ a → a < base + 2 → smallParams.interleavedByte base a := fun base a h1 h2 =>
    ⟨0, 0, 0, 0, 0, by decide, by decide, by decide, by decide, by decide, by
      rw [show ti2Index smallParams.tiles smallParams.inCh 0 0 0 0 0 = 0 by decide]; omega, by
      rw [show ti2Index smallParams.tiles smallParams.inCh 0 0 0 0 0 = 0 by decide]; omega⟩
  have tensor : ∀ {c : Command} {a : Nat}, ((c.regions smallParams).any fun r =>
      decide (r.role ≠ .scratch) && r.holds a) = true → c.tensorByte smallParams a := fun h => by
    simpa [Command.tensorByte] using h
  have role : ∀ i : Instr, ∃ r ∈ (commandOf i).regions smallParams, r.role = .dest ∧ r.base = 0x10000 ∧ 0 < r.size := by
    intro i
    cases i <;> decide
  refine ⟨fun i => ?_, .inl ?_, ?_, ?_, .inl ⟨0, 0, 0, by decide, by decide, by decide, by decide, by decide⟩,
    .inr (ti2 _ _ (by decide) (by decide)), .inr (.inr (.inl (ti2 _ _ (by omega) (by omega)))),
    .inr (.inr (.inr (by decide))), by decide⟩
  · obtain ⟨r, hr, h1, h2, h3⟩ := role i
    exact accessed_tensor hr (by simp [h1]) (fun _ => h1) (by omega) (by omega)
  · exact tensor (c := contractCommand) (by decide)
  · exact tensor (c := xoutBCommand) (by decide)
  · exact tensor (c := padCommand) (by decide)

theorem witness_EveryCommandCompletes : State.reset.status.busy = false ∧ State.reset.hostWaits = true ∧
    State.reset.mem.wf = true := by decide

/-- Each case: checks that fail and that pass, the barrier to a next stage and after the last, a unit that runs and a
unit whose access is refused. -/
theorem witness_StageAdvancesForward :
    ((flying .contract .check []).Inv ∧ (commandOf .contract).verdict (flying .contract .check []).latch = .none ∧
      (commandOf .contract).route = [] ++ .check :: .repack :: [.gemm]) ∧
    ({ flying .contract .check [] with latch := Params.zero }.Inv ∧
      (commandOf .contract).verdict Params.zero ≠ .none) ∧
    ((flying .contract .repack []).Inv ∧ (commandOf .contract).route = [.check] ++ .repack :: .gemm :: []) ∧
    ((flying .contract .gemm []).Inv ∧ (commandOf .contract).route = [.check, .repack] ++ [.gemm]) ∧
    ((flying .contract .repack [63, 0]).Inv ∧ (flying .convolve .crop [0]).Inv ∧
      ((commandOf .convolve).unit Config.default smallParams .crop 0 ⟨[], Worker.zero⟩).isSome = true ∧
      (commandOf .convolve).unit { Config.default with refused := [(0x10000, 1)] } smallParams .crop 0
        ⟨[], Worker.zero⟩ = none) :=
  ⟨⟨flying_inv (by decide) (by decide) (by decide), by decide, rfl⟩,
    ⟨⟨rfl, nofun, fun _ => ⟨rfl, rfl, rfl⟩, fun _ => ⟨.contract, rfl, rfl, by decide, fun h => absurd rfl h⟩,
      by decide, nofun⟩, by decide⟩,
    ⟨flying_inv (by decide) (by decide) (by decide), rfl⟩, ⟨flying_inv (by decide) (by decide) (by decide), rfl⟩,
    flying_inv (by decide) (by decide) (by decide), flying_inv (by decide) (by decide) (by decide), by decide, by decide⟩

/-- A refused access of the pipeline before `CROP` leaves the destination as it was; in `CROP` the pipeline, and in
every stage a single command, leaves it unspecified (`46_convolve.md` R235, `60_exceptions.md` R254). -/
theorem test_dirtied : (convolveCommand.dirtied smallParams .xout).map Region.role = [.scratch] ∧
    (convolveBCommand.dirtied smallParams .crop).map Region.role = [.dest, .scratch] ∧
    (contractCommand.dirtied smallParams .repack).map Region.role = [.dest, .scratch] ∧
    (padCommand.dirtied smallParams .pad).map Region.role = [.dest] := by decide

theorem witness_StepKeepsInvariant : (flying .pad .check []).Inv ∧
    step (hostDoesAfter 0 (.regRead 0 8) (flying .pad .check [])) =
      .next { hostDoesAfter 0 (.regRead 0 8) (flying .pad .check []) with host := [], hostData := idConstant }.carryOn :=
  ⟨flying_inv (by decide) (by decide) (by decide), rfl⟩

/-- An idle core is ready for a command that passes its checks and whose regions are backed. -/
theorem ready {P : Params} {i : Instr} (hv : (commandOf i).verdict P = .none)
    (hb : (idle P []).backedRegions i = true) : (idle P []).Ready i :=
  ⟨rfl, rfl, hv, State.backed_of_regions hv hb, rfl⟩

/-- The small operands are ready for every command. -/
theorem witness_Ready (i : Instr) : (idle smallParams []).Ready i := by
  refine ready ?_ ?_ <;> cases i <;> decide

/-- `crop` is ready on a platform that refuses the last byte of its source, which it drops (`42_pad_crop.md` R165). -/
theorem witness_Ready_dropped :
    { idle smallParams [] with cfg := { Config.default with refused := [(0x1000 + smallParams.opB - 1, 1)] } }.Ready .crop :=
  ⟨rfl, rfl, by decide, by
    rintro a (⟨g, y, x, hg, hy, hx, h1, h2⟩ | ha)
    · obtain rfl : g = 0 := by simpa [Params.outGroups, Params.outCh, idle, smallParams] using hg
      obtain rfl : y = 0 := by simpa [Params.outH, idle, smallParams] using hy
      obtain rfl : x = 0 := by simpa [Params.outW, idle, smallParams] using hx
      simp [fmIndex, idle, smallParams] at h1 h2
      exact backs_byte (a := 0x1000) (n := 16) (by decide) h1 h2
    · exact backs_byte (a := 0x10000) (n := 16) (by decide) ha.1 ha.2, rfl⟩

theorem witness_TfiltResult : (idle smallParams []).Ready .tfilt := witness_Ready _
theorem witness_PadResult : (idle smallParams []).Ready .pad := witness_Ready _
theorem witness_XinResult : (idle smallParams []).Ready .xin := witness_Ready _
theorem witness_ContractResult : (idle smallParams []).Ready .contract := witness_Ready _
theorem witness_XoutResult : (idle smallParams []).Ready .xout := witness_Ready _
theorem witness_XoutBiasResult : (idle smallParams []).Ready .xoutB := witness_Ready _
theorem witness_CropResult : (idle smallParams []).Ready .crop := witness_Ready _
theorem witness_ConvolveResult : (idle smallParams []).Ready .convolve := witness_Ready _
theorem witness_ConvolveBiasResult : (idle smallParams []).Ready .convolveB := witness_Ready _

theorem witness_ScheduleIndependence : (idle smallParams []).status.busy = false ∧
    (idle smallParams []).hostWaits = true ∧ (idle smallParams []).mem.wf = true ∧
    (∀ i, (idle smallParams []).backed i) ∧ (idle smallParams []).params.illegal .nWork = false ∧
    0 < (65535#64).toNat ∧ (65535#64).toNat ≤ 65535 :=
  ⟨rfl, rfl, rfl, fun i => (witness_Ready i).backed, by decide⟩

/-- The chain's operands: the small ones with four buffers. -/
theorem witness_ConvolveEqualsChain (whole out : Instr)
    (_ : (whole = .convolve ∧ out = .xout) ∨ (whole = .convolveB ∧ out = .xoutB)) :
    let P := smallParams
    (idle P []).Ready whole ∧ (idle { P with dstBase := 0x50000#64 } []).Ready .pad ∧
    (idle { P with srcBase := 0x50000#64, dstBase := 0x60000#64 } []).Ready .xin ∧
    (idle { P with srcBase := 0x60000#64, dstBase := 0x70000#64, scrBase := 0x90000#64, scrSize := 1024#64 } []).Ready
      .contract ∧
    (idle { P with srcBase := 0x70000#64, dstBase := 0x80000#64 } []).Ready out ∧
    (idle { P with srcBase := 0x80000#64 } []).Ready .crop ∧
    (⟨.filter, P.filtBase.toNat, P.tfB⟩ : Region).overlaps ⟨.dest, 0x50000, P.padB⟩ = false ∧
    (⟨.filter, P.filtBase.toNat, P.tfB⟩ : Region).overlaps ⟨.dest, 0x60000, P.tiB⟩ = false ∧
    (⟨.bias, P.biasBase.toNat, P.biasB⟩ : Region).overlaps ⟨.dest, 0x50000, P.padB⟩ = false ∧
    (⟨.bias, P.biasBase.toNat, P.biasB⟩ : Region).overlaps ⟨.dest, 0x60000, P.tiB⟩ = false ∧
    (⟨.bias, P.biasBase.toNat, P.biasB⟩ : Region).overlaps ⟨.dest, 0x70000, P.toB⟩ = false ∧
    (⟨.bias, P.biasBase.toNat, P.biasB⟩ : Region).overlaps ⟨.scratch, 0x90000, P.ti2B⟩ = false := by
  refine ⟨witness_Ready _, ready ?_ ?_, ready ?_ ?_, ready ?_ ?_, ready ?_ ?_, ready ?_ ?_, ?_⟩ <;> cases out <;> decide

theorem witness_ZeroBiasLaw : (idle smallParams []).Ready .xout ∧ (idle smallParams []).Ready .xoutB ∧
    (idle smallParams []).Ready .convolve ∧ (idle smallParams []).Ready .convolveB ∧
    ∀ o, o < smallParams.outCh → (idle smallParams []).mem.half smallParams.biasBase.toNat o = 0 :=
  ⟨witness_Ready _, witness_Ready _, witness_Ready _, witness_Ready _,
    fun _ _ => show unlistedByte ++ unlistedByte = 0#16 by decide⟩

theorem witness_PaddingIdempotence :
    let s := idle { smallParams with inWidth := 8#64, inHeight := 8#64 } []
    s.Ready .pad ∧ s.params.inW = s.params.padW ∧ s.params.inH = s.params.padH :=
  ⟨ready (by decide) (by decide), rfl, rfl⟩

theorem witness_CropPassThrough :
    let s := idle { smallParams with outWidth := 6#64, outHeight := 12#64 } []
    s.Ready .crop ∧ 6 ∣ s.params.outW ∧ 6 ∣ s.params.outH :=
  ⟨ready (by decide) (by decide), by decide, by decide⟩

theorem witness_WritesReadBack : Memory.wf [(2 ^ 64 - 1, 1#8)] = true ∧ (2 ^ 64 - 2) + 2 ≤ 2 ^ 64 := by decide

theorem witness_HostMemoryRoundTrip :
    let s : State := { State.reset with host := [⟨none, .memWrite (-1) 7#8⟩, ⟨none, .memRead (-1)⟩] }
    s.status.busy = false ∧ s.mem.wf = true ∧ backs s.cfg (-1 : Word).toNat 1 = true ∧
    s.host = ⟨none, .memWrite (-1) 7#8⟩ :: ⟨none, .memRead (-1)⟩ :: [] := by decide

/-- The last byte of the source, the first of the destination, the byte behind the source, of no region. -/
theorem witness_HostRaceRefused :
    let s := flying .pad .check []
    s.status.busy = true ∧ s.lcmd = encode .pad ∧
    (∃ r ∈ (commandOf .pad).regions s.latch, r.holds 0x108F = true) ∧
    (∃ r ∈ (commandOf .pad).regions s.latch, (r.role = .dest ∨ r.role = .scratch) ∧ r.holds 0x10000 = true) ∧
    (∀ r ∈ (commandOf .pad).regions s.latch, r.role = .dest ∨ r.role = .scratch → r.holds 0x108F = false) ∧
    (∀ r ∈ (commandOf .pad).regions s.latch, r.holds 0x1090 = false) ∧
    backs s.cfg 0x108F 1 = true ∧ backs s.cfg 0x1090 1 = true := by decide

theorem witness_LayoutsAreBijections : 7 < 1 * 8 * 1 * 1 ∧ 511 < 1 * 8 * 64 * 1 ∧ 4095 < 8 * 8 * 64 ∧ 8 < 1 * 1 * 9 ∧
    8 % 8 = 0 := by decide

theorem witness_InterleavedLayoutInjective : 63 < 64 ∧ 3 < nblk 15 ∧ 0 < 8 / 8 ∧ 7 < 8 ∧ 0 < (blockAt 15 3).2 ∧
    7 < (blockAt 15 0).2 := by decide

theorem witness_TileBlocks : 3 < nblk 15 ∧ 14 < 15 ∧ (blockAt 15 3).1 ≤ 14 ∧ 14 < (blockAt 15 3).1 + (blockAt 15 3).2 := by
  decide

theorem witness_ShapeArithmetic : let P : Params := { smallParams with outHeight := 65535#64 }
    1 ≤ P.outW ∧ P.outW ≤ 65535 ∧ 1 ≤ P.outH ∧ P.outH ≤ 65535 := by decide

/-- A value of each clause at its lower boundary, `m * 2^-k` with `k = 0`, `26` or `152`. -/
theorem witness_RoundingThresholds : 65520 * 2 ^ 0 ≤ 65520 ∧ (65504 * 2 ^ 0 ≤ 65519 ∧ 65519 < 65520 * 2 ^ 0) ∧
    2 * 2 ^ 25 ≤ 2 ^ 26 ∧ (2 ^ 27 < 5 * 2 ^ 25 ∧ 5 * 2 ^ 25 < 3 * 2 ^ 27) ∧
    (2 ^ 128 - 2 ^ 103) * 2 ^ 0 ≤ 2 ^ 128 - 2 ^ 103 ∧
    ((2 ^ 128 - 2 ^ 104) * 2 ^ 0 ≤ 2 ^ 128 - 2 ^ 103 - 1 ∧ 2 ^ 128 - 2 ^ 103 - 1 < (2 ^ 128 - 2 ^ 103) * 2 ^ 0) ∧
    4 * 2 ^ 150 ≤ 2 ^ 152 ∧ (2 ^ 152 < 5 * 2 ^ 150 ∧ 5 * 2 ^ 150 < 3 * 2 ^ 152) := by decide

theorem witness_RoundingIsExactOnValues : 0x8001 < 2 ^ binary16.width ∧ binary16.unpack 0x8001 = .fin true 1 ∧
    binary32.unpack 0x00000001 = .fin false 1 := by decide

theorem witness_RoundingIsNearest :
    binary16.unpack (binary16.round true 65519 0) = .fin true (65504 * 2 ^ 24) ∧ binary16.unpack 0x8001 = .fin true 1 ∧
    binary32.unpack (binary32.round false 1 1) = .fin false (2 ^ 148) := by decide

/-- A tie: 2049 lies halfway between 2048 and 2050, and 2048 has the even significand (`40_numerics.md` R104). -/
theorem witness_RoundingIsNearest_tie : binary16.unpack (binary16.round false 2049 0) = .fin false (2048 * 2 ^ 24) ∧
    binary16.unpack 0x6801 = .fin false (2050 * 2 ^ 24) ∧
    ((2048 * 2 ^ 24 * 2 ^ 0 : Int) - 2049 * 2 ^ binary16.scale).natAbs =
      ((2050 * 2 ^ 24 * 2 ^ 0 : Int) - 2049 * 2 ^ binary16.scale).natAbs := by decide

theorem witness_TruncationIsTowardZero : binary16.unpack (binary16.truncate true 2051 0) = .fin true (2050 * 2 ^ 24) ∧
    binary16.unpack (binary16.truncate false 70000 0) = .fin false (65504 * 2 ^ 24) := by decide

theorem witness_SignedZeroSums : isNaN16 0x8000#16 = false ∧ isNaN16 0xFC00#16 = false ∧ isNaN16 0x0001#16 = false ∧
    0x0001#16 &&& 0x7FFF#16 ≠ 0x7C00#16 ∧ 0x0001#16 &&& 0x7FFF#16 ≠ 0 := by decide

/-- Finite operands at the ends of both formats, and an exact zero of each kind. -/
theorem witness_PrimitivesRoundOnce : binary16.unpack 0xFBFF = .fin true (65504 * 2 ^ 24) ∧
    binary16.unpack 0x8000 = .fin true 0 ∧ binary16.unpack 0x0001 = .fin false 1 ∧
    binary32.unpack 0x80000000 = .fin true 0 ∧ binary32.unpack 0x7F7FFFFF = .fin false ((2 ^ 24 - 1) * 2 ^ 253) ∧
    signedInt true 0 + signedInt true 0 = 0 ∧ signedInt true 1 + signedInt false 1 = 0 := by decide

/-- A NaN of each format, an invalid operation, and the operands of each clause on infinities. -/
theorem witness_NanAndInfinityResults : isNaN16 0x7E00#16 = true ∧ isNaN16 0xFC01#16 = true ∧
    isNaN32 0x7F800001#32 = true ∧ isNaN16 (mul16 0x7E00#16 0x0000#16 0x7C00#16) = true ∧
    binary16.unpack 0x7C00 = .inf false ∧ binary16.unpack 0xFC00 = .inf true ∧ binary16.unpack 0x8000 = .fin true 0 ∧
    binary16.unpack 0x0001 = .fin false 1 ∧ binary32.unpack 0x7F800000 = .inf false ∧
    binary32.unpack 0xFF800000 = .inf true ∧ binary32.unpack 0x80000000 = .fin true 0 ∧
    binary32.unpack 0x00000001 = .fin false 1 ∧ isNaN16 0xFC00#16 = false := by decide

/-- An infinite product of each form. -/
theorem witness_NanAndInfinityResults_product : infiniteProduct 0x7C00#16 0xFC00#16 true ∧
    infiniteProduct 0xFC00#16 0x8001#16 false ∧ infiniteProduct 0x8001#16 0x7C00#16 true :=
  ⟨⟨false, true, rfl, .inl (by decide)⟩, ⟨true, true, rfl, .inr (.inl ⟨by decide, 1, by decide⟩)⟩,
    ⟨true, false, rfl, .inr (.inr ⟨⟨1, by decide⟩, by decide⟩)⟩⟩

/-- The clauses of the conversion: an infinity, a zero, 65520, `2^-25`, 65504 (the last three finite and not zero). -/
theorem witness_NarrowingRules : binary32.unpack 0xFF800000 = .inf true ∧ binary32.unpack 0x80000000 = .fin true 0 ∧
    binary32.unpack 0x477FF000 = .fin false (65520 * 2 ^ 149) ∧ binary32.unpack 0x33000000 = .fin false (2 ^ 124) ∧
    binary32.unpack 0x477FE000 = .fin false (65504 * 2 ^ 149) := by decide

theorem witness_AccumulationFromZero : isNaN16 0x7E00#16 = true ∧ isNaN16 0x8000#16 = false ∧
    0xFBFF#16 &&& 0x7C00#16 ≠ 0x7C00#16 ∧ 0x8000#16 &&& 0x7FFF#16 = 0 := by decide

/-- An entry of `G` that is no single, its single and the next one below. -/
theorem witness_FilterConstants : gExact[3][0] = 1 / 90 ∧
    binary32.unpack (g32[3][0]).toNat = .fin false (11930465 * 2 ^ 119) ∧
    binary32.unpack 0x3C360B60 = .fin false (11930464 * 2 ^ 119) := by
  refine ⟨rfl, ?_, ?_⟩ <;> decide

theorem witness_CornerTapsPassThrough :
    let K : Grid Single 3 3 := #v[#v[0x3E000000#32, 0x3E800000#32, 0x3EC00000#32],
      #v[0x3F000000#32, 0x3F200000#32, 0x3F400000#32], #v[0x3F600000#32, 0x3F800000#32, 0x3F900000#32]]
    (∀ r cc : Fin 3, ∃ s n, binary32.unpack K[r][cc].toNat = .fin s n) ∧ K[2][0] &&& 0x7FFFFFFF#32 ≠ 0 := by
  refine ⟨?_, by decide⟩
  intro r cc
  have h : ∀ r cc : Fin 3, (match binary32.unpack (#v[#v[0x3E000000#32, 0x3E800000#32, 0x3EC00000#32],
      #v[0x3F000000#32, 0x3F200000#32, 0x3F400000#32],
      #v[0x3F600000#32, 0x3F800000#32, 0x3F900000#32]][r][cc]).toNat with
      | .fin _ _ => true | _ => false) = true := by decide
  have := h r cc
  split at this
  · next s n hs => exact ⟨s, n, hs⟩
  · cases this

end Sys2Proof.Tests
end

section
/-! PROOFS. The register file (`spec/10_state.md` R11 to R20, R28, R29): which index names which register, what every
register reads, and what a host access is as a step. Settles O6 and O8 to O14. -/

namespace Sys2Proof.Machine

/-! ## Which index names which register -/

/-- The index of a parameter register (`10_state.md` R11). -/
def ParamReg.index : ParamReg → Nat
  | .srcBase     => 8
  | .dstBase     => 9
  | .filtBase    => 10
  | .biasBase    => 11
  | .scrBase     => 12
  | .scrSize     => 13
  | .inWidth     => 14
  | .inHeight    => 15
  | .outWidth    => 16
  | .outHeight   => 17
  | .inChannels  => 18
  | .outChannels => 19
  | .nWork       => 20

theorem regAt_eq_param {n : Nat} {p : ParamReg} : regAt n = .param p ↔ n = p.index := by
  constructor
  · intro h
    unfold regAt at h
    split at h <;> cases h <;> rfl
  · rintro rfl
    cases p <;> rfl

theorem regAt_eq_status {n : Nat} : regAt n = .status ↔ n = 2 := by
  unfold regAt
  split <;> simp_all

theorem regAt_eq_id {n : Nat} : regAt n = .id ↔ n = 0 := by
  unfold regAt
  split <;> simp_all

theorem exists_paramReg_index {k : Nat} (h8 : 8 ≤ k) (h20 : k ≤ 20) : ∃ p : ParamReg, k = p.index := by
  interval_cases k <;> exact ⟨_, regAt_eq_param.mp rfl⟩

theorem regAt_reserved {n : Nat} (h : n = 6 ∨ n = 7 ∨ 20 < n) : regAt n = .reserved := by
  unfold regAt
  split <;> simp_all

theorem regAt_of_readOnly {n : Nat} (h : n = 0 ∨ n = 4 ∨ n = 5 ∨ n = 6 ∨ n = 7 ∨ 20 < n) :
    regAt n ∈ [Reg.id, .err, .stage, .reserved] := by
  rcases h with rfl | rfl | rfl | h
  · simp [regAt]
  · simp [regAt]
  · simp [regAt]
  · simp [regAt_reserved h]

/-! ## The bits of `STATUS` and `CTRL` -/

theorem Status.toNat_word (t : Status) :
    t.word.toNat = t.busy.toNat + 2 * t.done.toNat + 4 * t.error.toNat + 8 * t.ovr.toNat := by
  obtain ⟨b, d, e, o⟩ := t
  revert b d e o
  decide

theorem Status.getLsbD_word (t : Status) (n : Nat) :
    t.word.getLsbD n = match n with
      | 0 => t.busy
      | 1 => t.done
      | 2 => t.error
      | 3 => t.ovr
      | _ => false := by
  rw [Status.word]
  simp only [BitVec.getLsbD_append]
  rcases n with _ | _ | _ | _ | n <;> simp

/-- Write-one-to-clear, as the host reads it (`10_state.md` R15). -/
theorem Status.word_clear (t : Status) (v : Word) : (t.clear v).word = t.word &&& ~~~(v &&& 0xE#64) := by
  refine BitVec.eq_of_getLsbD_eq fun n hn => ?_
  rw [BitVec.getLsbD_and, BitVec.getLsbD_not, BitVec.getLsbD_and, Status.getLsbD_word, Status.getLsbD_word]
  rcases n with _ | _ | _ | _ | n <;> simp

theorem getLsbD_ctrlWord (ie : Bool) (n : Nat) : (ctrlWord ie).getLsbD n = (decide (n = 0) && ie) := by
  rw [ctrlWord]
  simp only [BitVec.getLsbD_append]
  rcases n with _ | n <;> simp

theorem toNat_ctrlWord (ie : Bool) : (ctrlWord ie).toNat = ie.toNat := by cases ie <;> rfl

theorem ctrlWord_and_high (ie : Bool) : ctrlWord ie &&& ~~~1#64 = 0 := by cases ie <;> rfl

theorem ctrlWord_getLsbD_zero (v : Word) : ctrlWord (v.getLsbD 0) = v &&& 1#64 := by
  refine BitVec.eq_of_getLsbD_eq fun n hn => ?_
  rw [getLsbD_ctrlWord, BitVec.getLsbD_and]
  rcases n with _ | n <;> simp

/-! ## Register writes -/

section
variable (s : State) (v : Word)

theorem State.writeReg_param (p : ParamReg) : s.writeReg p.index v = { s with params := s.params.set v p } := by
  simp only [State.writeReg, regAt_eq_param.mpr rfl]

theorem State.writeReg_status : s.writeReg 2 v = { s with status := s.status.clear v } := rfl

theorem State.writeReg_ctrl : s.writeReg 3 v = { s with ie := v.getLsbD 0 } := rfl

/-- Writes to `ID`, `ERR`, `STAGE` and the reserved registers are ignored (`10_state.md` R13, R17 to R19). -/
theorem State.writeReg_readOnly {n : Nat} (h : n = 0 ∨ n = 4 ∨ n = 5 ∨ n = 6 ∨ n = 7 ∨ 20 < n) :
    s.writeReg n v = s := by
  have hn := regAt_of_readOnly h
  unfold State.writeReg
  cases hr : regAt n <;> simp_all

/-! ## What the registers read -/

theorem State.readReg_reserved {n : Nat} (h : n = 6 ∨ n = 7 ∨ 20 < n) : s.readReg n = 0 := by
  simp only [State.readReg, regAt_reserved h]

theorem State.readReg_param (p : ParamReg) : s.readReg p.index = s.params.get p := by
  simp only [State.readReg, regAt_eq_param.mpr rfl]

theorem State.readReg_writeReg_param (p : ParamReg) (n : Nat) :
    (s.writeReg p.index v).readReg n = if n = p.index then v else s.readReg n := by
  rw [State.writeReg_param]
  split
  · next hn =>
    rw [hn, State.readReg_param]
    exact (Params.get_set ..).trans (if_pos rfl)
  · next hn =>
    unfold State.readReg
    cases hr : regAt n with
    | param q =>
      have hq : q ≠ p := fun h => hn (h ▸ regAt_eq_param.mp hr)
      exact (Params.get_set ..).trans (if_neg hq)
    | id | cmd | status | ctrl | err | stage | reserved => rfl

theorem State.readReg_writeReg_status {n : Nat} (hn : n ≠ 2) : (s.writeReg 2 v).readReg n = s.readReg n := by
  rw [State.writeReg_status]
  unfold State.readReg
  cases hr : regAt n with
  | status => exact absurd (regAt_eq_status.mp hr) hn
  | id | cmd | ctrl | err | stage | reserved | param => rfl

theorem State.readReg_reset (n : Nat) : State.reset.readReg n = if n = 0 then idConstant else 0 := by
  split
  · next hn => rw [hn]; rfl
  · next hn =>
    unfold State.readReg
    cases hr : regAt n with
    | id => exact absurd (regAt_eq_id.mp hr) hn
    | param p => exact Params.get_zero p
    | cmd | status | ctrl | err | stage | reserved => rfl

end

/-! ## Host register accesses as steps -/

theorem indexAt_regAddress (cfg : Config) (n : Nat) : indexAt cfg (cfg.regBase + 8 * n) 8 = some n :=
  indexAt_eq_some.mpr ⟨rfl, rfl⟩

theorem indexAt_eq_none {cfg : Config} {a w : Nat}
    (h : a < cfg.regBase ∨ (a - cfg.regBase) % 8 ≠ 0 ∨ w ≠ 8) : indexAt cfg a w = none := by
  unfold indexAt
  rw [if_neg]
  omega

section
variable {s : State} {lead : Option Nat} {es : List HostEvent}

theorem step_host {act : HostAction} (h : s.host = ⟨lead, act⟩ :: es) :
    step s = stepAction act { s with host := es } := by
  simp only [step, h]

theorem step_regRead {n : Nat} (h : s.host = ⟨lead, .regRead (s.cfg.regBase + 8 * n) 8⟩ :: es) :
    step s = .next { s with host := es, hostData := s.readReg n }.carryOn := by
  rw [step_host h]
  simp only [stepAction, State.hostRegRead, indexAt_regAddress, thenCarryOn]
  rfl

/-- A register write that issues no command. -/
theorem step_regWrite {k : Nat} {v : Word} (h : s.host = ⟨lead, .regWrite (s.cfg.regBase + 8 * k) 8 v⟩ :: es)
    (hk : k ≠ 1) : step s = .next ({ s with host := es }.writeReg k v).carryOn := by
  have hi : issuedBy k v = none := by
    rw [Option.eq_none_iff_forall_ne_some]
    exact fun i hi => hk (issuedBy_eq_some.mp hi).1
  rw [step_host h]
  simp only [stepAction, stepRegWrite, indexAt_regAddress, hi]

section
variable {a w : Nat} (ha : a < s.cfg.regBase ∨ (a - s.cfg.regBase) % 8 ≠ 0 ∨ w ≠ 8)
include ha

theorem step_regRead_refused (h : s.host = ⟨lead, .regRead a w⟩ :: es) : step s = .refused .registerAccess := by
  rw [step_host h]
  simp only [stepAction, State.hostRegRead, indexAt_eq_none ha, thenCarryOn]

theorem step_regWrite_refused {v : Word} (h : s.host = ⟨lead, .regWrite a w v⟩ :: es) :
    step s = .refused .registerAccess := by
  rw [step_host h]
  simp only [stepAction, stepRegWrite, indexAt_eq_none ha]

end

end

/-! ## The statements -/

/-- Settles O6: the reset values, register by register. -/
theorem resetRegisters : Obligations.ResetRegisters :=
  ⟨State.readReg_reset, rfl, rfl⟩

/-- Settles O8: the access rule of the window, and the value of each register. -/
theorem registerAccessRule : Obligations.RegisterAccessRule := by
  refine ⟨fun s lead es => ⟨fun n h => step_regRead h, fun a w ha =>
    ⟨step_regRead_refused ha, fun v => step_regWrite_refused ha⟩⟩, fun s => ?_⟩
  have herr : s.err.code.toNat =
      (match s.err with | .none => 0 | .illegal => 1 | .precond => 2 | .alloc => 3 | .bus => 4) := by
    cases s.err <;> rfl
  have hstage : s.stage.code.toNat = (match s.stage with
      | .idle => 0 | .check => 1 | .pad => 2 | .xin => 3 | .repack => 4 | .gemm => 5 | .xout => 6 | .crop => 7
      | .tfilt => 8) := by
    cases s.stage <;> rfl
  exact ⟨rfl, rfl, s.status.toNat_word, toNat_ctrlWord s.ie, herr, hstage, rfl, fun n => s.readReg_reserved⟩

/-- Settles O9. -/
theorem parameterRegistersHoldAnyValue : Obligations.ParameterRegistersHoldAnyValue := by
  intro s k v h8 h20
  obtain ⟨p, rfl⟩ := exists_paramReg_index h8 h20
  exact ⟨s.readReg_writeReg_param v p, by rw [State.writeReg_param], fun lead es h => step_regWrite h (by omega)⟩

/-- Settles O10, from the bits of `STATUS`. -/
theorem statusWriteOneToClear : Obligations.StatusWriteOneToClear := fun s v =>
  ⟨s.status.word_clear v, fun _ => s.readReg_writeReg_status v, rfl, rfl⟩

/-- Settles O11. -/
theorem controlRegister : Obligations.ControlRegister := fun s v =>
  ⟨ctrlWord_getLsbD_zero v, rfl, s.writeReg_ctrl v, ctrlWord_and_high s.ie⟩

/-- Settles O12. -/
theorem readOnlyAndReservedRegisters : Obligations.ReadOnlyAndReservedRegisters := fun s _ v =>
  ⟨s.writeReg_readOnly v, rfl, s.readReg_reserved⟩

/-- Settles O13. -/
theorem registerWritesAsSteps : Obligations.RegisterWritesAsSteps := fun _ _ _ _ _ hk h => step_regWrite h hk

/-- Settles O14: bit 0 of `CTRL` is `IE` and bit 1 of `STATUS` is `DONE`. -/
theorem interruptWire : Obligations.InterruptWire := by
  intro s
  have hie : (s.readReg 3).getLsbD 0 = s.ie := getLsbD_ctrlWord s.ie 0
  have hdone : (s.readReg 2).getLsbD 1 = s.status.done := s.status.getLsbD_word 1
  rw [hie, hdone, State.irq]

end Sys2Proof.Machine
end

section
/-! PROOFS. What a transaction and a step keep (`spec/10_state.md` R12, R14 to R18, `spec/46_convolve.md` R236,
`spec/60_exceptions.md` R251 to R254, R261, R266): the invariant, the latched operands, and the cases of one transaction.
Settles O15, O21, O23 and O24. -/

namespace Sys2Proof.Machine

/-! ## Command words and routes -/

theorem encode_injective : Function.Injective encode := fun i j h =>
  Except.ok.inj ((decode_encode_ok i).symm.trans ((congrArg decode h).trans (decode_encode_ok j)))

theorem Command.route_nodup (i : Instr) : (commandOf i).route.Nodup := by cases i <;> decide

theorem Command.check_not_last (i : Instr) {before : List Stage} : (commandOf i).route ≠ before ++ [.check] := by
  intro h
  have hl : (commandOf i).route.getLast? = some .check := by rw [h, List.getLast?_concat]
  revert hl
  cases i <;> decide

/-- What follows a stage on a route is unique. -/
theorem tail_unique {l b c t u : List Stage} {st : Stage} (hl : l.Nodup) (hb : l = b ++ st :: t)
    (hc : l = c ++ st :: u) : t = u := by
  have hnot : ∀ {x y : List Stage}, l = x ++ st :: y → st ∉ x ∧ st ∉ y := by
    rintro x y rfl
    obtain ⟨-, hy, hxy⟩ := List.nodup_append.mp hl
    exact ⟨fun h => hxy st h st List.mem_cons_self rfl, (List.nodup_cons.mp hy).1⟩
  exact ((List.append_cons_inj_of_notMem (hnot hb).1 (hnot hb).2).mp (hb.symm.trans hc)).2.2

/-! ## The invariant: host actions -/

theorem State.inv_of_zero {s : State} (hwf : s.mem.wf = true) (hstatus : s.status = Status.zero)
    (hstage : s.stage = .idle) (hpending : s.pending = []) : s.Inv where
  canonical := hwf
  atRest _ := ⟨hstage, hpending⟩
  quiet hb := by simp [hstatus] at hb
  inFlight hb := by simp [hstatus] at hb
  units := by simp [hpending]
  errorCode he := by simp [hstatus] at he

section
variable {s : State} (h : s.Inv)
include h

theorem State.Inv.withHost (es : List HostEvent) : { s with host := es }.Inv := { h with }

theorem State.Inv.withHostData (v : Word) : { s with hostData := v }.Inv := { h with }

theorem State.Inv.withIe (b : Bool) : { s with ie := b }.Inv := { h with }

theorem State.Inv.withParams (P : Params) : { s with params := P }.Inv := { h with }

theorem State.Inv.withMem {m : Memory} (hm : m.wf = true) : { s with mem := m }.Inv := { h with canonical := hm }

/-- Bits of `STATUS` may fall, and `OVR` may rise, as long as `BUSY` stays (`60_exceptions.md` R266). -/
theorem State.Inv.withStatus {t : Status} (hb : t.busy = s.status.busy) (hd : t.done = true → s.status.done = true)
    (he : t.error = true → s.status.error = true) : { s with status := t }.Inv where
  canonical := h.canonical
  atRest ht := h.atRest (hb ▸ ht)
  quiet ht := by
    obtain ⟨hdone, herror, herr⟩ := h.quiet (hb ▸ ht)
    exact ⟨by simpa [hdone] using hd, by simpa [herror] using he, herr⟩
  inFlight ht := h.inFlight (hb ▸ ht)
  units := h.units
  errorCode ht := h.errorCode (he ht)

theorem State.Inv.overrun : s.overrun.Inv := h.withStatus (t := s.status.overrun) rfl id id

theorem State.Inv.accept (i : Instr) : (s.accept i).Inv where
  canonical := h.canonical
  atRest hb := by simp at hb
  quiet _ := ⟨rfl, rfl, rfl⟩
  inFlight _ := ⟨i, rfl, rfl, List.mem_cons_self, fun hc => absurd rfl hc⟩
  units := by simp
  errorCode he := by simp at he

theorem State.Inv.takeCommand (i : Instr) : (s.takeCommand i).Inv := by
  rcases s.takeCommand_cases i with ⟨-, ht⟩ | ⟨-, ht⟩ <;> rw [ht]
  · exact h.overrun
  · exact h.accept i

theorem State.Inv.takeIllegal (v : Word) : (s.takeIllegal v).Inv := by
  rcases s.takeIllegal_cases v with ⟨-, ht⟩ | ⟨hb, ht⟩ <;> rw [ht]
  · exact h.overrun
  · exact {
      canonical := h.canonical
      atRest := fun _ => h.atRest hb
      quiet := nofun
      inFlight := nofun
      units := h.units
      errorCode := nofun }

theorem State.Inv.writeReg (n : Nat) (v : Word) : (s.writeReg n v).Inv := by
  rcases s.writeReg_cases n v with ht | ht | ht | ht | ⟨p, -, ht⟩ <;> rw [ht]
  · exact h
  · exact h.takeIllegal v
  · exact h.withStatus rfl (fun hd => (Bool.and_eq_true_iff.mp hd).1) fun he => (Bool.and_eq_true_iff.mp he).1
  · exact h.withIe _
  · exact h.withParams _

theorem State.Inv.resetInput : s.resetInput.Inv :=
  State.inv_of_zero (State.abandon_spec h.canonical).1 rfl rfl rfl

end

/-! ## The invariant: transactions -/

/-- A completed command: the sequencer is at rest, and `ERROR` says whether there is an error code
(`60_exceptions.md` R251). -/
theorem State.inv_of_completed {s : State} {t : Status} {e : ErrCode} (hwf : s.mem.wf = true)
    (hstatus : s.status = t.completed e) (herr : s.err = e) (hstage : s.stage = .idle) (hpending : s.pending = []) :
    s.Inv where
  canonical := hwf
  atRest _ := ⟨hstage, hpending⟩
  quiet hb := by simp [hstatus] at hb
  inFlight hb := by simp [hstatus] at hb
  units := by simp [hpending]
  errorCode he := by simpa [hstatus, herr] using he

/-- A command in flight that enters a stage of its list, its checks having passed. -/
theorem State.Inv.enter {s : State} {i : Instr} {st : Stage} (h : s.Inv) (hb : s.status.busy = true)
    (hl : s.lcmd = encode i) (hst : st ∈ (commandOf i).route) (hv : (commandOf i).verdict s.latch = .none) :
    (s.enter st).Inv where
  canonical := h.canonical
  atRest hb' := by simp [hb] at hb'
  quiet _ := h.quiet hb
  inFlight _ := by
    obtain ⟨j, hj, hc, -⟩ := h.inFlight hb
    obtain rfl := encode_injective (hl.symm.trans hj)
    exact ⟨i, hl, hc, hst, fun _ => hv⟩
  units := by simp [List.nodup_range]
  errorCode := h.errorCode

/-- Some units of the stage have been executed. -/
theorem State.Inv.withUnits {s : State} (h : s.Inv) {n : Nat} {ns : List Nat} {m : Memory} (ws : List Worker)
    (ts : List Turn) (hb : s.status.busy = true) (hperm : (n :: ns).Perm s.pending) (hm : m.wf = true) :
    { s with pending := ns, mem := m, workers := ws, sched := ts }.Inv where
  canonical := hm
  atRest hb' := by simp [hb] at hb'
  quiet := h.quiet
  inFlight := h.inFlight
  units := by
    obtain ⟨hnodup, hunits⟩ := h.units
    exact ⟨(List.nodup_cons.mp (hperm.nodup_iff.mpr hnodup)).2,
      fun k hk => hunits k (hperm.subset (List.mem_cons_of_mem n hk))⟩
  errorCode := h.errorCode

/-- The command in flight is one, its stage is on its route, and past `CHECK` its operands are legal. -/
theorem State.Inv.command {s : State} {i : Instr} (h : s.Inv) (hb : s.status.busy = true) (hl : s.lcmd = encode i) :
    s.stage ∈ (commandOf i).route ∧ (s.stage ≠ .check → (commandOf i).verdict s.latch = .none) := by
  obtain ⟨j, hj, -, hst, hv⟩ := h.inFlight hb
  obtain rfl := encode_injective (hl.symm.trans hj)
  exact ⟨hst, hv⟩

/-- One transaction keeps the invariant and the latched word. -/
theorem Command.transact_inv {s : State} {i : Instr} (h : s.Inv) (hb : s.status.busy = true)
    (hl : s.lcmd = encode i) : ((commandOf i).transact s).Inv ∧ ((commandOf i).transact s).lcmd = encode i := by
  obtain ⟨hst, hv⟩ := h.command hb hl
  rcases Command.transact_cases h.canonical hst hv h.units.2 with
    ⟨-, -, ht⟩ | ⟨hv, -, b, st, a, hr, ht⟩ | ⟨-, -, -, ht⟩ | ⟨-, -, w, x, -, hperm, hw, hwf, -, -, ht⟩ | ⟨-, -, -, ht⟩ <;>
    rw [ht]
  · exact ⟨State.inv_of_completed h.canonical rfl rfl rfl rfl, hl⟩
  · exact ⟨h.enter hb hl (by simp [hr]) hv, hl⟩
  · obtain ⟨hwf, -, hf⟩ := Command.finish_spec (c := commandOf i) h.canonical
    exact ⟨State.inv_of_completed hwf (by rw [hf]) (by rw [hf]) (by rw [hf]) (by rw [hf]), by rw [hf, hl]⟩
  · rw [hw] at hwf ⊢
    exact ⟨h.withUnits _ _ hb hperm hwf, hl⟩
  · obtain ⟨hwf, -, hf⟩ := Command.busError_spec (c := commandOf i) h.canonical
    exact ⟨State.inv_of_completed hwf (by rw [hf]) (by rw [hf]) (by rw [hf]) (by rw [hf]), by rw [hf, hl]⟩

theorem Command.transactions_inv {i : Instr} (n : Nat) : ∀ {s : State}, s.Inv →
    (s.status.busy = true → s.lcmd = encode i) → ((commandOf i).transactions n s).Inv := by
  induction n with
  | zero => exact fun h _ => h
  | succ n ih =>
    intro s h hl
    cases hb : s.status.busy with
    | false => rwa [Command.transactions_idle _ _ hb]
    | true =>
      obtain ⟨h', hl'⟩ := Command.transact_inv h hb (hl hb)
      rw [Command.transactions_busy _ _ hb]
      exact ih h' fun _ => hl'

theorem State.Inv.carryOn {s : State} (h : s.Inv) : s.carryOn.Inv := by
  cases hb : s.status.busy with
  | false => rwa [State.carryOn_idle hb]
  | true =>
    obtain ⟨i, hl, -⟩ := h.inFlight hb
    rw [State.carryOn_of_lcmd hl]
    exact Command.transactions_inv _ h fun _ => hl

/-- Settles O23. -/
theorem resetHasInvariant : Obligations.ResetHasInvariant :=
  State.inv_of_zero State.reset_wf rfl rfl rfl

/-- Settles O24: every host action keeps the invariant, and so does what the core then does. -/
theorem stepKeepsInvariant : Obligations.StepKeepsInvariant := by
  intro s t h hstep
  rcases step_next hstep with ⟨-, rfl⟩ | ⟨e, es, -, hact⟩
  · exact h.carryOn
  · have hs : { s with host := es }.Inv := h.withHost es
    rcases hact with ⟨n, -, rfl⟩ | ⟨v, i, -, -, rfl⟩ | ⟨n, v, -, -, rfl⟩ | ⟨a, -, -, -, rfl⟩ | ⟨a, v, -, -, -, rfl⟩ |
      ⟨-, rfl⟩
    · exact (hs.withHostData _).carryOn
    · exact (hs.takeCommand i).carryOn
    · exact (hs.writeReg n v).carryOn
    · exact (hs.withHostData _).carryOn
    · exact (hs.withMem (Memory.wf_write h.canonical a.isLt)).carryOn
    · exact hs.resetInput

/-! ## The cases of one transaction -/

/-- What a bus error leaves unspecified, and what a unit writes: before the last stage of the pipeline the scratch it
needs only (`46_convolve.md` R235, R238). -/
theorem Command.dirtied_sub_scratch {i : Instr} {P : Params} {st : Stage} {r : Region}
    (hi : i = .convolve ∨ i = .convolveB) (hst : st ≠ .crop) (hr : r ∈ (commandOf i).dirtied P st) :
    r ∈ (commandOf i).scratchUse P := by
  have hnone : (commandOf i).reached P st = [] := by
    rcases hi with rfl | rfl <;> exact if_pos (by simpa [commandOf, convolveCommand, convolveBCommand] using hst.symm)
  simpa [Command.dirtied, hnone] using hr

section
variable {i : Instr} {s : State} (h : s.Inv) (hb : s.status.busy = true) (hl : s.lcmd = encode i)
include h

theorem State.Inv.pending_check (hc : s.stage = .check) : s.pending = [] := by
  rw [List.eq_nil_iff_forall_not_mem]
  intro n hn
  have hlt : n < s.stage.units s.latch := h.units.2 n hn
  simp [hc, Stage.units] at hlt

include hb hl

/-- A transaction writes no register of the host's but `STATUS`, `ERR` and `STAGE`. -/
theorem Command.transact_registers :
    ((commandOf i).transact s).cmd = s.cmd ∧ ((commandOf i).transact s).ie = s.ie ∧
    ((commandOf i).transact s).params = s.params ∧ ((commandOf i).transact s).host = s.host := by
  obtain ⟨hst, hv⟩ := h.command hb hl
  rcases Command.transact_cases h.canonical hst hv h.units.2 with
    ⟨-, -, ht⟩ | ⟨-, -, b, st, a, -, ht⟩ | ⟨-, -, -, ht⟩ | ⟨-, -, w, x, -, -, hw, -, -, -, ht⟩ | ⟨-, -, -, ht⟩ <;> rw [ht]
  · exact ⟨rfl, rfl, rfl, rfl⟩
  · exact ⟨rfl, rfl, rfl, rfl⟩
  · rw [(Command.finish_spec h.canonical).2.2]; exact ⟨rfl, rfl, rfl, rfl⟩
  · rw [hw]; exact ⟨rfl, rfl, rfl, rfl⟩
  · rw [(Command.busError_spec h.canonical).2.2]; exact ⟨rfl, rfl, rfl, rfl⟩

/-- `CHECK` refuses the command (`60_exceptions.md` R252, R253). -/
theorem Command.transact_refuses (hc : s.stage = .check) (hf : (commandOf i).verdict s.latch ≠ .none) :
    (commandOf i).transact s = s.complete ((commandOf i).verdict s.latch) := by
  obtain ⟨hst, hv⟩ := h.command hb hl
  rcases Command.transact_cases h.canonical hst hv h.units.2 with
    ⟨-, -, ht⟩ | ⟨hpass, -⟩ | ⟨hnc, -⟩ | ⟨hnc, -⟩ | ⟨hnc, -⟩
  · exact ht
  · exact absurd hpass hf
  all_goals exact absurd hc hnc

/-- The barrier into the next stage; which one it is, is unique, because no route names a stage twice. -/
theorem Command.transact_enters (hv : s.stage = .check → (commandOf i).verdict s.latch = .none)
    (hp : s.pending = []) {before after : List Stage} {st : Stage}
    (hr : (commandOf i).route = before ++ s.stage :: st :: after) : (commandOf i).transact s = s.enter st := by
  obtain ⟨hst, hlegal⟩ := h.command hb hl
  rcases Command.transact_cases h.canonical hst hlegal h.units.2 with
    ⟨hc, hf, -⟩ | ⟨-, -, b, st', a, hr', ht⟩ | ⟨-, -, ⟨b, hr'⟩, -⟩ | ⟨-, hne, -⟩ | ⟨-, hne, -⟩
  · exact absurd (hv hc) hf
  · obtain ⟨rfl, -⟩ := List.cons.inj (tail_unique (Command.route_nodup i) hr hr')
    exact ht
  · exact nomatch tail_unique (Command.route_nodup i) hr hr'
  all_goals exact absurd hp hne

/-- The end of the last stage. -/
theorem Command.transact_finishes (hp : s.pending = []) {before : List Stage}
    (hr : (commandOf i).route = before ++ [s.stage]) : (commandOf i).transact s = (commandOf i).finish s := by
  obtain ⟨hst, hlegal⟩ := h.command hb hl
  rcases Command.transact_cases h.canonical hst hlegal h.units.2 with
    ⟨hc, -⟩ | ⟨-, -, b, st', a, hr', -⟩ | ⟨-, -, -, ht⟩ | ⟨-, hne, -⟩ | ⟨-, hne, -⟩
  · exact absurd (hc ▸ hr) (Command.check_not_last i)
  · exact nomatch tail_unique (Command.route_nodup i) hr hr'
  · exact ht
  all_goals exact absurd hp hne

/-- With units left, the transaction is one unit of work (`60_exceptions.md` R261, R254). -/
theorem Command.transact_works (hp : s.pending ≠ []) :
    (∃ x, (commandOf i).nextUnit s = some x ∧
      (s.pending.getD s.pick 0 :: ((commandOf i).transact s).pending).Perm s.pending ∧
      memoryKept ((commandOf i).dirtied s.latch s.stage) s ((commandOf i).transact s) ∧
      (commandOf i).transact s = { s with
        pending := ((commandOf i).transact s).pending, mem := x.mem, workers := ((commandOf i).transact s).workers,
        sched := ((commandOf i).transact s).sched }) ∨
    ((commandOf i).nextUnit s = none ∧ (commandOf i).transact s = (commandOf i).busError s) := by
  obtain ⟨hst, hlegal⟩ := h.command hb hl
  rcases Command.transact_cases h.canonical hst hlegal h.units.2 with
    ⟨hc, -⟩ | ⟨-, hc | hn, -⟩ | ⟨-, hn, -⟩ | ⟨-, -, w, x, hx, hperm, hw, -, hkept, -, ht⟩ | ⟨-, -, hx, ht⟩
  · exact absurd (h.pending_check hc) hp
  · exact absurd (h.pending_check hc) hp
  · exact absurd hn hp
  · exact absurd hn hp
  · exact .inl ⟨x, hx, by rw [ht]; exact ⟨hperm, hkept, hw⟩⟩
  · exact .inr ⟨hx, ht⟩

end

/-- Settles O21, one transaction in each of its cases. -/
theorem stageAdvancesForward : Obligations.StageAdvancesForward := by
  intro i s h hb hl c t reach ended
  have hreach : ∀ u, memoryKept (c.dirtied s.latch s.stage) s u → memoryKept reach s u := by
    intro u hu
    refine memoryKept_mono hu fun r hr => ?_
    by_cases hp : (i = .convolve ∨ i = .convolveB) ∧ s.stage ≠ .crop
    · simpa only [reach, if_pos hp] using Command.dirtied_sub_scratch hp.1 hp.2 hr
    · simpa only [reach, if_neg hp] using Command.dirtied_sub hr
  obtain ⟨hcmd, hie, hparams, hhost⟩ := Command.transact_registers h hb hl
  refine ⟨⟨hcmd, hie, hparams, hhost⟩, fun hc hf => ?_, fun hv hp before st after hr => ?_, fun hp before hr => ?_,
    fun hp w hw => ?_, fun hp hw => ?_⟩
  · have ht : t = s.complete (c.verdict s.latch) := Command.transact_refuses h hb hl hc hf
    simp only [ended, ht]
    exact ⟨⟨rfl, rfl, rfl, rfl⟩, rfl⟩
  · have ht : t = s.enter st := Command.transact_enters h hb hl hv hp hr
    rw [ht]
    exact ⟨rfl, rfl, rfl, rfl, rfl⟩
  · have ht : t = c.finish s := Command.transact_finishes h hb hl hp hr
    obtain ⟨-, hkept, hf⟩ := Command.finish_spec (c := c) h.canonical
    simp only [ended, ht]
    exact ⟨by rw [hf]; exact ⟨rfl, rfl, rfl, rfl⟩, hkept⟩
  · rcases Command.transact_works h hb hl hp with ⟨x, hx, hperm, hkept, ht⟩ | ⟨hx, -⟩
    · obtain rfl : x = w := Option.some.inj (hx.symm.trans hw)
      have hrest : t.status = s.status ∧ t.err = s.err ∧ t.stage = s.stage ∧ t.mem = x.mem := by
        simp only [t, c]
        rw [ht]
        exact ⟨rfl, rfl, rfl, rfl⟩
      obtain ⟨hstatus, herr, hstage, hmem⟩ := hrest
      exact ⟨hstatus, herr, hstage, hperm, hmem, hreach t hkept⟩
    · exact nomatch hx.symm.trans hw
  · rcases Command.transact_works h hb hl hp with ⟨x, hx, -⟩ | ⟨-, ht⟩
    · exact nomatch hx.symm.trans hw
    · have ht : t = c.busError s := ht
      obtain ⟨-, hkept, hf⟩ := Command.busError_spec (c := c) h.canonical
      simp only [ended, ht]
      exact ⟨by rw [hf]; exact ⟨rfl, rfl, rfl, rfl⟩, hreach _ hkept⟩

/-! ## The latched operands -/

theorem Command.transact_idle (c : Command) {s : State} (h : s.stage = .idle) : c.transact s = s := by
  simp only [Command.transact, h]

/-- A parameter register is written, and nothing else. -/
def State.setParam (s : State) (v : Word) (p : ParamReg) : State := { s with params := s.params.set v p }

section
variable (s : State) (v : Word) (p : ParamReg)

theorem State.writeReg_eq_setParam : s.writeReg p.index v = s.setParam v p := s.writeReg_param v p

theorem State.setParam_unspecifyAll (rs : List Region) :
    (s.setParam v p).unspecifyAll rs = (s.unspecifyAll rs).setParam v p := by
  induction rs generalizing s with
  | nil => rfl
  | cons r rs ih => exact ih (s.unspecify r.base r.size)

variable (c : Command)

theorem Command.finish_setParam : c.finish (s.setParam v p) = (c.finish s).setParam v p :=
  congrArg (State.complete · .none) (s.setParam_unspecifyAll v p (c.scratchUse s.latch))

theorem Command.busError_setParam : c.busError (s.setParam v p) = (c.busError s).setParam v p :=
  congrArg (State.complete · .bus) (s.setParam_unspecifyAll v p (c.dirtied s.latch s.stage))

theorem Command.checkStage_setParam : c.checkStage (s.setParam v p) = (c.checkStage s).setParam v p := by
  have hlatch : (s.setParam v p).latch = s.latch := rfl
  unfold Command.checkStage
  rw [hlatch]
  cases c.verdict s.latch with
  | none =>
    cases c.stages with
    | nil => exact c.finish_setParam s v p
    | cons st rest => rfl
  | illegal | precond | alloc | bus => rfl

theorem Command.barrier_setParam : c.barrier (s.setParam v p) = (c.barrier s).setParam v p := by
  have hstage : (s.setParam v p).stage = s.stage := rfl
  unfold Command.barrier
  rw [hstage]
  cases stageAfter s.stage c.stages with
  | none => exact c.finish_setParam s v p
  | some st => rfl

theorem Command.workStep_setParam : c.workStep (s.setParam v p) = (c.workStep s).setParam v p := by
  have hunit : c.nextUnit (s.setParam v p) = c.nextUnit s := rfl
  unfold Command.workStep
  rw [hunit]
  cases c.nextUnit s with
  | none => exact c.busError_setParam s v p
  | some w => rfl

/-- A transaction reads the latches, never the parameter registers (`10_state.md` R12). -/
theorem Command.transact_setParam : c.transact (s.setParam v p) = (c.transact s).setParam v p := by
  cases hs : s.stage.working with
  | true =>
    have hpending : (s.setParam v p).pending = s.pending := rfl
    rw [c.transact_working hs, c.transact_working (s := s.setParam v p) hs, hpending]
    split
    · exact c.barrier_setParam s v p
    · exact c.workStep_setParam s v p
  | false =>
    have hrest : s.stage = .idle ∨ s.stage = .check := by
      revert hs
      cases s.stage <;> simp [Stage.working]
    rcases hrest with hi | hc
    · rw [c.transact_idle hi, c.transact_idle (s := s.setParam v p) hi]
    · rw [c.transact_check hc, c.transact_check (s := s.setParam v p) hc]
      exact c.checkStage_setParam s v p

theorem Command.transactions_setParam (n : Nat) :
    c.transactions n (s.setParam v p) = (c.transactions n s).setParam v p := by
  induction n generalizing s with
  | zero => rfl
  | succ n ih =>
    cases hb : s.status.busy with
    | false => rw [c.transactions_idle _ hb, c.transactions_idle (s := s.setParam v p) _ hb]
    | true =>
      rw [c.transactions_busy _ hb, c.transactions_busy (s := s.setParam v p) _ hb, c.transact_setParam, ih]

end

/-- Settles O15: acceptance copies the registers, and every transaction commutes with a parameter write. -/
theorem operandsAreLatched : Obligations.OperandsAreLatched := by
  refine ⟨fun s i hidle => ?_, fun s i k v n h8 h20 => ?_⟩
  · rcases s.takeCommand_cases i with ⟨hb, -⟩ | ⟨-, ht⟩
    · exact absurd hidle (by simp [hb])
    · rw [ht]
      exact ⟨rfl, rfl⟩
  · obtain ⟨p, rfl⟩ := exists_paramReg_index h8 h20
    refine ⟨?_, ?_⟩
    · rw [State.readReg_writeReg_param, if_pos rfl]
    · rw [State.writeReg_eq_setParam, State.writeReg_eq_setParam]
      exact (commandOf i).transactions_setParam s v p n

end Sys2Proof.Machine
end

section
/-! PROOFS. Memory (`spec/20_memory.md` R40 to R42, R51 to R56, R59, R63, R64): the little-endian accesses as sums of
bytes, host memory accesses as steps, and the layouts as mixed radix numbers. Settles O38 to O43. -/

namespace Sys2Proof.Machine

/-! ## Little-endian accesses -/

/-- Appending a low byte is one step of a number in base 256. -/
theorem toNat_append_byte {n : Nat} (hi : BitVec n) (lo : Byte) : (hi ++ lo).toNat = lo.toNat + hi.toNat * 256 := by
  rw [BitVec.toNat_append, ← Nat.shiftLeft_add_eq_or_of_lt lo.isLt, Nat.shiftLeft_eq, Nat.add_comm]

theorem Memory.toNat_read16 (m : Memory) (a : Nat) :
    (m.read16 a).toNat = (m.read a).toNat + (m.read (a + 1)).toNat * 256 := toNat_append_byte _ _

theorem Memory.toNat_read32 (m : Memory) (a : Nat) :
    (m.read32 a).toNat = (m.read a).toNat + (m.read (a + 1)).toNat * 256 + (m.read (a + 2)).toNat * 256 ^ 2 +
      (m.read (a + 3)).toNat * 256 ^ 3 := by
  rw [Memory.read32, toNat_append_byte, toNat_append_byte, toNat_append_byte]
  ring

/-- The half at an address is the low half of the single there. -/
theorem Memory.read16_eq_setWidth_read32 (m : Memory) (a : Nat) : m.read16 a = (m.read32 a).setWidth 16 := by
  have h0 := (m.read a).isLt
  have h1 := (m.read (a + 1)).isLt
  apply BitVec.eq_of_toNat_eq
  rw [BitVec.toNat_setWidth, Memory.toNat_read16, Memory.toNat_read32]
  omega

theorem toNat_halfByte_zero (v : Half) : (halfByte v 0).toNat = v.toNat % 256 := by simp [halfByte]

theorem toNat_halfByte_one (v : Half) : (halfByte v 1).toNat = v.toNat / 256 := by
  have hv := v.isLt
  simp only [halfByte, BitVec.extractLsb'_toNat, Nat.shiftRight_eq_div_pow]
  omega

section
variable {m : Memory} {a : Nat} {v : Half} (hm : m.wf = true) (ha : a + 2 ≤ addrSpace)
include hm ha

theorem Memory.read_write16_low : (m.write16 a v).read a = halfByte v 0 := by
  rw [Memory.read_write16 hm ha, if_pos (by omega), Nat.sub_self]

theorem Memory.read_write16_high : (m.write16 a v).read (a + 1) = halfByte v 1 := by
  rw [Memory.read_write16 hm ha, if_pos (by omega), Nat.add_sub_cancel_left]

theorem Memory.read_write16_other {b : Nat} (h0 : b ≠ a) (h1 : b ≠ a + 1) :
    (m.write16 a v).read b = m.read b := by
  rw [Memory.read_write16 hm ha, if_neg (by omega)]

theorem Memory.read16_write16 : (m.write16 a v).read16 a = v :=
  Memory.read16_eq (Memory.read_write16_low hm ha) (Memory.read_write16_high hm ha)

end

/-! ## Which host accesses race -/

section
variable {s : State} {i : Instr} {a : Nat}

theorem State.liveRegions_idle (h : s.status.busy = false) : s.liveRegions = [] := by
  simp [State.liveRegions, h]

theorem State.liveRegions_of_lcmd (hb : s.status.busy = true) (hl : s.lcmd = encode i) :
    s.liveRegions = (commandOf i).regions s.latch := by
  simp [State.liveRegions, hb, State.inFlight_of_lcmd hl]

theorem State.writeRaces_idle (h : s.status.busy = false) : s.writeRaces a = false := by
  simp [State.writeRaces, State.liveRegions_idle h]

theorem State.readRaces_idle (h : s.status.busy = false) : s.readRaces a = false := by
  simp [State.readRaces, State.liveRegions_idle h]

theorem State.writeRaces_iff (hb : s.status.busy = true) (hl : s.lcmd = encode i) :
    s.writeRaces a = true ↔ ∃ r ∈ (commandOf i).regions s.latch, r.holds a = true := by
  simp [State.writeRaces, State.liveRegions_of_lcmd hb hl]

theorem State.readRaces_iff (hb : s.status.busy = true) (hl : s.lcmd = encode i) :
    s.readRaces a = true ↔
      ∃ r ∈ (commandOf i).regions s.latch, (r.role = .dest ∨ r.role = .scratch) ∧ r.holds a = true := by
  simp [State.readRaces, State.liveRegions_of_lcmd hb hl]

end

/-! ## Host memory accesses as steps -/

section
variable {s : State} {lead : Option Nat} {a : Word} {es : List HostEvent}

/-- The queue does not matter to what races. -/
theorem State.writeRaces_withHost (b : Nat) : { s with host := es }.writeRaces b = s.writeRaces b := rfl

theorem State.readRaces_withHost (b : Nat) : { s with host := es }.readRaces b = s.readRaces b := rfl

theorem step_memWrite {v : Byte} (h : s.host = ⟨lead, .memWrite a v⟩ :: es) (hr : s.writeRaces a.toNat = false)
    (hb : backs s.cfg a.toNat 1 = true) :
    step s = .next { s with host := es, mem := s.mem.write a.toNat v }.carryOn := by
  rw [step_host h]
  simp [stepAction, State.hostMemWrite, State.writeRaces_withHost, hr, hb, thenCarryOn]

theorem step_memRead (h : s.host = ⟨lead, .memRead a⟩ :: es) (hr : s.readRaces a.toNat = false)
    (hb : backs s.cfg a.toNat 1 = true) :
    step s = .next { s with host := es, hostData := (s.mem.read a.toNat).setWidth 64 }.carryOn := by
  rw [step_host h]
  simp [stepAction, State.hostMemRead, State.readRaces_withHost, hr, hb, thenCarryOn]

theorem step_memWrite_refused {v : Byte} (h : s.host = ⟨lead, .memWrite a v⟩ :: es)
    (hr : s.writeRaces a.toNat = true) : step s = .refused .hostRace := by
  rw [step_host h]
  simp [stepAction, State.hostMemWrite, State.writeRaces_withHost, hr, thenCarryOn]

theorem step_memRead_refused (h : s.host = ⟨lead, .memRead a⟩ :: es) (hr : s.readRaces a.toNat = true) :
    step s = .refused .hostRace := by
  rw [step_host h]
  simp [stepAction, State.hostMemRead, State.readRaces_withHost, hr, thenCarryOn]

/-- With no command in flight nothing races, and the core does nothing after the access. -/
theorem step_memWrite_idle {v : Byte} (h : s.host = ⟨lead, .memWrite a v⟩ :: es) (hidle : s.status.busy = false)
    (hb : backs s.cfg a.toNat 1 = true) : step s = .next { s with host := es, mem := s.mem.write a.toNat v } :=
  (step_memWrite h (State.writeRaces_idle hidle) hb).trans (congrArg _ (State.carryOn_idle hidle))

theorem step_memRead_idle (h : s.host = ⟨lead, .memRead a⟩ :: es) (hidle : s.status.busy = false)
    (hb : backs s.cfg a.toNat 1 = true) :
    step s = .next { s with host := es, hostData := (s.mem.read a.toNat).setWidth 64 } :=
  (step_memRead h (State.readRaces_idle hidle) hb).trans (congrArg _ (State.carryOn_idle hidle))

end

/-! ## Mixed radix -/

/-- A number of two digits determines them. -/
theorem digits_inj {n a x b y : Nat} (hx : x < n) (hy : y < n) : a * n + x = b * n + y ↔ a = b ∧ x = y := by
  refine ⟨fun h => ⟨?_, ?_⟩, fun ⟨ha, hxy⟩ => ha ▸ hxy ▸ rfl⟩
  · rw [← digit_high (a := a) hx, h, digit_high hy]
  · rw [← digit_low (a := a) hx, h, digit_low hy]

/-- Every number below `m * n` has two digits. -/
theorem exists_digits {m n e : Nat} (h : e < m * n) : ∃ a x, a < m ∧ x < n ∧ a * n + x = e :=
  ⟨e / n, e % n, Nat.div_lt_of_lt_mul (Nat.mul_comm m n ▸ h), Nat.mod_lt e (Nat.pos_of_lt_mul_left h),
    Nat.div_add_mod' e n⟩

/-! ## The layouts -/

theorem fmIndex_inj {w h g y x l g' y' x' l' : Nat} (hy : y < h) (hx : x < w) (hl : l < 8) (hy' : y' < h)
    (hx' : x' < w) (hl' : l' < 8) :
    fmIndex w h g y x l = fmIndex w h g' y' x' l' ↔ g = g' ∧ y = y' ∧ x = x' ∧ l = l' := by
  simp only [fmIndex, digits_inj hl hl', digits_inj hx hx', digits_inj hy hy', and_assoc]

theorem exists_fmIndex {w h n e : Nat} (he : e < n * h * w * 8) :
    ∃ g y x l, g < n ∧ y < h ∧ x < w ∧ l < 8 ∧ fmIndex w h g y x l = e := by
  obtain ⟨_, l, hpixel, hl, rfl⟩ := exists_digits he
  obtain ⟨_, x, hrow, hx, rfl⟩ := exists_digits hpixel
  obtain ⟨g, y, hg, hy, rfl⟩ := exists_digits hrow
  exact ⟨g, y, x, l, hg, hy, hx, hl, rfl⟩

theorem rfIndex_inj {inCh o i r cc o' i' r' cc' : Nat} (hi : i < inCh) (hr : r < 3) (hc : cc < 3) (hi' : i' < inCh)
    (hr' : r' < 3) (hc' : cc' < 3) :
    rfIndex inCh o i r cc = rfIndex inCh o' i' r' cc' ↔ o = o' ∧ i = i' ∧ r = r' ∧ cc = cc' := by
  simp only [rfIndex, digits_inj hc hc', digits_inj hr hr', digits_inj hi hi', and_assoc]

theorem exists_rfIndex {inCh n e : Nat} (he : e < n * inCh * 3 * 3) :
    ∃ o i r cc, o < n ∧ i < inCh ∧ r < 3 ∧ cc < 3 ∧ rfIndex inCh o i r cc = e := by
  obtain ⟨_, cc, hrow, hc, rfl⟩ := exists_digits he
  obtain ⟨_, r, hfilter, hr, rfl⟩ := exists_digits hrow
  obtain ⟨o, i, ho, hi, rfl⟩ := exists_digits hfilter
  exact ⟨o, i, r, cc, ho, hi, hr, hc, rfl⟩

theorem tfIndex_inj {inCh q k p i j q' k' p' i' j' : Nat} (hk : k < 64) (hp : p < inCh / 8) (hi : i < 8) (hj : j < 8)
    (hk' : k' < 64) (hp' : p' < inCh / 8) (hi' : i' < 8) (hj' : j' < 8) :
    tfIndex inCh q k p i j = tfIndex inCh q' k' p' i' j' ↔ q = q' ∧ k = k' ∧ p = p' ∧ i = i' ∧ j = j' := by
  simp only [tfIndex, digits_inj hj hj', digits_inj hi hi', digits_inj hp hp', digits_inj hk hk', and_assoc]

theorem exists_tfIndex {inCh n e : Nat} (he : e < n * 64 * (inCh / 8) * 8 * 8) :
    ∃ q k p i j, q < n ∧ k < 64 ∧ p < inCh / 8 ∧ i < 8 ∧ j < 8 ∧ tfIndex inCh q k p i j = e := by
  obtain ⟨_, j, hrow, hj, rfl⟩ := exists_digits he
  obtain ⟨_, i, hblock, hi, rfl⟩ := exists_digits hrow
  obtain ⟨_, p, hcoeff, hp, rfl⟩ := exists_digits hblock
  obtain ⟨q, k, hq, hk, rfl⟩ := exists_digits hcoeff
  exact ⟨q, k, p, i, j, hq, hk, hp, hi, hj, rfl⟩

theorem tiIndex_inj {T p k tile i p' k' tile' i' : Nat} (hk : k < 64) (ht : tile < T) (hi : i < 8) (hk' : k' < 64)
    (ht' : tile' < T) (hi' : i' < 8) :
    tiIndex T p k tile i = tiIndex T p' k' tile' i' ↔ p = p' ∧ k = k' ∧ tile = tile' ∧ i = i' := by
  simp only [tiIndex, digits_inj hi hi', digits_inj ht ht', digits_inj hk hk', and_assoc]

theorem exists_tiIndex {T n e : Nat} (he : e < n * 64 * T * 8) :
    ∃ p k tile i, p < n ∧ k < 64 ∧ tile < T ∧ i < 8 ∧ tiIndex T p k tile i = e := by
  obtain ⟨_, i, hlanes, hi, rfl⟩ := exists_digits he
  obtain ⟨_, tile, hcoeff, ht, rfl⟩ := exists_digits hlanes
  obtain ⟨p, k, hp, hk, rfl⟩ := exists_digits hcoeff
  exact ⟨p, k, tile, i, hp, hk, ht, hi, rfl⟩

/-- The block number fixes the stride of the channels, so it is recovered before they are. -/
theorem ti2Index_inj {T inCh k b p i tt k' b' p' i' tt' : Nat} (hb : b < nblk T) (hp : p < inCh / 8) (hi : i < 8)
    (ht : tt < (blockAt T b).2) (hb' : b' < nblk T) (hp' : p' < inCh / 8) (hi' : i' < 8)
    (ht' : tt' < (blockAt T b').2) (h : ti2Index T inCh k b p i tt = ti2Index T inCh k' b' p' i' tt') :
    k = k' ∧ b = b' ∧ p = p' ∧ i = i' ∧ tt = tt' := by
  rw [ti2Index, ti2Index, Nat.add_assoc, Nat.add_assoc,
    digits_inj (ti2_col_lt hb hp hi ht) (ti2_col_lt hb' hp' hi' ht'), digits_inj hb hb'] at h
  obtain ⟨⟨rfl, rfl⟩, hcol⟩ := h
  rw [digits_inj ht ht', digits_inj hi hi'] at hcol
  obtain ⟨⟨rfl, rfl⟩, rfl⟩ := hcol
  exact ⟨rfl, rfl, rfl, rfl, rfl⟩

/-! ## The statements -/

/-- Settles O38. -/
theorem littleEndianReads : Obligations.LittleEndianReads := fun m a =>
  ⟨m.toNat_read16 a, m.toNat_read32 a, m.read16_eq_setWidth_read32 a⟩

/-- Settles O39, from the two bytes a half is stored as. -/
theorem writesReadBack : Obligations.WritesReadBack := by
  intro m a v hm ha
  refine ⟨Memory.read16_write16 hm ha, ?_, ?_, fun b => Memory.read_write16_other hm ha, Memory.wf_write16 hm ha⟩
  · rw [Memory.read_write16_low hm ha, toNat_halfByte_zero]
  · rw [Memory.read_write16_high hm ha, toNat_halfByte_one]

/-- Settles O40: two steps of an idle core. -/
theorem hostMemoryRoundTrip : Obligations.HostMemoryRoundTrip := by
  intro s l1 l2 a v es hidle hwf hb hh
  refine ⟨_, _, step_memWrite_idle hh hidle hb, step_memRead_idle rfl hidle hb, ?_, rfl, fun b hne => ?_, rfl, rfl⟩
  · rw [Memory.read_write hwf, if_pos rfl]
  · rw [Memory.read_write hwf, if_neg hne]

/-- Settles O41, from which accesses race with the command in flight. -/
theorem hostRaceRefused : Obligations.HostRaceRefused := by
  intro i s lead a es hbusy hl
  have hwrite := State.writeRaces_iff (a := a.toNat) hbusy hl
  have hread := State.readRaces_iff (a := a.toNat) hbusy hl
  refine ⟨fun v hh hr => step_memWrite_refused hh (hwrite.mpr hr), fun hh hr => step_memRead_refused hh (hread.mpr hr),
    fun v hh hr hb => step_memWrite hh ?_ hb, fun hh hr hb => step_memRead hh ?_ hb⟩
  · rw [Bool.eq_false_iff, ne_eq, hwrite]
    rintro ⟨r, hmem, hholds⟩
    simp [hr r hmem] at hholds
  · rw [Bool.eq_false_iff, ne_eq, hread]
    rintro ⟨r, hmem, hrole, hholds⟩
    simp [hr r hmem hrole] at hholds

/-- Settles O42, layout by layout; the sizes are put in the order of the digits first. -/
theorem layoutsAreBijections : Obligations.LayoutsAreBijections := by
  refine ⟨fun w h n => ?_, fun inCh outCh => ?_, fun inCh outCh hin hout => ?_, fun T n => ?_,
    fun _ _ _ _ _ => rfl⟩
  · rw [show n * 8 * h * w = n * h * w * 8 by ring]
    exact ⟨fun e => exists_fmIndex, fun g y x l g' y' x' l' hg hy hx hl _ hy' hx' hl' =>
      ⟨fmIndex_lt hg hy hx hl, (fmIndex_inj hy hx hl hy' hx' hl').mp⟩⟩
  · rw [show outCh * inCh * 9 = outCh * inCh * 3 * 3 by ring]
    exact ⟨fun e => exists_rfIndex, fun o i r cc o' i' r' cc' ho hi hr hc _ hi' hr' hc' =>
      ⟨rfIndex_lt ho hi hr hc, (rfIndex_inj hi hr hc hi' hr' hc').mp⟩⟩
  · have hsize : outCh * inCh * 64 = outCh / 8 * 64 * (inCh / 8) * 8 * 8 := by
      calc outCh * inCh * 64 = outCh / 8 * 8 * (inCh / 8 * 8) * 64 := by rw [groups_mul hin, groups_mul hout]
        _ = outCh / 8 * 64 * (inCh / 8) * 8 * 8 := by ring
    rw [hsize]
    exact ⟨fun e => exists_tfIndex, fun q k p i j q' k' p' i' j' hq hk hp hi hj _ hk' hp' hi' hj' =>
      ⟨tfIndex_lt hq hk hp hi hj, (tfIndex_inj hk hp hi hj hk' hp' hi' hj').mp⟩⟩
  · rw [show n * 8 * 64 * T = n * 64 * T * 8 by ring]
    exact ⟨fun e => exists_tiIndex, fun p k tile i p' k' tile' i' hp hk ht hi _ hk' ht' hi' =>
      ⟨tiIndex_lt hp hk ht hi, (tiIndex_inj hk ht hi hk' ht' hi').mp⟩⟩

/-- Settles O43. -/
theorem interleavedLayoutInjective : Obligations.InterleavedLayoutInjective := by
  intro T inCh k b p i tt k' b' p' i' tt' hk hb hp hi ht _ hb' hp' hi' ht'
  rw [Nat.mul_assoc (64 * nblk T)]
  exact ⟨ti2Index_lt hk hb hp hi ht, ti2Index_inj hb hp hi ht hb' hp' hi' ht'⟩

end Sys2Proof.Machine
end

section
/-! PROOFS. Command words (`spec/30_encoding.md` R80 to R86, `spec/60_exceptions.md` R255): the decoder is `instrOf` on
the fields of a word, the fields determine the word, and a write to `CMD` in its cases; and the operands of every
command. Settles O1 to O5 and O16. -/

namespace Sys2Proof

/-! ## The fields of a command word -/

section
variable (w : Word)

theorem fieldsOf_op_toNat : (fieldsOf w).op.toNat = w.toNat % 256 := by
  simp [fieldsOf]

theorem fieldsOf_bias_toNat : (fieldsOf w).bias.toNat = w.toNat / 256 % 2 := by
  simp [fieldsOf, BitVec.getLsbD, Nat.toNat_testBit]

theorem fieldsOf_zero_toNat : (fieldsOf w).zero.toNat = w.toNat / 2 ^ 9 := by
  rw [fieldsOf, BitVec.extractLsb'_toNat, Nat.shiftRight_eq_div_pow]
  omega

theorem fieldsOf_bias_eq_true : (fieldsOf w).bias = true ↔ w.toNat / 256 % 2 = 1 := by
  rw [← fieldsOf_bias_toNat, Bool.toNat_eq_one]

theorem fieldsOf_zero_eq_zero : (fieldsOf w).zero = 0#55 ↔ w.toNat / 2 ^ 9 = 0 := by
  rw [← fieldsOf_zero_toNat, BitVec.toNat_eq, BitVec.toNat_zero]

end

/-- Format `C` has no bit outside its fields (`30_encoding.md` R82). -/
theorem fieldsOf_injective : Function.Injective fieldsOf := by
  intro v w h
  have hop : v.toNat % 256 = w.toNat % 256 := by rw [← fieldsOf_op_toNat, ← fieldsOf_op_toNat, h]
  have hbias : v.toNat / 256 % 2 = w.toNat / 256 % 2 := by rw [← fieldsOf_bias_toNat, ← fieldsOf_bias_toNat, h]
  have hzero : v.toNat / 2 ^ 9 = w.toNat / 2 ^ 9 := by rw [← fieldsOf_zero_toNat, ← fieldsOf_zero_toNat, h]
  exact BitVec.eq_of_toNat_eq (by omega)

/-! ## The opcode table -/

theorem fieldsOf_encode_zero (i : Instr) : (fieldsOf (encode i)).zero = 0#55 := by cases i <;> rfl

/-- The table of R83, read from the command word's side. -/
theorem instrOf_eq_ok {op : Nat} {b : Bool} {i : Instr} :
    instrOf op b = .ok i ↔ op = (fieldsOf (encode i)).op.toNat ∧ b = (fieldsOf (encode i)).bias := by
  constructor
  · intro h
    unfold instrOf at h
    split at h
    case h_11 => split at h <;> cases h
    all_goals cases h <;> exact ⟨rfl, rfl⟩
  · rintro ⟨rfl, rfl⟩
    cases i <;> rfl

/-- The opcodes and bias bits that no row of the table has (`30_encoding.md` R85); past the ten rows there are the
large opcodes, and the bias bit on an opcode that takes none. -/
theorem instrOf_eq_error {op : Nat} {b : Bool} :
    (∃ e, instrOf op b = .error e) ↔ op = 0 ∨ 7 < op ∨ (b = true ∧ op ∈ [1, 2, 3, 4, 6]) := by
  unfold instrOf
  split
  case h_11 =>
    split
    · simp [*]
    · cases b <;> simp_all <;> omega
  all_goals simp

/-! ## The decoder -/

theorem decode_of_zero {w : Word} (h : (fieldsOf w).zero = 0#55) :
    decode w = instrOf (fieldsOf w).op.toNat (fieldsOf w).bias := by
  simp [decode, h]

theorem decode_of_zero_ne {w : Word} (h : (fieldsOf w).zero ≠ 0#55) : decode w = .error .reservedBitsSet := by
  simp [decode, h]

/-- A word of a command has that command's fields, and so is its encoding. -/
theorem decode_eq_ok {w : Word} {i : Instr} : decode w = .ok i ↔ w = encode i := by
  refine ⟨fun h => fieldsOf_injective ?_, fun h => h ▸ Machine.decode_encode_ok i⟩
  by_cases hz : (fieldsOf w).zero = 0#55
  · rw [decode_of_zero hz] at h
    obtain ⟨hop, hbias⟩ := instrOf_eq_ok.mp h
    rw [FormatC.mk.injEq]
    exact ⟨BitVec.eq_of_toNat_eq hop, hbias, hz.trans (fieldsOf_encode_zero i).symm⟩
  · rw [decode_of_zero_ne hz] at h
    cases h

theorem decode_eq_error {w : Word} :
    (∃ e, decode w = .error e) ↔
      (fieldsOf w).zero ≠ 0#55 ∨ ∃ e, instrOf (fieldsOf w).op.toNat (fieldsOf w).bias = .error e := by
  by_cases hz : (fieldsOf w).zero = 0#55
  · simp [decode_of_zero hz, hz]
  · simp [decode_of_zero_ne hz, hz]

/-- Settles O1: the nine words are those of `encode`, and the decoder inverts it. -/
theorem nineWordsExactly : Obligations.NineWordsExactly := ⟨rfl, fun _ _ => decode_eq_ok⟩

/-- Settles O2: each field of R85 as arithmetic on the word. -/
theorem illegalWordsExactly : Obligations.IllegalWordsExactly := by
  intro w
  rw [decode_eq_error, instrOf_eq_error, Ne, fieldsOf_zero_eq_zero, fieldsOf_op_toNat, fieldsOf_bias_eq_true]

/-- Settles O3. -/
theorem sampleWordsDecode : Obligations.SampleWordsDecode := ⟨rfl, rfl, rfl, rfl, rfl⟩

end Sys2Proof

namespace Sys2Proof.Machine

/-! ## Writes to `CMD` as steps -/

theorem State.writeReg_cmd (s : State) (v : Word) : s.writeReg 1 v = s.takeIllegal v := rfl

/-- The event that a command's word of the opcode table stands for. -/
theorem commandEvent_encode (cfg : Config) (i : Instr) :
    commandEvent cfg 64 (encode i).toNat = ⟨none, .regWrite (cfg.regBase + 8) 8 (encode i)⟩ := by
  rw [commandEvent, Nat.mod_eq_of_lt (encode i).isLt, BitVec.ofNat_toNat, BitVec.setWidth_eq]
  rfl

section
variable {s : State} {lead : Option Nat} {es : List HostEvent} {w : Word}
  (h : s.host = ⟨lead, .regWrite (s.cfg.regBase + 8) 8 w⟩ :: es)
include h

/-- A legal word written to `CMD` is the command (`30_encoding.md` R84). -/
theorem step_cmd_legal {i : Instr} (hd : decode w = .ok i) : step s = exec i { s with host := es } := by
  rw [step_host h]
  simp only [stepAction, stepRegWrite, indexAt_regAddress s.cfg 1, issuedBy_eq_some.mpr ⟨rfl, hd⟩]

/-- Any other word written to `CMD` is a register write (`30_encoding.md` R85). -/
theorem step_cmd_illegal {e : Illegal} (hd : decode w = .error e) :
    step s = .next ({ s with host := es }.takeIllegal w).carryOn := by
  have hi : issuedBy 1 w = none := by
    rw [Option.eq_none_iff_forall_ne_some]
    intro i hi
    obtain ⟨-, hok⟩ := issuedBy_eq_some.mp hi
    cases hd.symm.trans hok
  rw [step_host h]
  simp only [stepAction, stepRegWrite, indexAt_regAddress s.cfg 1, hi, State.writeReg_cmd]

/-- While a command is in flight, legal and illegal words are dropped alike (`60_exceptions.md` R255). -/
theorem step_cmd_busy (hb : s.status.busy = true) : step s = .next { s with host := es }.overrun.carryOn := by
  cases hd : decode w with
  | ok i =>
    have hdrop : { s with host := es }.takeCommand i = { s with host := es }.overrun := if_pos hb
    rw [step_cmd_legal h hd, exec_eq_issue, State.issue, hdrop]
  | error e =>
    have hdrop : { s with host := es }.takeIllegal w = { s with host := es }.overrun := if_pos hb
    rw [step_cmd_illegal h hd, hdrop]

/-- An idle core that rejects a word stays idle. -/
theorem step_cmd_rejected {e : Illegal} (hb : s.status.busy = false) (hd : decode w = .error e) :
    step s = .next { s with host := es, cmd := w, err := .illegal, status := s.status.completed .illegal } := by
  have hreject : { s with host := es }.takeIllegal w =
      { s with host := es, cmd := w, err := .illegal, status := s.status.completed .illegal } :=
    if_neg (Bool.eq_false_iff.mp hb)
  rw [step_cmd_illegal h hd, hreject, State.carryOn_idle rfl]

theorem step_cmd_accepted {i : Instr} (hb : s.status.busy = false) (hd : decode w = .ok i) :
    step s = .next ({ s with host := es }.accept i).carryOn := by
  rw [step_cmd_legal h hd, exec_eq_issue, State.issue_idle (s := { s with host := es }) hb]

end

/-- Settles O4. -/
theorem stepRunsTheCommand : Obligations.StepRunsTheCommand :=
  ⟨fun _ _ _ _ _ h hd => step_cmd_legal h hd, fun s i =>
    step_cmd_legal (s := s.withFetchWord 64 (encode i).toNat) (congrArg (· :: s.host) (commandEvent_encode s.cfg i))
      (decode_encode_ok i)⟩

/-- Settles O5; an accepted word is the encoding of its command. -/
theorem commandIssue : Obligations.CommandIssue := by
  refine fun s lead es w h => ⟨fun hb => step_cmd_busy h hb, fun hb e hd => step_cmd_rejected h hb hd,
    fun hb i hd => ?_⟩
  rw [step_cmd_accepted h hb hd, decode_eq_ok.mp hd]
  rfl

/-! ## The operands of the commands -/

theorem Params.rfB_eq_taps (P : Params) : P.rfB = P.outCh * P.inCh * 9 * 4 := by
  rw [Params.rfB, Nat.mul_assoc _ 9 4]

theorem Params.tfB_eq_coefs (P : Params) : P.tfB = P.outCh * P.inCh * 64 * 2 := by
  rw [Params.tfB, Nat.mul_assoc _ 64 2]

/-- The commands without scratch (`30_encoding.md` R86). -/
theorem Command.need_eq_zero {i : Instr} (P : Params) (h : i ∉ [Instr.contract, .convolve, .convolveB]) :
    (commandOf i).need P = 0 := by
  cases i with
  | tfilt | pad | xin | xout | xoutB | crop => rfl
  | contract | convolve | convolveB => exact absurd (by decide) h

/-- Settles O16: the tables of the model, with the two filter sizes multiplied out. -/
theorem operandsOfCommands : Obligations.OperandsOfCommands := by
  intro P
  dsimp only
  rw [← P.rfB_eq_taps, ← P.tfB_eq_coefs]
  exact ⟨rfl, rfl, rfl, rfl, rfl, rfl, rfl, rfl, rfl, rfl, rfl, rfl, rfl, rfl, rfl, rfl, rfl, rfl, rfl, rfl, rfl,
    fun _ => Command.need_eq_zero P⟩

end Sys2Proof.Machine
end

section
/-! PROOFS. The number formats and the rounding (`spec/40_numerics.md` R101, R102, R104, R108). A bit pattern without
its sign is its code, and `Format.magnitude` reads the code and rises strictly with it. So the rounding answers a code,
`Format.roundCode`, and one equivalence (`lt_roundCode_iff`) says which: the midpoints of neighbouring magnitudes are
its thresholds. Settles O46 to O49. -/

namespace Sys2Proof.Machine

/-! ## The formats -/

/-- What the proofs use of a format, as both formats of the spec have it. The codes are the patterns without the sign
bit. -/
structure Format.Lawful (F : Format) : Prop where
  two_le_p : 2 ≤ F.p
  emax_pos : 1 ≤ F.emax
  codes    : 2 ^ (F.width - 1) = F.expCodes * 2 ^ (F.p - 1)

theorem binary16_lawful : binary16.Lawful := ⟨by decide, by decide, by decide⟩

theorem binary32_lawful : binary32.Lawful := ⟨by decide, by decide, by decide⟩

@[simp] theorem binary16_scale : binary16.scale = 24 := rfl

@[simp] theorem binary32_scale : binary32.scale = 149 := rfl

theorem lawful_of_mem {F : Format} (h : F ∈ [binary16, binary32]) : F.Lawful := by
  rcases List.mem_pair.mp h with rfl | rfl
  · exact binary16_lawful
  · exact binary32_lawful

/-- The code of the infinities; the codes below it are those of the finite values. -/
def Format.infCode (F : Format) : Nat := (F.expCodes - 1) * 2 ^ (F.p - 1)

theorem Format.infCode_pos (F : Format) : 0 < F.infCode := Nat.mul_pos (by simp [Format.expCodes]) (by positivity)

theorem Format.infBits_eq (F : Format) (s : Bool) : F.infBits s = F.signBit s + F.infCode := rfl

section
variable {F : Format} (hF : F.Lawful)
include hF

theorem Format.Lawful.two_pow_p : 2 ^ F.p = 2 * 2 ^ (F.p - 1) := by
  rw [← pow_succ', Nat.sub_add_cancel (by have := hF.two_le_p; omega)]

theorem Format.Lawful.two_lt_two_pow_p : 2 < 2 ^ F.p :=
  calc 2 < 2 ^ 2 := by decide
    _ ≤ 2 ^ F.p := Nat.pow_le_pow_right (by decide) hF.two_le_p

theorem Format.Lawful.two_pow_p_pred_even : 2 ^ (F.p - 1) % 2 = 0 := by
  rw [← Nat.dvd_iff_mod_eq_zero]
  exact dvd_pow_self 2 (by have := hF.two_le_p; omega)

theorem Format.Lawful.two_pow_width : 2 ^ F.width = 2 * 2 ^ (F.width - 1) := by
  rw [← pow_succ']
  congr 1
  have hp := hF.codes
  have : 1 < 2 ^ (F.width - 1) := by
    rw [hp, Format.expCodes]
    exact Nat.one_lt_mul_iff.mpr ⟨by omega, by positivity, .inl (by omega)⟩
  rcases h : F.width with _ | w
  · simp [h] at this
  · rfl

theorem Format.Lawful.infCode_add : F.infCode + 2 ^ (F.p - 1) = 2 ^ (F.width - 1) := by
  rw [hF.codes, Format.infCode, ← Nat.succ_mul, Nat.succ_eq_add_one, Nat.sub_add_cancel (by simp [Format.expCodes])]

theorem Format.Lawful.one_lt_infCode : 1 < F.infCode := by
  refine Nat.one_lt_mul_iff.mpr ⟨by simp [Format.expCodes], by positivity, .inl ?_⟩
  have := hF.emax_pos
  rw [Format.expCodes]
  omega

theorem Format.Lawful.infCode_lt : F.infCode < 2 ^ (F.width - 1) := by
  have := hF.infCode_add
  have : 0 < 2 ^ (F.p - 1) := by positivity
  omega

theorem Format.Lawful.signBit_even (s : Bool) : F.signBit s % 2 = 0 := by
  have h : 2 ^ (F.width - 1) % 2 = 0 := by
    rw [hF.codes, Nat.mul_mod, hF.two_pow_p_pred_even, Nat.mul_zero, Nat.zero_mod]
  cases s
  · rfl
  · exact h

theorem Format.Lawful.signBit_add_lt {c : Nat} (s : Bool) (h : c < 2 ^ (F.width - 1)) :
    F.signBit s + c < 2 ^ F.width := by
  rw [hF.two_pow_width]
  cases s <;> simp [Format.signBit] <;> omega

end

/-! ## Magnitudes -/

/-- The magnitude of a code, in units of the smallest subnormal (`40_numerics.md` R101, R102). -/
def Format.magnitude (F : Format) (c : Nat) : Nat :=
  if c / 2 ^ (F.p - 1) = 0 then c % 2 ^ (F.p - 1)
  else (2 ^ (F.p - 1) + c % 2 ^ (F.p - 1)) * 2 ^ (c / 2 ^ (F.p - 1) - 1)

section
variable {F : Format} (hF : F.Lawful)
include hF

theorem Format.Lawful.exists_signBit_add {b : Nat} (hb : b < 2 ^ F.width) :
    ∃ s c, c < 2 ^ (F.width - 1) ∧ b = F.signBit s + c := by
  refine ⟨decide (2 ^ (F.width - 1) ≤ b), b % 2 ^ (F.width - 1), Nat.mod_lt _ (by positivity), ?_⟩
  rw [hF.two_pow_width] at hb
  rcases lt_or_ge b (2 ^ (F.width - 1)) with h | h
  · simp [Format.signBit, Nat.mod_eq_of_lt h, Nat.not_le.mpr h]
  · rw [Nat.mod_eq_sub_mod h, Nat.mod_eq_of_lt (by omega)]
    simp [Format.signBit, h]

/-- What a pattern stands for, by its sign and its code (`40_numerics.md` R101, R102). -/
theorem Format.Lawful.unpack_signBit_add {c : Nat} (s : Bool) (h : c < 2 ^ (F.width - 1)) :
    F.unpack (F.signBit s + c) =
      if c < F.infCode then .fin s (F.magnitude c) else if c = F.infCode then .inf s else .nan := by
  have hH : 0 < 2 ^ (F.p - 1) := by positivity
  have hlow : (F.signBit s + c) % 2 ^ (F.p - 1) = c % 2 ^ (F.p - 1) := by
    cases s <;> simp [Format.signBit, hF.codes]
  have he : c / 2 ^ (F.p - 1) < F.expCodes := Nat.div_lt_of_lt_mul (by rw [Nat.mul_comm, ← hF.codes]; exact h)
  have hexp : (F.signBit s + c) / 2 ^ (F.p - 1) % F.expCodes = c / 2 ^ (F.p - 1) := by
    cases s <;> simp [Format.signBit, hF.codes, Nat.mul_add_div, hH, Nat.mod_eq_of_lt he, Nat.mul_comm F.expCodes]
  have hsign : decide ((F.signBit s + c) / 2 ^ (F.width - 1) % 2 = 1) = s := by
    cases s <;> simp [Format.signBit, Nat.div_eq_of_lt h]
  have hdiv : c / 2 ^ (F.p - 1) = F.expCodes - 1 ↔ F.infCode ≤ c := by
    rw [Format.infCode, ← Nat.le_div_iff_mul_le hH]
    omega
  have hsplit := Nat.div_add_mod' c (2 ^ (F.p - 1))
  simp only [Format.unpack, hlow, hexp, hsign, hdiv]
  rcases lt_or_ge c F.infCode with hlt | hge
  · rw [if_neg (by omega), if_pos hlt, Format.magnitude]
    split <;> rfl
  · have hzero : c % 2 ^ (F.p - 1) = 0 ↔ c = F.infCode := by
      rw [hdiv.mpr hge] at hsplit
      rw [Format.infCode]
      omega
    simp only [if_pos hge, hzero, if_neg (Nat.not_lt.mpr hge)]

theorem Format.Lawful.unpack_eq_fin {b n : Nat} {s : Bool} (hb : b < 2 ^ F.width) :
    F.unpack b = .fin s n ↔ ∃ c < F.infCode, b = F.signBit s + c ∧ n = F.magnitude c := by
  constructor
  · obtain ⟨t, c, hc, rfl⟩ := hF.exists_signBit_add hb
    rw [hF.unpack_signBit_add t hc]
    split
    next hlt =>
      intro h
      cases h
      exact ⟨c, hlt, rfl, rfl⟩
    next => split <;> nofun
  · rintro ⟨c, hc, rfl, rfl⟩
    rw [hF.unpack_signBit_add s (hc.trans hF.infCode_lt), if_pos hc]

theorem Format.Lawful.unpack_infBits (s : Bool) : F.unpack (F.infBits s) = .inf s := by
  rw [F.infBits_eq, hF.unpack_signBit_add s hF.infCode_lt, if_neg (Nat.lt_irrefl _), if_pos rfl]

theorem Format.Lawful.unpack_eq_inf {b : Nat} {s : Bool} (hb : b < 2 ^ F.width) :
    F.unpack b = .inf s ↔ b = F.infBits s := by
  constructor
  · obtain ⟨t, c, hc, rfl⟩ := hF.exists_signBit_add hb
    rw [hF.unpack_signBit_add t hc]
    split
    next => nofun
    next =>
      split
      next heq =>
        intro h
        cases h
        rw [F.infBits_eq, heq]
      next => nofun
  · rintro rfl
    exact hF.unpack_infBits s

/-- A code is `n` above `g` half binades, where `n` is a significand: normal unless `g = 0`. -/
theorem Format.Lawful.exists_significand (c : Nat) :
    ∃ g n, n < 2 ^ F.p ∧ (g = 0 ∨ 2 ^ (F.p - 1) ≤ n) ∧ c = g * 2 ^ (F.p - 1) + n := by
  have hmod := Nat.mod_lt c (show 0 < 2 ^ (F.p - 1) by positivity)
  have hsplit := Nat.div_add_mod' c (2 ^ (F.p - 1))
  rw [hF.two_pow_p]
  rcases h : c / 2 ^ (F.p - 1) with _ | g
  · exact ⟨0, c % 2 ^ (F.p - 1), by omega, .inl rfl, by rw [h] at hsplit; exact hsplit.symm⟩
  · refine ⟨g, 2 ^ (F.p - 1) + c % 2 ^ (F.p - 1), by omega, .inr (by omega), ?_⟩
    rw [h, Nat.succ_mul] at hsplit
    omega

/-- `n` units of `2^g`: one lemma for subnormal, normal, and the first value of the next binade (`n = 2^p`). -/
theorem Format.Lawful.magnitude_eq {g n : Nat} (hn : n ≤ 2 ^ F.p) (hg : g = 0 ∨ 2 ^ (F.p - 1) ≤ n) :
    F.magnitude (g * 2 ^ (F.p - 1) + n) = n * 2 ^ g := by
  have hH : 0 < 2 ^ (F.p - 1) := by positivity
  rw [hF.two_pow_p] at hn
  rcases lt_or_ge n (2 ^ (F.p - 1)) with hlow | hnormal
  · obtain rfl : g = 0 := by omega
    simp [Format.magnitude, Nat.div_eq_of_lt hlow, Nat.mod_eq_of_lt hlow]
  · obtain ⟨f, rfl⟩ := Nat.exists_eq_add_of_le hnormal
    have hcode : g * 2 ^ (F.p - 1) + (2 ^ (F.p - 1) + f) = 2 ^ (F.p - 1) * (g + 1) + f := by ring
    rw [hcode, Format.magnitude, Nat.mul_add_div hH, Nat.mul_add_mod]
    rcases lt_or_ge f (2 ^ (F.p - 1)) with hf | hf
    · simp [Nat.div_eq_of_lt hf, Nat.mod_eq_of_lt hf]
    · obtain rfl : f = 2 ^ (F.p - 1) := by omega
      simp [Nat.div_self hH, pow_succ]
      ring

theorem Format.Lawful.magnitude_subnormal {n : Nat} (hn : n ≤ 2 ^ F.p) : F.magnitude n = n := by
  simpa using hF.magnitude_eq hn (.inl rfl)

theorem Format.Lawful.magnitude_strictMono : StrictMono F.magnitude := by
  refine strictMono_nat_of_lt_succ fun c => ?_
  obtain ⟨g, n, hn, hg, rfl⟩ := hF.exists_significand c
  rw [Nat.add_assoc, hF.magnitude_eq hn.le hg, hF.magnitude_eq hn (by omega)]
  exact Nat.mul_lt_mul_of_pos_right (Nat.lt_succ_self n) (by positivity)

theorem Format.Lawful.magnitude_eq_zero {c : Nat} : F.magnitude c = 0 ↔ c = 0 := by
  rw [← hF.magnitude_strictMono.injective.eq_iff (a := c) (b := 0)]
  simp [Format.magnitude]

end

/-! ## The terms of R104 -/

/-- The unit in the last place is `2^ulpExp` smallest subnormals: `E - emin` of `40_numerics.md` R104. -/
def Format.ulpExp (F : Format) (m k : Nat) : Nat := (F.binade m k - F.emin).toNat

theorem Format.binade_eq (F : Format) (m k : Nat) : F.binade m k = F.emin + F.ulpExp m k := by
  rw [Format.ulpExp, Format.binade]
  omega

section
variable {F : Format} (hF : F.Lawful) {m : Nat} (k : Nat)
include hF

theorem Format.Lawful.shift_eq (m : Nat) : F.shift m k = ((k + F.ulpExp m k : Nat) : Int) - (F.scale : Int) := by
  have := hF.two_le_p
  have := hF.emax_pos
  rw [Format.shift, F.binade_eq, Format.emin, Format.scale]
  omega

/-- The quotient and the remainder of R104 make up the value. -/
theorem Format.Lawful.quotient_add_remainder (m : Nat) :
    F.quotient m k * 2 ^ (k + F.ulpExp m k) + F.remainder m k * 2 ^ F.scale = m * 2 ^ F.scale := by
  rw [Format.quotient, Format.remainder, hF.shift_eq]
  generalize k + F.ulpExp m k = a
  rcases le_total F.scale a with h | h
  · obtain ⟨j, rfl⟩ := Nat.exists_eq_add_of_le h
    have hup : ((F.scale + j : Nat) - F.scale : Int).toNat = j := by omega
    have hdown : (-((F.scale + j : Nat) - F.scale : Int)).toNat = 0 := by omega
    rw [hup, hdown, pow_zero, Nat.mul_one, pow_add, Nat.mul_comm (2 ^ F.scale), ← Nat.mul_assoc, ← Nat.add_mul,
      Nat.div_add_mod']
  · obtain ⟨j, hj⟩ := Nat.exists_eq_add_of_le h
    have hup : ((a : Int) - F.scale).toNat = 0 := by omega
    have hdown : (-((a : Int) - F.scale)).toNat = j := by omega
    rw [hup, hdown, hj, pow_zero, Nat.div_one, Nat.mod_one, Nat.zero_mul, Nat.add_zero, pow_add]
    ring

theorem Format.Lawful.remainder_lt (m : Nat) : F.remainder m k * 2 ^ F.scale < 2 ^ (k + F.ulpExp m k) := by
  rw [Format.remainder, hF.shift_eq]
  generalize k + F.ulpExp m k = a
  rcases le_total F.scale a with h | h
  · obtain ⟨j, rfl⟩ := Nat.exists_eq_add_of_le h
    have hup : ((F.scale + j : Nat) - F.scale : Int).toNat = j := by omega
    rw [hup, pow_add, Nat.mul_comm (2 ^ F.scale)]
    exact Nat.mul_lt_mul_of_pos_right (Nat.mod_lt _ (by positivity)) (by positivity)
  · have hup : ((a : Int) - F.scale).toNat = 0 := by omega
    rw [hup, pow_zero, Nat.mod_one, Nat.zero_mul]
    positivity

theorem Format.Lawful.roundsUp_iff (m : Nat) :
    F.roundsUp m k = true ↔ 2 ^ (k + F.ulpExp m k) < 2 * (F.remainder m k * 2 ^ F.scale) ∨
      2 * (F.remainder m k * 2 ^ F.scale) = 2 ^ (k + F.ulpExp m k) ∧ F.quotient m k % 2 = 1 := by
  simp only [Format.roundsUp, Bool.or_eq_true, Bool.and_eq_true, decide_eq_true_eq]
  rw [Format.remainder, hF.shift_eq]
  generalize k + F.ulpExp m k = a
  rcases le_total F.scale a with h | h
  · obtain ⟨j, rfl⟩ := Nat.exists_eq_add_of_le h
    have hup : ((F.scale + j : Nat) - F.scale : Int).toNat = j := by omega
    have hpos : 0 < 2 ^ F.scale := by positivity
    rw [hup, pow_add, Nat.mul_comm (2 ^ F.scale) (2 ^ j), ← Nat.mul_assoc, Nat.mul_lt_mul_right hpos,
      Nat.mul_left_inj hpos.ne']
  · have hup : ((a : Int) - F.scale).toNat = 0 := by omega
    have hpos : 0 < 2 ^ a := by positivity
    simp [hup, Nat.mod_one, hpos.ne]

theorem Format.Lawful.quotient_lt (m : Nat) : F.quotient m k < 2 ^ F.p := by
  have hvalue := hF.quotient_add_remainder k m
  have hexp : Nat.log2 m + 1 + F.scale ≤ F.p + (k + F.ulpExp m k) := by
    have := hF.two_le_p
    have := hF.emax_pos
    rw [Format.ulpExp, Format.binade, Format.emin, Format.scale]
    omega
  have hm : m * 2 ^ F.scale < 2 ^ F.p * 2 ^ (k + F.ulpExp m k) := by
    calc m * 2 ^ F.scale < 2 ^ (Nat.log2 m + 1) * 2 ^ F.scale :=
          Nat.mul_lt_mul_of_pos_right Nat.lt_log2_self (by positivity)
      _ = 2 ^ (Nat.log2 m + 1 + F.scale) := (pow_add ..).symm
      _ ≤ 2 ^ (F.p + (k + F.ulpExp m k)) := Nat.pow_le_pow_right (by decide) hexp
      _ = _ := pow_add ..
  exact Nat.lt_of_mul_lt_mul_right (a := 2 ^ (k + F.ulpExp m k)) (by omega)

theorem Format.Lawful.le_quotient (hm : 0 < m) : F.ulpExp m k = 0 ∨ 2 ^ (F.p - 1) ≤ F.quotient m k := by
  rcases Nat.eq_zero_or_pos (F.ulpExp m k) with h | h
  · exact .inl h
  · right
    have hvalue := hF.quotient_add_remainder k m
    have hrem := hF.remainder_lt k m
    have hexp : F.p - 1 + (k + F.ulpExp m k) ≤ Nat.log2 m + F.scale := by
      have := hF.two_le_p
      have := hF.emax_pos
      revert h
      rw [Format.ulpExp, Format.binade, Format.emin, Format.scale]
      omega
    have hm : 2 ^ (F.p - 1) * 2 ^ (k + F.ulpExp m k) ≤ m * 2 ^ F.scale := by
      calc 2 ^ (F.p - 1) * 2 ^ (k + F.ulpExp m k) = 2 ^ (F.p - 1 + (k + F.ulpExp m k)) := (pow_add ..).symm
        _ ≤ 2 ^ (Nat.log2 m + F.scale) := Nat.pow_le_pow_right (by decide) hexp
        _ = 2 ^ Nat.log2 m * 2 ^ F.scale := pow_add ..
        _ ≤ m * 2 ^ F.scale := Nat.mul_le_mul_right _ (Nat.log2_self_le hm.ne')
    refine Nat.le_of_lt_succ (Nat.lt_of_mul_lt_mul_right (a := 2 ^ (k + F.ulpExp m k)) ?_)
    rw [Nat.succ_mul]
    omega

end

/-! ## The codes that R104 and R108 answer -/

/-- The last line of R104 is the sign and the code. -/
theorem Format.pack_eq (F : Format) {g n : Nat} (neg : Bool) (hg : g = 0 ∨ 2 ^ (F.p - 1) ≤ n) :
    F.pack neg n (F.emin + g) = F.signBit neg + (g * 2 ^ (F.p - 1) + n) := by
  have hexp : (F.emin + g + F.emax).toNat = g + 1 := by rw [Format.emin]; omega
  rw [Format.pack, hexp]
  split
  next h =>
    obtain rfl : g = 0 := by omega
    rw [Nat.zero_mul, Nat.zero_add]
  next h =>
    rw [Nat.succ_mul]
    omega

/-- The greatest code whose magnitude is not above the value (`le_floorCode_iff`). -/
def Format.floorCode (F : Format) (m k : Nat) : Nat := F.ulpExp m k * 2 ^ (F.p - 1) + F.quotient m k

/-- The code of the rounded value, not yet held to the infinity (`lt_roundCode_iff`, `round_eq`). -/
def Format.roundCode (F : Format) (m k : Nat) : Nat := F.floorCode m k + (F.roundsUp m k).toNat

section
variable {F : Format} (hF : F.Lawful) {m : Nat} (k : Nat)
include hF

/-- `E > emax` in R104 says that the code is beyond the finite ones. -/
theorem Format.Lawful.emax_lt_iff {g n : Nat} (hn : n < 2 ^ F.p) (hg : g = 0 ∨ 2 ^ (F.p - 1) ≤ n) :
    (F.emax : Int) < F.emin + g ↔ F.infCode ≤ g * 2 ^ (F.p - 1) + n := by
  have hemax := hF.emax_pos
  have hinf : F.infCode = (2 * F.emax - 1) * 2 ^ (F.p - 1) + 2 * 2 ^ (F.p - 1) := by
    rw [← Nat.add_mul, Format.infCode, Format.expCodes]
    congr 1
    omega
  rw [hF.two_pow_p] at hn
  rw [Format.emin, hinf]
  rcases le_or_gt g (2 * F.emax - 1) with h | h
  · have := Nat.mul_le_mul_right (2 ^ (F.p - 1)) h
    omega
  · have := Nat.mul_le_mul_right (2 ^ (F.p - 1)) (Nat.succ_le_of_lt h)
    rw [Nat.succ_mul] at this
    omega

/-- The overflow check of R104 with what it guards. -/
theorem Format.Lawful.overflow_or_pack {g n : Nat} (neg : Bool) (x : Nat) (hn : n < 2 ^ F.p)
    (hg : g = 0 ∨ 2 ^ (F.p - 1) ≤ n) :
    (if (F.emax : Int) < F.emin + g then x else F.pack neg n (F.emin + g)) =
      if F.infCode ≤ g * 2 ^ (F.p - 1) + n then x else F.signBit neg + (g * 2 ^ (F.p - 1) + n) := by
  rw [F.pack_eq neg hg, if_congr (hF.emax_lt_iff hn hg) rfl rfl]

/-- R104 answers the sign and the rounded code, held to the infinity. -/
theorem Format.Lawful.round_eq (neg : Bool) (hm : 0 < m) :
    F.round neg m k = F.signBit neg + min (F.roundCode m k) F.infCode := by
  have hq := hF.quotient_lt k m
  have hg := hF.le_quotient k hm
  have hup : (if F.roundsUp m k then F.quotient m k + 1 else F.quotient m k) =
      F.quotient m k + (F.roundsUp m k).toNat := by cases F.roundsUp m k <;> rfl
  have hle := Bool.toNat_le (F.roundsUp m k)
  have hheld (c : Nat) : (if F.infCode ≤ c then F.infBits neg else F.signBit neg + c) =
      F.signBit neg + min c F.infCode := by
    rw [F.infBits_eq]
    split <;> omega
  simp only [Format.round, hup, F.binade_eq, Format.roundCode, Format.floorCode]
  split
  next hcarry =>
    have hpow := hF.two_pow_p
    have hpos : 0 < 2 ^ (F.p - 1) := by positivity
    have hnext := hF.overflow_or_pack (g := F.ulpExp m k + 1) neg (F.infBits neg)
      (show 2 ^ (F.p - 1) < 2 ^ F.p by omega) (.inr le_rfl)
    rw [Nat.cast_add, Nat.cast_one, ← Int.add_assoc, hheld, Nat.succ_mul] at hnext
    rw [hnext]
    congr 2
    omega
  next hcarry =>
    rw [hF.overflow_or_pack neg _ (by omega) (by omega), hheld, Nat.add_assoc]

/-- R108 toward zero answers the sign and the code not above the value, held to the largest finite one. -/
theorem Format.Lawful.truncate_eq (neg : Bool) (hm : 0 < m) :
    F.truncate neg m k = F.signBit neg + min (F.floorCode m k) (F.infCode - 1) := by
  have := F.infCode_pos
  rw [Format.truncate, F.binade_eq, hF.overflow_or_pack neg _ (hF.quotient_lt k m) (hF.le_quotient k hm),
    Format.maxBits, F.infBits_eq, Format.floorCode]
  split <;> omega

theorem Format.Lawful.magnitude_floorCode (hm : 0 < m) :
    F.magnitude (F.floorCode m k) = F.quotient m k * 2 ^ F.ulpExp m k :=
  hF.magnitude_eq (hF.quotient_lt k m).le (hF.le_quotient k hm)

theorem Format.Lawful.magnitude_floorCode_succ (hm : 0 < m) :
    F.magnitude (F.floorCode m k + 1) = (F.quotient m k + 1) * 2 ^ F.ulpExp m k :=
  hF.magnitude_eq (hF.quotient_lt k m) ((hF.le_quotient k hm).imp_right Nat.le_succ_of_le)

/-- The remainder of R104 is what the value has beyond the code. -/
theorem Format.Lawful.magnitude_floorCode_add (hm : 0 < m) :
    F.magnitude (F.floorCode m k) * 2 ^ k + F.remainder m k * 2 ^ F.scale = m * 2 ^ F.scale := by
  rw [hF.magnitude_floorCode k hm, Nat.mul_assoc, ← pow_add, Nat.add_comm _ k, hF.quotient_add_remainder]

/-- Neighbouring magnitudes are one unit in the last place apart. -/
theorem Format.Lawful.magnitude_floorCode_step (hm : 0 < m) :
    F.magnitude (F.floorCode m k + 1) * 2 ^ k =
      F.magnitude (F.floorCode m k) * 2 ^ k + 2 ^ (k + F.ulpExp m k) := by
  rw [hF.magnitude_floorCode_succ k hm, hF.magnitude_floorCode k hm, Nat.succ_mul, Nat.add_mul, pow_add,
    Nat.mul_comm (2 ^ k)]

theorem Format.Lawful.magnitude_mul_le {c c' : Nat} (h : c ≤ c') : F.magnitude c * 2 ^ k ≤ F.magnitude c' * 2 ^ k :=
  Nat.mul_le_mul_right _ (hF.magnitude_strictMono.monotone h)

theorem Format.Lawful.magnitude_mul_lt {c c' : Nat} (h : c < c') : F.magnitude c * 2 ^ k < F.magnitude c' * 2 ^ k :=
  Nat.mul_lt_mul_of_pos_right (hF.magnitude_strictMono h) (by positivity)

theorem Format.Lawful.le_floorCode_iff {c : Nat} (hm : 0 < m) :
    c ≤ F.floorCode m k ↔ F.magnitude c * 2 ^ k ≤ m * 2 ^ F.scale := by
  have hvalue := hF.magnitude_floorCode_add k hm
  constructor
  · intro h
    have := hF.magnitude_mul_le k h
    omega
  · intro h
    by_contra hlt
    have := hF.magnitude_mul_le k (show F.floorCode m k + 1 ≤ c by omega)
    have := hF.magnitude_floorCode_step k hm
    have := hF.remainder_lt k m
    omega

theorem Format.Lawful.floorCode_odd (m : Nat) : F.floorCode m k % 2 = F.quotient m k % 2 := by
  rw [Format.floorCode, Nat.add_mod, Nat.mul_mod, hF.two_pow_p_pred_even, Nat.mul_zero, Nat.zero_mod, Nat.zero_add,
    Nat.mod_mod]

/-- R104 goes beyond a code exactly for the values above the midpoint to the next code, and at the midpoint when the
code is odd. -/
theorem Format.Lawful.lt_roundCode_iff {c : Nat} (hm : 0 < m) :
    c < F.roundCode m k ↔
      (F.magnitude c + F.magnitude (c + 1)) * 2 ^ k < 2 * (m * 2 ^ F.scale) ∨
      (F.magnitude c + F.magnitude (c + 1)) * 2 ^ k = 2 * (m * 2 ^ F.scale) ∧ c % 2 = 1 := by
  have hfloor := hF.le_floorCode_iff k (c := c) hm
  have hnext := hF.le_floorCode_iff k (c := c + 1) hm
  have hstep := hF.magnitude_mul_lt k (Nat.lt_add_one c)
  rw [Nat.add_mul, Format.roundCode]
  rcases lt_trichotomy c (F.floorCode m k) with h | rfl | h
  · omega
  · have hvalue := hF.magnitude_floorCode_add k hm
    have hulp := hF.magnitude_floorCode_step k hm
    have hup := hF.roundsUp_iff k m
    rw [← hF.floorCode_odd] at hup
    have hpos : 0 < (F.roundsUp m k).toNat ↔ F.roundsUp m k = true := by cases F.roundsUp m k <;> decide
    rw [Nat.lt_add_right_iff_pos, hpos, hup]
    omega
  · have := Bool.toNat_le (F.roundsUp m k)
    omega

end

/-! ## The ends of the formats -/

section
variable {F : Format} (hF : F.Lawful) {m k c : Nat} (neg : Bool) (hm : 0 < m)
include hF hm

theorem Format.Lawful.round_eq_infBits (hodd : c % 2 = 1) (hc : c + 1 = F.infCode)
    (h : (F.magnitude c + F.magnitude (c + 1)) * 2 ^ k ≤ 2 * (m * 2 ^ F.scale)) :
    F.round neg m k = F.infBits neg := by
  have hcode : c < F.roundCode m k := (hF.lt_roundCode_iff k hm).mpr (by omega)
  rw [hF.round_eq k neg hm, Nat.min_eq_right (by omega), F.infBits_eq]

/-- What lies between the midpoints below and above a finite value rounds to it. -/
theorem Format.Lawful.round_eq_of_between (hc : c + 1 < F.infCode)
    (hlow : (F.magnitude c + F.magnitude (c + 1)) * 2 ^ k < 2 * (m * 2 ^ F.scale))
    (hhigh : 2 * (m * 2 ^ F.scale) < (F.magnitude (c + 1) + F.magnitude (c + 1 + 1)) * 2 ^ k) :
    F.round neg m k = F.signBit neg + (c + 1) := by
  have hlow : c < F.roundCode m k := (hF.lt_roundCode_iff k hm).mpr (.inl hlow)
  have hhigh : ¬ c + 1 < F.roundCode m k := mt (hF.lt_roundCode_iff k hm).mp (by omega)
  rw [hF.round_eq k neg hm, Nat.min_eq_left (by omega)]
  omega

theorem Format.Lawful.round_eq_signBit (h : 2 * (m * 2 ^ F.scale) ≤ 2 ^ k) : F.round neg m k = F.signBit neg := by
  have htwo := hF.two_lt_two_pow_p
  have hcode : ¬ 0 < F.roundCode m k := by
    rw [hF.lt_roundCode_iff k hm, hF.magnitude_subnormal (Nat.zero_le _), hF.magnitude_subnormal (by omega)]
    omega
  rw [hF.round_eq k neg hm, Nat.eq_zero_of_not_pos hcode, Nat.zero_min, Nat.add_zero]

theorem Format.Lawful.round_eq_smallest (hlow : 2 ^ k < 2 * (m * 2 ^ F.scale))
    (hhigh : 2 * (m * 2 ^ F.scale) < 3 * 2 ^ k) : F.round neg m k = F.signBit neg + 1 := by
  have htwo := hF.two_lt_two_pow_p
  refine hF.round_eq_of_between neg hm (c := 0) hF.one_lt_infCode ?_ ?_
  · rw [hF.magnitude_subnormal (Nat.zero_le _), hF.magnitude_subnormal (by omega)]
    omega
  · rw [hF.magnitude_subnormal (by omega), hF.magnitude_subnormal (by omega)]
    omega

end

/-- The last midpoint of the halves, where overflow begins. -/
theorem magnitude16_last : binary16.magnitude 0x7BFF + binary16.magnitude 0x7C00 = 65520 * 2 ^ 25 := by decide

/-- The last midpoint of the singles, where overflow begins. -/
theorem magnitude32_last :
    binary32.magnitude 0x7F7FFFFF + binary32.magnitude 0x7F800000 = (2 ^ 128 - 2 ^ 103) * 2 ^ 150 := by decide

theorem round16_overflow (neg : Bool) {m k : Nat} (hm : 0 < m) (h : 65520 * 2 ^ k ≤ m) :
    binary16.round neg m k = binary16.infBits neg := by
  refine binary16_lawful.round_eq_infBits neg hm (c := 0x7BFF) rfl rfl ?_
  rw [magnitude16_last, binary16_scale]
  omega

theorem round16_underflow (neg : Bool) {m k : Nat} (hm : 0 < m) (h : m * 2 ^ 25 ≤ 2 ^ k) :
    binary16.round neg m k = binary16.signBit neg := by
  refine binary16_lawful.round_eq_signBit neg hm ?_
  rw [binary16_scale]
  omega

/-- Settles O46: each threshold is a midpoint of two neighbouring magnitudes. -/
theorem roundingThresholds : Obligations.RoundingThresholds := by
  intro neg m k hm
  refine ⟨round16_overflow neg hm, fun hlow hhigh => ?_, round16_underflow neg hm, fun hlow hhigh => ?_,
    fun h => ?_, fun hlow hhigh => ?_, fun h => ?_, fun hlow hhigh => ?_⟩
  · have hmid : binary16.magnitude 0x7BFE + binary16.magnitude 0x7BFF = 65488 * 2 ^ 25 := by decide
    refine binary16_lawful.round_eq_of_between neg hm (c := 0x7BFE) (by decide) ?_ ?_
    · rw [hmid, binary16_scale]
      omega
    · rw [magnitude16_last, binary16_scale]
      omega
  · exact binary16_lawful.round_eq_smallest neg hm (by rw [binary16_scale]; omega) (by rw [binary16_scale]; omega)
  · refine binary32_lawful.round_eq_infBits neg hm (c := 0x7F7FFFFF) rfl rfl ?_
    rw [magnitude32_last, binary32_scale]
    omega
  · have hmid : binary32.magnitude 0x7F7FFFFE + binary32.magnitude 0x7F7FFFFF = (2 ^ 129 - 3 * 2 ^ 104) * 2 ^ 149 := by
      decide
    refine binary32_lawful.round_eq_of_between neg hm (c := 0x7F7FFFFE) (by decide) ?_ ?_
    · rw [hmid, binary32_scale]
      omega
    · rw [magnitude32_last, binary32_scale]
      omega
  · exact binary32_lawful.round_eq_signBit neg hm (by rw [binary32_scale]; omega)
  · exact binary32_lawful.round_eq_smallest neg hm (by rw [binary32_scale]; omega) (by rw [binary32_scale]; omega)

/-! ## Exactness, nearness, truncation -/

section
variable {F : Format} (hF : F.Lawful)
include hF

/-- The rounding of the value of a code is that code. -/
theorem Format.Lawful.roundCode_magnitude {c : Nat} (hc : 0 < F.magnitude c) :
    F.roundCode (F.magnitude c) F.scale = c := by
  refine eq_of_forall_lt_iff fun d => ?_
  have hmul (a : Nat) : a * 2 ^ F.scale < 2 * (F.magnitude c * 2 ^ F.scale) ∨
      a * 2 ^ F.scale = 2 * (F.magnitude c * 2 ^ F.scale) ∧ d % 2 = 1 ↔
      a < 2 * F.magnitude c ∨ a = 2 * F.magnitude c ∧ d % 2 = 1 := by
    have hpos : 0 < 2 ^ F.scale := by positivity
    rw [← Nat.mul_assoc, Nat.mul_lt_mul_right hpos, Nat.mul_left_inj hpos.ne']
  rw [hF.lt_roundCode_iff _ hc, hmul]
  have hstep := hF.magnitude_strictMono (Nat.lt_add_one d)
  rcases lt_or_ge d c with h | h
  · have := hF.magnitude_strictMono.monotone (show _ + 1 ≤ _ from h)
    omega
  · have := hF.magnitude_strictMono.monotone h
    omega

theorem Format.Lawful.round_value {b n : Nat} {s : Bool} (hb : b < 2 ^ F.width) (h : F.unpack b = .fin s n)
    (hn : 0 < n) : F.round s n F.scale = b := by
  obtain ⟨c, hc, rfl, rfl⟩ := (hF.unpack_eq_fin hb).mp h
  rw [hF.round_eq _ _ hn, hF.roundCode_magnitude hn, Nat.min_eq_left hc.le]

/-- A finite result of the rounding is the rounded code. -/
theorem Format.Lawful.unpack_round_eq_fin {neg s : Bool} {m k n : Nat} (hm : 0 < m)
    (h : F.unpack (F.round neg m k) = .fin s n) :
    s = neg ∧ n = F.magnitude (F.roundCode m k) ∧ F.round neg m k = F.signBit neg + F.roundCode m k := by
  rw [hF.round_eq k neg hm] at h ⊢
  rw [hF.unpack_signBit_add neg (lt_of_le_of_lt (Nat.min_le_right ..) hF.infCode_lt)] at h
  split at h
  next hlt =>
    rw [Nat.min_eq_left (by omega)] at h ⊢
    cases h
    exact ⟨rfl, rfl, rfl⟩
  next => split at h <;> cases h

/-- No magnitude is nearer to the value than that of the rounded code, and another one that is as near makes the code
even. -/
theorem Format.Lawful.roundCode_nearest {m : Nat} (k : Nat) (hm : 0 < m) (d : Nat) :
    let near := ((F.magnitude (F.roundCode m k) * 2 ^ k : Int) - m * 2 ^ F.scale).natAbs
    let other := ((F.magnitude d * 2 ^ k : Int) - m * 2 ^ F.scale).natAbs
    near ≤ other ∧ (near = other → d ≠ F.roundCode m k → F.roundCode m k % 2 = 0) := by
  rcases lt_trichotomy d (F.roundCode m k) with h | rfl | h
  · obtain ⟨c, hc⟩ := Nat.exists_eq_add_of_lt h
    have hmid := (hF.lt_roundCode_iff k (c := d + c) hm).mp (by omega)
    have hbelow := hF.magnitude_mul_le k (Nat.le_add_right d c)
    have hstep := hF.magnitude_mul_lt k (Nat.lt_add_one (d + c))
    rw [Nat.add_mul] at hmid
    rw [hc]
    zify at hmid hbelow hstep
    omega
  · exact ⟨le_rfl, fun _ hne => absurd rfl hne⟩
  · have hmid := mt (hF.lt_roundCode_iff k (c := F.roundCode m k) hm).mpr (Nat.lt_irrefl _)
    have habove := hF.magnitude_mul_le k (show _ + 1 ≤ _ from h)
    have hstep := hF.magnitude_mul_lt k (Nat.lt_add_one (F.roundCode m k))
    rw [Nat.add_mul] at hmid
    zify at hmid habove hstep
    omega

end

/-- Settles O47: the rounding of a magnitude is its code. -/
theorem roundingIsExactOnValues : Obligations.RoundingIsExactOnValues :=
  fun _ hF _ _ _ hb h hn => (lawful_of_mem hF).round_value hb h hn

/-- Settles O48: the codes are ordered as their magnitudes, and the midpoints decide. -/
theorem roundingIsNearest : Obligations.RoundingIsNearest := by
  intro F hmem neg s m k n hm h
  have hF := lawful_of_mem hmem
  obtain ⟨rfl, rfl, hbits⟩ := hF.unpack_round_eq_fin hm h
  refine ⟨rfl, fun b n' s' hb h' => ?_⟩
  obtain ⟨c, -, -, rfl⟩ := (hF.unpack_eq_fin hb).mp h'
  obtain ⟨hnear, htie⟩ := hF.roundCode_nearest k hm c
  refine ⟨hnear, fun heq hne => ?_⟩
  rw [hbits, Nat.add_mod, hF.signBit_even, htie heq (fun hc => hne (hc ▸ rfl))]

/-- Settles O49: the magnitudes not above the value are those of the codes up to `floorCode`. -/
theorem truncationIsTowardZero : Obligations.TruncationIsTowardZero := by
  intro neg m k hm
  have hF := binary16_lawful
  have hpos := binary16.infCode_pos
  have hlt : min (binary16.floorCode m k) (binary16.infCode - 1) < binary16.infCode := by omega
  refine ⟨binary16.magnitude (min (binary16.floorCode m k) (binary16.infCode - 1)), ?_, ?_,
    fun b n' s' hb h hle => ?_⟩
  · rw [hF.truncate_eq k neg hm, hF.unpack_signBit_add neg (hlt.trans hF.infCode_lt), if_pos hlt]
  · exact (hF.le_floorCode_iff k hm).mp (Nat.min_le_left ..)
  · obtain ⟨c, hc, -, rfl⟩ := (hF.unpack_eq_fin hb).mp h
    have := (hF.le_floorCode_iff k hm).mpr hle
    exact hF.magnitude_strictMono.monotone (by omega)


end Sys2Proof.Machine
end

section
/-! PROOFS. The arithmetic primitives (`spec/40_numerics.md` R105 to R111): what each gives on finite operands (one
rounding), on infinities and on NaN. What is no NaN is a sign and a code up to the infinity's (`Format.IsNumber`).
Settles O50 to O53. -/

namespace Sys2Proof.Machine

/-! ## Values -/

/-- The value with its sign flipped (`40_numerics.md` R105). -/
def FpValue.neg : FpValue → FpValue
  | .nan     => .nan
  | .inf s   => .inf (!s)
  | .fin s m => .fin (!s) m

theorem FpValue.neg_mul (v w : FpValue) : v.neg.mul w = (v.mul w).neg := by
  cases v with
  | nan => rfl
  | inf s =>
    cases w with
    | nan => rfl
    | inf t => rw [mul, neg, neg, mul, Bool.not_xor]
    | fin t n =>
      simp only [mul, neg, Bool.not_xor]
      split <;> rfl
  | fin s m =>
    cases w with
    | nan => rfl
    | inf t =>
      simp only [mul, neg, Bool.not_xor]
      split <;> rfl
    | fin t n => rw [mul, neg, neg, mul, Bool.not_xor]

theorem FpValue.mul_nan (v : FpValue) : v.mul .nan = .nan := by cases v <;> rfl

theorem Format.sum_nan (F : Format) (nan : Nat) (v : FpValue) (k : Nat) : F.sum nan v .nan k = nan := by cases v <;> rfl

/-- `neg` flips the sign and keeps the code. -/
theorem toNat_neg16 {x : Half} {s : Bool} {c : Nat} (hc : c < 2 ^ 15) (h : x.toNat = binary16.signBit s + c) :
    (neg16 x).toNat = binary16.signBit (!s) + c := by
  have hx : (neg16 x).toNat = x.toNat ^^^ 2 ^ 15 := BitVec.toNat_xor ..
  have hcode : (neg16 x).toNat % 2 ^ 15 = c := by
    rw [hx, Nat.xor_mod_two_pow, Nat.mod_self, Nat.xor_zero, h]
    cases s <;> simpa [Format.signBit, binary16] using hc
  have hsign : (neg16 x).toNat / 2 ^ 15 = (!s).toNat := by
    rw [hx, Nat.xor_div_two_pow, h]
    cases s <;> simpa [Format.signBit, binary16] using hc
  rw [← Nat.div_add_mod (neg16 x).toNat (2 ^ 15), hcode, hsign]
  cases s <;> rfl

theorem unpack_neg16 (x : Half) : binary16.unpack (neg16 x).toNat = (binary16.unpack x.toNat).neg := by
  obtain ⟨s, c, hc, h⟩ := binary16_lawful.exists_signBit_add x.isLt
  rw [toNat_neg16 hc h, h, binary16_lawful.unpack_signBit_add s hc, binary16_lawful.unpack_signBit_add (!s) hc]
  split
  · rfl
  · split <;> rfl

theorem signedInt_not (s : Bool) (m : Nat) : signedInt (!s) m = -signedInt s m := by cases s <;> simp [signedInt]

theorem signedInt_mul (s t : Bool) (m n : Nat) : signedInt s m * signedInt t n = signedInt (s ^^ t) (m * n) := by
  cases s <;> cases t <;> simp [signedInt]

theorem signedInt_eq_zero {s : Bool} {m : Nat} : signedInt s m = 0 ↔ m = 0 := by cases s <;> simp [signedInt]

theorem natAbs_signedInt (s : Bool) (m : Nat) : (signedInt s m).natAbs = m := by cases s <;> simp [signedInt]

theorem signedInt_neg_iff {s : Bool} {m : Nat} (hm : 0 < m) : decide (signedInt s m < 0) = s := by
  cases s <;> simp [signedInt, hm]

/-! ## What is no NaN -/

/-- A pattern of a number or an infinity: a sign and a code up to the infinity's. -/
def Format.IsNumber (F : Format) (r : Nat) : Prop := ∃ s c, c ≤ F.infCode ∧ r = F.signBit s + c

theorem Format.isNumber_signBit (F : Format) (s : Bool) : F.IsNumber (F.signBit s) := ⟨s, 0, Nat.zero_le _, rfl⟩

theorem Format.isNumber_infBits (F : Format) (s : Bool) : F.IsNumber (F.infBits s) := ⟨s, F.infCode, le_rfl, rfl⟩

section
variable {F : Format} (hF : F.Lawful)
include hF

theorem Format.Lawful.isNumber_round (s : Bool) {m : Nat} (k : Nat) (hm : 0 < m) : F.IsNumber (F.round s m k) :=
  ⟨s, _, Nat.min_le_right .., hF.round_eq k s hm⟩

theorem Format.Lawful.isNumber_truncate (s : Bool) {m : Nat} (k : Nat) (hm : 0 < m) : F.IsNumber (F.truncate s m k) :=
  ⟨s, _, (Nat.min_le_right ..).trans (Nat.sub_le ..), hF.truncate_eq k s hm⟩

theorem Format.Lawful.number_lt {r : Nat} (h : F.IsNumber r) : r < 2 ^ F.width := by
  obtain ⟨s, c, hc, rfl⟩ := h
  exact hF.signBit_add_lt s (lt_of_le_of_lt hc hF.infCode_lt)

theorem Format.Lawful.number_ne_nan {r : Nat} (h : F.IsNumber r) : F.unpack r ≠ .nan := by
  obtain ⟨s, c, hc, rfl⟩ := h
  rw [hF.unpack_signBit_add s (lt_of_le_of_lt hc hF.infCode_lt)]
  split
  · nofun
  · rw [if_pos (by omega)]
    nofun

theorem Format.Lawful.isNumber_of_rounded {z : Bool} {v : Int} {k r : Nat} (h : F.Rounded z v k r) : F.IsNumber r := by
  rw [Format.Rounded] at h
  subst h
  split
  · exact F.isNumber_signBit z
  · exact hF.isNumber_round _ k (by omega)

theorem Format.Lawful.sum_nan_or_number (nan : Nat) (v w : FpValue) (k : Nat) :
    F.sum nan v w k = nan ∨ F.IsNumber (F.sum nan v w k) := by
  cases v with
  | nan => exact .inl rfl
  | inf s =>
    cases w with
    | nan => exact .inl rfl
    | inf t =>
      rw [Format.sum]
      split
      · exact .inr (F.isNumber_infBits s)
      · exact .inl rfl
    | fin t n => exact .inr (F.isNumber_infBits s)
  | fin s m =>
    cases w with
    | nan => exact .inl rfl
    | inf t => exact .inr (F.isNumber_infBits t)
    | fin t n => exact .inr (hF.isNumber_of_rounded rfl)

theorem Format.Lawful.mul_nan_or_number (nan a b : Nat) : F.mul nan a b = nan ∨ F.IsNumber (F.mul nan a b) := by
  rw [Format.mul]
  split
  · exact .inl rfl
  · exact .inr (F.isNumber_infBits _)
  · split
    · exact .inr (F.isNumber_signBit _)
    · exact .inr (hF.isNumber_round _ _ (by omega))

end

/-! ## The primitives as patterns -/

theorem toNat_ofNat_of_number {F : Format} (hF : F.Lawful) {nan r : Nat} (hnan : nan < 2 ^ F.width)
    (h : r = nan ∨ F.IsNumber r) : (BitVec.ofNat F.width r).toNat = r := by
  refine BitVec.toNat_ofNat .. ▸ Nat.mod_eq_of_lt ?_
  rcases h with rfl | h
  · exact hnan
  · exact hF.number_lt h

section
variable (nan a x y : Half)

theorem toNat_add16 : (add16 nan a x).toNat = binary16.add nan.toNat a.toNat x.toNat :=
  toNat_ofNat_of_number binary16_lawful nan.isLt (binary16_lawful.sum_nan_or_number ..)

theorem toNat_mul16 : (mul16 nan a x).toNat = binary16.mul nan.toNat a.toNat x.toNat :=
  toNat_ofNat_of_number binary16_lawful nan.isLt (binary16_lawful.mul_nan_or_number ..)

theorem toNat_fma16 : (fma16 nan a x y).toNat = binary16.fma nan.toNat a.toNat x.toNat y.toNat :=
  toNat_ofNat_of_number binary16_lawful nan.isLt (binary16_lawful.sum_nan_or_number ..)

end

theorem toNat_add32 (a x : Single) : (add32 a x).toNat = binary32.add nan32 a.toNat x.toNat :=
  toNat_ofNat_of_number binary32_lawful (by decide) (binary32_lawful.sum_nan_or_number ..)

theorem toNat_mul32 (a x : Single) : (mul32 a x).toNat = binary32.mul nan32 a.toNat x.toNat :=
  toNat_ofNat_of_number binary32_lawful (by decide) (binary32_lawful.mul_nan_or_number ..)

/-! ## Finite operands: one rounding -/

section
variable {F : Format} {a x y : Nat} {s t u : Bool} {m n k : Nat} (nan : Nat)

theorem Format.add_rounded (ha : F.unpack a = .fin s m) (hx : F.unpack x = .fin t n) :
    F.Rounded (decide (m = 0) && s && t) (signedInt s m + signedInt t n) F.scale (F.add nan a x) := by
  rw [Format.add, ha, hx]
  rfl

theorem Format.mul_rounded (ha : F.unpack a = .fin s m) (hx : F.unpack x = .fin t n) :
    F.Rounded (s ^^ t) (signedInt s m * signedInt t n) (2 * F.scale) (F.mul nan a x) := by
  rw [Format.mul, ha, hx, signedInt_mul, Format.Rounded, natAbs_signedInt]
  simp only [FpValue.mul, signedInt_eq_zero]
  split
  next => rfl
  next h => rw [signedInt_neg_iff (Nat.pos_of_ne_zero h)]

theorem Format.fma_rounded (ha : F.unpack a = .fin s m) (hx : F.unpack x = .fin t n) (hy : F.unpack y = .fin u k) :
    F.Rounded (decide (m = 0) && s && (t ^^ u)) (signedInt s m * 2 ^ F.scale + signedInt t n * signedInt u k)
      (2 * F.scale) (F.fma nan a x y) := by
  have hfiner : signedInt s m * 2 ^ F.scale = signedInt s (m * 2 ^ F.scale) := by
    cases s <;> simp [signedInt]
  have hzero : decide (m = 0) = decide (m * 2 ^ F.scale = 0) := by simp
  rw [Format.fma, ha, hx, hy, hfiner, hzero, signedInt_mul]
  rfl

end

section
variable {nan a x y : Half} {s t u : Bool} {m n k : Nat}

theorem unpack_neg16_fin (hx : binary16.unpack x.toNat = .fin t n) : binary16.unpack (neg16 x).toNat = .fin (!t) n := by
  rw [unpack_neg16, hx, FpValue.neg]

theorem sub16_rounded (ha : binary16.unpack a.toNat = .fin s m) (hx : binary16.unpack x.toNat = .fin t n) :
    binary16.Rounded (decide (m = 0) && s && !t) (signedInt s m - signedInt t n) 24 (sub16 nan a x).toNat := by
  rw [sub16, toNat_add16, Int.sub_eq_add_neg, ← signedInt_not]
  exact Format.add_rounded _ ha (unpack_neg16_fin hx)

theorem fms16_rounded (ha : binary16.unpack a.toNat = .fin s m) (hx : binary16.unpack x.toNat = .fin t n)
    (hy : binary16.unpack y.toNat = .fin u k) :
    binary16.Rounded (decide (m = 0) && s && !(t ^^ u)) (signedInt s m * 2 ^ 24 - signedInt t n * signedInt u k) 48
      (fms16 nan a x y).toNat := by
  rw [fms16, toNat_fma16, Int.sub_eq_add_neg, ← Int.neg_mul, ← signedInt_not, ← Bool.not_xor]
  exact Format.fma_rounded _ ha (unpack_neg16_fin hx) hy

end

/-- Settles O50: subtraction and `fms16` are addition and `fma16` with a negated operand. -/
theorem primitivesRoundOnce : Obligations.PrimitivesRoundOnce := by
  refine ⟨fun nan a x y s t u m n k ha hx hy => ?_, fun a x s t m n ha hx => ?_⟩
  · refine ⟨?_, sub16_rounded ha hx, ?_, ?_, fms16_rounded ha hx hy⟩
    · rw [toNat_add16]
      exact Format.add_rounded _ ha hx
    · rw [toNat_mul16]
      exact Format.mul_rounded _ hx hy
    · rw [toNat_fma16]
      exact Format.fma_rounded _ ha hx hy
  · rw [toNat_add32, toNat_mul32]
    exact ⟨Format.add_rounded _ ha hx, Format.mul_rounded _ ha hx⟩

/-! ## Zeros -/

theorem unpack_zero : binary16.unpack (0x0000#16).toNat = .fin false 0 := by decide

theorem unpack_negZero : binary16.unpack (0x8000#16).toNat = .fin true 0 := by decide

theorem ofNat_toNat_eq {w r : Nat} {v : BitVec w} (h : v.toNat = r) : BitVec.ofNat w r = v := by
  rw [← h, BitVec.ofNat_toNat, BitVec.setWidth_eq]

section
variable {nan v z : Half} {s t : Bool} {n : Nat}

theorem eq_zero_of_unpack (h : binary16.unpack v.toNat = .fin s 0) : v.toNat = binary16.signBit s := by
  obtain ⟨c, -, hv, hc⟩ := (binary16_lawful.unpack_eq_fin v.isLt).mp h
  rwa [binary16_lawful.magnitude_eq_zero.mp hc.symm] at hv

theorem add16_inf_fin (hv : binary16.unpack v.toNat = .inf s) (hz : binary16.unpack z.toNat = .fin t n) :
    add16 nan v z = v := by
  rw [add16, Format.add, hv, hz]
  exact ofNat_toNat_eq ((binary16_lawful.unpack_eq_inf v.isLt).mp hv)

theorem add16_fin_zero (hv : binary16.unpack v.toNat = .fin s n) (hz : binary16.unpack z.toNat = .fin t 0)
    (hn : 0 < n) : add16 nan v z = v := by
  have h := Format.add_rounded nan.toNat hv hz
  have hzero : signedInt t 0 = 0 := signedInt_eq_zero.mpr rfl
  rw [← toNat_add16, hzero, Int.add_zero, Format.Rounded, if_neg (signedInt_eq_zero.not.mpr hn.ne'),
    signedInt_neg_iff hn, natAbs_signedInt, binary16_lawful.round_value v.isLt hv hn] at h
  exact BitVec.eq_of_toNat_eq h

theorem toNat_add16_zeros (hv : binary16.unpack v.toNat = .fin s 0) (hz : binary16.unpack z.toNat = .fin t 0) :
    (add16 nan v z).toNat = binary16.signBit (s && t) := by
  rw [toNat_add16, Format.add, hv, hz]
  cases s <;> cases t <;> rfl

theorem sub16_self (hv : binary16.unpack v.toNat = .fin s n) (hn : 0 < n) : sub16 nan v v = 0x0000#16 := by
  have h := sub16_rounded (nan := nan) hv hv
  rw [Int.sub_self, Format.Rounded, if_pos rfl, decide_eq_false hn.ne'] at h
  exact BitVec.eq_of_toNat_eq h

end

theorem toNat_and_low (v : Half) : (v &&& 0x7FFF#16).toNat = v.toNat % 2 ^ 15 := by
  rw [BitVec.toNat_and]
  exact Nat.and_two_pow_sub_one_eq_mod v.toNat 15

/-- Settles O51, by what the half is. -/
theorem signedZeroSums : Obligations.SignedZeroSums := by
  intro nan v hv
  rcases h : binary16.unpack v.toNat with _ | s | ⟨s, n⟩
  · simp [isNaN16, h] at hv
  · have hbits := (binary16_lawful.unpack_eq_inf v.isLt).mp h
    have hne : v ≠ 0x8000#16 := by
      rintro rfl
      rw [unpack_negZero] at h
      cases h
    refine ⟨by rw [if_neg hne, add16_inf_fin h unpack_zero], add16_inf_fin h unpack_negZero, fun hinf _ => ?_⟩
    refine absurd (BitVec.eq_of_toNat_eq ?_) hinf
    rw [toNat_and_low, hbits]
    cases s <;> rfl
  · rcases Nat.eq_zero_or_pos n with rfl | hn
    · have hbits := eq_zero_of_unpack h
      have hpos := toNat_add16_zeros (nan := nan) h unpack_zero
      have hneg := toNat_add16_zeros (nan := nan) h unpack_negZero
      rw [Bool.and_false] at hpos
      rw [Bool.and_true, ← hbits] at hneg
      refine ⟨BitVec.eq_of_toNat_eq ?_, BitVec.eq_of_toNat_eq hneg,
        fun _ hne => absurd (BitVec.eq_of_toNat_eq ?_) hne⟩
      · rw [hpos]
        split
        next => rfl
        next hne =>
          cases s
          · exact hbits.symm
          · exact absurd (BitVec.eq_of_toNat_eq hbits) hne
      · rw [toNat_and_low, hbits]
        cases s <;> rfl
    · have hne : v ≠ 0x8000#16 := by
        rintro rfl
        rw [unpack_negZero] at h
        cases h
        exact absurd rfl hn.ne'
      exact ⟨by rw [if_neg hne, add16_fin_zero h unpack_zero hn], add16_fin_zero h unpack_negZero hn,
        fun _ _ => sub16_self h hn⟩

/-! ## Narrowing -/

section
variable (nan : Half) (rm : CvtRm) {v : Single} {s : Bool} {n : Nat}

theorem cvt32to16_nan (hv : binary32.unpack v.toNat = .nan) : cvt32to16 nan rm v = nan := by rw [cvt32to16, hv]

theorem toNat_cvt32to16_inf (hv : binary32.unpack v.toNat = .inf s) :
    (cvt32to16 nan rm v).toNat = binary16.infBits s := by
  rw [cvt32to16, hv]
  cases s <;> rfl

theorem toNat_cvt32to16_zero (hv : binary32.unpack v.toNat = .fin s 0) :
    (cvt32to16 nan rm v).toNat = binary16.signBit s := by
  rw [cvt32to16, hv]
  cases s <;> rfl

theorem toNat_cvt32to16_nearestEven (hv : binary32.unpack v.toNat = .fin s n) (hn : 0 < n) :
    (cvt32to16 nan .nearestEven v).toNat = binary16.round s n 149 := by
  simp only [cvt32to16, hv, if_neg hn.ne', binary32_scale]
  exact toNat_ofNat_of_number binary16_lawful nan.isLt (.inr (binary16_lawful.isNumber_round s _ hn))

theorem toNat_cvt32to16_towardZero (hv : binary32.unpack v.toNat = .fin s n) (hn : 0 < n) :
    (cvt32to16 nan .towardZero v).toNat = binary16.truncate s n 149 := by
  simp only [cvt32to16, hv, if_neg hn.ne', binary32_scale]
  exact toNat_ofNat_of_number binary16_lawful nan.isLt (.inr (binary16_lawful.isNumber_truncate s _ hn))

theorem cvt32to16_number (hv : binary32.unpack v.toNat ≠ .nan) : binary16.IsNumber (cvt32to16 nan rm v).toNat := by
  rcases h : binary32.unpack v.toNat with _ | s | ⟨s, n⟩
  · exact absurd h hv
  · rw [toNat_cvt32to16_inf nan rm h]
    exact binary16.isNumber_infBits s
  · rcases Nat.eq_zero_or_pos n with rfl | hn
    · rw [toNat_cvt32to16_zero nan rm h]
      exact binary16.isNumber_signBit s
    · cases rm with
      | nearestEven =>
        rw [toNat_cvt32to16_nearestEven nan h hn]
        exact binary16_lawful.isNumber_round s _ hn
      | towardZero =>
        rw [toNat_cvt32to16_towardZero nan h hn]
        exact binary16_lawful.isNumber_truncate s _ hn

end

/-- From the largest finite half on, narrowing toward zero gives it (`40_numerics.md` R108). -/
theorem truncate16_overflow (neg : Bool) {m k : Nat} (hm : 0 < m) (h : 65504 * 2 ^ k ≤ m) :
    binary16.truncate neg m k = binary16.signBit neg + 0x7BFF := by
  have hmax : binary16.magnitude 0x7BFF = 65504 * 2 ^ 24 := by decide
  have hcode : 0x7BFF ≤ binary16.floorCode m k := by
    rw [binary16_lawful.le_floorCode_iff k hm, hmax, binary16_scale]
    omega
  rw [binary16_lawful.truncate_eq k neg hm, show binary16.infCode - 1 = 0x7BFF from rfl, Nat.min_eq_right hcode]

/-- Settles O53, by the cases of R108; the bounds are those of O46 and `truncate16_overflow`. -/
theorem narrowingRules : Obligations.NarrowingRules := by
  refine fun nan v s => ⟨fun h rm => toNat_cvt32to16_inf nan rm h, fun n h => ⟨?_, fun hn =>
    ⟨toNat_cvt32to16_nearestEven nan h hn, toNat_cvt32to16_towardZero nan h hn⟩, fun hlarge => ?_, fun hsmall => ?_,
    fun hlarge => ?_⟩⟩
  · rintro rfl rm
    exact toNat_cvt32to16_zero nan rm h
  · have hn : 0 < n := by omega
    rw [toNat_cvt32to16_nearestEven nan h hn, round16_overflow s hn hlarge]
  · rcases Nat.eq_zero_or_pos n with rfl | hn
    · exact toNat_cvt32to16_zero nan _ h
    · rw [toNat_cvt32to16_nearestEven nan h hn, round16_underflow s hn (by omega)]
  · have hn : 0 < n := by omega
    rw [toNat_cvt32to16_towardZero nan h hn, truncate16_overflow s hn hlarge]

/-! ## NaN and the infinities -/

theorem isNaN16_iff {b : Half} : isNaN16 b = true ↔ binary16.unpack b.toNat = .nan := decide_eq_true_iff

theorem isNaN32_iff {b : Single} : isNaN32 b = true ↔ binary32.unpack b.toNat = .nan := decide_eq_true_iff

/-- `add_F` and `mul_F` on the infinities (`40_numerics.md` R105), for both formats. -/
theorem Format.Lawful.infinityRules {F : Format} (hF : F.Lawful) {nan : Nat} {isNaN : BitVec F.width → Prop}
    (hnan : isNaN (BitVec.ofNat F.width nan)) :
    F.InfinityRules (fun a b => BitVec.ofNat F.width (F.add nan a.toNat b.toNat))
      (fun a b => BitVec.ofNat F.width (F.mul nan a.toNat b.toNat)) isNaN := by
  intro a b s t ha
  have hbits := (hF.unpack_eq_inf a.isLt).mp ha
  have hinf (p : Bool) : (BitVec.ofNat F.width (F.infBits p)).toNat = F.infBits p :=
    toNat_ofNat_of_number hF (hF.number_lt (F.isNumber_infBits p)) (.inl rfl)
  simp only [Format.add, Format.mul, ha]
  refine ⟨fun hb => ?_, fun n hb => ?_⟩
  · simp only [hb, Format.sum, FpValue.mul]
    refine ⟨fun hst => ?_, fun hst => ?_, hinf _⟩
    · rw [if_pos hst, ← hbits]
      exact ofNat_toNat_eq rfl
    · rwa [if_neg hst]
  · simp only [hb, Format.sum, FpValue.mul]
    refine ⟨ofNat_toNat_eq hbits, ofNat_toNat_eq hbits, fun hn => ?_, fun hn => ?_⟩
    · simp only [if_pos hn]
      exact ⟨hnan, hnan⟩
    · simp only [if_neg hn.ne', Bool.xor_comm t s]
      exact ⟨hinf _, hinf _⟩

/-! ### NaN operands and NaN results -/

section
variable {F : Format} {a x y : Nat} (nan : Nat)

theorem Format.add_nan (h : F.unpack a = .nan ∨ F.unpack x = .nan) : F.add nan a x = nan := by
  rcases h with h | h
  · rw [Format.add, h, Format.sum]
  · rw [Format.add, h, F.sum_nan]

theorem Format.mul_nan (h : F.unpack a = .nan ∨ F.unpack x = .nan) : F.mul nan a x = nan := by
  rcases h with h | h
  · rw [Format.mul, h, FpValue.mul]
  · rw [Format.mul, h, FpValue.mul_nan]

theorem Format.fma_nan (h : F.unpack a = .nan ∨ (F.unpack x).mul (F.unpack y) = .nan) : F.fma nan a x y = nan := by
  rcases h with h | h
  · rw [Format.fma, h, FpValue.finer, Format.sum]
  · rw [Format.fma, h, F.sum_nan]

end

section
variable {nan a x y : Half}

theorem add16_nan (h : binary16.unpack a.toNat = .nan ∨ binary16.unpack x.toNat = .nan) : add16 nan a x = nan :=
  ofNat_toNat_eq (Format.add_nan _ h).symm

theorem mul16_nan (h : binary16.unpack a.toNat = .nan ∨ binary16.unpack x.toNat = .nan) : mul16 nan a x = nan :=
  ofNat_toNat_eq (Format.mul_nan _ h).symm

theorem fma16_nan
    (h : binary16.unpack a.toNat = .nan ∨ (binary16.unpack x.toNat).mul (binary16.unpack y.toNat) = .nan) :
    fma16 nan a x y = nan :=
  ofNat_toNat_eq (Format.fma_nan _ h).symm

theorem fms16_nan
    (h : binary16.unpack a.toNat = .nan ∨ (binary16.unpack x.toNat).mul (binary16.unpack y.toNat) = .nan) :
    fms16 nan a x y = nan := by
  refine fma16_nan (h.imp_right fun h => ?_)
  rw [unpack_neg16, FpValue.neg_mul, h, FpValue.neg]

theorem sub16_nan (h : binary16.unpack a.toNat = .nan ∨ binary16.unpack x.toNat = .nan) : sub16 nan a x = nan :=
  add16_nan (h.imp_right fun h => by rw [unpack_neg16, h, FpValue.neg])

theorem eq_nan_of_isNaN16 {r : Half} (hr : r.toNat = nan.toNat ∨ binary16.IsNumber r.toNat) (h : isNaN16 r = true) :
    r = nan :=
  BitVec.eq_of_toNat_eq (hr.resolve_right fun hnum => binary16_lawful.number_ne_nan hnum (isNaN16_iff.mp h))

theorem add16_nan_or_number : (add16 nan a x).toNat = nan.toNat ∨ binary16.IsNumber (add16 nan a x).toNat := by
  rw [toNat_add16]
  exact binary16_lawful.sum_nan_or_number ..

theorem mul16_nan_or_number : (mul16 nan a x).toNat = nan.toNat ∨ binary16.IsNumber (mul16 nan a x).toNat := by
  rw [toNat_mul16]
  exact binary16_lawful.mul_nan_or_number ..

theorem fma16_nan_or_number : (fma16 nan a x y).toNat = nan.toNat ∨ binary16.IsNumber (fma16 nan a x y).toNat := by
  rw [toNat_fma16]
  exact binary16_lawful.sum_nan_or_number ..

end

theorem isNaN32_nan32 : isNaN32 (BitVec.ofNat 32 nan32) = true := by decide

theorem isNaN32_add32 {v w : Single} (h : isNaN32 v = true ∨ isNaN32 w = true) : isNaN32 (add32 v w) = true := by
  rw [add32, Format.add_nan _ (h.imp isNaN32_iff.mp isNaN32_iff.mp)]
  exact isNaN32_nan32

theorem isNaN32_mul32 {v w : Single} (h : isNaN32 v = true ∨ isNaN32 w = true) : isNaN32 (mul32 v w) = true := by
  rw [mul32, Format.mul_nan _ (h.imp isNaN32_iff.mp isNaN32_iff.mp)]
  exact isNaN32_nan32

theorem isNaN16_cvt32to16 {nan : Half} {rm : CvtRm} {v : Single} (hnan : isNaN16 nan = true) :
    isNaN16 (cvt32to16 nan rm v) = true ↔ isNaN32 v = true := by
  rw [isNaN32_iff]
  refine ⟨fun h => ?_, fun h => by rwa [cvt32to16_nan nan rm h]⟩
  by_contra hv
  exact binary16_lawful.number_ne_nan (cvt32to16_number nan rm hv) (isNaN16_iff.mp h)

/-! ### Infinite operands -/

section
variable {nan a x y : Half} {s t p : Bool} {n : Nat}

theorem add16_infinityRules (nan : Half) : binary16.InfinityRules (add16 nan) (mul16 nan) (· = nan) :=
  binary16_lawful.infinityRules (nan := nan.toNat) (ofNat_toNat_eq rfl)

theorem unpack_neg16_inf (hx : binary16.unpack x.toNat = .inf t) : binary16.unpack (neg16 x).toNat = .inf (!t) := by
  rw [unpack_neg16, hx, FpValue.neg]

theorem sub16_inf_inf (ha : binary16.unpack a.toNat = .inf s) (hx : binary16.unpack x.toNat = .inf t) :
    sub16 nan a x = if s = t then nan else a := by
  obtain ⟨heq, hne, -⟩ := (add16_infinityRules nan a (neg16 x) s (!t) ha).1 (unpack_neg16_inf hx)
  split
  next h => exact hne (h ▸ (Bool.not_ne_self s).symm)
  next h => exact heq (Bool.eq_not_of_ne h)

theorem sub16_inf_fin (ha : binary16.unpack a.toNat = .inf s) (hx : binary16.unpack x.toNat = .fin t n) :
    sub16 nan a x = a ∧ sub16 nan x a = neg16 a := by
  obtain ⟨-, hright, -⟩ := (add16_infinityRules nan (neg16 a) x (!s) t (unpack_neg16_inf ha)).2 n hx
  exact ⟨add16_inf_fin ha (unpack_neg16_fin hx), hright⟩

theorem mul_inf_zero (h : (binary16.unpack x.toNat = .inf s ∧ binary16.unpack y.toNat = .fin t 0) ∨
    (binary16.unpack x.toNat = .fin t 0 ∧ binary16.unpack y.toNat = .inf s)) :
    (binary16.unpack x.toNat).mul (binary16.unpack y.toNat) = .nan := by
  rcases h with ⟨hx, hy⟩ | ⟨hx, hy⟩ <;> rw [hx, hy] <;> rfl

theorem mul_of_infiniteProduct (h : infiniteProduct x y p) :
    (binary16.unpack x.toNat).mul (binary16.unpack y.toNat) = .inf p := by
  obtain ⟨t, u, rfl, ⟨hx, hy⟩ | ⟨hx, n, hn, hy⟩ | ⟨⟨n, hn, hx⟩, hy⟩⟩ := h
  · rw [hx, hy, FpValue.mul]
  · rw [hx, hy, FpValue.mul, if_neg hn.ne']
  · rw [hx, hy, FpValue.mul, if_neg hn.ne']

theorem infBits16 (p : Bool) : BitVec.ofNat 16 (binary16.infBits p) = if p then 0xFC00#16 else 0x7C00#16 := by
  cases p <;> rfl

/-- An infinite product decides `fma16`, but for an opposite infinity (`40_numerics.md` R106). -/
theorem fma16_inf_product (ha : binary16.unpack a.toNat ≠ .nan)
    (h : (binary16.unpack x.toNat).mul (binary16.unpack y.toNat) = .inf p) :
    fma16 nan a x y = if binary16.unpack a.toNat = .inf (!p) then nan else if p then 0xFC00#16 else 0x7C00#16 := by
  rw [fma16, Format.fma, h, ← infBits16]
  rcases hv : binary16.unpack a.toNat with _ | s | ⟨s, m⟩
  · exact absurd hv ha
  · have hsign : FpValue.inf s = .inf (!p) ↔ s ≠ p := by
      rw [FpValue.inf.injEq, Bool.eq_not]
    simp only [FpValue.finer, Format.sum, hsign, ite_not]
    split
    next hs => rw [hs]
    next => exact ofNat_toNat_eq rfl
  · simp only [FpValue.finer, Format.sum, reduceCtorEq, if_false]

/-- An infinite addend decides `fma16` when the product is finite (`40_numerics.md` R106). -/
theorem fma16_inf_addend (ha : binary16.unpack a.toNat = .inf s)
    (h : (binary16.unpack x.toNat).mul (binary16.unpack y.toNat) = .fin t n) : fma16 nan a x y = a := by
  rw [fma16, Format.fma, ha, h]
  exact ofNat_toNat_eq ((binary16_lawful.unpack_eq_inf a.isLt).mp ha)

theorem unpack_neg16_mul :
    (binary16.unpack (neg16 x).toNat).mul (binary16.unpack y.toNat) =
      ((binary16.unpack x.toNat).mul (binary16.unpack y.toNat)).neg := by
  rw [unpack_neg16, FpValue.neg_mul]

theorem fms16_inf_product (ha : binary16.unpack a.toNat ≠ .nan)
    (h : (binary16.unpack x.toNat).mul (binary16.unpack y.toNat) = .inf p) :
    fms16 nan a x y = if binary16.unpack a.toNat = .inf p then nan else if p then 0x7C00#16 else 0xFC00#16 := by
  rw [fms16, fma16_inf_product (p := !p) ha (by rw [unpack_neg16_mul, h, FpValue.neg]), Bool.not_not]
  cases p <;> rfl

theorem fms16_inf_addend (ha : binary16.unpack a.toNat = .inf s)
    (h : (binary16.unpack x.toNat).mul (binary16.unpack y.toNat) = .fin t n) : fms16 nan a x y = a :=
  fma16_inf_addend (t := !t) (n := n) ha (by rw [unpack_neg16_mul, h, FpValue.neg])

end

theorem half_nan_operand {nan a x : Half} (y : Half)
    (h : binary16.unpack a.toNat = .nan ∨ binary16.unpack x.toNat = .nan) :
    add16 nan a x = nan ∧ sub16 nan a x = nan ∧ mul16 nan a x = nan ∧ fma16 nan a x y = nan ∧
      fms16 nan a x y = nan := by
  have hprod : binary16.unpack a.toNat = .nan ∨ (binary16.unpack x.toNat).mul (binary16.unpack y.toNat) = .nan :=
    h.imp_right fun h => by rw [h, FpValue.mul]
  exact ⟨add16_nan h, sub16_nan h, mul16_nan h, fma16_nan hprod, fms16_nan hprod⟩

/-- Settles O52: NaN operands and results, then the infinite operands of sums, differences, products and fused
products. -/
theorem nanAndInfinityResults : Obligations.NanAndInfinityResults := by
  refine ⟨fun nan rm a x y v hnan => ?_, add16_infinityRules,
    fun nan a x s t ha => ⟨sub16_inf_inf ha, fun n => sub16_inf_fin ha⟩, fun nan a x y ha => ?_,
    fun v w h => ⟨isNaN32_add32 h, isNaN32_mul32 h⟩, binary32_lawful.infinityRules isNaN32_nan32⟩
  · refine ⟨fun h => half_nan_operand y (h.imp isNaN16_iff.mp isNaN16_iff.mp), fun h => ?_,
      eq_nan_of_isNaN16 add16_nan_or_number, eq_nan_of_isNaN16 add16_nan_or_number,
      eq_nan_of_isNaN16 mul16_nan_or_number, eq_nan_of_isNaN16 fma16_nan_or_number,
      eq_nan_of_isNaN16 fma16_nan_or_number, isNaN16_cvt32to16 hnan, fun h => cvt32to16_nan nan rm (isNaN32_iff.mp h)⟩
    have hprod : (binary16.unpack x.toNat).mul (binary16.unpack y.toNat) = .nan := by
      rw [isNaN16_iff.mp h, FpValue.mul_nan]
    exact ⟨fma16_nan (.inr hprod), fms16_nan (.inr hprod)⟩
  · have ha : binary16.unpack a.toNat ≠ .nan := fun h => by simp [isNaN16_iff.mpr h] at ha
    refine ⟨fun s t h => ?_, fun p h => ?_, fun s t u n k ha hx hy => ?_⟩
    · exact ⟨fma16_nan (.inr (mul_inf_zero h)), fms16_nan (.inr (mul_inf_zero h))⟩
    · have hprod := mul_of_infiniteProduct h
      exact ⟨fma16_inf_product ha hprod, fms16_inf_product ha hprod⟩
    · have hprod : (binary16.unpack x.toNat).mul (binary16.unpack y.toNat) = .fin (t ^^ u) (n * k) := by
        rw [hx, hy, FpValue.mul]
      exact ⟨fma16_inf_addend ha hprod, fms16_inf_addend ha hprod⟩

end Sys2Proof.Machine
end

section
/-! PROOFS. The shapes (`spec/40_numerics.md` R120 to R122) and the lanes of the tile transforms (R113): a map that
commutes with the five operations of the closed forms commutes with the transforms. Settles O45 and O55. -/

namespace Sys2Proof.Machine

/-! ## Shapes -/

/-- One axis of a map of legal size: the whole tiles of the padded output. -/
theorem roundup6_bounds {n : Nat} (h1 : 1 ≤ n) (h2 : n ≤ 65535) :
    6 ≤ roundup6 n ∧ roundup6 n ≤ 65538 ∧ roundup6 n = 6 * (roundup6 n / 6) ∧ 1 ≤ roundup6 n / 6 ∧
      roundup6 n / 6 ≤ 10923 := by
  unfold roundup6
  omega

theorem roundup6_eq_self_iff (n : Nat) : roundup6 n = n ↔ 6 ∣ n := by
  unfold roundup6
  omega

theorem roundup6_le (n : Nat) : roundup6 n ≤ n + 5 := by
  unfold roundup6
  omega

/-- Settles O45: each axis is `roundup6_bounds`, and the tiles are the product of the two. -/
theorem shapeArithmetic : Obligations.ShapeArithmetic := by
  refine ⟨fun n _ => ⟨rfl, le_roundup6 n, roundup6_le n, roundup6_eq_self_iff n⟩, fun P hW hW' hH hH' => ?_⟩
  obtain ⟨hXlo, hXhi, hX, hTXlo, hTXhi⟩ := roundup6_bounds hW hW'
  obtain ⟨-, -, hY, hTYlo, hTYhi⟩ := roundup6_bounds hH hH'
  have htiles : 1 ≤ P.tiles := Nat.mul_pos hTXlo hTYlo
  have htiles' : P.tiles ≤ 10923 * 10923 := Nat.mul_le_mul hTXhi hTYhi
  simp only [Params.padW, Params.padH, Params.tilesX, Params.tilesY, Params.outWp, Params.outHp]
  omega

/-! ## Lanes -/

/-- `f` carries each operation of one arithmetic to that of another. -/
structure Arith.Hom {α β : Type} (A : Arith α) (B : Arith β) (f : α → β) : Prop where
  add  : ∀ a b, f (A.add a b) = B.add (f a) (f b)
  sub  : ∀ a b, f (A.sub a b) = B.sub (f a) (f b)
  mulC : ∀ a c, f (A.mulC a c) = B.mulC (f a) c
  fmaC : ∀ a b c, f (A.fmaC a b c) = B.fmaC (f a) (f b) c
  fmsC : ∀ a b c, f (A.fmsC a b c) = B.fmsC (f a) (f b) c

/-- A lane of a lane vector: the lane operations are lane by lane (`40_numerics.md` R113). -/
theorem laneArith_hom (nan : Half) (l : Fin 8) : (laneArith nan).Hom (halfArith nan) (fun v => v[l]) where
  add _ _    := by simp [laneArith, halfArith]
  sub _ _    := by simp [laneArith, halfArith]
  mulC _ _   := by simp [laneArith, halfArith]
  fmaC _ _ _ := by simp [laneArith, halfArith]
  fmsC _ _ _ := by simp [laneArith, halfArith]

section
variable {α β : Type} {A : Arith α} {B : Arith β} {f : α → β} (h : A.Hom B f)
include h

theorem Arith.Hom.bt8 (a : Vector α 8) : (bt8 A a).map f = bt8 B (a.map f) := by
  simp [Machine.bt8, h.add, h.sub, h.mulC, h.fmaC, h.fmsC]

theorem Arith.Hom.at6 (tree : AtTree) (b : Vector α 8) : (at6 A tree b).map f = at6 B tree (b.map f) := by
  cases tree <;> simp [Machine.at6, h.add, h.sub, h.fmaC]

theorem Arith.Hom.xinRowPass (d : Grid α 8 8) : (xinRowPass A d).map (·.map f) = xinRowPass B (d.map (·.map f)) := by
  ext t ht m hm
  simp [Machine.xinRowPass, ← h.bt8]

theorem Arith.Hom.xinTile (d : Grid α 8 8) : (xinTile A d).map (·.map f) = xinTile B (d.map (·.map f)) := by
  rw [Machine.xinTile, Machine.xinTile, ← h.xinRowPass, xinColumnPass, xinColumnPass, Vector.map_map, Vector.map_map]
  exact Vector.map_congr_left fun row _ => h.bt8 row

theorem Arith.Hom.xoutFirstPass (tree : AtTree) (M : Grid α 8 8) :
    (xoutFirstPass A tree M).map (·.map f) = xoutFirstPass B tree (M.map (·.map f)) := by
  ext i hi t ht
  simp [Machine.xoutFirstPass, ← h.at6]

theorem Arith.Hom.xoutTile (tree : AtTree) (M : Grid α 8 8) (bias : α) :
    (xoutTile A tree M bias).map (·.map f) = xoutTile B tree (M.map (·.map f)) (f bias) := by
  rw [Machine.xoutTile, Machine.xoutTile, ← h.xoutFirstPass, xoutSecondPass, xoutSecondPass, Vector.map_map,
    Vector.map_map]
  refine Vector.map_congr_left fun row _ => ?_
  simp [← h.at6, h.add, Function.comp_def]

end

/-- Settles O55: taking a lane is a homomorphism. -/
theorem lanesAreIndependent : Obligations.LanesAreIndependent := fun nan tree d bias l =>
  ⟨(laneArith_hom nan l).xinTile d, (laneArith_hom nan l).xoutTile tree d bias⟩

end Sys2Proof.Machine
end

section
/-! PROOFS. The command `tfilt` (`spec/41_filter_transform.md` R145 to R147): a command of one stage and no scratch runs
its units and completes (`exec_single_stage`), and the units of stage `TFILT` fill the destination, one output channel
each. Settles O25. -/

namespace Sys2Proof.Machine

/-! ## Commands of one stage -/

/-- What a ready command of one stage and no scratch leaves, from what each of its units does. -/
theorem exec_single_stage {β : Type} {f : Worker → β} {i : Instr} {st : Stage} {s : State} {D : Nat → Prop}
    {W : Nat → Nat → Prop} {V : Nat → Byte} (h : s.Ready i) (hstages : (commandOf i).stages = [st])
    (hscratch : (commandOf i).scratch = false) (hst : st.working = true)
    (hunits : ∀ n, n < st.units s.params → ∀ x,
      Fills (Ambient D s.mem fun w => f w = x) (W n) V ((commandOf i).unit s.cfg s.params st n)) :
    ∃ t, exec i s = .next t ∧ Completed i .none s t ∧
      (∀ a, (∃ n, n < st.units s.params ∧ W n a) → t.mem.read a = V a) ∧
      (∀ a, (¬ ∃ n, n < st.units s.params ∧ W n a) → t.mem.read a = s.mem.read a) ∧
      t.workers.map f = s.workers.map f ∧ t.draws = s.draws := by
  obtain ⟨u, hrun, hdone⟩ := Command.run_first (c := commandOf i) (s := s.accept i) rfl rfl h.accepted hstages hst
    hunits h.canonical
  have hbusy : u.status.busy = true := by rw [hdone.rest]; rfl
  have hpending : u.pending = [] := by rw [hdone.rest]
  have hstage : u.stage = st := by rw [hdone.rest]
  have hlast : (commandOf i).transactions (1 + 1) u = u.complete .none := by
    rw [Command.run_last hbusy hpending (by rw [hstage, hst]) (by simp [hstage, hstages, stageAfter]), Command.finish,
      Command.scratchUse, hscratch]
    rfl
  have hbudget : (commandOf i).budget (s.accept i) = st.units s.params + 1 + (1 + 1) := by
    simp [Command.budget, hstages]
  refine ⟨u.complete .none, ?_, ?_, hdone.inside, hdone.outside, hdone.workers, ?_⟩
  · rw [exec_waits h.idle h.waits, hbudget, ← hlast]
    exact congrArg _ (hrun _)
  · rw [hdone.rest]
    constructor <;> rfl
  · rw [hdone.rest]
    rfl

/-! ## `tfilt` -/

/-- The bytes of output channel `o` in a TransformedFilter at `base`. -/
def channelBytes (P : Params) (base o a : Nat) : Prop :=
  ∃ c, c < P.inCh ∧ ∃ t, t < 8 ∧ ∃ u, u < 8 ∧
    elemBytes base (tfIndex P.inCh (o / 8) (8 * t + u) (c / 8) (c % 8) (o % 8)) a

/-- Every byte of the half `q k p i j` belongs to its output channel. -/
theorem channelBytes_of_elem {P : Params} {base q k p i j a : Nat} (hk : k < 64) (hp : p < P.inGroups) (hi : i < 8)
    (hj : j < 8) (ha : elemBytes base (tfIndex P.inCh q k p i j) a) : channelBytes P base (8 * q + j) a := by
  rw [Params.inGroups] at hp
  refine ⟨8 * p + i, by omega, k / 8, by omega, k % 8, by omega, ?_⟩
  rwa [div_eight hj, mod_eight hj, div_eight hi, mod_eight hi, Nat.div_add_mod]

theorem channelBytes_in {P : Params} {base o a : Nat} (hi8 : P.inCh % 8 = 0) (ho8 : P.outCh % 8 = 0)
    (ho : o < P.outCh) (ha : channelBytes P base o a) : base ≤ a ∧ a < base + P.tfB := by
  obtain ⟨c, hc, t, ht, u, hu, hE⟩ := ha
  rw [Params.tfB_eq hi8 ho8]
  exact tf_half_in rfl ho8 hi8 ho hc (by omega) hE

/-- Settles O25: the units fill the channels of the destination, which together are all of it. -/
theorem tfiltResult : Obligations.TfiltResult := by
  intro s hready P
  have hchecked := Command.checked hready.accepted
  obtain ⟨hi8, -⟩ := hchecked.inCh (by simp [commandOf, tfiltCommand])
  obtain ⟨ho8, -⟩ := hchecked.outCh (by simp [commandOf, tfiltCommand])
  have hsrc : backs s.cfg P.srcBase.toNat P.rfB = true :=
    State.backed_tensor (r := ⟨.source, P.srcBase.toNat, P.rfB⟩) hready.backed List.mem_cons_self nofun nofun
      hready.accepted
  have hdst : backs s.cfg P.dstBase.toNat P.tfB = true :=
    State.backed_tensor (r := ⟨.dest, P.dstBase.toNat, P.tfB⟩) hready.backed
      (List.mem_cons_of_mem _ List.mem_cons_self) nofun nofun hready.accepted
  have hapart := List.rel_of_pairwise_cons hchecked.disjoint List.mem_cons_self
  obtain ⟨t, hexec, hcompleted, hinside, houtside, hworkers, hdraws⟩ :=
    exec_single_stage (f := id) (D := fun a => P.dstBase.toNat ≤ a ∧ a < P.dstBase.toNat + P.tfB)
      (W := channelBytes P P.dstBase.toNat) hready rfl rfl rfl fun o ho x =>
        tfiltUnit_fills (o := o) hi8 ho8 ho hsrc hdst (fun a h1 h2 => Region.disjoint hapart h1 h2)
          fun a h1 h2 => ⟨h1, h2⟩
  refine ⟨t, hexec, hcompleted, fun q hq k hk p hp i hi j hj => ?_, fun a ha => houtside a ?_, ?_, hdraws⟩
  · have ho : 8 * q + j < P.outCh := by rw [Params.outGroups] at hq; omega
    exact (half_of_image fun a ha => hinside a ⟨8 * q + j, ho, channelBytes_of_elem hk hp hi hj ha⟩).trans
      (bankValue_tfIndex hk hp hi hj)
  · rintro ⟨o, ho, hbytes⟩
    exact Region.holds_false.mp (ha _ List.mem_cons_self) (channelBytes_in hi8 ho8 ho hbytes)
  · simpa using hworkers

end Sys2Proof.Machine
end

section
/-! PROOFS. The filter transform on one tile (`spec/41_filter_transform.md` R140 to R143, R148): the two passes entry by
entry, the constants of `G32` as the singles between the right midpoints, and the rows of `G32` that pick one tap.
Settles O59 and O60. -/

namespace Sys2Proof.Machine

/-! ## The two passes -/

/-- An entry of the transform is a row of rows (`41_filter_transform.md` R142, R143). -/
theorem filterTileOver_entry {α : Type} (A : FilterArith α) (G : Grid α 8 3) (K : Grid α 3 3) {t u : Nat} (ht : t < 8)
    (hu : u < 8) :
    (filterTileOver A G K)[t][u] = filterRow A (Vector.ofFn fun r => filterRow A K[r] G[t]) G[u] := by
  simp [filterTileOver, filterSecondPass, filterFirstPass]

theorem filterRow_exact (x g : Vector ℚ 3) : filterRow exactFilterArith x g = ∑ c : Fin 3, x[c] * g[c] := by
  rw [Fin.sum_univ_three]
  rfl

/-- In exact arithmetic the two passes are the matrix product. -/
theorem filterTileOver_exact (K : Grid ℚ 3 3) : filterTileOver exactFilterArith gExact K = exactFilterTile K := by
  ext t ht u hu
  simp only [filterTileOver_entry, filterRow_exact, exactFilterTile, Vector.getElem_ofFn, Finset.sum_mul,
    Fin.getElem_fin]
  refine Finset.sum_congr rfl fun r _ => Finset.sum_congr rfl fun c _ => ?_
  ring

/-! ## The constants -/

/-- `180 * G`: every denominator of `G` divides 180. -/
def gTimes180 : Grid Int 8 3 :=
  #v[#v[180, 0, 0],
     #v[-40, -40, -40],
     #v[-40, 40, -40],
     #v[2, 4, 8],
     #v[2, -4, 8],
     #v[4, 2, 1],
     #v[4, -2, 1],
     #v[0, 0, 180]]

theorem gExact_eq : gExact = gTimes180.map fun row => row.map fun w : Int => (w : ℚ) / 180 := by
  simp only [gExact, gTimes180, Vector.map_mk, List.map_toArray, List.map_cons, List.map_nil, Vector.eq_mk,
    Array.mk.injEq, List.cons.injEq]
  norm_num

theorem gExact_entry (u : Fin 8) (r : Fin 3) : gExact[u][r] = (gTimes180[u][r] : ℚ) / 180 := by simp [gExact_eq]

theorem g32_zero : ∀ (u : Fin 8) (r : Fin 3), gTimes180[u][r] = 0 → g32[u][r] = 0#32 := by decide

/-- Each entry of `G` has the sign of its single and lies between the midpoints of that single's magnitude and the two
neighbouring ones, all counted in units of `2^-149 / 180`. -/
theorem g32_between_midpoints : ∀ (u : Fin 8) (r : Fin 3),
    let s := g32[u][r].msb
    let c := g32[u][r].toNat % 2 ^ 31
    let w := gTimes180[u][r].natAbs
    g32[u][r].toNat = binary32.signBit s + c ∧ c < binary32.infCode ∧ gTimes180[u][r] = signedInt s w ∧
      (binary32.magnitude (c - 1) + binary32.magnitude c) * 180 ≤ 2 * (w * 2 ^ 149) ∧
      2 * (w * 2 ^ 149) ≤ (binary32.magnitude c + binary32.magnitude (c + 1)) * 180 := by decide

section
variable {F : Format} (hF : F.Lawful) {c q v : Nat}
  (hlow : (F.magnitude (c - 1) + F.magnitude c) * q ≤ 2 * v)
  (hhigh : 2 * v ≤ (F.magnitude c + F.magnitude (c + 1)) * q)
include hF hlow hhigh

/-- No magnitude is nearer to a value than one whose midpoints to its neighbours enclose the value. -/
theorem Format.Lawful.magnitude_nearest (d : Nat) :
    ((F.magnitude c * q : Int) - v).natAbs ≤ ((F.magnitude d * q : Int) - v).natAbs := by
  rw [Nat.add_mul] at hlow hhigh
  have hmono {a b : Nat} (h : a ≤ b) := Nat.mul_le_mul_right q (hF.magnitude_strictMono.monotone h)
  rcases lt_trichotomy d c with h | rfl | h
  · have hbelow := hmono (show d ≤ c - 1 by omega)
    have hstep := hmono (show c - 1 ≤ c by omega)
    zify at hlow hbelow hstep
    omega
  · exact le_rfl
  · have habove := hmono (show c + 1 ≤ d from h)
    have hstep := hmono (show c ≤ c + 1 by omega)
    zify at hhigh habove hstep
    omega

/-- With a sign: values of equal signs are as far apart as their magnitudes, values of opposite signs farther. -/
theorem Format.Lawful.signed_nearest (s t : Bool) (d : Nat) :
    (signedInt s (F.magnitude c) * q - signedInt s v).natAbs ≤
      (signedInt t (F.magnitude d) * q - signedInt s v).natAbs := by
  have hnear := hF.magnitude_nearest hlow hhigh d
  have hpos : 0 ≤ (F.magnitude d * q : Int) := by positivity
  cases s <;> cases t <;> simp only [signedInt, Int.neg_mul, if_true, if_false, Bool.false_eq_true] <;> omega

end

/-- The distance of `a / 2^149` from `w / 180` over the common denominator. -/
theorem abs_div_sub_div (a w : Int) :
    |(a : ℚ) / 2 ^ 149 - (w : ℚ) / 180| = ((a * 180 - w * 2 ^ 149).natAbs : ℚ) / (2 ^ 149 * 180) := by
  rw [div_sub_div _ _ (by norm_num) (by norm_num), abs_div, abs_of_pos (show (0 : ℚ) < 2 ^ 149 * 180 by norm_num),
    Nat.cast_natAbs, mul_comm (2 ^ 149 : ℚ) w]
  push_cast
  rfl

/-- Settles O59: each constant lies between the midpoints of its single. -/
theorem filterConstants : Obligations.FilterConstants := by
  refine ⟨fun u r => ?_, fun _ => rfl, fun _ _ => ⟨rfl, rfl⟩, filterTileOver_exact⟩
  rw [gExact_entry]
  refine ⟨fun h => g32_zero u r (by simpa using h), ?_⟩
  obtain ⟨hbits, hfinite, hsign, hlow, hhigh⟩ := g32_between_midpoints u r
  refine ⟨_, _, (binary32_lawful.unpack_eq_fin g32[u][r].isLt).mpr ⟨_, hfinite, hbits, rfl⟩, fun b n' s' hb h => ?_⟩
  obtain ⟨d, -, -, rfl⟩ := (binary32_lawful.unpack_eq_fin hb).mp h
  have hnear := binary32_lawful.signed_nearest hlow hhigh g32[u][r].msb s' d
  have hscaled : signedInt g32[u][r].msb (gTimes180[u][r].natAbs * 2 ^ 149) = gTimes180[u][r] * 2 ^ 149 := by
    conv_rhs => rw [hsign]
    cases g32[u][r].msb <;> simp [signedInt]
  rw [hscaled] at hnear
  rw [abs_div_sub_div, abs_div_sub_div]
  exact div_le_div_of_nonneg_right (Nat.cast_le.mpr hnear) (by positivity)

/-! ## Sums with a zero, products with zero and one -/

section
variable {F : Format} (hF : F.Lawful)
include hF

/-- The rounding depends on the value only, not on the unit it is counted in. -/
theorem Format.Lawful.round_finer (neg : Bool) {m : Nat} (k j : Nat) (hm : 0 < m) :
    F.round neg (m * 2 ^ j) (k + j) = F.round neg m k := by
  have hj : 0 < 2 ^ j := by positivity
  have hcode : F.roundCode (m * 2 ^ j) (k + j) = F.roundCode m k := by
    refine eq_of_forall_lt_iff fun c => ?_
    have hmid : 2 * (m * 2 ^ j * 2 ^ F.scale) = 2 * (m * 2 ^ F.scale) * 2 ^ j := by ring
    rw [hF.lt_roundCode_iff _ hm, hF.lt_roundCode_iff _ (Nat.mul_pos hm hj), hmid, pow_add, ← Nat.mul_assoc,
      Nat.mul_lt_mul_right hj, Nat.mul_left_inj hj.ne']
  rw [hF.round_eq _ _ hm, hF.round_eq _ _ (Nat.mul_pos hm hj), hcode]

theorem Format.Lawful.rounded_of_finer {z : Bool} {v : Int} {k r : Nat} (j : Nat)
    (h : F.Rounded z (v * 2 ^ j) (k + j) r) : F.Rounded z v k r := by
  have hj : (0 : Int) < 2 ^ j := by positivity
  have hneg : v * 2 ^ j < 0 ↔ v < 0 := ⟨fun h => neg_of_mul_neg_left h hj.le, fun h => mul_neg_of_neg_of_pos h hj⟩
  have habs : (v * 2 ^ j).natAbs = v.natAbs * 2 ^ j := by simp [Int.natAbs_mul, Int.natAbs_pow]
  simp only [Format.Rounded, mul_eq_zero, hj.ne', or_false, hneg, habs] at h ⊢
  split at h
  next hv => rw [h, if_pos hv]
  next hv => rw [h, if_neg hv, hF.round_finer _ k j (Int.natAbs_pos.mpr hv)]

end

theorem signedInt_zero (s : Bool) : signedInt s 0 = 0 := signedInt_eq_zero.mpr rfl

/-- The single is a zero of either sign. -/
def IsZero32 (v : Single) : Prop := ∃ s, binary32.unpack v.toNat = .fin s 0

/-- The single is finite. -/
def IsFinite32 (v : Single) : Prop := ∃ s n, binary32.unpack v.toNat = .fin s n

/-- The result `v` is the single `a`, but for the sign of a zero. -/
def Carries (v a : Single) : Prop := v = a ∨ IsZero32 v ∧ IsZero32 a

theorem IsZero32.isFinite32 {v : Single} (h : IsZero32 v) : IsFinite32 v := h.imp fun _ hs => ⟨0, hs⟩

theorem isZero32_signBit {v : Single} {s : Bool} (h : v.toNat = binary32.signBit s) : IsZero32 v :=
  ⟨s, by rw [h]; cases s <;> decide⟩

/-- A zero has no bit set but its sign. -/
theorem IsZero32.and_low {v : Single} (h : IsZero32 v) : v &&& 0x7FFFFFFF#32 = 0 := by
  obtain ⟨s, hs⟩ := h
  obtain ⟨c, -, hv, hc⟩ := (binary32_lawful.unpack_eq_fin v.isLt).mp hs
  rw [binary32_lawful.magnitude_eq_zero.mp hc.symm] at hv
  rw [← ofNat_toNat_eq hv]
  cases s <;> decide

section
variable {a v w z : Single}

theorem Carries.isFinite32 (h : Carries v a) (ha : IsFinite32 a) : IsFinite32 v := by
  rcases h with rfl | ⟨hv, -⟩
  · exact ha
  · exact hv.isFinite32

theorem Carries.isZero32 (h : Carries v a) (ha : IsZero32 a) : IsZero32 v := by
  rcases h with rfl | ⟨hv, -⟩
  · exact ha
  · exact hv

theorem Carries.trans (h : Carries v w) (h' : Carries w a) : Carries v a := by
  rcases h' with rfl | ⟨hw, ha⟩
  · exact h
  · exact .inr ⟨h.isZero32 hw, ha⟩

/-- A result that carries `a` is `a` when that is not zero. -/
theorem Carries.eq (h : Carries v a) (ha : a &&& 0x7FFFFFFF#32 ≠ 0) : v = a := by
  rcases h with rfl | ⟨-, hzero⟩
  · rfl
  · exact absurd hzero.and_low ha

/-- One rounding of the value of a finite single carries it. -/
theorem carries_of_rounded {s zeroNeg : Bool} {n : Nat} (ha : binary32.unpack a.toNat = .fin s n)
    (h : binary32.Rounded zeroNeg (signedInt s n) binary32.scale v.toNat) : Carries v a := by
  rcases Nat.eq_zero_or_pos n with rfl | hn
  · rw [Format.Rounded, if_pos (signedInt_zero s)] at h
    exact .inr ⟨isZero32_signBit h, s, ha⟩
  · rw [Format.Rounded, if_neg (signedInt_eq_zero.not.mpr hn.ne'), signedInt_neg_iff hn, natAbs_signedInt,
      binary32_lawful.round_value a.isLt ha hn] at h
    exact .inl (BitVec.eq_of_toNat_eq h)

theorem isZero32_mul_zero (ha : IsFinite32 a) : IsZero32 (mul32 a 0#32) := by
  obtain ⟨s, n, ha⟩ := ha
  have h := Format.mul_rounded nan32 ha (show binary32.unpack (0#32).toNat = .fin false 0 by decide)
  rw [← toNat_mul32, signedInt_zero, Int.mul_zero, Format.Rounded, if_pos rfl] at h
  exact isZero32_signBit h

theorem carries_mul_one (ha : IsFinite32 a) : Carries (mul32 a 0x3F800000#32) a := by
  obtain ⟨s, n, ha⟩ := ha
  have h := Format.mul_rounded nan32 ha (show binary32.unpack (0x3F800000#32).toNat = .fin false (2 ^ 149) by decide)
  rw [← toNat_mul32, Nat.two_mul] at h
  exact carries_of_rounded ha (binary32_lawful.rounded_of_finer 149 h)

section
variable (h : Carries v a) (ha : IsFinite32 a) (hz : IsZero32 z)
include h ha hz

/-- A zero added on the right changes at most the sign of a zero (`40_numerics.md` R109). -/
theorem Carries.add_zero : Carries (add32 v z) a := by
  obtain ⟨s, n, hv⟩ := h.isFinite32 ha
  obtain ⟨t, hz⟩ := hz
  have hsum := Format.add_rounded nan32 hv hz
  rw [signedInt_zero, Int.add_zero, ← toNat_add32] at hsum
  exact (carries_of_rounded hv hsum).trans h

theorem Carries.zero_add : Carries (add32 z v) a := by
  obtain ⟨s, n, hv⟩ := h.isFinite32 ha
  obtain ⟨t, hz⟩ := hz
  have hsum := Format.add_rounded nan32 hz hv
  rw [signedInt_zero, Int.zero_add, ← toNat_add32] at hsum
  exact (carries_of_rounded hv hsum).trans h

end

theorem IsZero32.add (hv : IsZero32 v) (hz : IsZero32 z) : IsZero32 (add32 v z) :=
  (Carries.add_zero (.inl rfl) hv.isFinite32 hz).isZero32 hv

end

/-! ## The rows of `G32` that pick one tap -/

/-- A row of the matrix that gives, but for the sign of a zero, value `c` of three finite ones. -/
def Picks (g : Vector Single 3) (c : Fin 3) : Prop :=
  ∀ x : Vector Single 3, (∀ i : Fin 3, IsFinite32 x[i]) → Carries (filterRow singleFilterArith x g) x[c]

/-- Row 0 of `G32` is `1 0 0`. -/
theorem picks_first : Picks g32[0] 0 := fun _ hx =>
  ((carries_mul_one (hx 0)).add_zero (hx 0) (isZero32_mul_zero (hx 1))).add_zero (hx 0) (isZero32_mul_zero (hx 2))

/-- Row 7 of `G32` is `0 0 1`. -/
theorem picks_last : Picks g32[7] 2 := fun _ hx =>
  (carries_mul_one (hx 2)).zero_add (hx 2) ((isZero32_mul_zero (hx 0)).add (isZero32_mul_zero (hx 1)))

/-- Two rows that pick a tap each make an entry that picks the tap in the row and column they name. -/
theorem filterTile_carries {K : Grid Single 3 3} {t u : Nat} {r cc : Fin 3} {ht : t < 8} {hu : u < 8}
    (hK : ∀ r cc : Fin 3, IsFinite32 K[r][cc]) (hcol : Picks g32[t] cc) (hrow : Picks g32[u] r) :
    Carries (gridAt 0 (filterTile K) t u) K[r][cc] := by
  have hfirst (r : Fin 3) : Carries (filterRow singleFilterArith K[r] g32[t]) K[r][cc] := hcol K[r] (hK r)
  rw [gridAt_of_lt ht hu, filterTile, filterTileOver_entry]
  refine Carries.trans (hrow _ fun i => ?_) ?_
  · simpa using (hfirst i).isFinite32 (hK i cc)
  · simpa using hfirst r

/-- Settles O60: the corner coefficients are the entries of rows 0 and 7. -/
theorem cornerTapsPassThrough : Obligations.CornerTapsPassThrough := by
  intro nan rm K hK k r cc hmem hne
  have hcarries : Carries (gridAt 0 (filterTile K) (k / 8) (k % 8)) K[r][cc] := by
    simp only [List.mem_cons, List.not_mem_nil, or_false, Prod.mk.injEq] at hmem
    rcases hmem with ⟨rfl, rfl, rfl⟩ | ⟨rfl, rfl, rfl⟩ | ⟨rfl, rfl, rfl⟩ | ⟨rfl, rfl, rfl⟩
    · exact filterTile_carries hK picks_first picks_first
    · exact filterTile_carries hK picks_first picks_last
    · exact filterTile_carries hK picks_last picks_first
    · exact filterTile_carries hK picks_last picks_last
  rw [filterCoef, hcarries.eq hne]

end Sys2Proof.Machine
end

section
/-! PROOFS. The commands `pad` and `crop` (`spec/42_pad_crop.md` R161 to R167): a command of one stage whose units fill
the planes of one feature map leaves that map, and a map copied half by half is copied byte by byte. Settles O26, O31,
O36 and O37. -/

namespace Sys2Proof.Machine

/-! ## Commands that fill a feature map -/

/-- Every byte of a half of the map belongs to the plane of its channel group. -/
theorem planeBytes_of_elem {base w h g y x l a : Nat} (hy : y < h) (hx : x < w) (hl : l < 8)
    (ha : elemBytes base (fmIndex w h g y x l) a) : planeBytes base w h g a := by
  obtain ⟨h1, h2⟩ := ha
  rw [← fmIndex_lane] at h1 h2
  exact ⟨y, hy, x, hx, by omega, by omega⟩

theorem planeBytes_in {base w h g n a : Nat} (hg : g < n) (ha : planeBytes base w h g a) :
    base ≤ a ∧ a < base + n * h * w * 8 * 2 := by
  obtain ⟨y, hy, x, hx, hlane⟩ := ha
  exact lane_in_map hg hy hx hlane

/-- What a ready command of one stage and no scratch leaves when unit `g` fills plane `g` of the map `F`. -/
theorem exec_fills_map {β : Type} {f : Worker → β} {i : Instr} {st : Stage} {s : State} {D : Nat → Prop}
    {base w h : Nat} {F : FeatureMap} (hready : s.Ready i) (hstages : (commandOf i).stages = [st])
    (hscratch : (commandOf i).scratch = false) (hst : st.working = true)
    (hunits : ∀ g, g < st.units s.params → ∀ x, Fills (Ambient D s.mem fun w => f w = x) (planeBytes base w h g)
      (image base (fmValue w h F)) ((commandOf i).unit s.cfg s.params st g)) :
    ∃ t, exec i s = .next t ∧ Completed i .none s t ∧
      (∀ g, g < st.units s.params → ∀ y, y < h → ∀ x, x < w → ∀ l, l < 8 →
        t.mem.half base (fmIndex w h g y x l) = F g y x l) ∧
      memoryKept [⟨.dest, base, st.units s.params * h * w * 8 * 2⟩] s t ∧
      workersKept f s t ∧ t.draws = s.draws := by
  obtain ⟨t, hexec, hcompleted, hinside, houtside, hworkers, hdraws⟩ :=
    exec_single_stage hready hstages hscratch hst hunits
  refine ⟨t, hexec, hcompleted, fun g hg y hy x hx l hl => ?_, fun a ha => houtside a ?_, hworkers, hdraws⟩
  · exact (half_of_image fun a ha => hinside a ⟨g, hg, planeBytes_of_elem hy hx hl ha⟩).trans
      (fmValue_fmIndex hy hx hl)
  · rintro ⟨g, hg, hplane⟩
    exact Region.holds_false.mp (ha _ List.mem_cons_self) (planeBytes_in hg hplane)

theorem workers_eq_of_workersKept_id {s t : State} (h : workersKept id s t) : t.workers = s.workers := by
  simpa [workersKept] using h

/-! ## Copies of a feature map -/

/-- The bytes of a tensor are the bytes of its halves. -/
theorem Memory.read_eq_image (m : Memory) (base n : Nat) : m.read (base + n) = image base (m.half base) (base + n) := by
  rw [image, Nat.add_sub_cancel_left]
  rcases Nat.mod_two_eq_zero_or_one n with hmod | hmod
  · rw [hmod, Memory.half, Memory.halfByte_read16_zero, show 2 * (n / 2) = n by omega]
  · rw [hmod, Memory.half, Memory.halfByte_read16_one, show base + 2 * (n / 2) + 1 = base + n by omega]

theorem Memory.read_eq_of_half_eq {m m' : Memory} {base base' n : Nat}
    (h : m.half base (n / 2) = m'.half base' (n / 2)) : m.read (base + n) = m'.read (base' + n) := by
  rw [m.read_eq_image, m'.read_eq_image, image, image, Nat.add_sub_cancel_left, Nat.add_sub_cancel_left, h]

/-- Two maps of one shape that agree half by half agree byte by byte: every element has coordinates
(`20_memory.md` R51). -/
theorem Memory.read_eq_of_map_eq {m m' : Memory} {base base' w h k n : Nat}
    (hmap : ∀ g, g < k → ∀ y, y < h → ∀ x, x < w → ∀ l, l < 8 →
      m.half base (fmIndex w h g y x l) = m'.half base' (fmIndex w h g y x l))
    (hn : n < k * h * w * 8 * 2) : m.read (base + n) = m'.read (base' + n) := by
  obtain ⟨g, y, x, l, hg, hy, hx, hl, he⟩ := exists_fmIndex (e := n / 2) (n := k) (h := h) (w := w) (by omega)
  exact Memory.read_eq_of_half_eq (he ▸ hmap g hg y hy x hx l hl)

/-! ## `pad` -/

/-- Settles O26: unit `g` of stage `PAD` fills plane `g` of the destination with the padded map. -/
theorem padResult : Obligations.PadResult := by
  intro s hready P
  have hchecked := Command.checked hready.accepted
  obtain ⟨hch, -⟩ := hchecked.inCh (by simp [commandOf, padCommand])
  have hsrc : backs s.cfg P.srcBase.toNat P.inB = true :=
    State.backed_tensor (r := ⟨.source, P.srcBase.toNat, P.inB⟩) hready.backed List.mem_cons_self nofun nofun
      hready.accepted
  have hdst : backs s.cfg P.dstBase.toNat P.padB = true :=
    State.backed_tensor (r := ⟨.dest, P.dstBase.toNat, P.padB⟩) hready.backed
      (List.mem_cons_of_mem _ List.mem_cons_self) nofun nofun hready.accepted
  have hapart := List.rel_of_pairwise_cons hchecked.disjoint List.mem_cons_self
  obtain ⟨t, hexec, hcompleted, hmap, hkept, hworkers, hdraws⟩ :=
    exec_fills_map (f := id) (D := fun a => P.dstBase.toNat ≤ a ∧ a < P.dstBase.toNat + P.padB)
      hready rfl rfl rfl fun g hg x =>
        padUnit_fills hch hg hsrc hdst (fun a h1 h2 => Region.disjoint hapart h1 h2) fun a h1 h2 => ⟨h1, h2⟩
  exact ⟨t, hexec, hcompleted, hmap, Params.padB_eq hch ▸ hkept, workers_eq_of_workersKept_id hworkers, hdraws⟩

/-- Settles O36: with nothing to the right or below, the padded map is the source. -/
theorem paddingIdempotence : Obligations.PaddingIdempotence := by
  intro s hready hw hh
  obtain ⟨hch, -⟩ := (Command.checked hready.accepted).inCh (by simp [commandOf, padCommand])
  obtain ⟨t, hexec, hcompleted, hmap, -⟩ := padResult s hready
  refine ⟨t, hexec, hcompleted.err, fun n hn => ?_⟩
  rw [Params.padB_eq hch] at hn
  refine Memory.read_eq_of_map_eq (fun g hg y hy x hx l hl => ?_) hn
  have hinside : y < s.params.inH ∧ x < s.params.inW := ⟨hh ▸ hy, hw ▸ hx⟩
  rw [hmap g hg y hy x hx l hl, if_pos hinside, hw, hh]

/-! ## `crop` -/

/-- Settles O31: unit `g` of stage `CROP` fills plane `g` of the destination with the kept part of the source, whose
lane vectors are the only ones it reads. -/
theorem cropResult : Obligations.CropResult := by
  intro s hready P
  have hchecked := Command.checked hready.accepted
  obtain ⟨hch, -⟩ := hchecked.outCh (by simp [commandOf, cropCommand])
  have hdst : backs s.cfg P.dstBase.toNat P.outB = true :=
    State.backed_tensor (r := ⟨.dest, P.dstBase.toNat, P.outB⟩) hready.backed
      (List.mem_cons_of_mem _ List.mem_cons_self) nofun (fun _ => rfl) hready.accepted
  have hapart := List.rel_of_pairwise_cons hchecked.disjoint List.mem_cons_self
  obtain ⟨t, hexec, hcompleted, hmap, hkept, hworkers, hdraws⟩ :=
    exec_fills_map (f := id) (D := fun a => P.dstBase.toNat ≤ a ∧ a < P.dstBase.toNat + P.outB)
      hready rfl rfl rfl fun g hg x =>
        cropUnit_fills hch hg (fun y hy x hx => State.backed_crop hready.backed hg hy hx) hdst
          (fun a h1 h2 => Region.disjoint hapart h1 h2) fun a h1 h2 => ⟨h1, h2⟩
  exact ⟨t, hexec, hcompleted, hmap, Params.outB_eq hch ▸ hkept, workers_eq_of_workersKept_id hworkers, hdraws⟩

/-- Settles O37: a size that is a multiple of 6 is its own padded size, so all of the source is kept. -/
theorem cropPassThrough : Obligations.CropPassThrough := by
  intro s hready hw hh
  have hwidth : s.params.outWp = s.params.outW := (roundup6_eq_self_iff _).mpr hw
  have hheight : s.params.outHp = s.params.outH := (roundup6_eq_self_iff _).mpr hh
  obtain ⟨hch, -⟩ := (Command.checked hready.accepted).outCh (by simp [commandOf, cropCommand])
  obtain ⟨t, hexec, hcompleted, hmap, -⟩ := cropResult s hready
  refine ⟨t, hexec, hcompleted.err, fun n hn => ?_⟩
  rw [Params.opB_eq hch, hwidth, hheight] at hn
  rw [hwidth, hheight] at hmap
  exact Memory.read_eq_of_map_eq hmap hn

end Sys2Proof.Machine
end

section
/-! PROOFS. The input transform and the command `xin` (`spec/43_input_transform.md` R176 to R185): the closed forms of
`bt8` over the rationals are its printed matrix; a lane of the lane-wise transform is the transform of that lane, so the
units of stage `XIN`, one input channel group each, fill the destination with the TransformedInput. Settles O27 and
O56. -/

namespace Sys2Proof.Machine

/-! ## The constants and the matrix of `bt8` -/

/-- A constant of the transforms in quarters: every one is a multiple of `1/4`. -/
def Coef.quarters : Coef → Nat
  | .c5_25 => 21
  | .c4_25 => 17
  | .c1_25 => 5
  | .c2_5  => 10
  | .c0_25 => 1
  | .c0_5  => 2
  | .c1    => 4
  | .c2    => 8
  | .c4    => 16
  | .c8    => 32
  | .c16   => 64
  | .c32   => 128

theorem Coef.exact_eq (c : Coef) : c.exact = c.quarters / 4 := by
  cases c <;> norm_num [Coef.exact, Coef.quarters]

/-- A quarter is `2^22` units of `2^-24`. -/
theorem Coef.unpack_half (c : Coef) : binary16.unpack c.half.toNat = .fin false (c.quarters * 2 ^ 22) := by
  cases c <;> decide

/-- The half of a constant is exact (`40_numerics.md` R112). -/
theorem Coef.half_exact (c : Coef) :
    ∃ n, binary16.unpack c.half.toNat = .fin false n ∧ (n : ℚ) / 2 ^ 24 = c.exact := by
  refine ⟨_, c.unpack_half, ?_⟩
  rw [c.exact_eq]
  push_cast
  ring

/-- Settles O56: the constants are `Coef.half_exact`, the operations hold by definition, and each output of `bt8` is a
polynomial identity. -/
theorem inputMatrix : Obligations.InputMatrix := by
  refine ⟨Coef.half_exact, fun _ _ _ _ => ⟨rfl, rfl, rfl, rfl, rfl⟩, fun a0 a1 a2 a3 a4 a5 a6 a7 => ?_⟩
  simp only [bt8, exactArith, Coef.exact, Vector.getElem_mk, List.getElem_toArray, List.getElem_cons_zero,
    List.getElem_cons_succ, Vector.eq_mk, Array.mk.injEq, List.cons.injEq, and_true]
  refine ⟨?_, ?_, ?_, ?_, ?_, ?_, ?_, ?_⟩ <;> ring

/-! ## One lane of the lane-wise transform -/

theorem gridAt_map {α β : Type} {r c : Nat} (f : α → β) (d : α) (g : Grid α r c) (y x : Nat) :
    gridAt (f d) (g.map (·.map f)) y x = f (gridAt d g y x) := by
  by_cases h : y < r ∧ x < c <;> simp [gridAt, h]

/-- A lane of an entry of a grid of lane vectors. -/
theorem laneAt_gridAt {r c l : Nat} (g : Grid LaneVec r c) (y x : Nat) (hl : l < 8) :
    laneAt (gridAt zeroLanes g y x) l = gridAt 0 (g.map (·.map fun v => v[l])) y x := by
  have hzero : zeroLanes[l] = 0 := by simp [zeroLanes]
  rw [laneAt_of_lt hl, ← hzero, gridAt_map fun v : LaneVec => v[l]]

theorem laneBlock_lane {l : Nat} (f : Nat → Nat → Nat → Half) (hl : l < 8) :
    (laneBlock f).map (·.map fun v => v[l]) = block8 fun a b => f a b l := by
  ext a ha b hb
  simp [laneBlock, block8]

/-- The TransformedInput computed on lane vectors is that of each lane (`40_numerics.md` R113). -/
theorem laneInput_eq {nan : Half} {P : Params} {f : FeatureMap} {p k tile i : Nat} (hi : i < 8) :
    laneInput nan P f p k tile i = transformedInput nan P f p k tile i := by
  have hlane := (laneArith_hom nan ⟨i, hi⟩).xinTile
    (laneBlock fun y x l => f p (6 * (tile / P.tilesX) + y) (6 * (tile % P.tilesX) + x) l)
  simp only [Fin.getElem_fin] at hlane
  rw [laneInput, laneAt_gridAt _ _ _ hi, hlane, laneBlock_lane _ hi, transformedInput]

/-! ## `xin` -/

/-- The bytes of channel group `p` in a TransformedInput at `base`, tile by tile. -/
def groupBytes (P : Params) (base p a : Nat) : Prop :=
  ∃ ty, ty < P.tilesY ∧ ∃ tx, tx < P.tilesX ∧ ∃ t, t < 8 ∧ ∃ u, u < 8 ∧
    laneBytes base (tiIndex P.tiles p (8 * t + u) (ty * P.tilesX + tx) 0) a

/-- Every byte of the half `p k tile i` belongs to its channel group. -/
theorem groupBytes_of_elem {P : Params} {base p k tile i a : Nat} (hk : k < 64) (ht : tile < P.tiles) (hi : i < 8)
    (ha : elemBytes base (tiIndex P.tiles p k tile i) a) : groupBytes P base p a := by
  rw [Params.tiles, Nat.mul_comm] at ht
  obtain ⟨ty, tx, hty, htx, rfl⟩ := exists_digits ht
  obtain ⟨h1, h2⟩ := ha
  rw [← tiIndex_lane] at h1 h2
  refine ⟨ty, hty, tx, htx, k / 8, by omega, k % 8, by omega, ?_⟩
  rw [Nat.div_add_mod]
  exact ⟨by omega, by omega⟩

theorem groupBytes_in {P : Params} {base p a : Nat} (hch : P.inCh % 8 = 0) (hp : p < P.inGroups)
    (ha : groupBytes P base p a) : base ≤ a ∧ a < base + P.tiB := by
  obtain ⟨ty, hty, tx, htx, t, ht, u, hu, hlane⟩ := ha
  rw [Params.tiB_eq hch]
  exact lane_in_spectrum hp (by omega) (tile_lt hty htx) hlane

/-- Settles O27: unit `p` of stage `XIN` fills channel group `p` of the destination, and all of them together are all of
it; a unit changes nothing of its worker but the staging buffer. -/
theorem xinResult : Obligations.XinResult := by
  intro s hready P
  have hchecked := Command.checked hready.accepted
  obtain ⟨hch, -⟩ := hchecked.inCh (by simp [commandOf, xinCommand])
  have hsrc : backs s.cfg P.srcBase.toNat P.padB = true :=
    State.backed_tensor (r := ⟨.source, P.srcBase.toNat, P.padB⟩) hready.backed List.mem_cons_self nofun nofun
      hready.accepted
  have hdst : backs s.cfg P.dstBase.toNat P.tiB = true :=
    State.backed_tensor (r := ⟨.dest, P.dstBase.toNat, P.tiB⟩) hready.backed
      (List.mem_cons_of_mem _ List.mem_cons_self) nofun nofun hready.accepted
  have hapart := List.rel_of_pairwise_cons hchecked.disjoint List.mem_cons_self
  obtain ⟨t, hexec, hcompleted, hinside, houtside, hworkers, hdraws⟩ :=
    exec_single_stage (f := fun w => (w.acc, w.held)) (D := fun a => P.dstBase.toNat ≤ a ∧ a < P.dstBase.toNat + P.tiB)
      (W := groupBytes P P.dstBase.toNat) hready rfl rfl rfl fun p hp x =>
        xinUnit_fills hch hp hsrc hdst (fun a h1 h2 => Region.disjoint hapart h1 h2) (fun a h1 h2 => ⟨h1, h2⟩)
          fun _ _ h => h
  refine ⟨t, hexec, hcompleted, fun p hp k hk tile htile i hi => ?_, fun a ha => houtside a ?_, hworkers, hdraws⟩
  · calc t.mem.half P.dstBase.toNat (tiIndex P.tiles p k tile i)
      _ = spectrumValue P.tiles (laneInput s.cfg.nanBits P (s.mem.featureMap P.srcBase.toNat P.padW P.padH))
            (tiIndex P.tiles p k tile i) :=
          half_of_image fun a ha => hinside a ⟨p, hp, groupBytes_of_elem hk htile hi ha⟩
      _ = laneInput s.cfg.nanBits P (s.mem.featureMap P.srcBase.toNat P.padW P.padH) p k tile i :=
          spectrumValue_tiIndex hk htile hi
      _ = _ := laneInput_eq hi
  · rintro ⟨p, hp, hgroup⟩
    exact Region.holds_false.mp (ha _ List.mem_cons_self) (groupBytes_in hch hp hgroup)

end Sys2Proof.Machine
end

section
/-! PROOFS. The tile blocks (`spec/44_contraction.md` R196): the list of widths of `8*n + r` tiles is `n` blocks of width
8 and the widths of the `r < 8` tiles left, and a block starts at the sum of the widths before it. Settles O44. -/

namespace Sys2Proof.Machine

/-! ## The tile blocks (`44_contraction.md` R196) -/

/-- The widths of the blocks, in order. -/
def widths (T : Nat) : List Nat := (blocks T).map Prod.snd

theorem widths_split (n r : Nat) (hr : r < 8) : widths (8 * n + r) = List.replicate n 8 ++ widths r := by
  rw [widths, blocks_split n r hr, List.map_append, List.map_map, List.map_map]
  simp [widths, Function.comp_def]

@[simp] theorem length_widths (T : Nat) : (widths T).length = nblk T := by simp [widths, nblk]

/-- The blocks hold all the tiles. -/
theorem widths_sum (T : Nat) : (widths T).sum = T := by
  obtain ⟨n, r, hr, rfl⟩ : ∃ n r, r < 8 ∧ T = 8 * n + r := ⟨T / 8, T % 8, by omega, by omega⟩
  have hnarrow : ∀ r : Fin 8, (widths r).sum = r := by decide
  rw [widths_split n r hr, List.sum_append, List.sum_replicate, smul_eq_mul, Nat.mul_comm]
  exact congrArg _ (hnarrow ⟨r, hr⟩)

/-- A block starts where the blocks before it end. -/
theorem blockAt_start {T b : Nat} (hb : b < nblk T) : (blockAt T b).1 = ((widths T).take b).sum := by
  obtain ⟨n, r, hr, rfl⟩ : ∃ n r, r < 8 ∧ T = 8 * n + r := ⟨T / 8, T % 8, by omega, by omega⟩
  have hnarrow : ∀ r : Fin 8, ∀ b : Fin (nblk r), (blockAt r b).1 = ((widths r).take b).sum := by decide
  rw [nblk_split n r hr] at hb
  rw [widths_split n r hr]
  rcases Nat.lt_or_ge b n with hwide | hge
  · rw [blockAt_wide hr hwide, List.take_append_of_le_length (by simpa using hwide.le), List.take_replicate,
      Nat.min_eq_left hwide.le, List.sum_replicate, smul_eq_mul, Nat.mul_comm]
  · obtain ⟨c, rfl⟩ := Nat.exists_eq_add_of_le hge
    have hc : c < nblk r := by omega
    rw [blockAt_narrow hr hc, List.take_append, List.take_replicate, List.sum_append, List.sum_replicate]
    simp [hnarrow ⟨r, hr⟩ ⟨c, hc⟩, Nat.mul_comm]

theorem blockAt_width {T b : Nat} (hb : b < nblk T) : (blockAt T b).2 = (widths T)[b]'(by simpa using hb) := by
  have hlen : b < (blocks T).length := hb
  simp [blockAt, widths, hlen]

/-- The greedy choice of R196: the largest of the widths 8, 4, 2, 1 that fits `left` tiles. -/
def greedyWidth (left : Nat) : Nat := if 8 ≤ left then 8 else if 4 ≤ left then 4 else if 2 ≤ left then 2 else 1

theorem blockAt_greedy {T b : Nat} (hb : b < nblk T) : (blockAt T b).2 = greedyWidth (T - (blockAt T b).1) := by
  obtain ⟨n, r, hr, rfl⟩ : ∃ n r, r < 8 ∧ T = 8 * n + r := ⟨T / 8, T % 8, by omega, by omega⟩
  have hnarrow : ∀ r : Fin 8, ∀ b : Fin (nblk r), (blockAt r b).2 = greedyWidth (r - (blockAt r b).1) := by decide
  rw [nblk_split n r hr] at hb
  rcases Nat.lt_or_ge b n with hwide | hge
  · rw [blockAt_wide hr hwide, greedyWidth, if_pos (by dsimp only; omega)]
  · obtain ⟨c, rfl⟩ := Nat.exists_eq_add_of_le hge
    have hc : c < nblk r := by omega
    rw [blockAt_narrow hr hc, Nat.add_sub_add_left]
    exact hnarrow ⟨r, hr⟩ ⟨c, hc⟩

/-- The 1 bits of `T mod 8` are bits 2, 1 and 0 of `T`. -/
theorem nblk_eq (T : Nat) : nblk T = T / 8 + T / 4 % 2 + T / 2 % 2 + T % 2 := by
  obtain ⟨n, r, hr, rfl⟩ : ∃ n r, r < 8 ∧ T = 8 * n + r := ⟨T / 8, T % 8, by omega, by omega⟩
  have hnarrow : ∀ r : Fin 8, nblk r = r / 4 % 2 + r / 2 % 2 + r % 2 := by decide
  have hr' : nblk r = r / 4 % 2 + r / 2 % 2 + r % 2 := hnarrow ⟨r, hr⟩
  rw [nblk_split n r hr, hr']
  omega

theorem bMax_eq_eight {T : Nat} (h : 8 ≤ T) : bMax T = 8 := by
  rw [← Nat.div_add_mod T 8, bMax, blockAt_wide (by omega) (by omega)]

theorem bMax_eq_two_pow {T : Nat} (h0 : 0 < T) (h8 : T < 8) : bMax T = 2 ^ Nat.log2 T := by
  have hnarrow : ∀ r : Fin 8, r.val ≠ 0 → bMax r = 2 ^ Nat.log2 r := by decide
  exact hnarrow ⟨T, h8⟩ h0.ne'

/-- A later block starts at or behind the end of an earlier one. -/
theorem block_end_le {T b c : Nat} (hbc : b < c) (hc : c < nblk T) :
    (blockAt T b).1 + (blockAt T b).2 ≤ (blockAt T c).1 := by
  have hb := hbc.trans hc
  rw [blockAt_start hb, blockAt_start hc, blockAt_width hb, ← List.sum_take_succ]
  exact (List.take_sublist_take_left hbc).sum_le_sum fun _ _ => Nat.zero_le _

theorem block_unique {T tile b c : Nat} (hb : b < nblk T) (hc : c < nblk T) (hb1 : (blockAt T b).1 ≤ tile)
    (hb2 : tile < (blockAt T b).1 + (blockAt T b).2) (hc1 : (blockAt T c).1 ≤ tile)
    (hc2 : tile < (blockAt T c).1 + (blockAt T c).2) : c = b := by
  rcases lt_trichotomy c b with h | h | h
  · have := block_end_le h hb
    omega
  · exact h
  · have := block_end_le h hc
    omega

/-- Settles O44: what each block is, the sums and counts, then that the block of a tile exists and is the only one. -/
theorem tileBlocks : Obligations.TileBlocks := by
  refine fun T => ⟨fun b hb => ⟨?_, blockAt_greedy hb, (block_bounds hb).1⟩, widths_sum T, nblk_eq T, bMax_eq_eight,
    bMax_eq_two_pow, fun tile htile => ?_⟩
  · rw [List.map_take]
    exact blockAt_start hb
  · obtain ⟨b, hb, h1, h2⟩ := block_cover htile
    exact ⟨b, ⟨hb, h1, h2⟩, fun c hc hc1 hc2 => block_unique hb hc h1 h2 hc1 hc2⟩

end Sys2Proof.Machine
end

section
/-! PROOFS. The first step of an accumulation (`spec/44_contraction.md` R200, R203; `spec/40_numerics.md` R109): whether
the exact product is a zero decides what a fused step from `+0` gives. Settles O54. -/

namespace Sys2Proof.Machine

/-! ## Accumulation from `+0` (`44_contraction.md` R200) -/

theorem and_low_eq_zero_iff {v : Half} : v &&& 0x7FFF#16 = 0 ↔ ∃ s, binary16.unpack v.toNat = .fin s 0 := by
  rw [BitVec.toNat_eq, toNat_and_low]
  constructor
  · intro h
    obtain ⟨s, c, hc, hv⟩ := binary16_lawful.exists_signBit_add v.isLt
    have hcode : c = 0 := by
      have hmod : (binary16.signBit s + c) % 2 ^ 15 = c % 2 ^ 15 := by cases s <;> simp [Format.signBit, binary16]
      rw [hv, hmod] at h
      exact (Nat.mod_eq_of_lt hc).symm.trans h
    refine ⟨s, ?_⟩
    rw [hv, hcode]
    cases s <;> decide
  · rintro ⟨s, hs⟩
    rw [eq_zero_of_unpack hs]
    cases s <;> rfl

theorem toNat_and_exponent (v : Half) : (v &&& 0x7C00#16).toNat = 2 ^ 10 * (v.toNat / 2 ^ 10 % 2 ^ 5) := by
  have hmask : (v &&& 0x7C00#16).toNat = v.toNat &&& 0x7C00 := BitVec.toNat_and ..
  have hhigh : (v.toNat &&& 0x7C00) / 2 ^ 10 = v.toNat / 2 ^ 10 % 2 ^ 5 := by
    rw [Nat.and_div_two_pow]
    exact Nat.and_two_pow_sub_one_eq_mod _ 5
  have hlow : (v.toNat &&& 0x7C00) % 2 ^ 10 = 0 := by
    rw [Nat.and_mod_two_pow]
    exact Nat.and_zero _
  rw [hmask, ← Nat.div_add_mod (v.toNat &&& 0x7C00) (2 ^ 10), hhigh, hlow, Nat.add_zero]

/-- A half is finite when its exponent field is not all ones (`40_numerics.md` R101). -/
theorem finite_of_exponent {v : Half} (h : v &&& 0x7C00#16 ≠ 0x7C00#16) :
    ∃ s m, binary16.unpack v.toNat = .fin s m := by
  obtain ⟨s, c, hc, hv⟩ := binary16_lawful.exists_signBit_add v.isLt
  have hlt : c < binary16.infCode := by
    by_contra hge
    refine h (BitVec.eq_of_toNat_eq ?_)
    have hlow : 31 * 2 ^ 10 ≤ c := Nat.not_lt.mp hge
    have hhigh : c < 2 ^ 15 := hc
    have hexponent : v.toNat / 2 ^ 10 % 2 ^ 5 = 31 := by
      rw [hv]
      cases s <;> simp only [Format.signBit, binary16, if_true, Bool.false_eq_true, if_false] <;> omega
    rw [toNat_and_exponent, hexponent]
    rfl
  exact ⟨s, _, (binary16_lawful.unpack_eq_fin v.isLt).mpr ⟨c, hlt, hv, rfl⟩⟩

/-- A zero times any value is NaN or a zero. -/
theorem FpValue.mul_zero_cases {a b : FpValue} (h : (∃ s, a = .fin s 0) ∨ ∃ s, b = .fin s 0) :
    a.mul b = .nan ∨ ∃ s, a.mul b = .fin s 0 := by
  rcases h with ⟨s, rfl⟩ | ⟨s, rfl⟩
  · cases b with
    | nan => exact .inl rfl
    | inf t => exact .inl rfl
    | fin t n => exact .inr ⟨s ^^ t, by rw [FpValue.mul, Nat.zero_mul]⟩
  · cases a with
    | nan => exact .inl rfl
    | inf t => exact .inl rfl
    | fin t n => exact .inr ⟨t ^^ s, by rw [FpValue.mul, Nat.mul_zero]⟩

/-- A zero product has a zero operand. -/
theorem FpValue.zero_of_mul_eq_zero {a b : FpValue} {s : Bool} (h : a.mul b = .fin s 0) :
    (∃ t, a = .fin t 0) ∨ ∃ t, b = .fin t 0 := by
  cases a with
  | nan => cases h
  | inf t =>
    cases b with
    | nan => cases h
    | inf u => cases h
    | fin u n =>
      rw [FpValue.mul] at h
      split at h <;> cases h
  | fin t m =>
    cases b with
    | nan => cases h
    | inf u =>
      rw [FpValue.mul] at h
      split at h <;> cases h
    | fin u n =>
      rw [FpValue.mul, FpValue.fin.injEq] at h
      exact (Nat.mul_eq_zero.mp h.2).imp (fun hm => ⟨t, by rw [hm]⟩) fun hn => ⟨u, by rw [hn]⟩

section
variable {nan x y : Half} {s : Bool}

theorem toNat_mul16_zero (h : (binary16.unpack x.toNat).mul (binary16.unpack y.toNat) = .fin s 0) :
    (mul16 nan x y).toNat = binary16.signBit s := by
  rw [toNat_mul16, Format.mul, h]
  rfl

theorem fma16_zero_of_zero (h : (binary16.unpack x.toNat).mul (binary16.unpack y.toNat) = .fin s 0) :
    fma16 nan 0x0000#16 x y = 0x0000#16 := by
  rw [fma16, Format.fma, unpack_zero, h]
  cases s <;> rfl

/-- A product that is no zero is rounded alike, whether alone or added to `+0`. -/
theorem fma16_zero_of_ne (h : ∀ s, (binary16.unpack x.toNat).mul (binary16.unpack y.toNat) ≠ .fin s 0) :
    fma16 nan 0x0000#16 x y = mul16 nan x y := by
  rw [fma16, mul16, Format.fma, Format.mul, unpack_zero]
  rcases hp : (binary16.unpack x.toNat).mul (binary16.unpack y.toNat) with _ | p | ⟨s, m⟩
  · rfl
  · rfl
  · have hm : m ≠ 0 := by
      rintro rfl
      exact h s hp
    have hsum : signedInt false (0 * 2 ^ binary16.scale) + signedInt s m = signedInt s m := by simp [signedInt]
    simp only [FpValue.finer, Format.sum, Format.roundSum, hsum, signedInt_eq_zero, if_neg hm, natAbs_signedInt,
      signedInt_neg_iff (Nat.pos_of_ne_zero hm)]

/-- The exact product is a zero exactly when the rounded one is and an operand is (`40_numerics.md` R105): a product
that underflows has no zero operand, and a zero times an infinity or a NaN is a NaN. -/
theorem product_zero_iff (hnan : isNaN16 nan = true) :
    (∃ s, (binary16.unpack x.toNat).mul (binary16.unpack y.toNat) = .fin s 0) ↔
      mul16 nan x y &&& 0x7FFF#16 = 0 ∧ (x &&& 0x7FFF#16 = 0 ∨ y &&& 0x7FFF#16 = 0) := by
  simp only [and_low_eq_zero_iff]
  constructor
  · rintro ⟨s, hs⟩
    refine ⟨⟨s, ?_⟩, FpValue.zero_of_mul_eq_zero hs⟩
    rw [toNat_mul16_zero hs]
    cases s <;> decide
  · rintro ⟨⟨s, hs⟩, hoperand⟩
    refine (FpValue.mul_zero_cases hoperand).resolve_left fun hp => ?_
    have hmul : mul16 nan x y = nan := by
      rw [mul16, Format.mul, hp]
      exact ofNat_toNat_eq rfl
    rw [hmul, isNaN16_iff.mp hnan] at hs
    cases hs

end

/-- Settles O54: the exact product decides the step; a chain of zero products is a chain of such steps. -/
theorem accumulationFromZero : Obligations.AccumulationFromZero := by
  refine fun nan hnan => ⟨fun x y => ?_, fun f x n hzero => ?_⟩
  · split
    next h =>
      obtain ⟨s, hs⟩ := (product_zero_iff hnan).mpr h
      exact fma16_zero_of_zero hs
    next h => exact fma16_zero_of_ne fun s hs => h ((product_zero_iff hnan).mp ⟨s, hs⟩)
  · induction n with
    | zero => rfl
    | succ n ih =>
      obtain ⟨-, -, hf, hx, hprod⟩ := hzero n n.lt_succ_self
      obtain ⟨s, m, hs⟩ := finite_of_exponent hf
      obtain ⟨t, k, ht⟩ := finite_of_exponent hx
      rw [dotChain, ih fun c hc => hzero c (hc.trans n.lt_succ_self)]
      rw [and_low_eq_zero_iff, and_low_eq_zero_iff] at hprod
      obtain ⟨u, hu⟩ := (FpValue.mul_zero_cases hprod).resolve_left (by rw [hs, ht]; nofun)
      exact fma16_zero_of_zero hu

end Sys2Proof.Machine
end

section
/-! PROOFS. The command `contract` (`spec/44_contraction.md` R195 to R202): its two stages in any schedule, then its
completion, and what the scratch window and the destination hold after each. Settles O28. -/

namespace Sys2Proof.Machine

/-! ## `contract` -/

/-- The bytes of coefficient `k` in an interleaved input at `base`. -/
def coefBytes (P : Params) (base k a : Nat) : Prop :=
  ∃ b, b < nblk P.tiles ∧ ∃ p, p < P.inGroups ∧ ∃ i, i < 8 ∧ ∃ tt, tt < (blockAt P.tiles b).2 ∧
    elemBytes base (ti2Index P.tiles P.inCh k b p i tt) a

/-- The bytes of output group `q` and coefficient `k` in a TransformedOutput at `base`, block by block. -/
def sumBytes (P : Params) (base q k a : Nat) : Prop :=
  ∃ b, b < nblk P.tiles ∧ ∃ tt, tt < (blockAt P.tiles b).2 ∧
    laneBytes base (toIndex P.tiles q k ((blockAt P.tiles b).1 + tt) 0) a

theorem coefBytes_in {P : Params} {base k a : Nat} (hk : k < 64) (ha : coefBytes P base k a) :
    base ≤ a ∧ a < base + P.ti2B := by
  obtain ⟨b, hb, p, hp, i, hi, tt, ht, helem⟩ := ha
  exact elem_in_interleaved hk hb hp hi ht helem

theorem sumBytes_in {P : Params} {base q k a : Nat} (ho8 : P.outCh % 8 = 0) (hq : q < P.outGroups) (hk : k < 64)
    (ha : sumBytes P base q k a) : base ≤ a ∧ a < base + P.toB := by
  obtain ⟨b, hb, tt, ht, hlane⟩ := ha
  rw [Params.toB_eq ho8]
  exact lane_in_spectrum hq hk (block_tile_lt hb ht) hlane

/-- Unit `n` of stage `GEMM` writes inside the TransformedOutput. -/
theorem sumBytes_unit_in {P : Params} {base n a : Nat} (ho8 : P.outCh % 8 = 0) (hn : n < 64 * P.outGroups)
    (ha : sumBytes P base (n % P.outGroups) (n / P.outGroups) a) : base ≤ a ∧ a < base + P.toB := by
  have hpos : 0 < P.outGroups := Nat.pos_of_mul_pos_left (Nat.zero_lt_of_lt hn)
  exact sumBytes_in ho8 (Nat.mod_lt n hpos) (Nat.div_lt_of_lt_mul (Nat.mul_comm .. ▸ hn)) ha

/-- One unit of stage `GEMM` writes each output group and coefficient (R201). -/
theorem exists_unit_of_sumBytes {P : Params} {base q k a : Nat} (hq : q < P.outGroups) (hk : k < 64)
    (ha : sumBytes P base q k a) :
    ∃ n, n < 64 * P.outGroups ∧ sumBytes P base (n % P.outGroups) (n / P.outGroups) a := by
  refine ⟨k * P.outGroups + q, digits_lt hk hq, ?_⟩
  rwa [digit_low hq, digit_high hq]

/-- Where the bytes of an output group and coefficient are those of the TransformedOutput `M`, its halves are: every
tile is in a block. -/
theorem half_of_sumBytes {P : Params} {m : Memory} {M : Spectrum} {base q k tile j : Nat} (hk : k < 64)
    (ht : tile < P.tiles) (hj : j < 8)
    (h : ∀ a, sumBytes P base q k a → m.read a = image base (spectrumValue P.tiles M) a) :
    m.half base (toIndex P.tiles q k tile j) = M q k tile j := by
  obtain ⟨b, hb, hfirst, hlast⟩ := block_cover ht
  refine (half_of_image fun a ha => h a ⟨b, hb, tile - (blockAt P.tiles b).1, by omega, ?_⟩).trans
    (spectrumValue_toIndex hk ht hj)
  obtain ⟨h1, h2⟩ := ha
  rw [← toIndex_lane] at h1 h2
  rw [Nat.add_sub_cancel' hfirst]
  exact ⟨by omega, by omega⟩

/-- The TransformedFilter depends on its bytes only. -/
theorem Memory.filterBank_congr {P : Params} {m m' : Memory} {base q k p i j : Nat} (hi8 : P.inCh % 8 = 0)
    (ho8 : P.outCh % 8 = 0) (hq : q < P.outGroups) (hk : k < 64) (hp : p < P.inCh / 8) (hi : i < 8) (hj : j < 8)
    (h : ∀ a, base ≤ a → a < base + P.tfB → m.read a = m'.read a) :
    m.filterBank base P.inCh q k p i j = m'.filterBank base P.inCh q k p i j := by
  have hlt := tfIndex_lt hq hk hp hi hj
  rw [Params.tfB_eq hi8 ho8] at h
  exact Memory.half_congr fun a h1 h2 => h a (by omega) (by omega)

/-- What a ready `contract` may rely on (`30_encoding.md` R86): legal channel counts, backed operands, and regions that
share no byte, where the scratch it writes is the interleaved input only. -/
structure ContractOperands (cfg : Config) (P : Params) : Prop where
  inCh    : P.inCh % 8 = 0
  outCh   : P.outCh % 8 = 0
  source  : backs cfg P.srcBase.toNat P.tiB = true
  filter  : backs cfg P.filtBase.toNat P.tfB = true
  dest    : backs cfg P.dstBase.toNat P.toB = true
  scratch : InterleavedBacked cfg P P.scrBase.toNat
  source_scratch : ∀ a, P.srcBase.toNat ≤ a → a < P.srcBase.toNat + P.tiB →
    ¬ (P.scrBase.toNat ≤ a ∧ a < P.scrBase.toNat + P.ti2B)
  filter_scratch : ∀ a, P.filtBase.toNat ≤ a → a < P.filtBase.toNat + P.tfB →
    ¬ (P.scrBase.toNat ≤ a ∧ a < P.scrBase.toNat + P.ti2B)
  dest_scratch   : ∀ a, P.dstBase.toNat ≤ a → a < P.dstBase.toNat + P.toB →
    ¬ (P.scrBase.toNat ≤ a ∧ a < P.scrBase.toNat + P.ti2B)
  filter_dest    : ∀ a, P.filtBase.toNat ≤ a → a < P.filtBase.toNat + P.tfB →
    ¬ (P.dstBase.toNat ≤ a ∧ a < P.dstBase.toNat + P.toB)

/-- Each region of `contract` but its scratch window is backed. -/
theorem State.Ready.contract_backs {s : State} (h : s.Ready .contract) {r : Region}
    (hr : r ∈ (commandOf .contract).regions s.params) (hrole : r.role ≠ .scratch) : backs s.cfg r.base r.size = true :=
  State.backed_tensor h.backed hr hrole nofun h.accepted

theorem State.Ready.contractOperands {s : State} (h : s.Ready .contract) : ContractOperands s.cfg s.params := by
  have hchecked := Command.checked h.accepted
  have hroom : s.params.ti2B ≤ s.params.scrSize.toNat := hchecked.room
  have hdisjoint := hchecked.disjoint
  simp only [commandOf, contractCommand, List.pairwise_cons, List.forall_mem_cons, List.not_mem_nil, false_imp_iff,
    implies_true, and_true, List.Pairwise.nil] at hdisjoint
  obtain ⟨⟨-, -, hsource⟩, ⟨hdest, hdest'⟩, hfilter⟩ := hdisjoint
  have hapart {r : Region} (hr : r.overlaps ⟨.scratch, s.params.scrBase.toNat, s.params.scrSize.toNat⟩ = false)
      (a : Nat) (h1 : r.base ≤ a) (h2 : a < r.base + r.size) :
      ¬ (s.params.scrBase.toNat ≤ a ∧ a < s.params.scrBase.toNat + s.params.ti2B) := fun hscratch =>
    Region.disjoint hr h1 h2 ⟨hscratch.1, hscratch.2.trans_le (Nat.add_le_add_left hroom _)⟩
  exact {
    inCh := (hchecked.inCh (by decide)).1
    outCh := (hchecked.outCh (by decide)).1
    source := h.contract_backs (r := ⟨.source, s.params.srcBase.toNat, s.params.tiB⟩)
      (by simp [commandOf, contractCommand]) nofun
    filter := h.contract_backs (r := ⟨.filter, s.params.filtBase.toNat, s.params.tfB⟩)
      (by simp [commandOf, contractCommand]) nofun
    dest := h.contract_backs (r := ⟨.dest, s.params.dstBase.toNat, s.params.toB⟩)
      (by simp [commandOf, contractCommand]) nofun
    scratch := State.backed_contract h.backed
    source_scratch := hapart hsource
    filter_scratch := hapart hfilter
    dest_scratch := hapart hdest'
    filter_dest := fun a => Region.disjoint (Region.overlaps_comm _ _ ▸ hdest) }

/-- Stage `REPACK` of a `contract` issued in `s` ends in `u`: the scratch window holds the interleaved input (R197). -/
def Repacked (s u : State) : Prop :=
  StageDone Worker.staging (fun a => ∃ k, k < 64 ∧ coefBytes s.params s.params.scrBase.toNat k a)
    (image s.params.scrBase.toNat (interleavedValue s.params.tiles s.params.inCh
      (s.mem.inputSpectrum s.params.srcBase.toNat s.params.tiles))) .repack (s.accept .contract) u

/-- Stage `GEMM`, entered from `u`, ends in `v`: the destination holds the sums over the TransformedInput `V` (R199,
R201, R202). -/
def Summed (V : Spectrum) (u v : State) : Prop :=
  StageDone Worker.staging
    (fun a => ∃ n, n < 64 * u.latch.outGroups ∧
      sumBytes u.latch u.latch.dstBase.toNat (n % u.latch.outGroups) (n / u.latch.outGroups) a)
    (image u.latch.dstBase.toNat (spectrumValue u.latch.tiles (contracted u.cfg.nanBits u.latch
      (u.mem.filterBank u.latch.filtBase.toNat u.latch.inCh) V))) .gemm u v

theorem Repacked.latch {s u : State} (h : Repacked s u) : u.latch = s.params := by rw [h.rest]; rfl

theorem Repacked.cfg {s u : State} (h : Repacked s u) : u.cfg = s.cfg := by rw [h.rest]; rfl

theorem Repacked.half {s u : State} (h : Repacked s u) {k b p i tt : Nat} (hk : k < 64) (hb : b < nblk s.params.tiles)
    (hp : p < s.params.inGroups) (hi : i < 8) (ht : tt < (blockAt s.params.tiles b).2) :
    u.mem.half s.params.scrBase.toNat (ti2Index s.params.tiles s.params.inCh k b p i tt) =
      s.mem.inputSpectrum s.params.srcBase.toNat s.params.tiles p k ((blockAt s.params.tiles b).1 + tt) i :=
  (half_of_image fun a ha => h.inside a ⟨k, hk, b, hb, p, hp, i, hi, tt, ht, ha⟩).trans
    (interleavedValue_ti2Index hb hp hi ht)

theorem contract_repack {s : State} (h : s.Ready .contract) :
    ∃ u, (∀ k, contractCommand.transactions (64 + 1 + k) (s.accept .contract) = contractCommand.transactions k u) ∧
      Repacked s u := by
  have hops := h.contractOperands
  exact Command.run_first (st := .repack) (s := s.accept .contract) (c := contractCommand)
    (D := fun a => s.params.scrBase.toNat ≤ a ∧ a < s.params.scrBase.toNat + s.params.ti2B) rfl rfl h.accepted rfl rfl
    (fun k hk x => repackUnit_fills hops.inCh hk hops.source hops.scratch hops.source_scratch fun a h1 h2 => ⟨h1, h2⟩)
    h.canonical

/-- A unit of stage `GEMM` reads the filter and the interleaved input, which the stage does not write. -/
theorem contract_gemm {u : State} {V : Spectrum} (hops : ContractOperands u.cfg u.latch) (hb : u.status.busy = true)
    (hp : u.pending = []) (hs : u.stage = .repack) (hwf : u.mem.wf = true)
    (hV : ∀ k, k < 64 → ∀ b, b < nblk u.latch.tiles → ∀ p, p < u.latch.inGroups → ∀ i, i < 8 →
      ∀ tt, tt < (blockAt u.latch.tiles b).2 →
        u.mem.half u.latch.scrBase.toNat (ti2Index u.latch.tiles u.latch.inCh k b p i tt) =
          V p k ((blockAt u.latch.tiles b).1 + tt) i) :
    ∃ v, (∀ k, contractCommand.transactions (64 * u.latch.outGroups + 1 + k) u = contractCommand.transactions k v) ∧
      Summed V u v :=
  Command.run_next (st := .gemm) (c := contractCommand)
    (D := fun a => u.latch.dstBase.toNat ≤ a ∧ a < u.latch.dstBase.toNat + u.latch.toB) hb hp (by rw [hs]; rfl)
    (by rw [hs]; rfl) rfl
    (fun n hn x => gemmUnit_fills hops.inCh hops.outCh hn hops.filter hops.scratch hops.dest hops.filter_dest
      (fun a h1 h2 hd => hops.dest_scratch a hd.1 hd.2 ⟨h1, h2⟩) (fun a h1 h2 => ⟨h1, h2⟩) hV fun _ _ _ hw => hw)
    hwf

/-- A ready `contract` is its two stages and its completion. -/
theorem contract_runs {s : State} (h : s.Ready .contract) :
    ∃ u v, exec .contract s = .next (contractCommand.finish v) ∧ Repacked s u ∧
      Summed (s.mem.inputSpectrum s.params.srcBase.toNat s.params.tiles) u v := by
  obtain ⟨u, hrunU, hrepacked⟩ := contract_repack h
  have hlatch := hrepacked.latch
  have hops : ContractOperands u.cfg u.latch := by
    rw [hlatch, hrepacked.cfg]
    exact h.contractOperands
  obtain ⟨v, hrunV, hsummed⟩ := contract_gemm hops (by rw [hrepacked.rest]; rfl) (by rw [hrepacked.rest])
    (by rw [hrepacked.rest]) hrepacked.wf (by
      rw [hlatch]
      exact fun k hk b hb p hp i hi tt ht => hrepacked.half hk hb hp hi ht)
  have hbudget : contractCommand.budget (s.accept .contract) =
      64 + 1 + (64 * u.latch.outGroups + 1 + (1 + 1)) := by
    simp only [Command.budget, contractCommand, Stage.units, State.accept_pending, State.accept_latch, hlatch,
      List.length_nil, List.map_cons, List.map_nil, List.sum_cons, List.sum_nil]
    omega
  have hlast : contractCommand.transactions (1 + 1) v = contractCommand.finish v :=
    Command.run_last (by rw [hsummed.rest, hrepacked.rest]; rfl) (by rw [hsummed.rest]) (by rw [hsummed.rest]; rfl)
      (by rw [hsummed.rest]; rfl) 1
  refine ⟨u, v, ?_, hrepacked, hsummed⟩
  rw [exec_waits h.idle h.waits, commandOf, hbudget, hrunU, hrunV, hlast]

/-- The registers after the completion of a command whose stages changed nothing but `STAGE`, `PENDING`, memory, the
workers and the schedule. -/
theorem completed_of_finish {i : Instr} {s v : State}
    (hrest : v = { s.accept i with
      stage := v.stage, pending := v.pending, mem := v.mem, workers := v.workers, sched := v.sched })
    (hwf : v.mem.wf = true) : Completed i .none s ((commandOf i).finish v) := by
  obtain ⟨-, -, hfinish⟩ := Command.finish_spec (c := commandOf i) hwf
  rw [hfinish, hrest]
  constructor <;> rfl

/-- Settles O28: stage `REPACK` leaves the interleaved input in scratch, from which stage `GEMM` fills the destination,
one output group and coefficient per unit; the completion gives the scratch away and leaves the destination. -/
theorem contractResult : Obligations.ContractResult := by
  intro s hready P
  have hops := hready.contractOperands
  obtain ⟨u, v, hexec, hrepack, hgemm⟩ := contract_runs hready
  rw [Summed, hrepack.latch, hrepack.cfg] at hgemm
  have hrest : v = { s.accept .contract with
      stage := v.stage, pending := v.pending, mem := v.mem, workers := v.workers, sched := v.sched } := by
    rw [hgemm.rest, hrepack.rest]
  obtain ⟨-, hfinish, hfields⟩ := Command.finish_spec (c := contractCommand) hgemm.wf
  have hlatch : v.latch = P := by rw [hrest]; rfl
  rw [hlatch] at hfinish
  have hkept (a : Nat) (ha : ¬ (P.scrBase.toNat ≤ a ∧ a < P.scrBase.toNat + P.ti2B)) :
      u.mem.read a = s.mem.read a ∧ (contractCommand.finish v).mem.read a = v.mem.read a := by
    refine ⟨hrepack.outside a ?_, hfinish a ?_⟩
    · rintro ⟨k, hk, hbytes⟩
      exact ha (coefBytes_in hk hbytes)
    · simpa [Command.scratchUse, contractCommand, Region.holds_false] using ha
  refine ⟨_, hexec, completed_of_finish hrest hgemm.wf, fun q hq k hk tile htile j hj => ?_, fun a ha => ?_, ?_⟩
  · calc (contractCommand.finish v).mem.half P.dstBase.toNat (toIndex P.tiles q k tile j)
      _ = contracted s.cfg.nanBits P (u.mem.filterBank P.filtBase.toNat P.inCh)
            (s.mem.inputSpectrum P.srcBase.toNat P.tiles) q k tile j := by
          refine half_of_sumBytes hk htile hj fun a ha => ?_
          obtain ⟨h1, h2⟩ := sumBytes_in hops.outCh hq hk ha
          rw [(hkept a (hops.dest_scratch a h1 h2)).2]
          exact hgemm.inside a (exists_unit_of_sumBytes hq hk ha)
      _ = contracted s.cfg.nanBits P (s.mem.filterBank P.filtBase.toNat P.inCh)
            (s.mem.inputSpectrum P.srcBase.toNat P.tiles) q k tile j :=
          contracted_congr hops.inCh (fun p hp i hi => Memory.filterBank_congr hops.inCh hops.outCh hq hk hp hi hj
            fun a h1 h2 => (hkept a (hops.filter_scratch a h1 h2)).1) fun _ _ _ _ => rfl
  · rw [List.forall_mem_cons, List.forall_mem_singleton, Region.holds_false, Region.holds_false] at ha
    obtain ⟨hdest, hscratch⟩ := ha
    obtain ⟨hu, ht⟩ := hkept a hscratch
    rw [ht, ← hu]
    refine hgemm.outside a ?_
    rintro ⟨n, hn, hbytes⟩
    exact hdest (sumBytes_unit_in hops.outCh hn hbytes)
  · rw [workersKept, hfields]
    exact hgemm.workers.trans hrepack.workers

end Sys2Proof.Machine
end

section
/-! PROOFS. The output transform and the commands `xout` and `xout.b` (`spec/45_output_transform.md` R216 to R229): the
closed forms of `at6` over the rationals are its printed matrix; a lane of the lane-wise transform is the transform of
that lane, so the units of stage `XOUT`, one output channel group each, fill the planes of the padded output. The two
commands are one up to their bias. Settles O29, O30 and O57. -/

namespace Sys2Proof.Machine

/-! ## The matrix of `at6` -/

/-- Settles O57: the constants are `Coef.half_exact`, the fused step holds by definition, and for either grouping each
output of `at6` is a polynomial identity. -/
theorem outputMatrix : Obligations.OutputMatrix := by
  refine ⟨fun c _ => c.half_exact, fun _ _ _ _ => rfl, fun tree b0 b1 b2 b3 b4 b5 b6 b7 => ?_⟩
  cases tree <;>
    simp only [at6, exactArith, Coef.exact, Vector.getElem_mk, List.getElem_toArray, List.getElem_cons_zero,
      List.getElem_cons_succ, Vector.eq_mk, Array.mk.injEq, List.cons.injEq, and_true] <;>
    refine ⟨?_, ?_, ?_, ?_, ?_, ?_⟩ <;> ring

/-! ## One lane of the lane-wise transform -/

/-- The padded output computed on lane vectors is that of each lane (`40_numerics.md` R113). -/
theorem laneOutput_eq {cfg : Config} {P : Params} {M : Spectrum} {bias : Nat → Nat → Half} {q y x l : Nat}
    (hl : l < 8) : laneOutput cfg P M bias q y x l = transformedOutput cfg P M bias q y x l := by
  have hlane := (laneArith_hom cfg.nanBits ⟨l, hl⟩).xoutTile cfg.atTree
    (laneBlock fun t u l => M q (8 * t + u) (y / 6 * P.tilesX + x / 6) l) (Vector.ofFn fun l => bias q l)
  simp only [Fin.getElem_fin, Vector.getElem_ofFn] at hlane
  rw [laneOutput, laneAt_gridAt _ _ _ hl, hlane, laneBlock_lane _ hl, transformedOutput]

/-! ## The unit of stage `XOUT` -/

/-- A plane of the padded output, tile by tile. -/
theorem planeBytes_iff_tiles {P : Params} {base q a : Nat} :
    planeBytes base P.outWp P.outHp q a ↔ ∃ ty, ty < P.tilesY ∧ ∃ tx, tx < P.tilesX ∧ ∃ i, i < 6 ∧ ∃ j, j < 6 ∧
      laneBytes base (fmIndex P.outWp P.outHp q (6 * ty + i) (6 * tx + j) 0) a := by
  have hX := P.tilesX_mul
  have hY := P.tilesY_mul
  constructor
  · rintro ⟨y, hy, x, hx, hlane⟩
    refine ⟨y / 6, by omega, x / 6, by omega, y % 6, by omega, x % 6, by omega, ?_⟩
    rwa [Nat.div_add_mod, Nat.div_add_mod]
  · rintro ⟨ty, hty, tx, htx, i, hi, j, hj, hlane⟩
    exact ⟨_, out_row hty hi, _, out_col htx hj, hlane⟩

/-- The bias a command adds: the vector in memory, or zeros (`45_output_transform.md` R224, R226). -/
def Memory.biasOf (m : Memory) (withBias : Bool) (base : Nat) : Nat → Nat → Half :=
  fun q l => if withBias then m.biasVector base q l else noBias q l

theorem Memory.biasOf_congr {m m' : Memory} {withBias : Bool} {base q l n : Nat} (hq : q < n) (hl : l < 8)
    (h : withBias = true → ∀ a, base ≤ a → a < base + n * 8 * 2 → m.read a = m'.read a) :
    m.biasOf withBias base q l = m'.biasOf withBias base q l := by
  cases withBias with
  | false => rfl
  | true => exact Memory.half_congr fun a h1 h2 => h rfl a (by omega) (by omega)

theorem Memory.biasOf_of_zero {m : Memory} {withBias : Bool} {base q l n : Nat} (hq : q < n / 8) (hl : l < 8)
    (h : ∀ o, o < n → m.half base o = 0) : m.biasOf withBias base q l = 0 := by
  cases withBias with
  | false => rfl
  | true => exact h (8 * q + l) (by omega)

/-- Unit `q` of stage `XOUT` fills plane `q` of the padded output with the output transform of every tile. -/
theorem xoutUnit_fills_plane {cfg : Config} {P : Params} {src dst bias q : Nat} {withBias : Bool} {D : Nat → Prop}
    {m : Memory} {J : Worker → Prop} (hch : P.outCh % 8 = 0) (hq : q < P.outGroups)
    (hsrc : backs cfg src P.toB = true) (hdst : backs cfg dst P.opB = true)
    (hbias : withBias = true → backs cfg bias P.biasB = true)
    (hin : ∀ a, src ≤ a → a < src + P.toB → ¬ D a)
    (hinb : withBias = true → ∀ a, bias ≤ a → a < bias + P.biasB → ¬ D a)
    (hD : ∀ a, dst ≤ a → a < dst + P.opB → D a)
    (hJ : ∀ w tmp, J w → J { w with staging := stageSix w.staging tmp }) :
    Fills (Ambient D m J) (planeBytes dst P.outWp P.outHp q)
      (image dst (fmValue P.outWp P.outHp
        (laneOutput cfg P (m.outputSpectrum src P.tiles) (m.biasOf withBias bias))))
      (xoutUnit cfg P withBias bias src dst q) := by
  have htiles : planeBytes dst P.outWp P.outHp q = _ := funext fun a => propext planeBytes_iff_tiles
  rw [htiles]
  exact xoutUnit_fills hch hq hsrc hdst hbias hin hinb hD hJ

/-- The first pass of an output unit leaves rows 6 and 7 of the staging buffer. -/
theorem lowerRows_stageSix (w : Worker) (tmp : Grid LaneVec 6 8) :
    { w with staging := stageSix w.staging tmp }.lowerRows = w.lowerRows := by
  simp [Worker.lowerRows, stageSix]

/-! ## `xout` and `xout.b` -/

/-- Two regions of different roles of a command that passes its checks share no byte. -/
theorem Command.Checked.apart {c : Command} {P : Params} (h : c.Checked P) {r t : Region} (hr : r ∈ c.regions P)
    (ht : t ∈ c.regions P) (hrole : r.role ≠ t.role) (a : Nat) (h1 : r.base ≤ a) (h2 : a < r.base + r.size) :
    ¬ (t.base ≤ a ∧ a < t.base + t.size) := by
  have : Std.Symm fun r t : Region => r.overlaps t = false := ⟨fun r t h => (Region.overlaps_comm t r).trans h⟩
  exact Region.disjoint (h.disjoint.forall hr ht fun he => hrole (congrArg _ he)) h1 h2

/-- The Output Transform with and without a bias. -/
def xoutOf (withBias : Bool) : Instr := if withBias then .xoutB else .xout

/-- What a ready `xout` or `xout.b` leaves: unit `q` of stage `XOUT` fills plane `q` of the destination, and changes
nothing of its worker but rows 0 to 5 of the staging buffer. -/
theorem xoutOf_result {withBias : Bool} {s : State} (hready : s.Ready (xoutOf withBias)) :
    ∃ t, exec (xoutOf withBias) s = .next t ∧ Completed (xoutOf withBias) .none s t ∧
      (∀ q, q < s.params.outGroups → ∀ y, y < s.params.outHp → ∀ x, x < s.params.outWp → ∀ l, l < 8 →
        t.mem.half s.params.dstBase.toNat (fmIndex s.params.outWp s.params.outHp q y x l) =
          transformedOutput s.cfg s.params (s.mem.outputSpectrum s.params.srcBase.toNat s.params.tiles)
            (s.mem.biasOf withBias s.params.biasBase.toNat) q y x l) ∧
      memoryKept [⟨.dest, s.params.dstBase.toNat, s.params.opB⟩] s t ∧
      workersKept (fun w => (w.acc, w.held, w.lowerRows)) s t ∧ t.draws = s.draws := by
  set P := s.params
  set c := commandOf (xoutOf withBias)
  have hchecked : c.Checked P := Command.checked hready.accepted
  obtain ⟨hch, -⟩ := hchecked.outCh (by cases withBias <;> decide)
  have hsrcMem : ⟨.source, P.srcBase.toNat, P.toB⟩ ∈ c.regions P := by
    cases withBias <;> exact List.mem_cons_self
  have hdstMem : ⟨.dest, P.dstBase.toNat, P.opB⟩ ∈ c.regions P := by
    cases withBias <;> exact List.mem_cons_of_mem _ List.mem_cons_self
  have hbiasMem : withBias = true → ⟨.bias, P.biasBase.toNat, P.biasB⟩ ∈ c.regions P := by
    rintro rfl
    exact List.mem_cons_of_mem _ (List.mem_cons_of_mem _ List.mem_cons_self)
  have hbacks {r : Region} (hr : r ∈ c.regions P) (hrole : r.role ≠ .scratch) : backs s.cfg r.base r.size = true :=
    State.backed_tensor hready.backed hr hrole (by cases withBias <;> exact nofun) hready.accepted
  have hunit (q : Nat) : c.unit s.cfg P .xout q =
      xoutUnit s.cfg P withBias P.biasBase.toNat P.srcBase.toNat P.dstBase.toNat q := by
    cases withBias <;> rfl
  obtain ⟨t, hexec, hcompleted, hmap, hkept, hworkers, hdraws⟩ :=
    exec_fills_map (st := .xout) (f := fun w => (w.acc, w.held, w.lowerRows))
      (D := fun a => P.dstBase.toNat ≤ a ∧ a < P.dstBase.toNat + P.opB) hready (by cases withBias <;> rfl)
      (by cases withBias <;> rfl) rfl fun q hq x => by
        rw [hunit]
        exact xoutUnit_fills_plane hch hq (hbacks hsrcMem nofun) (hbacks hdstMem nofun)
          (fun hb => hbacks (hbiasMem hb) nofun) (hchecked.apart hsrcMem hdstMem nofun)
          (fun hb => hchecked.apart (hbiasMem hb) hdstMem nofun) (fun a h1 h2 => ⟨h1, h2⟩)
          fun w tmp hw => by rw [lowerRows_stageSix]; exact hw
  exact ⟨t, hexec, hcompleted, fun q hq y hy x hx l hl => (hmap q hq y hy x hx l hl).trans (laneOutput_eq hl),
    Params.opB_eq hch ▸ hkept, hworkers, hdraws⟩

/-- Settles O29: `xoutOf_result` without a bias. -/
theorem xoutResult : Obligations.XoutResult := fun _ hready => xoutOf_result (withBias := false) hready

/-- Settles O30: `xoutOf_result` with a bias. -/
theorem xoutBiasResult : Obligations.XoutBiasResult := fun _ hready => xoutOf_result (withBias := true) hready

end Sys2Proof.Machine
end

section
/-! PROOFS. The commands `convolve` and `convolve.b` (`spec/46_convolve.md` R235 to R238): how one stage leads to the
next (`Between.advance`), what each stage of the pipeline leaves in its sub-region of the scratch window, and what the
whole pipeline leaves in the destination. The two commands are one up to their bias. -/

namespace Sys2Proof.Machine

/-! ## From stage to stage -/

/-- `n` transactions lead from `s` to `t`, whatever follows. -/
def Command.Runs (c : Command) (n : Nat) (s t : State) : Prop :=
  ∀ k, c.transactions (n + k) s = c.transactions k t

theorem Command.Runs.trans {c : Command} {m n : Nat} {s t u : State} (h1 : c.Runs m s t) (h2 : c.Runs n t u) :
    c.Runs (m + n) s u := fun k => by rw [Nat.add_assoc, h1, h2]

/-- Command `i`, issued in `s`, is in `u` at the end of stage `st`: its registers are as at acceptance, no unit is
pending, and memory is as in `s` outside the regions the command may write. -/
structure Between (i : Instr) (s : State) (st : Stage) (u : State) : Prop where
  rest    : u = { s.accept i with
    stage := st, pending := [], mem := u.mem, workers := u.workers, sched := u.sched }
  wf      : u.mem.wf = true
  kept    : memoryKept ((commandOf i).written s.params) s u
  workers : u.workers.length = s.workers.length

/-- A command that has just been accepted is in stage `CHECK`, with no unit pending. -/
theorem Between.accepted {i : Instr} {s : State} (hwf : s.mem.wf = true) : Between i s .check (s.accept i) :=
  ⟨rfl, hwf, fun _ _ => rfl, rfl⟩

section
variable {i : Instr} {s u : State} {st st' : Stage}

theorem Between.stage (h : Between i s st u) : u.stage = st := by rw [h.rest]

theorem Between.pending (h : Between i s st u) : u.pending = [] := by rw [h.rest]

theorem Between.busy (h : Between i s st u) : u.status.busy = true := by rw [h.rest]; rfl

theorem Between.latch (h : Between i s st u) : u.latch = s.params := by rw [h.rest]; rfl

theorem Between.cfg (h : Between i s st u) : u.cfg = s.cfg := by rw [h.rest]; rfl

/-- The next transaction enters the next stage. -/
theorem Between.transact (h : Between i s st u) (hv : (commandOf i).verdict s.params = .none)
    (hst : st = .check ∨ st.working = true) (hnext : stageAfter st (commandOf i).route = some st') :
    (commandOf i).transact u = u.enter st' := by
  rcases hst with rfl | hst
  · have hhead : (commandOf i).stages.head? = some st' := by simpa [Command.route, stageAfter] using hnext
    obtain ⟨rest, hstages⟩ := List.head?_eq_some_iff.mp hhead
    rw [Command.transact_check _ h.stage]
    simp [Command.checkStage, h.latch, hv, hstages]
  · have hcheck : .check ≠ st := by rintro rfl; cases hst
    have hnext : stageAfter u.stage (commandOf i).stages = some st' := by
      simpa [Command.route, stageAfter, hcheck, h.stage] using hnext
    rw [Command.transact_working _ (h.stage ▸ hst)]
    simp [Command.barrier, h.pending, hnext]

/-- One stage: when each of its units fills its bytes `W n`, all in one range that the command may write, the stage ends
and has filled them all. -/
theorem Between.advance {W : Nat → Nat → Prop} {V : Nat → Byte} {base size : Nat} (h : Between i s st u)
    (hv : (commandOf i).verdict s.params = .none) (hst : st = .check ∨ st.working = true)
    (hnext : stageAfter st (commandOf i).route = some st') (hst' : st'.working = true)
    (hunits : ∀ n, n < st'.units s.params →
      Fills (Ambient (fun a => base ≤ a ∧ a < base + size) u.mem fun _ => True) (W n) V
        ((commandOf i).unit s.cfg s.params st' n))
    (hW : ∀ n, n < st'.units s.params → ∀ a, W n a → base ≤ a ∧ a < base + size)
    (hrange : ∀ a, base ≤ a → a < base + size → inRegions ((commandOf i).written s.params) a) :
    ∃ v, (commandOf i).Runs (st'.units s.params + 1) u v ∧ Between i s st' v ∧
      ∀ n, n < st'.units s.params → ∀ a, W n a → v.mem.read a = V a := by
  obtain ⟨v, hruns, hdone⟩ := Command.run_entered (f := fun _ => ()) (V := V) (W := W)
    (D := fun a => base ≤ a ∧ a < base + size) h.busy hst' (h.transact hv hst hnext)
    (by simpa [h.latch, h.cfg] using hunits) h.wf
  rw [h.latch] at hruns hdone
  refine ⟨v, hruns, ⟨?_, hdone.wf, fun a ha => ?_, ?_⟩, fun n hn a ha => hdone.inside a ⟨n, hn, ha⟩⟩
  · rw [hdone.rest, h.rest]
  · rw [hdone.outside a, h.kept a ha]
    rintro ⟨n, hn, hWa⟩
    obtain ⟨h1, h2⟩ := hW n hn a hWa
    exact not_inRegions.mpr ha (hrange a h1 h2)
  · have := congrArg List.length hdone.workers
    rw [List.length_map, List.length_map] at this
    exact this.trans h.workers

/-- The completion after the last stage. -/
theorem Between.finish (h : Between i s st u) (hst : st.working = true)
    (hlast : stageAfter st (commandOf i).stages = none) : (commandOf i).transactions 2 u = (commandOf i).finish u :=
  Command.run_last h.busy h.pending (h.stage ▸ hst) (h.stage ▸ hlast) 1

theorem Between.completed (h : Between i s st u) : Completed i .none s ((commandOf i).finish u) :=
  completed_of_finish (by rw [h.rest]) h.wf

/-- The completion gives the scratch away, which the command may write. -/
theorem Between.finish_kept (h : Between i s st u) :
    memoryKept ((commandOf i).written s.params) s ((commandOf i).finish u) := by
  obtain ⟨-, hfinish, -⟩ := Command.finish_spec (c := commandOf i) h.wf
  rw [h.latch] at hfinish
  intro a ha
  rw [hfinish a fun r hr => ha r (List.mem_append_right _ hr), h.kept a ha]

end

/-- What a command only reads is apart from what it may write. -/
theorem Command.Checked.not_written {c : Command} {P : Params} (h : c.Checked P) {r : Region} (hr : r ∈ c.regions P)
    (hdest : r.role ≠ .dest) (hscr : r.role ≠ .scratch)
    (hwindow : ⟨.scratch, P.scrBase.toNat, P.scrSize.toNat⟩ ∈ c.regions P) (a : Nat) (h1 : r.base ≤ a)
    (h2 : a < r.base + r.size) : ¬ inRegions (c.written P) a := by
  rintro ⟨t, ht, hta⟩
  rw [Region.holds_iff] at hta
  rcases List.mem_append.mp ht with ht | ht
  · obtain ⟨htMem, htRole⟩ := List.mem_filter.mp ht
    exact h.apart hr htMem (by rwa [of_decide_eq_true htRole]) a h1 h2 hta
  · have hroom := h.room
    unfold Command.scratchUse at ht
    split at ht
    · obtain rfl := List.mem_singleton.mp ht
      exact h.apart hr hwindow hscr a h1 h2 ⟨hta.1, hta.2.trans_le (Nat.add_le_add_left hroom _)⟩
    · cases ht

/-! ## The operands of the pipeline -/

/-- The pipeline with and without a bias. -/
def convolveOf (withBias : Bool) : Instr := if withBias then .convolveB else .convolve

theorem convolveOf_unit (withBias : Bool) : (commandOf (convolveOf withBias)).unit = convolveUnit withBias := by
  cases withBias <;> rfl

theorem convolveOf_route (withBias : Bool) :
    (commandOf (convolveOf withBias)).route = [.check, .pad, .xin, .repack, .gemm, .xout, .crop] := by
  cases withBias <;> rfl

theorem convolveOf_scratchUse (withBias : Bool) (P : Params) :
    (commandOf (convolveOf withBias)).scratchUse P = [⟨.scratch, P.scrBase.toNat, P.convolveNeed⟩] := by
  cases withBias <;> rfl

theorem convolveOf_written (withBias : Bool) (P : Params) : (commandOf (convolveOf withBias)).written P =
    [⟨.dest, P.dstBase.toNat, P.outB⟩, ⟨.scratch, P.scrBase.toNat, P.convolveNeed⟩] := by
  cases withBias <;> rfl

/-- A part of the scratch window the pipeline needs is among what it may write. -/
theorem inRegions_of_scratch {withBias : Bool} {P : Params} {base size : Nat} (h1 : P.s0 ≤ base)
    (h2 : base + size ≤ P.s0 + P.convolveNeed) :
    ∀ a, base ≤ a → a < base + size → inRegions ((commandOf (convolveOf withBias)).written P) a := by
  rw [convolveOf_written]
  exact inRegions_part (r := ⟨.scratch, P.scrBase.toNat, P.convolveNeed⟩) (by simp) h1 h2

/-- What a ready `convolve` or `convolve.b` may rely on (`30_encoding.md` R86, `46_convolve.md` R237): legal channel
counts, backed operands and scratch buffers, tensors it only reads apart from what it may write, and a destination apart
from the scratch it needs. -/
structure PipelineOperands (withBias : Bool) (cfg : Config) (P : Params) : Prop where
  inCh   : P.inCh % 8 = 0
  outCh  : P.outCh % 8 = 0
  source : backs cfg P.srcBase.toNat P.inB = true
  filter : backs cfg P.filtBase.toNat P.tfB = true
  bias   : withBias = true → backs cfg P.biasBase.toNat P.biasB = true
  dest   : backs cfg P.dstBase.toNat P.outB = true
  padded      : backs cfg P.s0 P.padB = true
  input       : backs cfg P.s1 P.tiB = true
  interleaved : InterleavedBacked cfg P P.s2
  output      : backs cfg P.s3 P.toB = true
  map         : backs cfg P.s4 P.opB = true
  source_kept : ∀ a, P.srcBase.toNat ≤ a → a < P.srcBase.toNat + P.inB →
    ¬ inRegions ((commandOf (convolveOf withBias)).written P) a
  filter_kept : ∀ a, P.filtBase.toNat ≤ a → a < P.filtBase.toNat + P.tfB →
    ¬ inRegions ((commandOf (convolveOf withBias)).written P) a
  bias_kept   : withBias = true → ∀ a, P.biasBase.toNat ≤ a → a < P.biasBase.toNat + P.biasB →
    ¬ inRegions ((commandOf (convolveOf withBias)).written P) a
  dest_scratch : ∀ a, P.dstBase.toNat ≤ a → a < P.dstBase.toNat + P.outB → ¬ (P.s0 ≤ a ∧ a < P.s0 + P.convolveNeed)

theorem State.Ready.pipelineOperands {withBias : Bool} {s : State} (h : s.Ready (convolveOf withBias)) :
    PipelineOperands withBias s.cfg s.params := by
  set P := s.params
  set c := commandOf (convolveOf withBias)
  have hchecked : c.Checked P := Command.checked h.accepted
  have hsource : ⟨.source, P.srcBase.toNat, P.inB⟩ ∈ c.regions P := by
    cases withBias <;> simp [c, convolveOf, commandOf, convolveCommand, convolveBCommand]
  have hdest : ⟨.dest, P.dstBase.toNat, P.outB⟩ ∈ c.regions P := by
    cases withBias <;> simp [c, convolveOf, commandOf, convolveCommand, convolveBCommand]
  have hfilter : ⟨.filter, P.filtBase.toNat, P.tfB⟩ ∈ c.regions P := by
    cases withBias <;> simp [c, convolveOf, commandOf, convolveCommand, convolveBCommand]
  have hscratch : ⟨.scratch, P.scrBase.toNat, P.scrSize.toNat⟩ ∈ c.regions P := by
    cases withBias <;> simp [c, convolveOf, commandOf, convolveCommand, convolveBCommand]
  have hbias : withBias = true → ⟨.bias, P.biasBase.toNat, P.biasB⟩ ∈ c.regions P := by
    rintro rfl
    simp [c, convolveOf, commandOf, convolveBCommand]
  have hroom : P.convolveNeed ≤ P.scrSize.toNat := by
    have := hchecked.room
    revert this
    cases withBias <;> exact id
  have hbacks {r : Region} (hr : r ∈ c.regions P) (hrole : r.role ≠ .scratch) : backs s.cfg r.base r.size = true :=
    State.backed_tensor h.backed hr hrole (by cases withBias <;> exact nofun) h.accepted
  obtain ⟨hs0, hs1, hs2, hs3, hs4⟩ := State.backed_pipeline (i := convolveOf withBias)
    (by cases withBias <;> simp [convolveOf]) h.backed h.accepted
  exact {
    inCh := (hchecked.inCh (by cases withBias <;> decide)).1
    outCh := (hchecked.outCh (by cases withBias <;> decide)).1
    source := hbacks hsource nofun
    filter := hbacks hfilter nofun
    bias := fun hb => hbacks (hbias hb) nofun
    dest := hbacks hdest nofun
    padded := hs0
    input := hs1
    interleaved := hs2
    output := hs3
    map := hs4
    source_kept := hchecked.not_written hsource nofun nofun hscratch
    filter_kept := hchecked.not_written hfilter nofun nofun hscratch
    bias_kept := fun hb => hchecked.not_written (hbias hb) nofun nofun hscratch
    dest_scratch := fun a h1 h2 hs => hchecked.apart hdest hscratch nofun a h1 h2
      ⟨hs.1, hs.2.trans_le (Nat.add_le_add_left hroom _)⟩ }

/-! ## The stages of the pipeline -/

section
variable {withBias : Bool} {s u : State}

/-- What the command only reads is as when it was issued. -/
theorem Between.read_kept {i : Instr} {st : Stage} (hu : Between i s st u) {base size : Nat}
    (hkept : ∀ a, base ≤ a → a < base + size → ¬ inRegions ((commandOf i).written s.params) a) (a : Nat)
    (h1 : base ≤ a) (h2 : a < base + size) : u.mem.read a = s.mem.read a :=
  hu.kept a (not_inRegions.mp (hkept a h1 h2))

/-- Stage `PAD` leaves the padded map in `S0`. -/
theorem pipeline_pad (h : s.Ready (convolveOf withBias)) (hu : Between (convolveOf withBias) s .check u) :
    ∃ v, (commandOf (convolveOf withBias)).Runs (s.params.inGroups + 1) u v ∧
      Between (convolveOf withBias) s .pad v ∧
      ∀ g, g < s.params.inGroups → ∀ y, y < s.params.padH → ∀ x, x < s.params.padW → ∀ l, l < 8 →
        v.mem.half s.params.s0 (fmIndex s.params.padW s.params.padH g y x l) =
          padded s.params (u.mem.featureMap s.params.srcBase.toNat s.params.inW s.params.inH) g y x l := by
  have hops := h.pipelineOperands
  have hscratch := inRegions_of_scratch (withBias := withBias) (P := s.params) (base := s.params.s0)
    (size := s.params.padB) (by omega) (by simp only [Params.convolveNeed]; omega)
  obtain ⟨v, hruns, hv, hread⟩ := hu.advance (base := s.params.s0) (size := s.params.padB)
    (W := planeBytes s.params.s0 s.params.padW s.params.padH) h.accepted (.inl rfl) (by rw [convolveOf_route]; rfl) rfl
    (fun g hg => by
      rw [convolveOf_unit]
      exact padUnit_fills hops.inCh hg hops.source hops.padded
        (fun a h1 h2 hD => hops.source_kept a h1 h2 (hscratch a hD.1 hD.2)) fun a h1 h2 => ⟨h1, h2⟩)
    (fun g hg a ha => Params.padB_eq hops.inCh ▸ planeBytes_in hg ha) hscratch
  exact ⟨v, hruns, hv, fun g hg y hy x hx l hl =>
    (half_of_image fun a ha => hread g hg a (planeBytes_of_elem hy hx hl ha)).trans (fmValue_fmIndex hy hx hl)⟩

/-- Stage `XIN` leaves the TransformedInput in `S1`. -/
theorem pipeline_xin (h : s.Ready (convolveOf withBias)) (hu : Between (convolveOf withBias) s .pad u) :
    ∃ v, (commandOf (convolveOf withBias)).Runs (s.params.inGroups + 1) u v ∧
      Between (convolveOf withBias) s .xin v ∧
      ∀ p, p < s.params.inGroups → ∀ k, k < 64 → ∀ tile, tile < s.params.tiles → ∀ i, i < 8 →
        v.mem.half s.params.s1 (tiIndex s.params.tiles p k tile i) =
          transformedInput s.cfg.nanBits s.params
            (u.mem.featureMap s.params.s0 s.params.padW s.params.padH) p k tile i := by
  have hops := h.pipelineOperands
  obtain ⟨v, hruns, hv, hread⟩ := hu.advance (base := s.params.s1) (size := s.params.tiB)
    (W := groupBytes s.params s.params.s1) h.accepted (.inr rfl) (by rw [convolveOf_route]; rfl) rfl
    (fun p hp => by
      rw [convolveOf_unit]
      exact xinUnit_fills hops.inCh hp hops.padded hops.input
        (fun a h1 h2 hD => by simp only [Params.s1] at hD; omega) (fun a h1 h2 => ⟨h1, h2⟩) fun _ _ h => h)
    (fun p hp a ha => groupBytes_in hops.inCh hp ha)
    (inRegions_of_scratch (by simp only [Params.s1]; omega) (by simp only [Params.s1, Params.convolveNeed]; omega))
  exact ⟨v, hruns, hv, fun p hp k hk tile htile i hi =>
    ((half_of_image fun a ha => hread p hp a (groupBytes_of_elem hk htile hi ha)).trans
      (spectrumValue_tiIndex hk htile hi)).trans (laneInput_eq hi)⟩

/-- Stage `REPACK` leaves the interleaved input in `S2`. -/
theorem pipeline_repack (h : s.Ready (convolveOf withBias)) (hu : Between (convolveOf withBias) s .xin u) :
    ∃ v, (commandOf (convolveOf withBias)).Runs (64 + 1) u v ∧ Between (convolveOf withBias) s .repack v ∧
      ∀ k, k < 64 → ∀ b, b < nblk s.params.tiles → ∀ p, p < s.params.inGroups → ∀ i, i < 8 →
        ∀ tt, tt < (blockAt s.params.tiles b).2 →
          v.mem.half s.params.s2 (ti2Index s.params.tiles s.params.inCh k b p i tt) =
            u.mem.inputSpectrum s.params.s1 s.params.tiles p k ((blockAt s.params.tiles b).1 + tt) i := by
  have hops := h.pipelineOperands
  obtain ⟨v, hruns, hv, hread⟩ := hu.advance (base := s.params.s2) (size := s.params.ti2B)
    (W := coefBytes s.params s.params.s2) h.accepted (.inr rfl) (by rw [convolveOf_route]; rfl) rfl
    (fun k hk => by
      rw [convolveOf_unit]
      exact repackUnit_fills hops.inCh hk hops.input hops.interleaved
        (fun a h1 h2 hD => by simp only [Params.s2] at hD; omega) fun a h1 h2 => ⟨h1, h2⟩)
    (fun k hk a ha => coefBytes_in hk ha)
    (inRegions_of_scratch (by simp only [Params.s1, Params.s2]; omega)
      (by simp only [Params.s1, Params.s2, Params.convolveNeed]; omega))
  exact ⟨v, hruns, hv, fun k hk b hb p hp i hi tt ht =>
    (half_of_image fun a ha => hread k hk a ⟨b, hb, p, hp, i, hi, tt, ht, ha⟩).trans
      (interleavedValue_ti2Index hb hp hi ht)⟩

/-- Stage `GEMM` leaves the TransformedOutput of the TransformedInput `V` in `S3`. -/
theorem pipeline_gemm (h : s.Ready (convolveOf withBias)) (hu : Between (convolveOf withBias) s .repack u)
    {V : Spectrum}
    (hV : ∀ k, k < 64 → ∀ b, b < nblk s.params.tiles → ∀ p, p < s.params.inGroups → ∀ i, i < 8 →
      ∀ tt, tt < (blockAt s.params.tiles b).2 →
        u.mem.half s.params.s2 (ti2Index s.params.tiles s.params.inCh k b p i tt) =
          V p k ((blockAt s.params.tiles b).1 + tt) i) :
    ∃ v, (commandOf (convolveOf withBias)).Runs (64 * s.params.outGroups + 1) u v ∧
      Between (convolveOf withBias) s .gemm v ∧
      ∀ q, q < s.params.outGroups → ∀ k, k < 64 → ∀ tile, tile < s.params.tiles → ∀ j, j < 8 →
        v.mem.half s.params.s3 (toIndex s.params.tiles q k tile j) =
          contracted s.cfg.nanBits s.params (u.mem.filterBank s.params.filtBase.toNat s.params.inCh) V q k tile j := by
  have hops := h.pipelineOperands
  have hscratch := inRegions_of_scratch (withBias := withBias) (P := s.params) (base := s.params.s3)
    (size := s.params.toB) (by simp only [Params.s1, Params.s2, Params.s3]; omega)
    (by simp only [Params.s1, Params.s2, Params.s3, Params.convolveNeed]; omega)
  obtain ⟨v, hruns, hv, hread⟩ := hu.advance (base := s.params.s3) (size := s.params.toB)
    (W := fun n => sumBytes s.params s.params.s3 (n % s.params.outGroups) (n / s.params.outGroups)) h.accepted
    (.inr rfl) (by rw [convolveOf_route]; rfl) rfl
    (fun n hn => by
      rw [convolveOf_unit]
      exact gemmUnit_fills hops.inCh hops.outCh hn hops.filter hops.interleaved hops.output
        (fun a h1 h2 hD => hops.filter_kept a h1 h2 (hscratch a hD.1 hD.2))
        (fun a h1 h2 hD => by simp only [Params.s3] at hD; omega) (fun a h1 h2 => ⟨h1, h2⟩) hV fun _ _ _ h => h)
    (fun n hn a ha => sumBytes_unit_in hops.outCh hn ha) hscratch
  refine ⟨v, hruns, hv, fun q hq k hk tile htile j hj => half_of_sumBytes hk htile hj fun a ha => ?_⟩
  obtain ⟨n, hn, hbytes⟩ := exists_unit_of_sumBytes hq hk ha
  exact hread n hn a hbytes

/-- Stage `XOUT` leaves the padded output in `S4`. -/
theorem pipeline_xout (h : s.Ready (convolveOf withBias)) (hu : Between (convolveOf withBias) s .gemm u) :
    ∃ v, (commandOf (convolveOf withBias)).Runs (s.params.outGroups + 1) u v ∧
      Between (convolveOf withBias) s .xout v ∧
      ∀ q, q < s.params.outGroups → ∀ y, y < s.params.outHp → ∀ x, x < s.params.outWp → ∀ l, l < 8 →
        v.mem.half s.params.s4 (fmIndex s.params.outWp s.params.outHp q y x l) =
          transformedOutput s.cfg s.params (u.mem.outputSpectrum s.params.s3 s.params.tiles)
            (u.mem.biasOf withBias s.params.biasBase.toNat) q y x l := by
  have hops := h.pipelineOperands
  have hscratch := inRegions_of_scratch (withBias := withBias) (P := s.params) (base := s.params.s4)
    (size := s.params.opB) (by simp only [Params.s1, Params.s2, Params.s3, Params.s4]; omega)
    (by simp only [Params.s1, Params.s2, Params.s3, Params.s4, Params.convolveNeed]; omega)
  obtain ⟨v, hruns, hv, hread⟩ := hu.advance (base := s.params.s4) (size := s.params.opB)
    (W := planeBytes s.params.s4 s.params.outWp s.params.outHp) h.accepted (.inr rfl)
    (by rw [convolveOf_route]; rfl) rfl
    (fun q hq => by
      rw [convolveOf_unit]
      exact xoutUnit_fills_plane hops.outCh hq hops.output hops.map hops.bias
        (fun a h1 h2 hD => by simp only [Params.s4] at hD; omega)
        (fun hb a h1 h2 hD => hops.bias_kept hb a h1 h2 (hscratch a hD.1 hD.2)) (fun a h1 h2 => ⟨h1, h2⟩)
        fun _ _ h => h)
    (fun q hq a ha => Params.opB_eq hops.outCh ▸ planeBytes_in hq ha) hscratch
  exact ⟨v, hruns, hv, fun q hq y hy x hx l hl =>
    ((half_of_image fun a ha => hread q hq a (planeBytes_of_elem hy hx hl ha)).trans
      (fmValue_fmIndex hy hx hl)).trans (laneOutput_eq hl)⟩

/-- Stage `CROP` leaves the kept part of the padded output in the destination. -/
theorem pipeline_crop (h : s.Ready (convolveOf withBias)) (hu : Between (convolveOf withBias) s .xout u) :
    ∃ v, (commandOf (convolveOf withBias)).Runs (s.params.outGroups + 1) u v ∧
      Between (convolveOf withBias) s .crop v ∧
      ∀ q, q < s.params.outGroups → ∀ y, y < s.params.outH → ∀ x, x < s.params.outW → ∀ l, l < 8 →
        v.mem.half s.params.dstBase.toNat (fmIndex s.params.outW s.params.outH q y x l) =
          u.mem.half s.params.s4 (fmIndex s.params.outWp s.params.outHp q y x l) := by
  have hops := h.pipelineOperands
  have hmap := hops.map
  rw [Params.opB_eq hops.outCh] at hmap
  have hapart : ∀ a, s.params.s4 ≤ a → a < s.params.s4 + s.params.opB →
      ¬ (s.params.dstBase.toNat ≤ a ∧ a < s.params.dstBase.toNat + s.params.outB) := fun a h1 h2 hD =>
    hops.dest_scratch a hD.1 hD.2 (by
      simp only [Params.s1, Params.s2, Params.s3, Params.s4, Params.convolveNeed] at h1 h2 ⊢
      omega)
  obtain ⟨v, hruns, hv, hread⟩ := hu.advance (base := s.params.dstBase.toNat) (size := s.params.outB)
    (W := planeBytes s.params.dstBase.toNat s.params.outW s.params.outH) h.accepted (.inr rfl)
    (by rw [convolveOf_route]; rfl) rfl
    (fun q hq => by
      rw [convolveOf_unit]
      exact cropUnit_fills hops.outCh hq
        (fun y hy x hx => fm_backs hmap hq (hy.trans_le s.params.outH_le) (hx.trans_le s.params.outW_le)) hops.dest
        hapart fun a h1 h2 => ⟨h1, h2⟩)
    (fun q hq a ha => Params.outB_eq hops.outCh ▸ planeBytes_in hq ha)
    (by
      rw [convolveOf_written]
      exact inRegions_part (r := ⟨.dest, s.params.dstBase.toNat, s.params.outB⟩) List.mem_cons_self le_rfl le_rfl)
  exact ⟨v, hruns, hv, fun q hq y hy x hx l hl =>
    (half_of_image fun a ha => hread q hq a (planeBytes_of_elem hy hx hl ha)).trans (fmValue_fmIndex hy hx hl)⟩

end

/-! ## The pipeline -/

theorem convolveOf_budget (withBias : Bool) (s : State) :
    (commandOf (convolveOf withBias)).budget (s.accept (convolveOf withBias)) =
      (s.params.inGroups + 1) + (s.params.inGroups + 1) + (64 + 1) + (64 * s.params.outGroups + 1) +
        (s.params.outGroups + 1) + (s.params.outGroups + 1) + 2 := by
  have hstages : (commandOf (convolveOf withBias)).stages = [.pad, .xin, .repack, .gemm, .xout, .crop] := by
    cases withBias <;> rfl
  simp only [Command.budget, hstages, Stage.units, State.accept_pending, State.accept_latch, List.length_nil,
    List.map_cons, List.map_nil, List.sum_cons, List.sum_nil]
  omega

/-- A ready `convolve` or `convolve.b` is its six stages and its completion; the last stage leaves the pipeline's result
in the destination, each stage reading what the one before it left. -/
theorem pipeline_runs {withBias : Bool} {s : State} (h : s.Ready (convolveOf withBias)) :
    ∃ v, exec (convolveOf withBias) s = .next ((commandOf (convolveOf withBias)).finish v) ∧
      Between (convolveOf withBias) s .crop v ∧
      ∀ q, q < s.params.outGroups → ∀ y, y < s.params.outH → ∀ x, x < s.params.outW → ∀ l, l < 8 →
        v.mem.half s.params.dstBase.toNat (fmIndex s.params.outW s.params.outH q y x l) =
          pipeline s.cfg s.params (s.mem.featureMap s.params.srcBase.toNat s.params.inW s.params.inH)
            (s.mem.filterBank s.params.filtBase.toNat s.params.inCh)
            (s.mem.biasOf withBias s.params.biasBase.toNat) q y x l := by
  have hops := h.pipelineOperands
  obtain ⟨u1, hrun1, hu1, hpad⟩ := pipeline_pad h (Between.accepted h.canonical)
  obtain ⟨u2, hrun2, hu2, hxin⟩ := pipeline_xin h hu1
  obtain ⟨u3, hrun3, hu3, hrepack⟩ := pipeline_repack h hu2
  obtain ⟨u4, hrun4, hu4, hgemm⟩ := pipeline_gemm h hu3 hrepack
  obtain ⟨u5, hrun5, hu5, hxout⟩ := pipeline_xout h hu4
  obtain ⟨u6, hrun6, hu6, hcrop⟩ := pipeline_crop h hu5
  have hruns := ((((hrun1.trans hrun2).trans hrun3).trans hrun4).trans hrun5).trans hrun6
  have hlast : stageAfter .crop (commandOf (convolveOf withBias)).stages = none := by cases withBias <;> rfl
  refine ⟨u6, ?_, hu6, fun q hq y hy x hx l hl => ?_⟩
  · rw [exec_waits h.idle h.waits, convolveOf_budget, hruns, hu6.finish rfl hlast]
  have hy' := hy.trans_le s.params.outH_le
  have hx' := hx.trans_le s.params.outW_le
  have hinput (p : Nat) (hp : p < s.params.inGroups) (k : Nat) (hk : k < 64) (tile : Nat) (ht : tile < s.params.tiles)
      (i : Nat) (hi : i < 8) : u2.mem.inputSpectrum s.params.s1 s.params.tiles p k tile i =
        transformedInput s.cfg.nanBits s.params
          (padded s.params (s.mem.featureMap s.params.srcBase.toNat s.params.inW s.params.inH)) p k tile i :=
    (hxin p hp k hk tile ht i hi).trans (transformedInput_congr ht fun y hy x hx => hpad p hp y hy x hx i hi)
  have hfilter (k : Nat) (hk : k < 64) (p : Nat) (hp : p < s.params.inCh / 8) (i : Nat) (hi : i < 8) :
      u3.mem.filterBank s.params.filtBase.toNat s.params.inCh q k p i l =
        s.mem.filterBank s.params.filtBase.toNat s.params.inCh q k p i l :=
    Memory.filterBank_congr hops.inCh hops.outCh hq hk hp hi hl (hu3.read_kept hops.filter_kept)
  have hbias : u4.mem.biasOf withBias s.params.biasBase.toNat q l = s.mem.biasOf withBias s.params.biasBase.toNat q l :=
    Memory.biasOf_congr hq hl fun hb => Params.biasB_eq hops.outCh ▸ hu4.read_kept (hops.bias_kept hb)
  calc u6.mem.half s.params.dstBase.toNat (fmIndex s.params.outW s.params.outH q y x l)
    _ = u5.mem.half s.params.s4 (fmIndex s.params.outWp s.params.outHp q y x l) := hcrop q hq y hy x hx l hl
    _ = transformedOutput s.cfg s.params (u4.mem.outputSpectrum s.params.s3 s.params.tiles)
          (u4.mem.biasOf withBias s.params.biasBase.toNat) q y x l := hxout q hq y hy' x hx' l hl
    _ = _ := transformedOutput_congr hy' hx' hbias fun k hk tile ht =>
          (hgemm q hq k hk tile ht l hl).trans
            (contracted_congr hops.inCh (hfilter k hk) fun p hp i hi => hinput p hp k hk tile ht i hi)

/-- What a ready `convolve` or `convolve.b` leaves: the completion gives the scratch away and leaves the destination. -/
theorem convolveOf_result {withBias : Bool} {s : State} (h : s.Ready (convolveOf withBias)) :
    ∃ t, exec (convolveOf withBias) s = .next t ∧ Completed (convolveOf withBias) .none s t ∧
      (∀ q, q < s.params.outGroups → ∀ y, y < s.params.outH → ∀ x, x < s.params.outW → ∀ l, l < 8 →
        t.mem.half s.params.dstBase.toNat (fmIndex s.params.outW s.params.outH q y x l) =
          pipeline s.cfg s.params (s.mem.featureMap s.params.srcBase.toNat s.params.inW s.params.inH)
            (s.mem.filterBank s.params.filtBase.toNat s.params.inCh)
            (s.mem.biasOf withBias s.params.biasBase.toNat) q y x l) ∧
      memoryKept [⟨.dest, s.params.dstBase.toNat, s.params.outB⟩,
        ⟨.scratch, s.params.scrBase.toNat, s.params.convolveNeed⟩] s t ∧
      t.workers.length = s.workers.length := by
  have hops := h.pipelineOperands
  obtain ⟨v, hexec, hv, hmap⟩ := pipeline_runs h
  obtain ⟨-, hfinish, hfields⟩ := Command.finish_spec (c := commandOf (convolveOf withBias)) hv.wf
  rw [hv.latch, convolveOf_scratchUse] at hfinish
  refine ⟨_, hexec, hv.completed, fun q hq y hy x hx l hl => ?_, convolveOf_written withBias s.params ▸ hv.finish_kept,
    ?_⟩
  · refine (Memory.half_congr fun a h1 h2 => hfinish a ?_).trans (hmap q hq y hy x hx l hl)
    obtain ⟨hlo, hhi⟩ := planeBytes_in hq (planeBytes_of_elem hy hx hl ⟨h1, h2⟩)
    rw [← Params.outB_eq hops.outCh] at hhi
    exact List.forall_mem_singleton.mpr (Region.holds_false.mpr (hops.dest_scratch a hlo hhi))
  · rw [hfields]
    exact hv.workers

end Sys2Proof.Machine
end

section
/-! PROOFS. The zero-bias law (`spec/45_output_transform.md` R227, `spec/46_convolve.md` R242): a command without a bias
adds zeros, which is what its variant adds when its bias is all zeros. Settles O35. -/

namespace Sys2Proof.Machine

/-- Two commands that leave output transforms of one TransformedOutput in their destination, without and with the bias
in `m`, leave the same bytes there when that bias is all zeros. -/
theorem dest_eq_of_zeroBias {c : Command} {P : Params} {cfg : Config} {M : Spectrum} {m : Memory} {t u : State}
    {base size bias w h : Nat} (hdest : c.destination P = [⟨.dest, base, size⟩])
    (hsize : size = P.outGroups * h * w * 8 * 2) (hw : w ≤ P.outWp) (hh : h ≤ P.outHp)
    (hzero : ∀ o, o < P.outCh → m.half bias o = 0)
    (hplain : ∀ q, q < P.outGroups → ∀ y, y < h → ∀ x, x < w → ∀ l, l < 8 →
      t.mem.half base (fmIndex w h q y x l) = transformedOutput cfg P M (m.biasOf false bias) q y x l)
    (hbiased : ∀ q, q < P.outGroups → ∀ y, y < h → ∀ x, x < w → ∀ l, l < 8 →
      u.mem.half base (fmIndex w h q y x l) = transformedOutput cfg P M (m.biasOf true bias) q y x l) :
    ∀ r ∈ c.destination P, ∀ a, r.holds a = true → u.mem.read a = t.mem.read a := by
  rw [hdest]
  refine List.forall_mem_singleton.mpr fun a ha => ?_
  obtain ⟨h1, h2⟩ := Region.holds_iff.mp ha
  obtain ⟨n, rfl⟩ := Nat.exists_eq_add_of_le h1
  refine Memory.read_eq_of_map_eq (fun q hq y hy x hx l hl => ?_) (hsize ▸ Nat.lt_of_add_lt_add_left h2)
  rw [hplain q hq y hy x hx l hl, hbiased q hq y hy x hx l hl]
  refine transformedOutput_congr (hy.trans_le hh) (hx.trans_le hw) ?_ fun _ _ _ _ => rfl
  rw [Memory.biasOf_of_zero hq hl hzero, Memory.biasOf_of_zero hq hl hzero]

/-- Settles O35: each pair of commands is one command up to its bias. -/
theorem zeroBiasLaw : Obligations.ZeroBiasLaw := by
  rintro plain biased s (⟨rfl, rfl⟩ | ⟨rfl, rfl⟩) hplain hbiased hzero
  · obtain ⟨hch, -⟩ := (Command.checked hplain.accepted).outCh (by decide)
    obtain ⟨t, ht, hct, hmapt, -⟩ := xoutOf_result (withBias := false) hplain
    obtain ⟨u, hu, hcu, hmapu, -⟩ := xoutOf_result (withBias := true) hbiased
    exact ⟨t, u, ht, hu, hct.err, hcu.err,
      dest_eq_of_zeroBias rfl (Params.opB_eq hch) le_rfl le_rfl hzero hmapt hmapu⟩
  · obtain ⟨hch, -⟩ := (Command.checked hplain.accepted).outCh (by decide)
    obtain ⟨t, ht, hct, hmapt, -⟩ := convolveOf_result (withBias := false) hplain
    obtain ⟨u, hu, hcu, hmapu, -⟩ := convolveOf_result (withBias := true) hbiased
    exact ⟨t, u, ht, hu, hct.err, hcu.err,
      dest_eq_of_zeroBias rfl (Params.outB_eq hch) s.params.outW_le s.params.outH_le hzero hmapt hmapu⟩

end Sys2Proof.Machine
end

section
/-! PROOFS. The result of `convolve` and `convolve.b` (`spec/46_convolve.md` R235 to R238, R241), and what the three
transforms compute in exact arithmetic (R240): one row at a time, the transformed kernel times the transformed row is
the transform of their correlation, and a tile is rows of rows. Settles O32, O33 and O58. -/

namespace Sys2Proof.Machine

/-! ## The two commands -/

/-- Settles O32: `convolveOf_result` without a bias. -/
theorem convolveResult : Obligations.ConvolveResult := fun _ hready => convolveOf_result (withBias := false) hready

/-- Settles O33: `convolveOf_result` with a bias. -/
theorem convolveBiasResult : Obligations.ConvolveBiasResult := fun _ hready =>
  convolveOf_result (withBias := true) hready

/-! ## One row in exact arithmetic -/

theorem vector8_eq {α : Type} (v : Vector α 8) : v = #v[v[0], v[1], v[2], v[3], v[4], v[5], v[6], v[7]] := by
  ext i hi
  interval_cases i <;> rfl

/-- The matrix of `bt8` (`43_input_transform.md` R182) on any vector. -/
theorem bt8_exact (a : Vector ℚ 8) : bt8 exactArith a =
    #v[a[0] - 21 / 4 * a[2] + 21 / 4 * a[4] - a[6],
       a[1] + a[2] - 17 / 4 * a[3] - 17 / 4 * a[4] + a[5] + a[6],
       -a[1] + a[2] + 17 / 4 * a[3] - 17 / 4 * a[4] - a[5] + a[6],
       1 / 2 * a[1] + 1 / 4 * a[2] - 5 / 2 * a[3] - 5 / 4 * a[4] + 2 * a[5] + a[6],
       -1 / 2 * a[1] + 1 / 4 * a[2] + 5 / 2 * a[3] - 5 / 4 * a[4] - 2 * a[5] + a[6],
       2 * a[1] + 4 * a[2] - 5 / 2 * a[3] - 5 * a[4] + 1 / 2 * a[5] + a[6],
       -2 * a[1] + 4 * a[2] + 5 / 2 * a[3] - 5 * a[4] - 1 / 2 * a[5] + a[6],
       -a[1] + 21 / 4 * a[3] - 21 / 4 * a[5] + a[7]] := by
  obtain ⟨-, -, hmatrix⟩ := inputMatrix
  exact (congrArg _ (vector8_eq a)).trans (hmatrix ..)

/-- The matrix of `at6` (`45_output_transform.md` R222) on any vector. -/
theorem at6_exact (tree : AtTree) (b : Vector ℚ 8) : at6 exactArith tree b =
    #v[b[0] + b[1] + b[2] + b[3] + b[4] + 32 * b[5] + 32 * b[6],
       b[1] - b[2] + 2 * b[3] - 2 * b[4] + 16 * b[5] - 16 * b[6],
       b[1] + b[2] + 4 * b[3] + 4 * b[4] + 8 * b[5] + 8 * b[6],
       b[1] - b[2] + 8 * b[3] - 8 * b[4] + 4 * b[5] - 4 * b[6],
       b[1] + b[2] + 16 * b[3] + 16 * b[4] + 2 * b[5] + 2 * b[6],
       b[1] - b[2] + 32 * b[3] - 32 * b[4] + b[5] - b[6] + b[7]] := by
  obtain ⟨-, -, hmatrix⟩ := outputMatrix
  exact (congrArg _ (vector8_eq b)).trans (hmatrix ..)

/-- `at6` is linear, so it commutes with the sum over the tap rows. -/
theorem at6_sum (tree : AtTree) (f : Fin 3 → Fin 8 → ℚ) {j : Nat} (hj : j < 6) :
    (at6 exactArith tree (Vector.ofFn fun t => ∑ r, f r t))[j] =
      ∑ r, (at6 exactArith tree (Vector.ofFn (f r)))[j] := by
  simp only [at6_exact, Fin.sum_univ_three, Vector.getElem_ofFn]
  interval_cases j <;> simp <;> ring

/-- The identity in one dimension: each of the six outputs is a polynomial identity in the taps `g` and the inputs
`a`. -/
theorem at6_mul_eq_correlation (tree : AtTree) (g : Fin 3 → ℚ) (a : Vector ℚ 8) {i : Nat} (hi : i < 6) :
    (at6 exactArith tree (Vector.ofFn fun u => (∑ r : Fin 3, gExact[u][r] * g r) * (bt8 exactArith a)[u]))[i] =
      ∑ r : Fin 3, g r * a[i + r.val] := by
  simp only [at6_exact, bt8_exact, Fin.sum_univ_three, Vector.getElem_ofFn, gExact]
  interval_cases i <;> simp <;> ring

/-! ## One tile -/

theorem xinTile_entry {α : Type} (A : Arith α) (d : Grid α 8 8) (t u : Fin 8) :
    (xinTile A d)[t][u] = (bt8 A (Vector.ofFn fun m => (bt8 A d[m])[t]))[u] := by
  simp [xinTile, xinColumnPass, xinRowPass]

theorem xoutTile_entry {α : Type} (A : Arith α) (tree : AtTree) (M : Fin 8 → Vector α 8) (bias : α) {i j : Nat}
    (hi : i < 6) (hj : j < 6) : (xoutTile A tree (Vector.ofFn M) bias)[i][j] =
      A.add (at6 A tree (Vector.ofFn fun t => (at6 A tree (M t))[i]))[j] bias := by
  simp [xoutTile, xoutSecondPass, xoutFirstPass]

/-- Row `t` of the transformed kernel is the transform, in one dimension, of the taps whose rows have been combined by
row `t` of `G`. -/
theorem exactFilterTile_entry (K : Grid ℚ 3 3) (t u : Fin 8) : (exactFilterTile K)[t][u] =
    ∑ r : Fin 3, gExact[u][r] * ∑ cc : Fin 3, gExact[t][cc] * K[r][cc] := by
  simp only [exactFilterTile, Fin.getElem_fin, Vector.getElem_ofFn, Finset.mul_sum]
  refine Finset.sum_congr rfl fun r _ => Finset.sum_congr rfl fun cc _ => ?_
  ring

/-- The first pass of the output transform settles the vertical dimension: what is left is, for each tap row, the product
of that row transformed and the row of the tile it meets transformed. -/
theorem firstPass_eq_correlation (tree : AtTree) (K : Grid ℚ 3 3) (d : Grid ℚ 8 8) (t : Fin 8) {i : Nat}
    (hi : i < 6) :
    (at6 exactArith tree (Vector.ofFn fun u => (exactFilterTile K)[t][u] * (xinTile exactArith d)[t][u]))[i] =
      ∑ r : Fin 3, (∑ cc : Fin 3, gExact[t][cc] * K[r][cc]) * (bt8 exactArith d[i + r.val])[t] := by
  simp only [exactFilterTile_entry, xinTile_entry]
  rw [at6_mul_eq_correlation tree _ _ hi]
  simp

/-- Settles O58: the identity in one dimension, first down the columns and then along each row. -/
theorem winogradIdentity : Obligations.WinogradIdentity := by
  intro tree K d bias
  ext i hi j hj
  have hgrid (r cc : Fin 3) : gridAt 0 d (i + r.val) (j + cc.val) = d[i + r.val][j + cc.val] := by
    simp [gridAt, show i + r.val < 8 by omega, show j + cc.val < 8 by omega]
  simp only [Vector.getElem_ofFn, hgrid]
  calc _ = (at6 exactArith tree (Vector.ofFn fun t : Fin 8 => ∑ r : Fin 3,
              (∑ cc : Fin 3, gExact[t][cc] * K[r][cc]) * (bt8 exactArith d[i + r.val])[t]))[j] + bias := by
        rw [xoutTile_entry _ _ _ _ hi hj]
        simp only [firstPass_eq_correlation tree K d _ hi]
        rfl
    _ = (∑ r : Fin 3, ∑ cc : Fin 3, K[r][cc] * d[i + r.val][j + cc.val]) + bias := by
        rw [at6_sum tree _ hj]
        simp only [at6_mul_eq_correlation tree _ _ hj]
    _ = _ := add_comm _ _

end Sys2Proof.Machine
end

section
/-! PROOFS. The pipeline and the chain of the five single commands (`spec/46_convolve.md` R239): a command leaves the
core ready for the next one, each command reads what the one before it left, and the filter and the bias stand
untouched until they are read. Settles O34. -/

namespace Sys2Proof.Machine

/-! ## From command to command -/

/-- A command that has just been accepted satisfies the invariant, whatever the registers held before. -/
theorem State.accept_inv {s : State} (i : Instr) (hwf : s.mem.wf = true) : (s.accept i).Inv :=
  State.Inv.accept (s := s.complete .none) (State.inv_of_completed hwf rfl rfl rfl rfl) i

/-- A ready command leaves memory in its canonical form. -/
theorem State.Ready.canonical_of_exec {i : Instr} {s t : State} (h : s.Ready i) (hexec : exec i s = .next t) :
    t.mem.wf = true := by
  rw [exec_waits h.idle h.waits] at hexec
  obtain rfl := Host.Outcome.next.inj hexec
  exact (Command.transactions_inv _ (State.accept_inv i h.canonical) fun _ => rfl).canonical

/-- `t` differs from `s` in nothing that readiness depends on, but for the parameter registers: what was ready in `s`
with some parameters is ready in `t` with them. -/
structure ReadyAlike (s t : State) : Prop where
  idle      : t.status.busy = false
  host      : t.host = s.host
  cfg       : t.cfg = s.cfg
  canonical : t.mem.wf = true

theorem State.Ready.readyAlike {i : Instr} {s : State} (h : s.Ready i) : ReadyAlike s s :=
  ⟨h.idle, rfl, rfl, h.canonical⟩

theorem ReadyAlike.ready {i : Instr} {s t : State} {P : Params} (h : ReadyAlike s t)
    (hready : { s with params := P }.Ready i) : { t with params := P }.Ready i where
  idle := h.idle
  waits := by
    have hwaits := hready.waits
    unfold State.hostWaits at hwaits ⊢
    rwa [← h.host] at hwaits
  accepted := hready.accepted
  backed a ha := h.cfg ▸ hready.backed a ha
  canonical := h.canonical

/-- A command without an error leaves the core ready for what it was ready for. -/
theorem ReadyAlike.exec {i : Instr} {s t u : State} {P : Params} (h : ReadyAlike s t)
    (hready : { t with params := P }.Ready i) (hexec : exec i { t with params := P } = .next u)
    (hdone : Completed i .none { t with params := P } u) : ReadyAlike s u :=
  ⟨hdone.busy, hdone.host.trans h.host, hdone.cfg.trans h.cfg, hready.canonical_of_exec hexec⟩

/-- A region that no written region overlaps keeps its bytes. -/
theorem memoryKept.read_eq {rs : List Region} {s t : State} (h : memoryKept rs s t) {r : Region}
    (hr : ∀ w ∈ rs, r.overlaps w = false) (a : Nat) (h1 : r.base ≤ a) (h2 : a < r.base + r.size) :
    t.mem.read a = s.mem.read a :=
  h a fun w hw => Region.holds_false.mpr (Region.disjoint (hr w hw) h1 h2)

/-! ## The composition of the stages -/

/-- Tensors that are stage by stage the results of each other make up the pipeline. -/
theorem transformedOutput_eq_pipeline {cfg : Config} {P : Params} {f g : FeatureMap} {F G : FilterBank}
    {V M : Spectrum} {B C : Nat → Nat → Half} {q y x l : Nat} (hch : P.inCh % 8 = 0) (hy : y < P.outHp) (hx : x < P.outWp)
    (hpad : ∀ p, p < P.inGroups → ∀ y, y < P.padH → ∀ x, x < P.padW → ∀ i, i < 8 → g p y x i = padded P f p y x i)
    (hxin : ∀ p, p < P.inGroups → ∀ k, k < 64 → ∀ tile, tile < P.tiles → ∀ i, i < 8 →
      V p k tile i = transformedInput cfg.nanBits P g p k tile i)
    (hfilter : ∀ k, k < 64 → ∀ p, p < P.inCh / 8 → ∀ i, i < 8 → G q k p i l = F q k p i l)
    (hgemm : ∀ k, k < 64 → ∀ tile, tile < P.tiles → M q k tile l = contracted cfg.nanBits P G V q k tile l)
    (hbias : C q l = B q l) : transformedOutput cfg P M C q y x l = pipeline cfg P f F B q y x l :=
  transformedOutput_congr hy hx hbias fun k hk tile ht =>
    (hgemm k hk tile ht).trans (contracted_congr hch (hfilter k hk) fun p hp i hi =>
      (hxin p hp k hk tile ht i hi).trans (transformedInput_congr ht fun y hy x hx => hpad p hp y hy x hx i hi))

/-! ## The chain -/

/-- Settles O34: both sides leave the pipeline's result in the destination. -/
theorem convolveEqualsChain : Obligations.ConvolveEqualsChain := by
  intro whole out s b1 b2 b3 b4 scr size hpair P p1 p2 p3 p4 p5 filter bias hwhole hpad hxin hgemm hxout hcrop hf1
    hf2 hb
  obtain ⟨withBias, rfl, rfl⟩ : ∃ withBias, whole = convolveOf withBias ∧ out = xoutOf withBias := by
    rcases hpair with ⟨rfl, rfl⟩ | ⟨rfl, rfl⟩
    · exact ⟨false, rfl, rfl⟩
    · exact ⟨true, rfl, rfl⟩
  have hops := hwhole.pipelineOperands
  -- Each command of the chain runs to its end and leaves the core ready for the next one.
  obtain ⟨t, hexec, hdone, hmap, -⟩ := convolveOf_result hwhole
  obtain ⟨s1, hexec1, hdone1, hmap1, hkept1, -⟩ := padResult _ hpad
  have hs1 := hwhole.readyAlike.exec hpad hexec1 hdone1
  obtain ⟨s2, hexec2, hdone2, hmap2, hkept2, -⟩ := xinResult _ (hs1.ready hxin)
  have hs2 := hs1.exec (hs1.ready hxin) hexec2 hdone2
  obtain ⟨s3, hexec3, hdone3, hmap3, hkept3, -⟩ := contractResult _ (hs2.ready hgemm)
  have hs3 := hs2.exec (hs2.ready hgemm) hexec3 hdone3
  obtain ⟨s4, hexec4, hdone4, hmap4, -⟩ := xoutOf_result (hs3.ready hxout)
  have hs4 := hs3.exec (hs3.ready hxout) hexec4 hdone4
  obtain ⟨s5, hexec5, hdone5, hmap5, -⟩ := cropResult _ (hs4.ready hcrop)
  refine ⟨t, s1, s2, s3, s4, s5, hexec, hexec1, hexec2, hexec3, hexec4, hexec5, hdone.err, hdone5.err, fun n hn => ?_⟩
  rw [Params.outB_eq hops.outCh] at hn
  refine Memory.read_eq_of_map_eq (fun q hq y hy x hx l hl => ?_) hn
  rw [hmap q hq y hy x hx l hl]
  symm
  have hy' := hy.trans_le P.outH_le
  have hx' := hx.trans_le P.outW_le
  -- The filter stands until `contract` reads it, the bias until `xout.b` does.
  have hfilter (a : Nat) (h1 : filter.base ≤ a) (h2 : a < filter.base + filter.size) :
      s2.mem.read a = s.mem.read a :=
    (hkept2.read_eq (r := filter) (List.forall_mem_singleton.mpr hf2) a h1 h2).trans
      (hkept1.read_eq (r := filter) (List.forall_mem_singleton.mpr hf1) a h1 h2)
  have hbias (hw : withBias = true) (a : Nat) (h1 : bias.base ≤ a) (h2 : a < bias.base + bias.size) :
      s3.mem.read a = s.mem.read a := by
    subst hw
    obtain ⟨hb1, hb2, hb3, hb4⟩ := hb rfl
    calc s3.mem.read a
      _ = s2.mem.read a := hkept3.read_eq (r := bias) (by simpa using ⟨hb3, hb4⟩) a h1 h2
      _ = s1.mem.read a := hkept2.read_eq (r := bias) (List.forall_mem_singleton.mpr hb2) a h1 h2
      _ = s.mem.read a := hkept1.read_eq (r := bias) (List.forall_mem_singleton.mpr hb1) a h1 h2
  calc s5.mem.half P.dstBase.toNat (fmIndex P.outW P.outH q y x l)
    _ = s4.mem.half b4.toNat (fmIndex P.outWp P.outHp q y x l) := hmap5 q hq y hy x hx l hl
    _ = transformedOutput s3.cfg P (s3.mem.outputSpectrum b3.toNat P.tiles)
          (s3.mem.biasOf withBias P.biasBase.toNat) q y x l := hmap4 q hq y hy' x hx' l hl
    _ = _ := by
      rw [hs3.cfg]
      exact transformedOutput_eq_pipeline (G := s2.mem.filterBank P.filtBase.toNat P.inCh)
        (V := s2.mem.inputSpectrum b2.toNat P.tiles) (g := s1.mem.featureMap b1.toNat P.padW P.padH) hops.inCh hy' hx'
        hmap1 (hs1.cfg ▸ hmap2)
        (fun k hk p hp i hi => Memory.filterBank_congr hops.inCh hops.outCh hq hk hp hi hl hfilter)
        (fun k hk tile ht => hs2.cfg ▸ hmap3 q hq k hk tile ht l hl)
        (Memory.biasOf_congr hq hl fun hw => Params.biasB_eq hops.outCh ▸ hbias hw)

end Sys2Proof.Machine
end

section
/-! PROOFS. Stage `CHECK` (`spec/60_exceptions.md` R251 to R253, R255): the conditions on the operands, and what a command
that fails them does. Settles O17 and O18. -/

namespace Sys2Proof.Machine

/-! ## The conditions -/

/-- Which values a used scalar register must not have (`60_exceptions.md` R252 (a), (b)). -/
theorem Params.illegal_iff {P : Params} {r : ParamReg} :
    P.illegal r = true ↔
      (r ∈ [ParamReg.inWidth, .inHeight, .outWidth, .outHeight, .nWork] ∧
        ((P.get r).toNat = 0 ∨ 65535 < (P.get r).toNat)) ∨
      (r ∈ [ParamReg.inChannels, .outChannels] ∧
        ((P.get r).toNat % 8 ≠ 0 ∨ (P.get r).toNat = 0 ∨ 65528 < (P.get r).toNat)) := by
  cases r <;> simp [Params.illegal, or_assoc] <;> rfl

/-- Only the commands that take an arriving map ask whether it fits (`60_exceptions.md` R252 (c)). -/
theorem Command.fits_iff (i : Instr) : (commandOf i).fits = true ↔ i ∈ [Instr.pad, .convolve, .convolveB] := by
  cases i <;> decide

theorem Params.tooLarge_iff {P : Params} : P.tooLarge = true ↔ P.padW < P.inW ∨ P.padH < P.inH := by
  simp [Params.tooLarge]

theorem Region.misplaced_iff {r : Region} : r.misplaced = true ↔ r.base % 16 ≠ 0 ∨ 2 ^ 64 < r.base + r.size := by
  rw [Region.misplaced, Bool.or_eq_true, decide_eq_true_eq, decide_eq_true_eq, addrSpace]

/-- Regions overlap when two of them share a byte (`60_exceptions.md` R252 (e), `40_numerics.md` R124). -/
theorem anyOverlap_iff {rs : List Region} :
    anyOverlap rs = true ↔ ¬ rs.Pairwise fun r t => ¬ ∃ a, r.holds a = true ∧ t.holds a = true := by
  simp only [← Region.overlaps_iff, Bool.not_eq_true, ← anyOverlap_eq_false, Bool.not_eq_false]

/-! ## The verdict -/

section
variable {c : Command} {P : Params}

theorem Command.verdict_eq_precond : c.verdict P = .precond ↔ c.precondFails P = true := by
  unfold Command.verdict
  split_ifs <;> simp_all

theorem Command.verdict_eq_alloc :
    c.verdict P = .alloc ↔ ¬ c.precondFails P = true ∧ P.scrSize.toNat < c.need P := by
  unfold Command.verdict
  split_ifs <;> simp_all

theorem Command.verdict_eq_none :
    c.verdict P = .none ↔ ¬ c.precondFails P = true ∧ c.need P ≤ P.scrSize.toNat := by
  unfold Command.verdict
  split_ifs <;> simp_all

theorem Command.verdict_ne_illegal : c.verdict P ≠ .illegal := by
  unfold Command.verdict
  split_ifs <;> simp

end

/-- Settles O17, condition by condition. -/
theorem checkVerdict : Obligations.CheckVerdict := by
  intro i P bad
  have hbad : (commandOf i).precondFails P = true ↔ bad := by
    simp only [Command.precondFails, Bool.or_eq_true, Bool.and_eq_true, List.any_eq_true, Params.illegal_iff,
      Command.fits_iff, Params.tooLarge_iff, Region.misplaced_iff, anyOverlap_iff, and_or_left, exists_or, or_assoc, bad]
  simp only [← hbad]
  exact ⟨Command.verdict_eq_precond, Command.verdict_eq_alloc, Command.verdict_eq_none⟩

/-! ## A command that fails its checks -/

theorem Command.checkStage_refuses {c : Command} {s : State} (h : c.verdict s.latch ≠ .none) :
    c.checkStage s = s.complete (c.verdict s.latch) := by
  unfold Command.checkStage
  split
  · next hnone => exact absurd hnone h
  · rfl

/-- A refused command is its acceptance and its completion, whatever the memory holds. -/
theorem exec_refused {i : Instr} {s : State} (hidle : s.status.busy = false) (hwaits : s.hostWaits = true)
    (hv : (commandOf i).verdict s.params ≠ .none) :
    exec i s = .next ((s.accept i).complete ((commandOf i).verdict s.params)) := by
  have hcheck : (commandOf i).transact (s.accept i) = (s.accept i).complete ((commandOf i).verdict s.params) := by
    rw [Command.transact_check _ rfl]
    exact Command.checkStage_refuses hv
  rw [exec_waits hidle hwaits, Command.budget, Command.transactions_busy _ _ rfl, hcheck, Command.transactions_idle]
  rfl

/-- Settles O18. -/
theorem refusedCommandTouchesNothing : Obligations.RefusedCommandTouchesNothing := by
  rintro i s e hidle hwaits rfl hv
  rw [exec_refused hidle hwaits hv, State.complete, State.accept_status, Status.completed, decide_eq_true hv]
  rfl

end Sys2Proof.Machine
end

section
/-! PROOFS. How a command in flight ends (`spec/60_exceptions.md` R251 to R254, R261, R263): every transaction brings it
nearer to its completion, and what it has changed and which accesses the platform has answered are known throughout.
Settles O20. -/

namespace Sys2Proof.Machine

/-! ## Answered units -/

/-- Every unit of this stage of command `i`, issued in `s`, has at some time been executed to its end: the platform has
answered all its accesses. -/
def StageAnswered (i : Instr) (s : State) (st : Stage) : Prop :=
  ∀ n, n < st.units s.params → ∃ w w', (commandOf i).unit s.cfg s.params st n w = some w'

/-! ## A command in flight and its end -/

/-- Command `i`, issued in `s`, is in flight in `u`, the stages `before` behind it and the stages `after` ahead. Its
registers are as at acceptance, it has changed nothing but what a bus error in this stage would leave unspecified, and
the platform has answered every unit of the stages behind it and every unit of this stage that is no longer pending. -/
structure Underway (i : Instr) (s : State) (before after : List Stage) (u : State) : Prop where
  route    : (commandOf i).route = before ++ u.stage :: after
  rest     : u = { s.accept i with
    stage := u.stage, pending := u.pending, mem := u.mem, workers := u.workers, sched := u.sched }
  wf       : u.mem.wf = true
  workers  : u.workers.length = s.workers.length
  kept     : memoryKept ((commandOf i).dirtied s.params u.stage) s u
  passed   : u.stage ≠ .check → (commandOf i).verdict s.params = .none
  units    : ∀ n ∈ u.pending, n < u.stage.units s.params
  behind   : ∀ st ∈ before, StageAnswered i s st
  executed : ∀ n, n < u.stage.units s.params → n ∉ u.pending →
    ∃ w w', (commandOf i).unit s.cfg s.params u.stage n w = some w'

/-- Command `i`, issued in `s`, has completed with code `e` in `t`: its checks refused it, or it went through all its
stages, or the platform refused an access in one of them. -/
structure Ended (i : Instr) (s : State) (e : ErrCode) (t : State) : Prop where
  completed : Completed i e s t
  wf        : t.mem.wf = true
  workers   : t.workers.length = s.workers.length
  kept      : memoryKept ((commandOf i).written s.params) s t
  cause     :
    ((commandOf i).verdict s.params ≠ .none ∧ e = (commandOf i).verdict s.params) ∨
    ((commandOf i).verdict s.params = .none ∧ e = .none ∧ ∀ st ∈ (commandOf i).route, StageAnswered i s st) ∨
    ((commandOf i).verdict s.params = .none ∧ e = .bus ∧ ∃ before st after,
      (commandOf i).route = before ++ st :: after ∧ (∀ st' ∈ before, StageAnswered i s st') ∧
        memoryKept ((commandOf i).dirtied s.params st) s t)

/-- How many transactions a command in flight still needs at most: its pending units, a barrier and the units for each
stage ahead, and the completion. -/
def remaining (P : Params) (after : List Stage) (u : State) : Nat :=
  u.pending.length + (after.map fun st => st.units P + 1).sum + 1

theorem memoryKept.trans {rs : List Region} {s t u : State} (h1 : memoryKept rs s t) (h2 : memoryKept rs t u) :
    memoryKept rs s u := fun a ha => (h2 a ha).trans (h1 a ha)

/-- A later stage of a route may have reached whatever an earlier one has. -/
theorem Command.dirtied_mono {i : Instr} {P : Params} {before after : List Stage} {st st' : Stage}
    (hr : (commandOf i).route = before ++ st :: st' :: after) {r : Region} (h : r ∈ (commandOf i).dirtied P st) :
    r ∈ (commandOf i).dirtied P st' := by
  have hlast : (commandOf i).stages.getLast? ≠ some st := by
    intro h
    obtain ⟨l, hl⟩ := List.getLast?_eq_some_iff.mp h
    have hroute : (commandOf i).route = (.check :: l) ++ [st] := by rw [Command.route, hl, List.cons_append]
    exact nomatch tail_unique (Command.route_nodup i) hr hroute
  unfold Command.dirtied Command.reached at h ⊢
  cases hd : (commandOf i).dstLast with
  | false => simpa [hd] using h
  | true =>
    rw [hd, decide_eq_true hlast] at h
    exact List.mem_append_right _ (by simpa using h)

section
variable {i : Instr} {s u : State} {before after : List Stage} (h : Underway i s before after u)
include h

theorem Underway.busy : u.status.busy = true := by rw [h.rest]; rfl

theorem Underway.latch : u.latch = s.params := by rw [h.rest]; rfl

theorem Underway.cfg : u.cfg = s.cfg := by rw [h.rest]; rfl

/-- In `CHECK` there is no unit, so none is pending. -/
theorem Underway.pending_check (hc : u.stage = .check) : u.pending = [] := by
  rw [List.eq_nil_iff_forall_not_mem]
  intro n hn
  have hlt := h.units n hn
  simp [hc, Stage.units] at hlt

/-- With no unit pending, the whole stage has been answered. -/
theorem Underway.answered (hp : u.pending = []) : ∀ st ∈ before ++ [u.stage], StageAnswered i s st := by
  intro st hst
  rcases List.mem_append.mp hst with hb | hc
  · exact h.behind st hb
  · obtain rfl := List.mem_singleton.mp hc
    exact fun n hn => h.executed n hn (by simp [hp])

/-- The registers after the completion, of which memory and the counter of free bytes are no part. -/
theorem Underway.completed {e : ErrCode} {t : State}
    (ht : t = { u with
      mem := t.mem, draws := t.draws, err := e, status := u.status.completed e, stage := .idle, pending := [] }) :
    Completed i e s t := by
  rw [ht, h.rest]
  constructor <;> rfl

/-! ## The five cases of a transaction -/

theorem Underway.refuse (hv : (commandOf i).verdict s.params ≠ .none) :
    Ended i s ((commandOf i).verdict s.params) (u.complete ((commandOf i).verdict s.params)) where
  completed := h.completed rfl
  wf := h.wf
  workers := h.workers
  kept := memoryKept_mono (t := u.complete _) h.kept fun _ => Command.dirtied_sub
  cause := .inl ⟨hv, rfl⟩

theorem Underway.enter {st : Stage} {rest : List Stage} (hafter : after = st :: rest)
    (hv : (commandOf i).verdict s.params = .none) (hp : u.pending = []) :
    Underway i s (before ++ [u.stage]) rest (u.enter st) ∧
      remaining s.params rest (u.enter st) < remaining s.params after u := by
  have hroute : (commandOf i).route = before ++ u.stage :: st :: rest := hafter ▸ h.route
  refine ⟨{
    route := by rw [hroute, State.enter_stage, List.append_assoc]; rfl
    rest := by
      rw [h.rest]
      rfl
    wf := h.wf
    workers := h.workers
    kept := memoryKept_mono (t := u.enter st) h.kept fun _ => Command.dirtied_mono hroute
    passed := fun _ => hv
    units := fun n hn => by simpa [h.latch] using hn
    behind := h.answered hp
    executed := fun n hn hnot => absurd (by simpa [h.latch] using hn) hnot }, ?_⟩
  rw [remaining, remaining, hafter, hp, State.enter_pending, h.latch]
  simp only [List.length_range, List.length_nil, List.map_cons, List.sum_cons]
  omega

theorem Underway.finish (hlast : after = []) (hv : (commandOf i).verdict s.params = .none) (hp : u.pending = []) :
    Ended i s .none ((commandOf i).finish u) := by
  obtain ⟨hwf, hkept, hfields⟩ := Command.finish_spec (c := commandOf i) h.wf
  rw [h.latch] at hkept
  refine ⟨h.completed ?_, hwf, by rw [hfields]; exact h.workers, ?_, .inr (.inl ⟨hv, rfl, ?_⟩)⟩
  · rw [hfields]
  · exact memoryKept.trans (memoryKept_mono h.kept fun _ => Command.dirtied_sub)
      (memoryKept_mono hkept fun _ => List.mem_append_right _)
  · rw [h.route, hlast]
    exact h.answered hp

theorem Underway.busError (hc : u.stage ≠ .check) : Ended i s .bus ((commandOf i).busError u) := by
  obtain ⟨hwf, hkept, hfields⟩ := Command.busError_spec (c := commandOf i) h.wf
  rw [h.latch] at hkept
  have hall := h.kept.trans hkept
  refine ⟨h.completed ?_, hwf, by rw [hfields]; exact h.workers, memoryKept_mono hall fun _ => Command.dirtied_sub,
    .inr (.inr ⟨h.passed hc, rfl, before, u.stage, after, h.route, h.behind, hall⟩)⟩
  rw [hfields]

/-- A unit that ends is answered, and no longer pending. -/
theorem Underway.work {w : State} {x : Work} (hx : (commandOf i).nextUnit u = some x)
    (hperm : (u.pending.getD u.pick 0 :: w.pending).Perm u.pending)
    (hw : w = { u with pending := w.pending, mem := x.mem, workers := w.workers, sched := w.sched })
    (hwf : w.mem.wf = true) (hkept : memoryKept ((commandOf i).dirtied u.latch u.stage) u w)
    (hlen : w.workers.length = u.workers.length) :
    Underway i s before after w ∧ remaining s.params after w < remaining s.params after u := by
  have hstage : w.stage = u.stage := by rw [hw]
  rw [h.latch] at hkept
  rw [Command.nextUnit, h.latch, h.cfg] at hx
  refine ⟨{
    route := hstage ▸ h.route
    rest := by rw [hw, h.rest]
    wf := hwf
    workers := hlen.trans h.workers
    kept := hstage ▸ h.kept.trans hkept
    passed := hstage ▸ h.passed
    units := fun n hn => hstage ▸ h.units n (hperm.subset (List.mem_cons_of_mem _ hn))
    behind := h.behind
    executed := fun n hn hnot => ?_ }, ?_⟩
  · rw [hstage] at hn ⊢
    by_cases hmem : n ∈ u.pending
    · obtain rfl | hin := List.mem_cons.mp (hperm.symm.subset hmem)
      · exact ⟨_, x, hx⟩
      · exact absurd hin hnot
    · exact h.executed n hn hmem
  · have hcount := hperm.length_eq
    rw [List.length_cons] at hcount
    rw [remaining, remaining]
    omega

/-- One transaction ends the command or brings it nearer to its end. -/
theorem Underway.transact :
    (∃ e, Ended i s e ((commandOf i).transact u)) ∨
    ∃ before' after', Underway i s before' after' ((commandOf i).transact u) ∧
      remaining s.params after' ((commandOf i).transact u) < remaining s.params after u := by
  have hlatch := h.latch
  rcases Command.transact_cases (i := i) h.wf (by simp [h.route]) (by rw [hlatch]; exact h.passed)
      (by rw [hlatch]; exact h.units) with
    ⟨-, hv, ht⟩ | ⟨hv, hp, b, st, a, hr, ht⟩ | ⟨hc, hp, ⟨b, hr⟩, ht⟩ |
    ⟨-, -, w, x, hx, hperm, hw, hwf, hkept, hlen, ht⟩ | ⟨hc, -, -, ht⟩ <;> rw [ht]
  · rw [hlatch] at hv ⊢
    exact .inl ⟨_, h.refuse hv⟩
  · rw [hlatch] at hv
    have hafter := tail_unique (Command.route_nodup i) h.route hr
    exact .inr ⟨_, _, h.enter hafter hv (hp.elim h.pending_check id)⟩
  · have hlast := tail_unique (Command.route_nodup i) h.route hr
    exact .inl ⟨_, h.finish hlast (h.passed hc) hp⟩
  · exact .inr ⟨_, _, h.work hx hperm hw hwf hkept hlen⟩
  · exact .inl ⟨_, h.busError hc⟩

end

/-! ## Completion -/

/-- As many transactions as a command still needs end it. -/
theorem Underway.ends {i : Instr} {s : State} (n : Nat) : ∀ {before after : List Stage} {u : State},
    Underway i s before after u → remaining s.params after u ≤ n →
    ∃ e, Ended i s e ((commandOf i).transactions n u) := by
  induction n with
  | zero => exact fun _ hn => absurd hn (by simp [remaining])
  | succ n ih =>
    intro before after u h hn
    rw [Command.transactions_busy _ _ h.busy]
    rcases h.transact with ⟨e, he⟩ | ⟨before', after', h', hlt⟩
    · exact ⟨e, by rwa [Command.transactions_idle _ _ he.completed.busy]⟩
    · exact ih h' (by omega)

/-- A command that has just been accepted is in stage `CHECK`, with all its stages ahead. -/
theorem Underway.accepted {i : Instr} {s : State} (hwf : s.mem.wf = true) :
    Underway i s [] (commandOf i).stages (s.accept i) where
  route := rfl
  rest := rfl
  wf := hwf
  workers := rfl
  kept := fun _ _ => rfl
  passed := fun hc => absurd rfl hc
  units := nofun
  behind := nofun
  executed := fun _ hn => absurd hn (Nat.not_lt_zero _)

/-- Every command issued to an idle core that the host waits for ends in the step (`60_exceptions.md` R263). -/
theorem exec_ends {i : Instr} {s : State} (hidle : s.status.busy = false) (hwaits : s.hostWaits = true)
    (hwf : s.mem.wf = true) : ∃ t e, exec i s = .next t ∧ Ended i s e t := by
  obtain ⟨e, he⟩ := (Underway.accepted (i := i) hwf).ends ((commandOf i).budget (s.accept i))
    (Nat.le_succ_of_le le_rfl)
  exact ⟨_, e, exec_waits hidle hwaits, he⟩

theorem Completed.irq {i : Instr} {e : ErrCode} {s t : State} (h : Completed i e s t) : t.irq = s.ie := by
  rw [State.irq, h.ie, h.done, Bool.and_true]

/-- Settles O20: the codes are those of the checks, of a completion without an error, and of a bus error. -/
theorem everyCommandCompletes : Obligations.EveryCommandCompletes := by
  intro i s hidle hwaits hwf
  obtain ⟨t, e, hexec, h⟩ := exec_ends (i := i) hidle hwaits hwf
  refine ⟨t, e, hexec, h.completed, h.completed.irq, h.workers, h.wf, h.kept, ?_⟩
  rcases h.cause with ⟨hv, rfl⟩ | ⟨hv, rfl, -⟩ | ⟨hv, rfl, -⟩
  · exact ⟨id, Command.verdict_ne_illegal⟩
  · exact ⟨fun _ => hv, nofun⟩
  · exact ⟨nofun, nofun⟩

end Sys2Proof.Machine
end

section
/-! PROOFS. Which unit of work accesses a byte (`spec/20_memory.md` R51 to R60, `spec/30_encoding.md` R86): every byte a
command accesses is one that a unit of one of its stages needs, so a command none of whose units is refused has had all of
them answered. Settles O19. -/

namespace Sys2Proof.Machine

/-! ## Bytes and coordinates -/

/-- Every byte of a tensor of `n` halves belongs to an element. -/
theorem exists_elem {base n a : Nat} (h1 : base ≤ a) (h2 : a < base + n * 2) : ∃ e, e < n ∧ elemBytes base e a :=
  ⟨(a - base) / 2, by omega, by omega, by omega⟩

/-- Every byte of a feature map belongs to a pixel's lane vector. -/
theorem exists_pixel {base w h n a : Nat} (h1 : base ≤ a) (h2 : a < base + n * h * w * 8 * 2) :
    ∃ g y x, g < n ∧ y < h ∧ x < w ∧ laneBytes base (fmIndex w h g y x 0) a := by
  obtain ⟨e, he, helem⟩ := exists_elem h1 h2
  obtain ⟨g, y, x, l, hg, hy, hx, hl, rfl⟩ := exists_fmIndex he
  obtain ⟨k1, k2⟩ := helem
  rw [← fmIndex_lane] at k1 k2
  exact ⟨g, y, x, hg, hy, hx, by omega, by omega⟩

theorem exists_plane {base w h n a : Nat} (h1 : base ≤ a) (h2 : a < base + n * h * w * 8 * 2) :
    ∃ g, g < n ∧ planeBytes base w h g a := by
  obtain ⟨g, y, x, hg, hy, hx, hlane⟩ := exists_pixel h1 h2
  exact ⟨g, hg, y, hy, x, hx, hlane⟩

/-- Every byte of a spectrum belongs to an element. -/
theorem exists_coefficient {base T n a : Nat} (h1 : base ≤ a) (h2 : a < base + n * 64 * T * 8 * 2) :
    ∃ p k tile i, p < n ∧ k < 64 ∧ tile < T ∧ i < 8 ∧ elemBytes base (tiIndex T p k tile i) a := by
  obtain ⟨e, he, helem⟩ := exists_elem h1 h2
  obtain ⟨p, k, tile, i, hp, hk, ht, hi, rfl⟩ := exists_tiIndex he
  exact ⟨p, k, tile, i, hp, hk, ht, hi, helem⟩

/-- Every byte of a TransformedFilter belongs to an element. -/
theorem exists_weight {base inCh n a : Nat} (h1 : base ≤ a) (h2 : a < base + n * 64 * (inCh / 8) * 8 * 8 * 2) :
    ∃ q k p i j, q < n ∧ k < 64 ∧ p < inCh / 8 ∧ i < 8 ∧ j < 8 ∧ elemBytes base (tfIndex inCh q k p i j) a := by
  obtain ⟨e, he, helem⟩ := exists_elem h1 h2
  obtain ⟨q, k, p, i, j, hq, hk, hp, hi, hj, rfl⟩ := exists_tfIndex he
  exact ⟨q, k, p, i, j, hq, hk, hp, hi, hj, helem⟩

/-- Every byte of a raw filter belongs to a tap. -/
theorem exists_tap {base inCh n a : Nat} (h1 : base ≤ a) (h2 : a < base + n * inCh * 3 * 3 * 4) :
    ∃ o i r cc, o < n ∧ i < inCh ∧ r < 3 ∧ cc < 3 ∧
      base + 4 * rfIndex inCh o i r cc ≤ a ∧ a < base + 4 * rfIndex inCh o i r cc + 4 := by
  obtain ⟨o, i, r, cc, ho, hi, hr, hc, he⟩ := exists_rfIndex (e := (a - base) / 4) (n := n) (inCh := inCh) (by omega)
  exact ⟨o, i, r, cc, ho, hi, hr, hc, by omega, by omega⟩

/-- Every row of the padded map is in the window of a tile (`40_numerics.md` R122). -/
theorem exists_window_row {P : Params} (h : 1 ≤ P.outH) {y : Nat} (hy : y < P.padH) :
    ∃ ty, ty < P.tilesY ∧ ∃ y', y' < 8 ∧ 6 * ty + y' = y := by
  have hpos := Params.outHp_pos h
  have hmul := P.tilesY_mul
  rw [Params.padH] at hy
  exact ⟨min (y / 6) (P.tilesY - 1), by omega, y - 6 * min (y / 6) (P.tilesY - 1), by omega, by omega⟩

theorem exists_window_col {P : Params} (h : 1 ≤ P.outW) {x : Nat} (hx : x < P.padW) :
    ∃ tx, tx < P.tilesX ∧ ∃ x', x' < 8 ∧ 6 * tx + x' = x := by
  have hpos := Params.outWp_pos h
  have hmul := P.tilesX_mul
  rw [Params.padW] at hx
  exact ⟨min (x / 6) (P.tilesX - 1), by omega, x - 6 * min (x / 6) (P.tilesX - 1), by omega, by omega⟩

/-- Every tile is one of a block, at a position in it. -/
theorem exists_block_tile {T tile : Nat} (h : tile < T) :
    ∃ b, b < nblk T ∧ ∃ tt, tt < (blockAt T b).2 ∧ (blockAt T b).1 + tt = tile := by
  obtain ⟨b, hb, hfirst, hlast⟩ := block_cover h
  exact ⟨b, hb, tile - (blockAt T b).1, by omega, by omega⟩

theorem exists_tile_position {P : Params} {tile : Nat} (h : tile < P.tiles) :
    ∃ ty, ty < P.tilesY ∧ ∃ tx, tx < P.tilesX ∧ ty * P.tilesX + tx = tile := by
  rw [Params.tiles, Nat.mul_comm] at h
  obtain ⟨ty, tx, hty, htx, he⟩ := exists_digits h
  exact ⟨ty, hty, tx, htx, he⟩

/-! ## The unit that needs a byte -/

/-- One of the first `n` units of a stage cannot end unless the platform backs the byte `a`. -/
def SomeUnitNeeds (cfg : Config) (n : Nat) (unit : Nat → Work → Option Work) (a : Nat) : Prop :=
  ∃ k, k < n ∧ Needs cfg (fun b => b = a) (unit k)

theorem Needs.single {cfg : Config} {A : Nat → Prop} {f : Work → Option Work} {a : Nat} (h : Needs cfg A f)
    (ha : A a) : Needs cfg (fun b => b = a) f := h.mono fun _ hb => hb ▸ ha

section
variable {cfg : Config} {P : Params} {src dst a : Nat}

theorem pad_needs_source (hi8 : P.inCh % 8 = 0) (hw : P.inW ≤ P.padW) (hh : P.inH ≤ P.padH) (h1 : src ≤ a)
    (h2 : a < src + P.inB) : SomeUnitNeeds cfg P.inGroups (padUnit cfg P src dst) a := by
  rw [Params.inB_eq hi8] at h2
  obtain ⟨g, hg, hplane⟩ := exists_plane h1 h2
  exact ⟨g, hg, (padUnit_needs hw hh).single (.inl hplane)⟩

theorem pad_needs_dest (hi8 : P.inCh % 8 = 0) (hw : P.inW ≤ P.padW) (hh : P.inH ≤ P.padH) (h1 : dst ≤ a)
    (h2 : a < dst + P.padB) : SomeUnitNeeds cfg P.inGroups (padUnit cfg P src dst) a := by
  rw [Params.padB_eq hi8] at h2
  obtain ⟨g, hg, hplane⟩ := exists_plane h1 h2
  exact ⟨g, hg, (padUnit_needs hw hh).single (.inr hplane)⟩

theorem xin_needs_source (hi8 : P.inCh % 8 = 0) (hw : 1 ≤ P.outW) (hh : 1 ≤ P.outH) (h1 : src ≤ a)
    (h2 : a < src + P.padB) : SomeUnitNeeds cfg P.inGroups (xinUnit cfg P src dst) a := by
  rw [Params.padB_eq hi8] at h2
  obtain ⟨p, y, x, hp, hy, hx, hlane⟩ := exists_pixel h1 h2
  obtain ⟨ty, hty, y', hy', rfl⟩ := exists_window_row hh hy
  obtain ⟨tx, htx, x', hx', rfl⟩ := exists_window_col hw hx
  exact ⟨p, hp, xinUnit_needs.single ⟨ty, hty, tx, htx, .inl ⟨y', hy', x', hx', hlane⟩⟩⟩

theorem xin_needs_dest (hi8 : P.inCh % 8 = 0) (h1 : dst ≤ a) (h2 : a < dst + P.tiB) :
    SomeUnitNeeds cfg P.inGroups (xinUnit cfg P src dst) a := by
  rw [Params.tiB_eq hi8] at h2
  obtain ⟨p, k, tile, i, hp, hk, ht, hi, helem⟩ := exists_coefficient h1 h2
  obtain ⟨ty, hty, tx, htx, hgroup⟩ := groupBytes_of_elem hk ht hi helem
  exact ⟨p, hp, xinUnit_needs.single ⟨ty, hty, tx, htx, .inr hgroup⟩⟩

theorem repack_needs_source {scr2 : Nat} (hi8 : P.inCh % 8 = 0) (h1 : src ≤ a) (h2 : a < src + P.tiB) :
    SomeUnitNeeds cfg 64 (repackUnit cfg P src scr2) a := by
  rw [Params.tiB_eq hi8] at h2
  obtain ⟨p, k, tile, i, hp, hk, ht, hi, helem⟩ := exists_coefficient h1 h2
  obtain ⟨b, hb, tt, htt, rfl⟩ := exists_block_tile ht
  exact ⟨k, hk, repackUnit_needs.single ⟨b, hb, p, hp, i, hi, tt, htt, .inl helem⟩⟩

theorem repack_needs_scratch {scr2 : Nat} (h : P.interleavedByte scr2 a) :
    SomeUnitNeeds cfg 64 (repackUnit cfg P src scr2) a := by
  obtain ⟨k, b, p, i, tt, hk, hb, hp, hi, htt, helem⟩ := h
  exact ⟨k, hk, repackUnit_needs.single ⟨b, hb, p, hp, i, hi, tt, htt, .inr helem⟩⟩

theorem gemm_needs_filter {filt scr2 : Nat} (hi8 : P.inCh % 8 = 0) (ho8 : P.outCh % 8 = 0) (hT : 0 < P.tiles)
    (h1 : filt ≤ a) (h2 : a < filt + P.tfB) :
    SomeUnitNeeds cfg (64 * P.outGroups) (gemmUnit cfg P filt scr2 dst) a := by
  rw [Params.tfB_eq hi8 ho8] at h2
  obtain ⟨q, k, p, i, j, hq, hk, hp, hi, hj, k1, k2⟩ := exists_weight h1 h2
  rw [← tfIndex_lane] at k1 k2
  refine ⟨k * P.outGroups + q, digits_lt hk hq, gemmUnit_needs.single ⟨0, nblk_pos hT, .inl ⟨p, hp, i, hi, ?_⟩⟩⟩
  rw [digit_low hq, digit_high hq]
  exact ⟨by omega, by omega⟩

theorem gemm_needs_dest {filt scr2 : Nat} (ho8 : P.outCh % 8 = 0) (h1 : dst ≤ a) (h2 : a < dst + P.toB) :
    SomeUnitNeeds cfg (64 * P.outGroups) (gemmUnit cfg P filt scr2 dst) a := by
  rw [Params.toB_eq ho8] at h2
  obtain ⟨q, k, tile, j, hq, hk, ht, hj, k1, k2⟩ := exists_coefficient h1 h2
  obtain ⟨b, hb, tt, htt, rfl⟩ := exists_block_tile ht
  rw [← tiIndex_lane] at k1 k2
  refine ⟨k * P.outGroups + q, digits_lt hk hq, gemmUnit_needs.single ⟨b, hb, .inr ⟨tt, htt, ?_⟩⟩⟩
  rw [digit_low hq, digit_high hq, toIndex, ← tiIndex]
  exact ⟨by omega, by omega⟩

theorem xout_needs_bias {bias : Nat} (ho8 : P.outCh % 8 = 0) (h1 : bias ≤ a) (h2 : a < bias + P.biasB) :
    SomeUnitNeeds cfg P.outGroups (xoutUnit cfg P true bias src dst) a := by
  rw [Params.biasB_eq ho8] at h2
  exact ⟨(a - bias) / 16, by omega, xoutUnit_needs.single (.inl ⟨rfl, by omega, by omega⟩)⟩

theorem xout_needs_source {withBias : Bool} {bias : Nat} (ho8 : P.outCh % 8 = 0) (h1 : src ≤ a)
    (h2 : a < src + P.toB) : SomeUnitNeeds cfg P.outGroups (xoutUnit cfg P withBias bias src dst) a := by
  rw [Params.toB_eq ho8] at h2
  obtain ⟨q, k, tile, j, hq, hk, ht, hj, helem⟩ := exists_coefficient h1 h2
  obtain ⟨ty, hty, tx, htx, hgroup⟩ := groupBytes_of_elem hk ht hj helem
  exact ⟨q, hq, xoutUnit_needs.single (.inr ⟨ty, hty, tx, htx, .inl hgroup⟩)⟩

theorem xout_needs_dest {withBias : Bool} {bias : Nat} (ho8 : P.outCh % 8 = 0) (h1 : dst ≤ a)
    (h2 : a < dst + P.opB) : SomeUnitNeeds cfg P.outGroups (xoutUnit cfg P withBias bias src dst) a := by
  rw [Params.opB_eq ho8] at h2
  obtain ⟨q, hq, hplane⟩ := exists_plane h1 h2
  obtain ⟨ty, hty, tx, htx, htile⟩ := planeBytes_iff_tiles.mp hplane
  exact ⟨q, hq, xoutUnit_needs.single (.inr ⟨ty, hty, tx, htx, .inr htile⟩)⟩

theorem crop_needs_source (h : P.croppedByte src a) : SomeUnitNeeds cfg P.outGroups (cropUnit cfg P src dst) a := by
  obtain ⟨g, y, x, hg, hy, hx, hlane⟩ := h
  exact ⟨g, hg, cropUnit_needs.single ⟨y, hy, x, hx, .inl hlane⟩⟩

theorem crop_needs_dest (ho8 : P.outCh % 8 = 0) (h1 : dst ≤ a) (h2 : a < dst + P.outB) :
    SomeUnitNeeds cfg P.outGroups (cropUnit cfg P src dst) a := by
  rw [Params.outB_eq ho8] at h2
  obtain ⟨g, y, x, hg, hy, hx, hlane⟩ := exists_pixel h1 h2
  exact ⟨g, hg, cropUnit_needs.single ⟨y, hy, x, hx, .inr hlane⟩⟩

theorem tfilt_needs_source (h1 : src ≤ a) (h2 : a < src + P.rfB) :
    SomeUnitNeeds cfg P.outCh (tfiltUnit cfg P src dst) a := by
  rw [Params.rfB_eq] at h2
  obtain ⟨o, c, r, cc, ho, hc, hr, hcc, htap⟩ := exists_tap h1 h2
  exact ⟨o, ho, tfiltUnit_needs.single ⟨c, hc, .inl ⟨r, hr, cc, hcc, htap⟩⟩⟩

theorem tfilt_needs_dest (hi8 : P.inCh % 8 = 0) (ho8 : P.outCh % 8 = 0) (h1 : dst ≤ a) (h2 : a < dst + P.tfB) :
    SomeUnitNeeds cfg P.outCh (tfiltUnit cfg P src dst) a := by
  rw [Params.tfB_eq hi8 ho8] at h2
  obtain ⟨q, k, p, i, j, hq, hk, hp, hi, hj, helem⟩ := exists_weight h1 h2
  obtain ⟨c, hc, hcoefs⟩ := channelBytes_of_elem hk hp hi hj helem
  exact ⟨8 * q + j, by rw [Params.outGroups] at hq; omega, tfiltUnit_needs.single ⟨c, hc, .inr hcoefs⟩⟩

end

/-! ## The stage that needs a byte -/

/-- A unit of stage `st` of command `i` cannot end unless the platform backs the byte `a`. -/
def StageNeeds (i : Instr) (cfg : Config) (P : Params) (st : Stage) (a : Nat) : Prop :=
  SomeUnitNeeds cfg (st.units P) ((commandOf i).unit cfg P st) a

/-- What a stage needs is backed once all its units have been answered. -/
theorem StageAnswered.backs {i : Instr} {s : State} {st : Stage} {a : Nat} (h : StageAnswered i s st)
    (hneeds : StageNeeds i s.cfg s.params st a) : backs s.cfg a 1 = true := by
  obtain ⟨n, hn, hneeds⟩ := hneeds
  obtain ⟨w, w', hend⟩ := h n hn
  exact hneeds w w' hend a rfl

theorem Command.tensorByte_iff {c : Command} {P : Params} {a : Nat} :
    c.tensorByte P a ↔ ∃ r ∈ c.regions P, r.role ≠ .scratch ∧ r.base ≤ a ∧ a < r.base + r.size := by
  simp only [Command.tensorByte, Region.holds_iff]

/-- A byte of a tensor of the pipeline is one of its source, destination, filter or bias (`30_encoding.md` R86). -/
theorem convolveOf_tensorByte {withBias : Bool} {P : Params} {a : Nat}
    (h : (commandOf (convolveOf withBias)).tensorByte P a) :
    (P.srcBase.toNat ≤ a ∧ a < P.srcBase.toNat + P.inB) ∨ (P.dstBase.toNat ≤ a ∧ a < P.dstBase.toNat + P.outB) ∨
    (P.filtBase.toNat ≤ a ∧ a < P.filtBase.toNat + P.tfB) ∨
    (withBias = true ∧ P.biasBase.toNat ≤ a ∧ a < P.biasBase.toNat + P.biasB) := by
  obtain ⟨r, hr, hrole, hin⟩ := Command.tensorByte_iff.mp h
  cases withBias with
  | false =>
    simp only [convolveOf, commandOf, convolveCommand, Bool.false_eq_true, if_false, List.mem_cons, List.not_mem_nil,
      or_false] at hr
    rcases hr with rfl | rfl | rfl | rfl
    · exact .inl hin
    · exact .inr (.inl hin)
    · exact .inr (.inr (.inl hin))
    · exact absurd rfl hrole
  | true =>
    simp only [convolveOf, commandOf, convolveBCommand, if_true, List.mem_cons, List.not_mem_nil, or_false] at hr
    rcases hr with rfl | rfl | rfl | rfl | rfl
    · exact .inl hin
    · exact .inr (.inl hin)
    · exact .inr (.inr (.inl hin))
    · exact .inr (.inr (.inr ⟨rfl, hin⟩))
    · exact absurd rfl hrole

/-- The scratch the pipeline accesses, buffer by buffer (`46_convolve.md` R237). -/
theorem pipelineByte_cases {P : Params} {a : Nat} (h : P.pipelineByte a) :
    (P.s0 ≤ a ∧ a < P.s0 + P.padB) ∨ (P.s1 ≤ a ∧ a < P.s1 + P.tiB) ∨ P.interleavedByte P.s2 a ∨
    (P.s3 ≤ a ∧ a < P.s3 + P.toB) ∨ (P.s4 ≤ a ∧ a < P.s4 + P.opB) := by
  rcases h with h | h | h
  · simp only [Params.s2, Params.s1] at h ⊢
    omega
  · exact .inr (.inr (.inl h))
  · simp only [Params.s4, Params.s3, Params.s2, Params.s1, Params.convolveNeed] at h ⊢
    omega

/-- `CROP` is the pipeline's last stage. -/
theorem convolveOf_route_crop (withBias : Bool) :
    (commandOf (convolveOf withBias)).route = [.check, .pad, .xin, .repack, .gemm, .xout] ++ [.crop] :=
  convolveOf_route withBias

/-- A byte the pipeline accesses is needed by a stage before `CROP`, or it is in the destination, which `CROP` writes
(`46_convolve.md` R235). -/
theorem pipeline_needs {withBias : Bool} {cfg : Config} {P : Params} {a : Nat}
    (hv : (commandOf (convolveOf withBias)).verdict P = .none) (ha : accessed (convolveOf withBias) P a) :
    (∃ st ∈ [Stage.check, .pad, .xin, .repack, .gemm, .xout], StageNeeds (convolveOf withBias) cfg P st a) ∨
    (P.dstBase.toNat ≤ a ∧ a < P.dstBase.toNat + P.outB) ∧ StageNeeds (convolveOf withBias) cfg P .crop a := by
  have hc := Command.checked hv
  obtain ⟨hi8, -⟩ := hc.inCh (by cases withBias <;> decide)
  obtain ⟨ho8, -⟩ := hc.outCh (by cases withBias <;> decide)
  have hw := hc.outW (by cases withBias <;> decide)
  have hh := hc.outH (by cases withBias <;> decide)
  obtain ⟨hfw, hfh⟩ := hc.fits (by cases withBias <;> rfl)
  have ha : (commandOf (convolveOf withBias)).tensorByte P a ∨ P.pipelineByte a := by cases withBias <;> exact ha
  simp only [StageNeeds, convolveOf_unit]
  rcases ha with ha | ha
  · rcases convolveOf_tensorByte ha with ⟨h1, h2⟩ | ⟨h1, h2⟩ | ⟨h1, h2⟩ | ⟨rfl, h1, h2⟩
    · exact .inl ⟨.pad, by decide, pad_needs_source hi8 hfw hfh h1 h2⟩
    · exact .inr ⟨⟨h1, h2⟩, crop_needs_dest ho8 h1 h2⟩
    · exact .inl ⟨.gemm, by decide, gemm_needs_filter hi8 ho8 (Params.tiles_pos hw hh) h1 h2⟩
    · exact .inl ⟨.xout, by decide, xout_needs_bias ho8 h1 h2⟩
  · rcases pipelineByte_cases ha with ⟨h1, h2⟩ | ⟨h1, h2⟩ | ha | ⟨h1, h2⟩ | ⟨h1, h2⟩
    · exact .inl ⟨.pad, by decide, pad_needs_dest hi8 hfw hfh h1 h2⟩
    · exact .inl ⟨.xin, by decide, xin_needs_dest hi8 h1 h2⟩
    · exact .inl ⟨.repack, by decide, repack_needs_scratch ha⟩
    · exact .inl ⟨.gemm, by decide, gemm_needs_dest ho8 h1 h2⟩
    · exact .inl ⟨.xout, by decide, xout_needs_dest ho8 h1 h2⟩

/-- A byte a pipeline accesses is needed by one of its stages. -/
theorem pipeline_needs_route {withBias : Bool} {cfg : Config} {P : Params} {a : Nat}
    (hv : (commandOf (convolveOf withBias)).verdict P = .none) (ha : accessed (convolveOf withBias) P a) :
    ∃ st ∈ (commandOf (convolveOf withBias)).route, StageNeeds (convolveOf withBias) cfg P st a := by
  rw [convolveOf_route_crop]
  rcases pipeline_needs hv ha with ⟨st, hst, h⟩ | ⟨-, h⟩
  · exact ⟨st, List.mem_append_left _ hst, h⟩
  · exact ⟨.crop, List.mem_append_right _ (List.mem_singleton_self _), h⟩

/-- A byte a command accesses is needed by one of its stages. -/
theorem accessed_needs {i : Instr} {cfg : Config} {P : Params} {a : Nat} (hv : (commandOf i).verdict P = .none)
    (ha : accessed i P a) : ∃ st ∈ (commandOf i).route, StageNeeds i cfg P st a := by
  have hc := Command.checked hv
  have hin : ParamReg.inChannels ∈ (commandOf i).uses → P.inCh % 8 = 0 := fun h => (hc.inCh h).1
  have hout : ParamReg.outChannels ∈ (commandOf i).uses → P.outCh % 8 = 0 := fun h => (hc.outCh h).1
  cases i with
  | tfilt =>
    obtain ⟨r, hr, -, h1, h2⟩ := Command.tensorByte_iff.mp ha
    simp only [tfiltCommand, List.mem_cons, List.not_mem_nil, or_false] at hr
    rcases hr with rfl | rfl
    · exact ⟨.tfilt, by decide, tfilt_needs_source h1 h2⟩
    · exact ⟨.tfilt, by decide, tfilt_needs_dest (hin (by decide)) (hout (by decide)) h1 h2⟩
  | pad =>
    obtain ⟨r, hr, -, h1, h2⟩ := Command.tensorByte_iff.mp ha
    obtain ⟨hfw, hfh⟩ := hc.fits rfl
    simp only [padCommand, List.mem_cons, List.not_mem_nil, or_false] at hr
    rcases hr with rfl | rfl
    · exact ⟨.pad, by decide, pad_needs_source (hin (by decide)) hfw hfh h1 h2⟩
    · exact ⟨.pad, by decide, pad_needs_dest (hin (by decide)) hfw hfh h1 h2⟩
  | xin =>
    obtain ⟨r, hr, -, h1, h2⟩ := Command.tensorByte_iff.mp ha
    simp only [xinCommand, List.mem_cons, List.not_mem_nil, or_false] at hr
    rcases hr with rfl | rfl
    · exact ⟨.xin, by decide,
        xin_needs_source (hin (by decide)) (hc.outW (by decide)) (hc.outH (by decide)) h1 h2⟩
    · exact ⟨.xin, by decide, xin_needs_dest (hin (by decide)) h1 h2⟩
  | contract =>
    rcases ha with ha | ha
    · obtain ⟨r, hr, hrole, h1, h2⟩ := Command.tensorByte_iff.mp ha
      simp only [contractCommand, List.mem_cons, List.not_mem_nil, or_false] at hr
      rcases hr with rfl | rfl | rfl | rfl
      · exact ⟨.repack, by decide, repack_needs_source (hin (by decide)) h1 h2⟩
      · exact ⟨.gemm, by decide, gemm_needs_dest (hout (by decide)) h1 h2⟩
      · exact ⟨.gemm, by decide, gemm_needs_filter (hin (by decide)) (hout (by decide))
          (Params.tiles_pos (hc.outW (by decide)) (hc.outH (by decide))) h1 h2⟩
      · exact absurd rfl hrole
    · exact ⟨.repack, by decide, repack_needs_scratch ha⟩
  | xout =>
    obtain ⟨r, hr, -, h1, h2⟩ := Command.tensorByte_iff.mp ha
    simp only [xoutCommand, List.mem_cons, List.not_mem_nil, or_false] at hr
    rcases hr with rfl | rfl
    · exact ⟨.xout, by decide, xout_needs_source (hout (by decide)) h1 h2⟩
    · exact ⟨.xout, by decide, xout_needs_dest (hout (by decide)) h1 h2⟩
  | xoutB =>
    obtain ⟨r, hr, -, h1, h2⟩ := Command.tensorByte_iff.mp ha
    simp only [xoutBCommand, List.mem_cons, List.not_mem_nil, or_false] at hr
    rcases hr with rfl | rfl | rfl
    · exact ⟨.xout, by decide, xout_needs_source (hout (by decide)) h1 h2⟩
    · exact ⟨.xout, by decide, xout_needs_dest (hout (by decide)) h1 h2⟩
    · exact ⟨.xout, by decide, xout_needs_bias (hout (by decide)) h1 h2⟩
  | crop =>
    rcases ha with ha | ⟨h1, h2⟩
    · exact ⟨.crop, by decide, crop_needs_source ha⟩
    · exact ⟨.crop, by decide, crop_needs_dest (hout (by decide)) h1 h2⟩
  | convolve => exact pipeline_needs_route (withBias := false) hv ha
  | convolveB => exact pipeline_needs_route (withBias := true) hv ha

/-! ## The bus error -/

/-- In the pipeline, a refused byte outside the destination is met before `CROP`: all that the stages behind `CROP` need
has been backed. -/
theorem pipeline_refused_early {withBias : Bool} {s : State} {a : Nat} {before after : List Stage} {st : Stage}
    (hv : (commandOf (convolveOf withBias)).verdict s.params = .none)
    (ha : accessed (convolveOf withBias) s.params a) (hrefused : backs s.cfg a 1 = false)
    (hdest : ∀ r ∈ (commandOf (convolveOf withBias)).destination s.params, r.holds a = false)
    (hroute : (commandOf (convolveOf withBias)).route = before ++ st :: after)
    (hbehind : ∀ st' ∈ before, StageAnswered (convolveOf withBias) s st') : st ≠ .crop := by
  rintro rfl
  rcases pipeline_needs hv ha with ⟨st, hst, hneeds⟩ | ⟨hin, -⟩
  · rw [convolveOf_route_crop] at hroute
    obtain ⟨rfl, -⟩ := (List.append_cons_inj_of_notMem (by decide) (by decide)).mp hroute
    exact absurd ((hbehind st hst).backs hneeds) (by simp [hrefused])
  · have := hdest ⟨.dest, s.params.dstBase.toNat, s.params.outB⟩ (by cases withBias <;> exact List.mem_cons_self)
    exact Region.holds_false.mp this hin

/-- Settles O19: were the refused byte's command to go through all its stages, the byte would be backed. -/
theorem busErrorReported : Obligations.BusErrorReported := by
  intro i s a hidle hwaits hwf hv ha hrefused
  obtain ⟨t, e, hexec, h⟩ := exec_ends (i := i) hidle hwaits hwf
  rcases h.cause with ⟨hfail, -⟩ | ⟨-, -, hall⟩ | ⟨-, rfl, before, st, after, hroute, hbehind, hkept⟩
  · exact absurd hv hfail
  · obtain ⟨st, hst, hneeds⟩ := accessed_needs (cfg := s.cfg) hv ha
    exact absurd ((hall st hst).backs hneeds) (by simp [hrefused])
  · refine ⟨t, hexec, h.completed, h.kept, fun hi hdest => memoryKept_mono hkept fun r => ?_⟩
    refine Command.dirtied_sub_scratch hi ?_
    rcases hi with rfl | rfl
    · exact pipeline_refused_early (withBias := false) hv ha hrefused hdest hroute hbehind
    · exact pipeline_refused_early (withBias := true) hv ha hrefused hdest hroute hbehind

end Sys2Proof.Machine
end

section
/-! PROOFS. Independence of the schedule (`spec/60_exceptions.md` R261, R262): the destination of a ready command is a
function of its operands and memory, `Params.result`, in which neither the workers nor the schedule nor `NWORK` occur.
Settles O22. -/

namespace Sys2Proof.Machine

/-! ## From coordinates to bytes -/

/-- Where the halves of a tensor are those of `g`, its bytes are. -/
theorem Memory.read_of_halves {m : Memory} {base n a : Nat} {g : Nat → Half} (h : ∀ e, e < n → m.half base e = g e)
    (h1 : base ≤ a) (h2 : a < base + n * 2) : m.read a = image base g a := by
  obtain ⟨d, rfl⟩ := Nat.exists_eq_add_of_le h1
  rw [m.read_eq_image, image, image, Nat.add_sub_cancel_left, h (d / 2) (by omega)]

section
variable {m : Memory} {base n a : Nat}

theorem Memory.read_of_map {w h : Nat} {F : FeatureMap}
    (hmap : ∀ g, g < n → ∀ y, y < h → ∀ x, x < w → ∀ l, l < 8 → m.half base (fmIndex w h g y x l) = F g y x l)
    (h1 : base ≤ a) (h2 : a < base + n * h * w * 8 * 2) : m.read a = image base (fmValue w h F) a := by
  refine Memory.read_of_halves (fun e he => ?_) h1 h2
  obtain ⟨g, y, x, l, hg, hy, hx, hl, rfl⟩ := exists_fmIndex he
  rw [hmap g hg y hy x hx l hl, fmValue_fmIndex hy hx hl]

theorem Memory.read_of_spectrum {T : Nat} {V : Spectrum}
    (hmap : ∀ p, p < n → ∀ k, k < 64 → ∀ tile, tile < T → ∀ i, i < 8 →
      m.half base (tiIndex T p k tile i) = V p k tile i)
    (h1 : base ≤ a) (h2 : a < base + n * 64 * T * 8 * 2) : m.read a = image base (spectrumValue T V) a := by
  refine Memory.read_of_halves (fun e he => ?_) h1 h2
  obtain ⟨p, k, tile, i, hp, hk, ht, hi, rfl⟩ := exists_tiIndex he
  rw [hmap p hp k hk tile ht i hi, spectrumValue_tiIndex hk ht hi]

theorem Memory.read_of_bank {inCh : Nat} {F : FilterBank}
    (hmap : ∀ q, q < n → ∀ k, k < 64 → ∀ p, p < inCh / 8 → ∀ i, i < 8 → ∀ j, j < 8 →
      m.half base (tfIndex inCh q k p i j) = F q k p i j)
    (h1 : base ≤ a) (h2 : a < base + n * 64 * (inCh / 8) * 8 * 8 * 2) :
    m.read a = image base (bankValue (inCh / 8) F) a := by
  refine Memory.read_of_halves (fun e he => ?_) h1 h2
  obtain ⟨q, k, p, i, j, hq, hk, hp, hi, hj, rfl⟩ := exists_tfIndex he
  rw [hmap q hq k hk p hp i hi j hj, bankValue_tfIndex hk hp hi hj]

end

/-! ## The result of a command -/

/-- Element `e` of the destination of a ready command, from its operands and the memory it was issued on. -/
def Params.result (P : Params) (cfg : Config) (m : Memory) : Instr → Nat → Half
  | .tfilt     => bankValue (P.inCh / 8) (m.transformedFilter cfg P P.srcBase.toNat)
  | .pad       => fmValue P.padW P.padH (padded P (m.featureMap P.srcBase.toNat P.inW P.inH))
  | .xin       => spectrumValue P.tiles
      (transformedInput cfg.nanBits P (m.featureMap P.srcBase.toNat P.padW P.padH))
  | .contract  => spectrumValue P.tiles (contracted cfg.nanBits P (m.filterBank P.filtBase.toNat P.inCh)
      (m.inputSpectrum P.srcBase.toNat P.tiles))
  | .xout      => fmValue P.outWp P.outHp (transformedOutput cfg P (m.outputSpectrum P.srcBase.toNat P.tiles) noBias)
  | .xoutB     => fmValue P.outWp P.outHp (transformedOutput cfg P (m.outputSpectrum P.srcBase.toNat P.tiles)
      (m.biasVector P.biasBase.toNat))
  | .crop      => fmValue P.outW P.outH (m.featureMap P.srcBase.toNat P.outWp P.outHp)
  | .convolve  => fmValue P.outW P.outH (pipeline cfg P (m.featureMap P.srcBase.toNat P.inW P.inH)
      (m.filterBank P.filtBase.toNat P.inCh) noBias)
  | .convolveB => fmValue P.outW P.outH (pipeline cfg P (m.featureMap P.srcBase.toNat P.inW P.inH)
      (m.filterBank P.filtBase.toNat P.inCh) (m.biasVector P.biasBase.toNat))

/-- Command `i`, issued in `s`, has left its result in the destination, and nothing else outside its scratch. -/
structure LeavesResult (i : Instr) (s t : State) : Prop where
  completed : Completed i .none s t
  kept      : memoryKept ((commandOf i).written s.params) s t
  result    : ∀ r ∈ (commandOf i).destination s.params, ∀ a, r.base ≤ a → a < r.base + r.size →
    t.mem.read a = image r.base (s.params.result s.cfg s.mem i) a

/-- The nine results, byte by byte. -/
theorem exec_leavesResult {i : Instr} {s : State} (h : s.Ready i) : ∃ t, exec i s = .next t ∧ LeavesResult i s t := by
  have hc := Command.checked h.accepted
  have hin : ParamReg.inChannels ∈ (commandOf i).uses → s.params.inCh % 8 = 0 := fun h => (hc.inCh h).1
  have hout : ParamReg.outChannels ∈ (commandOf i).uses → s.params.outCh % 8 = 0 := fun h => (hc.outCh h).1
  cases i with
  | tfilt =>
    obtain ⟨t, hexec, hdone, hmap, hkept, -⟩ := tfiltResult s h
    exact ⟨t, hexec, hdone, hkept, List.forall_mem_singleton.mpr fun a h1 h2 =>
      Memory.read_of_bank hmap h1 (Params.tfB_eq (hin (by decide)) (hout (by decide)) ▸ h2)⟩
  | pad =>
    obtain ⟨t, hexec, hdone, hmap, hkept, -⟩ := padResult s h
    exact ⟨t, hexec, hdone, hkept, List.forall_mem_singleton.mpr fun a h1 h2 =>
      Memory.read_of_map hmap h1 (Params.padB_eq (hin (by decide)) ▸ h2)⟩
  | xin =>
    obtain ⟨t, hexec, hdone, hmap, hkept, -⟩ := xinResult s h
    exact ⟨t, hexec, hdone, hkept, List.forall_mem_singleton.mpr fun a h1 h2 =>
      Memory.read_of_spectrum hmap h1 (Params.tiB_eq (hin (by decide)) ▸ h2)⟩
  | contract =>
    obtain ⟨t, hexec, hdone, hmap, hkept, -⟩ := contractResult s h
    exact ⟨t, hexec, hdone, hkept, List.forall_mem_singleton.mpr fun a h1 h2 =>
      Memory.read_of_spectrum hmap h1 (Params.toB_eq (hout (by decide)) ▸ h2)⟩
  | xout =>
    obtain ⟨t, hexec, hdone, hmap, hkept, -⟩ := xoutResult s h
    exact ⟨t, hexec, hdone, hkept, List.forall_mem_singleton.mpr fun a h1 h2 =>
      Memory.read_of_map hmap h1 (Params.opB_eq (hout (by decide)) ▸ h2)⟩
  | xoutB =>
    obtain ⟨t, hexec, hdone, hmap, hkept, -⟩ := xoutBiasResult s h
    exact ⟨t, hexec, hdone, hkept, List.forall_mem_singleton.mpr fun a h1 h2 =>
      Memory.read_of_map hmap h1 (Params.opB_eq (hout (by decide)) ▸ h2)⟩
  | crop =>
    obtain ⟨t, hexec, hdone, hmap, hkept, -⟩ := cropResult s h
    exact ⟨t, hexec, hdone, hkept, List.forall_mem_singleton.mpr fun a h1 h2 =>
      Memory.read_of_map hmap h1 (Params.outB_eq (hout (by decide)) ▸ h2)⟩
  | convolve =>
    obtain ⟨t, hexec, hdone, hmap, hkept, -⟩ := convolveResult s h
    exact ⟨t, hexec, hdone, hkept, List.forall_mem_singleton.mpr fun a h1 h2 =>
      Memory.read_of_map hmap h1 (Params.outB_eq (hout (by decide)) ▸ h2)⟩
  | convolveB =>
    obtain ⟨t, hexec, hdone, hmap, hkept, -⟩ := convolveBiasResult s h
    exact ⟨t, hexec, hdone, hkept, List.forall_mem_singleton.mpr fun a h1 h2 =>
      Memory.read_of_map hmap h1 (Params.outB_eq (hout (by decide)) ▸ h2)⟩

/-! ## `NWORK` -/

/-- The operands with another number of workers asked for. -/
def Params.withNWork (P : Params) (n : Word) : Params := { P with nWork := n }

section
variable {P : Params} {n : Word} (i : Instr)

theorem Command.regions_withNWork : (commandOf i).regions (P.withNWork n) = (commandOf i).regions P := by
  cases i <;> rfl

theorem Command.need_withNWork : (commandOf i).need (P.withNWork n) = (commandOf i).need P := by
  cases i <;> rfl

theorem accessed_withNWork : accessed i (P.withNWork n) = accessed i P := by
  cases i <;> rfl

theorem Params.result_withNWork (cfg : Config) (m : Memory) : (P.withNWork n).result cfg m i = P.result cfg m i := by
  cases i <;> rfl

theorem Command.destination_withNWork : (commandOf i).destination (P.withNWork n) = (commandOf i).destination P := by
  rw [Command.destination, Command.destination, Command.regions_withNWork]

theorem Command.written_withNWork : (commandOf i).written (P.withNWork n) = (commandOf i).written P := by
  rw [Command.written, Command.written, Command.destination_withNWork, Command.scratchUse, Command.scratchUse,
    Command.need_withNWork]
  rfl

/-- Whether a register is legal depends on `NWORK` only for `NWORK` itself. -/
theorem Params.illegal_withNWork (hP : P.illegal .nWork = false) (hn : 0 < n.toNat ∧ n.toNat ≤ 65535) :
    (P.withNWork n).illegal = P.illegal := by
  funext r
  cases r with
  | nWork => exact ((Params.dim_legal (P := P.withNWork n) (r := .nWork) (by decide)).mpr hn).trans hP.symm
  | _ => rfl

/-- One legal `NWORK` is as good for the checks as another. -/
theorem Command.verdict_withNWork (hP : P.illegal .nWork = false) (hn : 0 < n.toNat ∧ n.toNat ≤ 65535) :
    (commandOf i).verdict (P.withNWork n) = (commandOf i).verdict P := by
  unfold Command.verdict Command.precondFails
  rw [Params.illegal_withNWork hP hn, Command.regions_withNWork, Command.need_withNWork]
  rfl

end

/-! ## Two runs of one command -/

/-- The status bits after a completion depend on `OVR` and the code only. -/
theorem Completed.status {i : Instr} {e : ErrCode} {s t : State} (h : Completed i e s t) :
    t.status = s.status.accepted.completed e :=
  calc t.status
    _ = ⟨t.status.busy, t.status.done, t.status.error, t.status.ovr⟩ := rfl
    _ = s.status.accepted.completed e := by rw [h.busy, h.done, h.error, h.ovr]; rfl

/-- The same state with other workers, another schedule and another `NWORK`. -/
def State.rescheduled (s : State) (workers : List Worker) (sched : List Turn) (n : Word) : State :=
  { s with workers := workers, sched := sched, params := s.params.withNWork n }

theorem State.Ready.rescheduled {i : Instr} {s : State} {workers : List Worker} {sched : List Turn} {n : Word}
    (h : s.Ready i) (hv : (commandOf i).verdict (s.params.withNWork n) = .none) :
    (s.rescheduled workers sched n).Ready i where
  idle := h.idle
  waits := h.waits
  accepted := hv
  backed a ha := h.backed a (accessed_withNWork i ▸ ha)
  canonical := h.canonical

/-- The results of the two runs agree outside the scratch: in the destination they are `Params.result`, elsewhere
memory is as it was. -/
theorem LeavesResult.rescheduled {i : Instr} {s t u : State} {workers : List Worker} {sched : List Turn} {n : Word}
    (ht : LeavesResult i s t) (hu : LeavesResult i (s.rescheduled workers sched n) u) :
    memoryKept ((commandOf i).scratchUse s.params) t u := by
  have hkept : memoryKept ((commandOf i).written s.params) s u := Command.written_withNWork i ▸ hu.kept
  have hresult : ∀ r ∈ (commandOf i).destination s.params, ∀ a, r.base ≤ a → a < r.base + r.size →
      u.mem.read a = image r.base (s.params.result s.cfg s.mem i) a := fun r hr a h1 h2 =>
    (hu.result r ((Command.destination_withNWork i).symm ▸ hr) a h1 h2).trans
      (congrArg (image r.base · a) (Params.result_withNWork i s.cfg s.mem))
  intro a ha
  by_cases hdest : inRegions ((commandOf i).destination s.params) a
  · obtain ⟨r, hr, hholds⟩ := hdest
    obtain ⟨h1, h2⟩ := Region.holds_iff.mp hholds
    rw [hresult r hr a h1 h2, ht.result r hr a h1 h2]
  · have hout : ∀ r ∈ (commandOf i).written s.params, r.holds a = false :=
      List.forall_mem_append.mpr ⟨not_inRegions.mp hdest, ha⟩
    rw [hkept a hout, ht.kept a hout]

/-- Settles O22: either the checks refuse the command alike, or both runs leave the result. -/
theorem scheduleIndependence : Obligations.ScheduleIndependence := by
  intro i s workers sched n hidle hwaits hwf hbacked hlegal hn
  have hv : (commandOf i).verdict (s.params.withNWork n) = (commandOf i).verdict s.params :=
    Command.verdict_withNWork i hlegal hn
  by_cases haccepted : (commandOf i).verdict s.params = .none
  · have hready : s.Ready i := ⟨hidle, hwaits, haccepted, hbacked, hwf⟩
    obtain ⟨t, hexec, ht⟩ := exec_leavesResult hready
    obtain ⟨u, hexec', hu⟩ := exec_leavesResult
      (hready.rescheduled (workers := workers) (sched := sched) (hv.trans haccepted))
    exact ⟨t, u, hexec, hexec', hu.completed.err.trans ht.completed.err.symm,
      hu.completed.status.trans ht.completed.status.symm, ht.rescheduled hu⟩
  · refine ⟨_, _, exec_refused hidle hwaits haccepted,
      exec_refused (s := s.rescheduled workers sched n) hidle hwaits (hv ▸ haccepted), hv, ?_, fun _ _ => rfl⟩
    exact congrArg (fun e => s.status.accepted.completed e) hv

end Sys2Proof.Machine
end

section
/-! PROOFS. The reset input (`spec/70_reset_and_hazards.md` R280, R281): its registers are those of the reset state
whatever it finds, and its memory is that of the command it abandons. Settles O7. -/

namespace Sys2Proof.Machine

/-- The registers after the reset input do not depend on the state it finds. -/
theorem State.readReg_resetInput (s : State) (n : Nat) : s.resetInput.readReg n = State.reset.readReg n := by
  unfold State.readReg
  cases regAt n <;> rfl

@[simp] theorem State.irq_resetInput (s : State) : s.resetInput.irq = false := rfl
@[simp] theorem State.pending_resetInput (s : State) : s.resetInput.pending = [] := rfl
@[simp] theorem State.mem_resetInput (s : State) : s.resetInput.mem = s.abandon.mem := rfl

/-- The reset input leaves alone what belongs to the platform and the host: of these fields `State.abandon` changes
none. -/
theorem State.resetInput_kept {s : State} (hwf : s.mem.wf = true) :
    s.resetInput.host = s.host ∧ s.resetInput.cfg = s.cfg := by
  obtain ⟨-, -, -, hfields⟩ := State.abandon_spec hwf
  rw [State.resetInput, State.resetRegisters_host, State.resetRegisters_cfg, hfields]
  exact ⟨rfl, rfl⟩

theorem step_reset {s : State} {lead : Option Nat} {es : List HostEvent} (h : s.host = ⟨lead, .reset⟩ :: es) :
    step s = .next { s with host := es }.resetInput := step_host h

/-- Settles O7: registers by `State.readReg_reset`, memory by `State.abandon_spec`. -/
theorem resetInput : Obligations.ResetInput := by
  intro s lead es hinv hhost
  obtain ⟨-, hidle, hwritten, -⟩ := State.abandon_spec (s := { s with host := es }) hinv.canonical
  obtain ⟨hes, hcfg⟩ := State.resetInput_kept (s := { s with host := es }) hinv.canonical
  refine ⟨_, step_reset hhost, hes, fun n => ?_, State.irq_resetInput _, State.pending_resetInput _, hcfg,
    fun hb => ?_, hwritten⟩
  · rw [State.readReg_resetInput, State.readReg_reset]
  · rw [State.mem_resetInput, hidle hb]

end Sys2Proof.Machine
end
